-- ==== Sys2Proof/Word.lean ====
section
/-! DEFINITION. The word types of the KW-340's frames and registers (11.6: codes one byte, tags and
speeds two, station times four). -/

namespace Sys2Proof

/-- One byte of a frame, a code or a serial. -/
abbrev Byte := BitVec 8

/-- A two-byte field: a tag, a speed, a digest, an event parameter. -/
abbrev Half := BitVec 16

/-- A station time (R57): 32 bits, wrapping. -/
abbrev Stamp := BitVec 32

end Sys2Proof
end

