-- ==== Sys2Proof/Config.lean ====
section
/-! DEFINITION. The free values: what the spec leaves open and a run of the model may not choose. Each is
a constant without a body, so no proof can rest on a value of it. -/

namespace Sys2Proof

/-- The levels of the vane lines VANE3 to VANE0 at a monotonic time, read by a window close that the
model's own tick brings about (log entry 8; DESIGN CHOICE, safe: every reading is allowed). -/
opaque Config.vaneLines : Nat → BitVec 4

/-- Which of several timers falling due in the same millisecond is taken next: the argument is the
monotonic time and how many are still to be taken (log entry 2; R46, R63, R85, R92, R95 and R96 allow
either order; safe). -/
opaque Config.nextTimer : Nat → Nat → Nat

/-- The mean load of no counted drive at a monotonic time, on which R119 is silent and which R120 does not read
(log entry 46; DESIGN CHOICE, safe: every value is allowed). -/
opaque Config.meanOfNone : Nat → Int

/-- The highest speed reference of no listed drive at a monotonic time, on which R94 is silent and which shows in
the limit of the start's log entry alone (log entry 50; DESIGN CHOICE, safe: every value is allowed). -/
opaque Config.referenceOfNone : Nat → Nat

end Sys2Proof
end

