-- ==== Sys2Proof/Syntax.lean ====
section
/-! DEFINITION. The commands of the block: one constructor of Instr for each row of
spec/opcode_table.json, with the contents the spec gives the event as operands (log entry 5). -/

namespace Sys2Proof

/-- The levels of the strap lines as the loader reads them at the start of LOADING (R192). -/
structure StrapLines where
  /-- STN4 to STN0. -/
  stn : BitVec 5
  /-- ROLE2 to ROLE0. -/
  role : BitVec 3
  deriving DecidableEq, Repr

/-- The ten telegram kinds (R26, section 2.2). -/
inductive Kind where
  | hold | release | motion | passage | bay | wind | order | service | presence | mark
  deriving DecidableEq, Repr

/-- The five hold kinds (R74). -/
inductive HoldKind where
  | storm | wind | bay | desk | link
  deriving DecidableEq, Repr

/-- HOLD payload (11.6.2), the codes as sent. -/
structure HoldPayload where
  kind : Byte
  effect : Byte
  cause : Byte
  declaredAt : Stamp
  deriving DecidableEq, Repr

/-- RELEASE payload (11.6.2). -/
structure ReleasePayload where
  kind : Byte
  declarer : Byte
  reason : Byte
  deriving DecidableEq, Repr

/-- MOTION payload (R123, 11.6.2). -/
structure MotionPayload where
  state : Byte
  reference : Half
  measured : Half
  load : Half
  command : Half
  flags : Byte
  deriving DecidableEq, Repr

/-- PASSAGE payload (R161, R176, 11.6.2); riders FFH is absent. -/
structure PassagePayload where
  serial : Byte
  cabin : Byte
  result : Byte
  riders : Byte
  tags : List Half
  deriving DecidableEq, Repr

/-- BAY payload (R160, R175, 11.6.2); an absent cabin or rider count is FFH, summary cabin 0 is none. -/
structure BayPayload where
  kind : Byte
  doors : Byte
  cabin : Byte
  flags : Byte
  queueLen : Byte
  idle : Half
  sumSerial : Byte
  sumCabin : Byte
  sumResult : Byte
  sumRiders : Byte
  deriving DecidableEq, Repr

/-- WIND payload (R18, 11.6.2). -/
structure WindPayload where
  level : Byte
  v : Half
  a : Half
  t : Half
  sector : Byte
  faults : Byte
  deriving DecidableEq, Repr

/-- ORDER payload (R104, 11.6.2). -/
structure OrderPayload where
  mode : Byte
  serial : Byte
  deriving DecidableEq, Repr

/-- SERVICE payload (R136, 11.6.2): mark of cabin c at bit c - 1. -/
structure ServicePayload where
  marks : BitVec 64
  serial : Byte
  deriving DecidableEq, Repr

/-- PRESENCE payload (R47, 11.6.2). -/
structure PresencePayload where
  role : Byte
  start : Byte
  flags : Byte
  digest : Half
  deriving DecidableEq, Repr

/-- MARK payload (R58, 11.6.2). -/
structure MarkPayload where
  time : Stamp
  deriving DecidableEq, Repr

/-- The content of a telegram, by kind. -/
inductive Payload where
  | hold (p : HoldPayload)
  | release (p : ReleasePayload)
  | motion (p : MotionPayload)
  | passage (p : PassagePayload)
  | bay (p : BayPayload)
  | wind (p : WindPayload)
  | order (p : OrderPayload)
  | service (p : ServicePayload)
  | presence (p : PresencePayload)
  | mark (p : MarkPayload)
  deriving DecidableEq, Repr

/-- A telegram (R26): its class and its payload length follow from the payload. -/
structure Telegram where
  sender : BitVec 5
  seq : Byte
  payload : Payload
  deriving DecidableEq, Repr

/-- A host request that can be carried out (section 11.2), RESTART apart (R194). -/
inductive Request where
  | unknown (code : Byte)
  | status
  | readPeer (station : Byte)
  | takePeerFault (station : Byte)
  | readWind (selector : Byte)
  | readHolds (start : Byte)
  | readCabin (cabin : Byte)
  | readLog (position count : Byte)
  | takeEvent
  | submitParty (tag : Half) (size need : Byte)
  | withdrawParty (tag : Half)
  | reportCount (riders : Byte)
  | closeDoors
  | declareHold (effect cause : Byte)
  | releaseHold (kind declarer : Byte)
  | orderRide (mode : Byte)
  | setService (cabin state : Byte)
  deriving DecidableEq, Repr

/-- The commands: the rows of spec/opcode_table.json in the table's order. `num` is the request number
of a PUT (R189); `vane` the levels of VANE3 to VANE0 at a close (R2). -/
inductive Instr where
  | powerOn (lines : StrapLines)
  | resetAsserted
  | resetReleased (lines : StrapLines)
  | sheetReadComplete (image : Option (List Byte))
  | joiningEnd
  | settlingEnd
  | restartedFlagClear
  | cupPulse (ch : Fin 4)
  | windowClose (vane : BitVec 4)
  | warmUpEnd (vane : BitVec 4)
  | levelDwellExpiry (vane : BitVec 4)
  | stuckEntry (ch : Fin 4) (vane : BitVec 4)
  | stuckRecovery (ch : Fin 4) (vane : BitVec 4)
  | windReportPeriod (vane : BitVec 4)
  | transmissionStart
  | arbitrationLost
  | transmissionComplete (intact : Bool)
  | lineDominantTimeout
  | telegramCheckFailed (frame : List Byte)
  | holdReceived (sender : BitVec 5) (seq : Byte) (p : HoldPayload)
  | releaseReceived (sender : BitVec 5) (seq : Byte) (p : ReleasePayload)
  | motionReceived (sender : BitVec 5) (seq : Byte) (p : MotionPayload)
  | passageReceived (sender : BitVec 5) (seq : Byte) (p : PassagePayload)
  | bayReceived (sender : BitVec 5) (seq : Byte) (p : BayPayload)
  | windReceived (sender : BitVec 5) (seq : Byte) (p : WindPayload)
  | orderReceived (sender : BitVec 5) (seq : Byte) (p : OrderPayload)
  | serviceReceived (sender : BitVec 5) (seq : Byte) (p : ServicePayload)
  | presenceReceived (sender : BitVec 5) (seq : Byte) (p : PresencePayload)
  | markReceived (sender : BitVec 5) (seq : Byte) (p : MarkPayload)
  | presencePeriod
  | markPeriod
  | peerStaleExpiry (station : Fin 24)
  | peerAbsentExpiry (station : Fin 24)
  | motionPartAgeExpiry (station : Fin 24)
  | bayPartAgeExpiry (station : Fin 24)
  | driveRestartExpiry
  | windRecordExpiry (slot : Fin 4)
  | holdRefreshPeriod (kind : HoldKind)
  | lapseCheck
  | stopIn
  | linkReleaseDwellExpiry
  | ackWindowExpiry
  | brakedLimitExpiry
  | holdLampFlash
  | motionUpdate
  | inverterAnswer (frame : List Byte)
  | inverterFault
  | inverterFaultClear
  | stillCountComplete
  | brakeFbChange (released : Bool)
  | brakeFault
  | emptydownTimeout
  | orderPeriod
  | servicePeriod
  | tagPoll
  | tagAnswer (frame : List Byte)
  | arrive
  | align
  | closeMark
  | departLimit
  | gateClear (clear : Bool)
  | doorLocked (locked : Bool)
  | bayReportPeriod
  | exitArrive (empty : Bool)
  | exitAlign
  | exitCloseMark (empty : Bool)
  | exitDepartLimit (empty : Bool)
  | get (complete : Bool)
  | putUnknownRequest (code num length : Byte)
  | putIncomplete
  | status (num : Byte)
  | readPeer (num station : Byte)
  | takePeerFault (num station : Byte)
  | readWind (num selector : Byte)
  | readHolds (num start : Byte)
  | readCabin (num cabin : Byte)
  | readLog (num position count : Byte)
  | takeEvent (num : Byte)
  | submitParty (num : Byte) (tag : Half) (size need : Byte)
  | withdrawParty (num : Byte) (tag : Half)
  | reportCount (num riders : Byte)
  | closeDoors (num : Byte)
  | declareHold (num effect cause : Byte)
  | releaseHold (num kind declarer : Byte)
  | orderRide (num mode : Byte)
  | setService (num cabin state : Byte)
  | restart (num : Byte) (lines : StrapLines)
  deriving DecidableEq, Repr

end Sys2Proof
end

