-- ==== Sys2Proof/Decode.lean ====
section
/-! DEFINITION. The commands that a word spells by the bits of spec/opcode_table.json. The table gives no
row any bits, so no word spells a command (log entry 5). -/

namespace Sys2Proof

/-- The command of a word by the table's bits: none, for every word. -/
def decodeTableWord (_nbits _w : Nat) : Option Instr := none

end Sys2Proof
end

