-- ==== Sys2Proof/Machine/State.lean ====
section
/-! DEFINITION. What the KW-340 holds, block by block (00_scope.md section 3), as plain data, and the
machine right after power-on (R194, R188). Counts, speeds and times are numbers; what is sent or wraps
as a word is a bit vector. -/

namespace Sys2Proof.Machine

/-! ### Names -/

/-- Roster roles (00_scope.md section 2); `unfitted` is NONE. -/
inductive Role where
  | drive | mast | entry | exit | desk | unfitted
  deriving DecidableEq, Repr

/-- Start states (R193). -/
inductive StartState where
  | loading | sheetFault | joining | running | listenOnly
  deriving DecidableEq, Repr

/-- Peer record states (R43). -/
inductive PeerState where
  | absent | fresh | stale | foreign
  deriving DecidableEq, Repr

/-- Hold effects in order (R74). -/
inductive Effect where
  | none | close | empty | halt | stop
  deriving DecidableEq, Repr

/-- Hold causes in code order (R74). -/
inductive Cause where
  | level | doorUnlocked | gate | overload | carriedRound | button | host | noWind | drivesLow
  | baySilent | driveRestart
  deriving DecidableEq, Repr

/-- Hold record states (R76). -/
inductive HoldState where
  | active | orphaned
  deriving DecidableEq, Repr

/-- Wind levels in code order (R67). -/
inductive WindLevel where
  | calm | breeze | gusty | hold | storm | blind
  deriving DecidableEq, Repr

/-- Ride order modes (R103), slowest first. -/
inductive OrderMode where
  | halt | creep | slow | run
  deriving DecidableEq, Repr

/-- Motion states in code order (R123). -/
inductive MotionState where
  | braked | starting | driving | stopping | settling | dragStop | fault
  deriving DecidableEq, Repr

/-- Empty-down states (R121). -/
inductive EmptyState where
  | idle | emptying | done
  deriving DecidableEq, Repr

/-- Cabin classes in code order (R127). -/
inductive CabinClass where
  | standard | stepFree | priv
  deriving DecidableEq, Repr

/-- Cabin states in code order (R127, 11.6.5). -/
inductive CabinState where
  | empty | boarded | heldOver | unknown
  deriving DecidableEq, Repr

/-- The two bays (R127). -/
inductive BayId where
  | entry | exit
  deriving DecidableEq, Repr

/-- Passage results in code order (R161). -/
inductive PassResult where
  | cleared | heldOver | passedEmpty | loadedFound | boarded | passed
  deriving DecidableEq, Repr

/-- What kind of cabin a party needs, in code order (R144). -/
inductive Need where
  | any | stepFree | priv
  deriving DecidableEq, Repr

/-- Door window states (section 8.4). -/
inductive WindowState where
  | idle | arriving | opened | closing
  deriving DecidableEq, Repr

/-- Channel fault states (R3). -/
inductive ChannelState where
  | working | stuck
  deriving DecidableEq, Repr

/-- The cases of the hold lamp (R99). -/
inductive LampMode where
  | off | steady | flashing
  deriving DecidableEq, Repr

/-- Outcomes of a log entry (R179). -/
inductive LogOutcome where
  | accepted | ignored | refused | localAction
  deriving DecidableEq, Repr

/-- Kinds of a log entry (R179): a telegram kind or the block of a local action. -/
inductive LogKind where
  | telegram (k : Kind)
  | lc | pv | wmu | wv | hu | mu | ct | bu | sl
  deriving DecidableEq, Repr

/-- Event codes 1 to 32 in code order (R184). -/
inductive EventCode where
  | holdOn | holdOff | holdLapsed | holdOrphaned | holdDropped | effectChange | windLevel
  | channelFault | partyWanted | partyBoarded | partyCancelled | partyWithdrawn | passage
  | cabinDoubt | tagUnread | loadedFound | driveUnanswered | haltWatchDone | emptydownDone
  | emptydownTimeout | orderIgnored | inverterFault | brakeFault | peerRefused | peerState
  | peerRestarted | dupStation | lineFault | txOverflow | logHalf | logWrap | restarted
  deriving DecidableEq, Repr

/-! ### Clocks, pins, log unit -/

/-- The two clocks (R56, R57). -/
structure Clock where
  now : Nat
  station : Stamp
  deriving DecidableEq, Repr

/-- Levels of the input pins that the model holds between rows (log entry 6). -/
structure Pins where
  brakeReleased : Bool
  gateClear : Bool
  doorLocked : Bool
  deriving DecidableEq, Repr

/-- A chronology log entry (R179). -/
structure LogEntry where
  position : Nat
  time : Stamp
  source : Nat
  kind : LogKind
  outcome : LogOutcome
  summary : List Byte
  deriving DecidableEq, Repr

/-- An event queue entry (R184). -/
structure EventEntry where
  code : EventCode
  param : Half
  time : Stamp
  deriving DecidableEq, Repr

/-- LU: chronology log and event queue (chapter 10). -/
structure LogUnit where
  ring : List (Option LogEntry)
  writePos : Nat
  queue : List EventEntry
  overrun : Bool
  lost : Nat
  deriving DecidableEq, Repr

/-! ### Link controller -/

/-- A waiting telegram with its entry number (R30); `refresh` marks a HOLD refresh. -/
structure QEntry where
  no : Nat
  payload : Payload
  refresh : Bool
  deriving DecidableEq, Repr

/-- A transmission in progress: the entry it is of and the telegram as sent (R25, R29). -/
structure Sending where
  no : Nat
  telegram : Telegram
  deriving DecidableEq, Repr

/-- LC (chapter 2). -/
structure Link where
  queue : List QEntry
  nextEntry : Nat
  nextSeq : Byte
  sending : Option Sending
  echoDue : Option Telegram
  rxErrors : Nat
  echoFails : Nat
  lineFault : Bool
  duplicate : Bool
  deriving DecidableEq, Repr

/-! ### Peer view -/

/-- The heard part of a peer record (R43), the codes as heard. -/
structure Heard where
  role : Byte
  start : Byte
  timeSource : Bool
  deriving DecidableEq, Repr

/-- A peer's fault record (R54). -/
structure FaultRecord where
  kind : Kind
  byMask : Bool
  time : Stamp
  later : Nat
  deriving DecidableEq, Repr

/-- A peer record (R43); the parts carry their monotonic receipt time. -/
structure Peer where
  role : Role
  state : PeerState
  lastHeard : Nat
  heard : Option Heard
  lastSeq : Byte
  gaps : Nat
  restartedSeen : Bool
  unanswered : Nat
  fault : Option FaultRecord
  motion : Option (MotionPayload × Nat)
  bay : Option (BayPayload × Nat)
  deriving DecidableEq, Repr

/-- A record at its reset values, but for the roster role (R60). -/
def Peer.blank (r : Role) : Peer :=
  { role := r, state := .absent, lastHeard := 0, heard := none, lastSeq := 0, gaps := 0,
    restartedSeen := false, unanswered := 0, fault := none, motion := none, bay := none }

/-- PV (chapter 3). -/
structure PeerView where
  table : List Peer
  presenceAt : Nat
  markAt : Nat
  restartedFlag : Bool
  deriving DecidableEq, Repr

/-! ### Wind measurement unit and wind view -/

/-- A channel record (R3), the sheet's settings apart. -/
structure Channel where
  counter : Nat
  p : Nat
  sample : Nat
  ring : List Nat
  ringSum : Nat
  gust : Nat
  m16 : Nat
  meanStarted : Bool
  mean : Nat
  state : ChannelState
  zeroTime : Nat
  recovery : Nat
  overrange : Bool
  overrangeMark : Bool
  exposure : Nat
  adjusted : Option Nat
  deriving DecidableEq, Repr

/-- A channel at its reset values (R24). -/
def Channel.reset : Channel :=
  { counter := 0, p := 0, sample := 0, ring := [], ringSum := 0, gust := 0, m16 := 0,
    meanStarted := false, mean := 0, state := .working, zeroTime := 0, recovery := 0,
    overrange := false, overrangeMark := false, exposure := 0, adjusted := some 0 }

/-- WMU (chapter 1). `windows` counts closes up to 12 (R10). -/
structure Wmu where
  channels : List Channel
  windowFrom : Option Nat
  windows : Nat
  sector : Nat
  a : Nat
  t : Nat
  v : Nat
  level : WindLevel
  blind : Bool
  dwell : Nat
  reportAt : Nat
  changeAt : Nat
  deriving DecidableEq, Repr

/-- A wind record (R61); the level is kept decoded beside the report as received. -/
structure WindRec where
  station : Nat
  report : Option (WindLevel × WindPayload)
  receipt : Nat
  seq : Byte
  fresh : Bool
  deriving DecidableEq, Repr

/-- WV (chapter 4). -/
structure WindView where
  records : List WindRec
  fused : WindLevel
  freshCount : Nat
  degraded : Bool
  deriving DecidableEq, Repr

/-! ### Hold unit -/

/-- A hold record (R76). -/
structure HoldRec where
  kind : HoldKind
  declarer : Nat
  effect : Effect
  cause : Cause
  declaredAt : Stamp
  refreshed : Nat
  state : HoldState
  deriving DecidableEq, Repr

/-- An own-hold list entry (R78); `sentAt` is the time of the last hand-over queued for it (R79). -/
structure OwnHold where
  kind : HoldKind
  effect : Effect
  cause : Cause
  declaredAt : Stamp
  sentAt : Nat
  deriving DecidableEq, Repr

/-- One mark per LINK condition (R90): that it holds, or that it is overridden (R93). -/
structure LinkFlags where
  noWind : Bool
  drivesLow : Bool
  baySilent : Bool
  driveRestart : Bool
  button : Bool
  deriving DecidableEq, Repr

/-- A running halt watch (R94 to R97); `ackUntil` is absent once the ack window has run out. -/
structure Watch where
  list : List Nat
  acked : List Nat
  braked : List Nat
  startAt : Nat
  limit : Nat
  ackUntil : Option Nat
  counted : List Nat
  deriving DecidableEq, Repr

/-- HU (chapter 5). -/
structure HoldUnit where
  records : List HoldRec
  effect : Effect
  own : List OwnHold
  cond : LinkFlags
  overridden : LinkFlags
  driveRestartAt : Nat
  dwellFrom : Option Nat
  watch : Option Watch
  lapseAt : Nat
  lampMode : LampMode
  lampLit : Bool
  lampAt : Nat
  deriving DecidableEq, Repr

/-! ### Motion unit -/

/-- MU (chapter 6). -/
structure MotionUnit where
  mode : OrderMode
  serials : List (Option Byte)
  deskMode : OrderMode
  deskSerial : Byte
  orderAt : Nat
  emptyState : EmptyState
  emptyAt : Nat
  motion : MotionState
  invCause : Bool
  brakeCause : Bool
  listenCause : Bool
  target : Nat
  reference : Nat
  trim : Int
  command : Nat
  counted : Nat
  mean : Int
  load : Int
  measured : Nat
  missed : Nat
  still : Nat
  clear : Nat
  frameSeq : Byte
  sentSeq : Option Byte
  answer : Option (List Byte)
  invTx : List Byte
  mismatchFrom : Option Nat
  updateAt : Nat
  deriving DecidableEq, Repr

/-! ### Cabin table -/

/-- The last passage applied to a cabin (R127). -/
structure LastPassage where
  bay : BayId
  serial : Byte
  time : Nat
  deriving DecidableEq, Repr

/-- A cabin record (R127). -/
structure Cabin where
  cls : CabinClass
  capacity : Nat
  outOfService : Bool
  state : CabinState
  riders : Option Nat
  overload : Bool
  tags : List Half
  boardedAt : Option Stamp
  laps : Nat
  last : Option LastPassage
  deriving DecidableEq, Repr

/-- A passage cursor (R128). -/
structure Cursor where
  serial : Option Byte
  cabin : Option Nat
  fromSummary : Bool
  deriving DecidableEq, Repr

/-- The empty cursor (R142); its "applied from" is PASSAGE until a passage or summary is applied (log
entry 29). -/
def Cursor.empty : Cursor := { serial := none, cabin := none, fromSummary := false }

/-- CT (chapter 7). Cabin n stands at place n - 1 of `cabins`. -/
structure CabinTable where
  cabins : List Cabin
  entryCursor : Cursor
  exitCursor : Cursor
  serviceSerials : List (Option Byte)
  occupied : Nat
  deskMarks : BitVec 64
  deskSerial : Byte
  serviceAt : Nat
  deriving DecidableEq, Repr

/-! ### Bay unit -/

/-- A party record (R144). -/
structure Party where
  tag : Half
  size : Nat
  need : Need
  skips : Nat
  locked : Bool
  deriving DecidableEq, Repr

/-- The door window of either bay (R148, R167); `aligned` marks that ALIGN was taken (R151). -/
structure Window where
  state : WindowState
  cabin : Option Nat
  aligned : Bool
  boardable : Bool
  matched : List Party
  remaining : Nat
  grace : Bool
  count : Option Nat
  result : Option PassResult
  contact : Option Bool
  deriving DecidableEq, Repr

/-- The window at its reset values (R165, R178); boardable no and remaining capacity 0 (log entry 29). -/
def Window.idle : Window :=
  { state := .idle, cabin := none, aligned := false, boardable := false, matched := [],
    remaining := 0, grace := false, count := none, result := none, contact := none }

/-- The last passage summary of a BAY report (R160). -/
structure Summary where
  serial : Byte
  cabin : Nat
  result : PassResult
  riders : Option Nat
  deriving DecidableEq, Repr

/-- BU (chapters 8 and 9). -/
structure BayUnit where
  queue : List Party
  window : Window
  serial : Byte
  summary : Option Summary
  creep : Bool
  idleStart : Nat
  tag : Option (Nat × Nat)
  boarding : Bool
  doorsOpen : Bool
  closeDeferred : Bool
  doorRelease : Bool
  gateOpen : Bool
  doorClose : Bool
  boardLamp : Bool
  reportAt : Nat
  pollAt : Nat
  tagTx : List Byte
  deriving DecidableEq, Repr

/-! ### Request port -/

/-- The answer slot's content (R189): whole data, the part that the next GET sends, and whether read. -/
structure Answer where
  code : Byte
  num : Byte
  result : Nat
  data : List Byte
  part : Nat
  read : Bool
  deriving DecidableEq, Repr

/-- RP (chapter 11). `deferred` is a PUT taken in LOADING (R190). -/
structure Port where
  slot : Option Answer
  busy : Bool
  deferred : Option (Byte × Request)
  refused : Nat
  miso : List Byte
  deriving DecidableEq, Repr

/-! ### Station sheet and loader -/

/-- One channel's settings of a mast slot (R23). -/
structure ChannelCfg where
  enabled : Bool
  reference : Bool
  cal : Nat
  weight : Nat
  deriving DecidableEq, Repr

/-- One mast slot's settings (R23). -/
structure SlotCfg where
  channels : List ChannelCfg
  exposure : List Nat
  deriving DecidableEq, Repr

/-- The values of the station sheet (11.6.4). -/
structure Sheet where
  roster : List Role
  timeSource : BitVec 24
  n : Nat
  classes : List CabinClass
  capStandard : Nat
  capStepFree : Nat
  capPrivate : Nat
  initMarks : BitVec 64
  run : Nat
  slow : Nat
  creep : Nat
  aUp : Nat
  aDn : Nat
  aStop : Nat
  g : Nat
  trimLimit : Nat
  minDrives : Nat
  minMasts : Nat
  idleOne : Nat
  idleTwo : Nat
  emptyLimit : Nat
  skipLimit : Nat
  sharing : Bool
  slots : List SlotCfg
  k : Nat
  spread : Nat
  enter : List Nat
  leave : List Nat
  dwell : List Nat
  refuseMask : BitVec 48
  logFilter : BitVec 64
  localMask : BitVec 8
  eventMask : BitVec 32
  deriving DecidableEq, Repr

/-- No sheet taken (log entry 29). -/
def Sheet.blank : Sheet :=
  { roster := [], timeSource := 0, n := 0, classes := [], capStandard := 0, capStepFree := 0,
    capPrivate := 0, initMarks := 0, run := 0, slow := 0, creep := 0, aUp := 0, aDn := 0, aStop := 0,
    g := 0, trimLimit := 0, minDrives := 0, minMasts := 0, idleOne := 0, idleTwo := 0,
    emptyLimit := 0, skipLimit := 0, sharing := false, slots := [], k := 0, spread := 0, enter := [],
    leave := [], dwell := [], refuseMask := 0, logFilter := 0, localMask := 0, eventMask := 0 }

/-- SL (chapter 11): `station` and `roleCode` are the strap readings; `runningAt` is the time settling is
counted from (R91, R193). -/
structure Loader where
  start : StartState
  station : Nat
  roleCode : BitVec 3
  sheet : Sheet
  digest : Half
  joinedAt : Nat
  runningAt : Nat
  settled : Bool
  resetHeld : Bool
  deriving DecidableEq, Repr

/-- The whole station. -/
structure State where
  clock : Clock
  pins : Pins
  lu : LogUnit
  lc : Link
  pv : PeerView
  wmu : Wmu
  wv : WindView
  hu : HoldUnit
  mu : MotionUnit
  ct : CabinTable
  bu : BayUnit
  rp : Port
  sl : Loader
  pending : List Instr
  deriving DecidableEq, Repr

/-- No command stops the block, so there is no fault: every row of the table has an effect in every
state (INVENTORY.md, Faults). -/
inductive Fault where
  deriving DecidableEq, Repr

/-- Why a command may have no meaning. -/
inductive Refusal where
  /-- Raised by an arm of exec for a command not modelled yet; safe. No arm raises it. -/
  | notModelled (mnemonic : String)
  deriving DecidableEq, Repr

/-! ### Reset values -/

/-- Both clocks at a reset (R60). -/
def Clock.reset : Clock := { now := 0, station := 0 }

/-- The start entry of a run (R181): `kind` is 0 for a power-on and 1 for a restart. -/
def startEntry (pos : Nat) (station : Nat) (kind : Byte) : LogEntry :=
  { position := pos, time := 0, source := station, kind := .sl, outcome := .localAction,
    summary := [0, kind] }

/-- The event queue that a reset leaves (R188). -/
def restartedQueue (kind : Half) : List EventEntry :=
  [{ code := .restarted, param := kind, time := 0 }]

/-- LC after either reset (R42). -/
def Link.reset : Link :=
  { queue := [], nextEntry := 1, nextSeq := 0, sending := none, echoDue := none, rxErrors := 0,
    echoFails := 0, lineFault := false, duplicate := false }

/-- PV after either reset (R60). -/
def PeerView.reset : PeerView :=
  { table := List.replicate 24 (Peer.blank .unfitted), presenceAt := 0, markAt := 0,
    restartedFlag := true }

/-- WMU after either reset (R24). -/
def Wmu.reset : Wmu :=
  { channels := List.replicate 4 Channel.reset, windowFrom := none, windows := 0, sector := 0, a := 0,
    t := 0, v := 0, level := .calm, blind := false, dwell := 0, reportAt := 0, changeAt := 0 }

/-- WV after either reset (R73). -/
def WindView.reset : WindView :=
  { records := [], fused := .blind, freshCount := 0, degraded := false }

/-- No condition holds, no mark is set (R102). -/
def LinkFlags.clear : LinkFlags :=
  { noWind := false, drivesLow := false, baySilent := false, driveRestart := false, button := false }

/-- HU after either reset (R102). -/
def HoldUnit.reset : HoldUnit :=
  { records := [], effect := .none, own := [], cond := .clear, overridden := .clear,
    driveRestartAt := 0, dwellFrom := none, watch := none, lapseAt := 0, lampMode := .off,
    lampLit := false, lampAt := 0 }

/-- MU after either reset (R126). -/
def MotionUnit.reset : MotionUnit :=
  { mode := .halt, serials := List.replicate 24 none, deskMode := .halt, deskSerial := 0, orderAt := 0,
    emptyState := .idle, emptyAt := 0, motion := .braked, invCause := false, brakeCause := false,
    listenCause := false, target := 0, reference := 0, trim := 0, command := 0, counted := 0, mean := 0,
    load := 0, measured := 0, missed := 0, still := 0, clear := 0, frameSeq := 0, sentSeq := none,
    answer := none, invTx := [], mismatchFrom := none, updateAt := 0 }

/-- CT after either reset (R142). -/
def CabinTable.reset : CabinTable :=
  { cabins := [], entryCursor := .empty, exitCursor := .empty, serviceSerials := List.replicate 24 none,
    occupied := 0, deskMarks := 0, deskSerial := 0, serviceAt := 0 }

/-- BU after either reset (R165, R178). -/
def BayUnit.reset : BayUnit :=
  { queue := [], window := .idle, serial := 0, summary := none, creep := false, idleStart := 0,
    tag := none, boarding := false, doorsOpen := false, closeDeferred := false, doorRelease := false,
    gateOpen := false, doorClose := false, boardLamp := false, reportAt := 0, pollAt := 0, tagTx := [] }

/-- RP after either reset (R195). -/
def Port.reset : Port :=
  { slot := none, busy := false, deferred := none, refused := 0, miso := [] }

/-- SL at the start of LOADING (R192, R195), with the straps as read. -/
def Loader.reset (lines : StrapLines) (held : Bool) : Loader :=
  { start := .loading, station := lines.stn.toNat, roleCode := lines.role, sheet := .blank, digest := 0,
    joinedAt := 0, runningAt := 0, settled := false, resetHeld := held }

/-- LU after power-on (R188), less the RESTARTED parameter. -/
def LogUnit.powerOn (station : Nat) : LogUnit :=
  { ring := some (startEntry 0 station 0) :: List.replicate 255 none, writePos := 1,
    queue := restartedQueue 0, overrun := false, lost := 0 }

/-- The input pins at power-on (log entry 6). -/
def Pins.reset : Pins := { brakeReleased := false, gateClear := true, doorLocked := true }

/-- The strap lines of State.reset (log entry 7). -/
def resetStraps : StrapLines := { stn := 0, role := 0 }

/-- The machine right after power-on (R194, R188), with no command waiting. -/
def State.reset : State :=
  { clock := .reset, pins := .reset, lu := .powerOn 0, lc := .reset, pv := .reset, wmu := .reset,
    wv := .reset, hu := .reset, mu := .reset, ct := .reset, bu := .reset, rp := .reset,
    sl := .reset resetStraps false, pending := [] }

end Sys2Proof.Machine
end

