-- ==== Sys2Proof/Machine/Operands.lean ====
section
/-! DEFINITION. The codes of the manual (11.6, R67, R74, R123, R161, R184) and the byte forms in which
fields stand in frames, answers and summaries. -/

namespace Sys2Proof.Machine

/-! ### Bytes -/

/-- A one-byte field. -/
def byteOf (n : Nat) : Byte := BitVec.ofNat 8 n

/-- A two-byte field, high byte first (11.6). -/
def be16 (x : Half) : List Byte := [x.extractLsb' 8 8, x.extractLsb' 0 8]

/-- A four-byte field, high byte first (11.6). -/
def be32 (x : Stamp) : List Byte :=
  [x.extractLsb' 24 8, x.extractLsb' 16 8, x.extractLsb' 8 8, x.extractLsb' 0 8]

/-- The eight bytes of cabin marks: bit 0 of the first byte is cabin 1 (11.6.2). -/
def marks64 (x : BitVec 64) : List Byte :=
  [x.extractLsb' 0 8, x.extractLsb' 8 8, x.extractLsb' 16 8, x.extractLsb' 24 8,
   x.extractLsb' 32 8, x.extractLsb' 40 8, x.extractLsb' 48 8, x.extractLsb' 56 8]

/-- A two-byte count or speed. -/
def be16n (n : Nat) : List Byte := be16 (BitVec.ofNat 16 n)

/-- A value above 65,535 is replaced by 65,535. -/
def clamp16 (n : Nat) : Nat := min n 65535

/-- The truth of a mark as a byte. -/
def flagByte (b : Bool) : Byte := if b then 1 else 0

/-- An absent one-byte field (11.6). -/
def absentByte : Byte := 0xFF

/-! ### Codes -/

/-- Telegram kind codes (11.6.1). -/
def kindCode : Kind → Nat
  | .hold => 0 | .release => 1 | .motion => 2 | .passage => 3 | .bay => 4 | .wind => 5
  | .order => 6 | .service => 7 | .presence => 8 | .mark => 9

/-- The priority class of a kind (section 2.2). -/
def kindClass : Kind → Nat
  | .hold => 0 | .release => 0 | .motion => 1 | .passage => 2 | .bay => 2 | .wind => 3
  | .order => 3 | .service => 3 | .presence => 4 | .mark => 4

/-- The kind of a payload. -/
def payloadKind : Payload → Kind
  | .hold _ => .hold | .release _ => .release | .motion _ => .motion | .passage _ => .passage
  | .bay _ => .bay | .wind _ => .wind | .order _ => .order | .service _ => .service
  | .presence _ => .presence | .mark _ => .mark

/-- Hold kind codes (R74). -/
def holdKindCode : HoldKind → Nat
  | .storm => 0 | .wind => 1 | .bay => 2 | .desk => 3 | .link => 4

/-- The hold kind of a code (R74). -/
def holdKindOf : Nat → Option HoldKind
  | 0 => some .storm | 1 => some .wind | 2 => some .bay | 3 => some .desk | 4 => some .link
  | _ => none

/-- Effect codes, which are also the order of severity (R74, 5.3). -/
def effectCode : Effect → Nat
  | .none => 0 | .close => 1 | .empty => 2 | .halt => 3 | .stop => 4

/-- The effect of a code; NONE is carried by no hold (R74). -/
def effectOf : Nat → Option Effect
  | 1 => some .close | 2 => some .empty | 3 => some .halt | 4 => some .stop
  | _ => Option.none

/-- Cause codes (R74). -/
def causeCode : Cause → Nat
  | .level => 0 | .doorUnlocked => 1 | .gate => 2 | .overload => 3 | .carriedRound => 4
  | .button => 5 | .host => 6 | .noWind => 7 | .drivesLow => 8 | .baySilent => 9
  | .driveRestart => 10

/-- The cause of a code (R74). -/
def causeOf : Nat → Option Cause
  | 0 => some .level | 1 => some .doorUnlocked | 2 => some .gate | 3 => some .overload
  | 4 => some .carriedRound | 5 => some .button | 6 => some .host | 7 => some .noWind
  | 8 => some .drivesLow | 9 => some .baySilent | 10 => some .driveRestart
  | _ => none

/-- The rows of the table of R74: which effect each kind and cause may carry. -/
def holdAllowed : HoldKind → Cause → Effect → Bool
  | .storm, .level, .stop => true
  | .wind, .level, .empty => true
  | .bay, .doorUnlocked, .stop => true
  | .bay, .gate, .halt => true
  | .bay, .overload, .halt => true
  | .bay, .carriedRound, .halt => true
  | .bay, .button, .stop => true
  | .bay, .host, .close => true
  | .bay, .host, .halt => true
  | .bay, .host, .stop => true
  | .desk, .button, .stop => true
  | .desk, .host, .close => true
  | .desk, .host, .empty => true
  | .desk, .host, .halt => true
  | .desk, .host, .stop => true
  | .link, .noWind, .empty => true
  | .link, .drivesLow, .halt => true
  | .link, .baySilent, .halt => true
  | .link, .driveRestart, .halt => true
  | .link, .button, .stop => true
  | _, _, _ => false

/-- Wind level codes (R67). -/
def windCode : WindLevel → Nat
  | .calm => 0 | .breeze => 1 | .gusty => 2 | .hold => 3 | .storm => 4 | .blind => 5

/-- The wind level of a code (R62: none beyond the six). -/
def windOf : Nat → Option WindLevel
  | 0 => some .calm | 1 => some .breeze | 2 => some .gusty | 3 => some .hold | 4 => some .storm
  | 5 => some .blind
  | _ => none

/-- Rank of a level in comparisons: BLIND ranks as GUSTY (5.3, R65). -/
def windRank : WindLevel → Nat
  | .calm => 0 | .breeze => 1 | .gusty => 2 | .hold => 3 | .storm => 4 | .blind => 2

/-- Mode codes (R103). -/
def modeCode : OrderMode → Nat
  | .halt => 0 | .creep => 1 | .slow => 2 | .run => 3

/-- The mode of a code (R103). -/
def modeOf : Nat → Option OrderMode
  | 0 => some .halt | 1 => some .creep | 2 => some .slow | 3 => some .run
  | _ => none

/-- Motion state codes (R123). -/
def motionCode : MotionState → Nat
  | .braked => 0 | .starting => 1 | .driving => 2 | .stopping => 3 | .settling => 4
  | .dragStop => 5 | .fault => 6

/-- Role codes (R192, 11.6.4): NONE is 7. -/
def roleCode : Role → Nat
  | .drive => 0 | .mast => 1 | .entry => 2 | .exit => 3 | .desk => 4 | .unfitted => 7

/-- The role of a roster or strap code; every other code is NONE or invalid (R192). -/
def roleOf : Nat → Role
  | 0 => .drive | 1 => .mast | 2 => .entry | 3 => .exit | 4 => .desk | _ => .unfitted

/-- The place of a role in the refuse mask and the log filter (11.6.4): NONE counts as 5. -/
def roleIndex : Role → Nat
  | .drive => 0 | .mast => 1 | .entry => 2 | .exit => 3 | .desk => 4 | .unfitted => 5

/-- Cabin class codes (R127). -/
def classCode : CabinClass → Nat
  | .standard => 0 | .stepFree => 1 | .priv => 2

/-- The cabin class of a code; 3 is none (R141). -/
def classOf : Nat → CabinClass
  | 1 => .stepFree | 2 => .priv | _ => .standard

/-- Cabin state codes (11.6.5). -/
def cabinStateCode : CabinState → Nat
  | .empty => 0 | .boarded => 1 | .heldOver => 2 | .unknown => 3

/-- Result codes (R161). -/
def resultCode : PassResult → Nat
  | .cleared => 0 | .heldOver => 1 | .passedEmpty => 2 | .loadedFound => 3 | .boarded => 4
  | .passed => 5

/-- The result of a code (R161). -/
def resultOf : Nat → Option PassResult
  | 0 => some .cleared | 1 => some .heldOver | 2 => some .passedEmpty | 3 => some .loadedFound
  | 4 => some .boarded | 5 => some .passed
  | _ => none

/-- The need of a code (R144). -/
def needOf : Nat → Option Need
  | 0 => some .any | 1 => some .stepFree | 2 => some .priv
  | _ => none

/-- Bay codes (11.6.5, R160). -/
def bayCode : BayId → Nat
  | .entry => 0 | .exit => 1

/-- Peer state codes (R49). -/
def peerStateCode : PeerState → Nat
  | .absent => 0 | .fresh => 1 | .stale => 2 | .foreign => 3

/-- Start state codes of STATUS (section 11.2), also used in SL summaries, where LOADING is 0
(log entry 15). -/
def startCode : StartState → Bool → Nat
  | .loading, _ => 0
  | .sheetFault, _ => 1
  | .joining, _ => 2
  | .running, settled => if settled then 4 else 3
  | .listenOnly, _ => 5

/-- Event codes 1 to 32 (R184). -/
def eventNo : EventCode → Nat
  | .holdOn => 1 | .holdOff => 2 | .holdLapsed => 3 | .holdOrphaned => 4 | .holdDropped => 5
  | .effectChange => 6 | .windLevel => 7 | .channelFault => 8 | .partyWanted => 9
  | .partyBoarded => 10 | .partyCancelled => 11 | .partyWithdrawn => 12 | .passage => 13
  | .cabinDoubt => 14 | .tagUnread => 15 | .loadedFound => 16 | .driveUnanswered => 17
  | .haltWatchDone => 18 | .emptydownDone => 19 | .emptydownTimeout => 20 | .orderIgnored => 21
  | .inverterFault => 22 | .brakeFault => 23 | .peerRefused => 24 | .peerState => 25
  | .peerRestarted => 26 | .dupStation => 27 | .lineFault => 28 | .txOverflow => 29
  | .logHalf => 30 | .logWrap => 31 | .restarted => 32

/-- The six codes placed whatever the mask says (R184). -/
def unmaskable : EventCode → Bool
  | .holdOn | .holdOff | .holdOrphaned | .effectChange | .dupStation | .brakeFault => true
  | _ => false

/-- Log entry kind codes (11.6.5). -/
def logKindCode : LogKind → Nat
  | .telegram k => kindCode k
  | .lc => 10 | .pv => 11 | .wmu => 12 | .wv => 13 | .hu => 14 | .mu => 15 | .ct => 16 | .bu => 17
  | .sl => 18

/-- The bit of a block in the local-action mask; SL has none (R181, 11.6.4). -/
def localMaskBit : LogKind → Option Nat
  | .lc => some 0 | .pv => some 1 | .wmu => some 2 | .wv => some 3 | .hu => some 4 | .mu => some 5
  | .ct => some 6 | .bu => some 7
  | .sl => none
  | .telegram _ => none

/-- Log outcome codes (11.6.5). -/
def outcomeCode : LogOutcome → Nat
  | .accepted => 0 | .ignored => 1 | .refused => 2 | .localAction => 3

/-- Hold state codes (11.6.5). -/
def holdStateCode : HoldState → Nat
  | .active => 0 | .orphaned => 1

/-- Door window states as they stand in log summaries (log entry 15). -/
def windowCode : WindowState → Nat
  | .idle => 0 | .arriving => 1 | .opened => 2 | .closing => 3

/-! ### Vane and signed fields -/

/-- The sector of a 4-bit Gray code: each bit is the exclusive-or of the bit above and its line (R2). -/
def vaneSector (g : BitVec 4) : Nat :=
  (g ^^^ (g >>> 1) ^^^ (g >>> 2) ^^^ (g >>> 3)).toNat

/-- A signed two-byte field in two's complement (11.6). -/
def signed16 (i : Int) : List Byte := be16 (BitVec.ofInt 16 i)

/-- Clamp of a signed value to a symmetric or other range (5.1). -/
def clampInt (lo hi i : Int) : Int := max lo (min hi i)

/-- The least n with d * n at least a, as ceil(a / d) (R94). -/
def ceilDiv (a d : Nat) : Nat := (a + d - 1) / d

end Sys2Proof.Machine
end

