-- ==== Sys2Proof/Machine/Flags.lean ====
section
/-! DEFINITION. The flag bytes of telegrams and answers (11.6.2) and the tests made on them. -/

namespace Sys2Proof.Machine

/-- MOTION fault flags: INVERTER bit 0, BRAKE bit 1, LISTEN bit 2 (R123, 11.6.2). -/
def motionFlags (inverter brake listen : Bool) : Byte :=
  flagByte inverter ||| (flagByte brake <<< 1) ||| (flagByte listen <<< 2)

/-- None of the fault flags INVERTER, BRAKE and LISTEN is shown (R90). -/
def motionClear (f : Byte) : Bool :=
  !(f.getLsbD 0) && !(f.getLsbD 1) && !(f.getLsbD 2)

/-- PRESENCE flags: RESTARTED bit 0, time source bit 1 (R47, 11.6.2). -/
def presenceFlags (restarted timeSource : Bool) : Byte :=
  flagByte restarted ||| (flagByte timeSource <<< 1)

/-- The RESTARTED flag of a PRESENCE. -/
def flagRestarted (f : Byte) : Bool := f.getLsbD 0

/-- The time-source flag of a PRESENCE. -/
def flagTimeSource (f : Byte) : Bool := f.getLsbD 1

/-- BAY flags: boarding open bit 0, creep request bit 1 (R160, 11.6.2). -/
def bayFlags (boarding creep : Bool) : Byte :=
  flagByte boarding ||| (flagByte creep <<< 1)

/-- The creep request of a BAY report (R116). -/
def flagCreep (f : Byte) : Bool := f.getLsbD 1

/-- The doors field says OPEN (R160); another code than 1 does not (log entry 30). -/
def doorsSayOpen (d : Byte) : Bool := d == 1

/-- WIND fault flags: STUCK of channel c at bit c, OVERRANGE at bit 4 + c (11.6.2). -/
def windFaults (stuck overs : List Bool) : Byte :=
  (List.range 4).foldl
    (fun acc c => acc ||| (flagByte (stuck.getD c false) <<< c)
      ||| (flagByte (overs.getD c false) <<< (4 + c))) 0

/-- Presence marks of a READ PEER answer, one byte each as 11.6.3 gives flags: heard part, fault record,
motion part, bay part, RESTARTED seen. -/
def peerMarks (p : Peer) : List Byte :=
  [p.heard.isSome, p.fault.isSome, p.motion.isSome, p.bay.isSome, p.restartedSeen].map flagByte

end Sys2Proof.Machine
end

