-- ==== Sys2Proof/Machine/Wire.lean ====
section
/-! DEFINITION. The 16-bit check (R27), the telegrams as bytes (R26, 11.6.1, 11.6.2) and the field frames
(11.6.6). -/

namespace Sys2Proof.Machine

/-! ### The check -/

/-- One bit of the check: polynomial 1021H, most significant bit first (R27). -/
def crcBit (c : Half) (b : Bool) : Half :=
  if c.msb != b then (c <<< 1) ^^^ 0x1021#16 else c <<< 1

/-- One byte of the check, most significant bit first (R27). -/
def crcByte (c : Half) (b : Byte) : Half :=
  [7, 6, 5, 4, 3, 2, 1, 0].foldl (fun c i => crcBit c (b.getLsbD i)) c

/-- The check over bytes, initial value FFFFH, no reflection, no final inversion (R27). -/
def crc16 (bs : List Byte) : Half := bs.foldl crcByte 0xFFFF#16

/-- A frame with its check appended, high byte first (R27, 11.6.6). -/
def withCheck (bs : List Byte) : List Byte := bs ++ be16 (crc16 bs)

/-- The bytes before a correct check, when the last two bytes are the check of those before (R27). -/
def checkedBody (frame : List Byte) : Option (List Byte) :=
  let n := frame.length - 2
  if 2 ≤ frame.length ∧ frame.drop n = be16 (crc16 (frame.take n)) then some (frame.take n) else none

/-! ### Telegrams -/

/-- The payload bytes of a telegram (11.6.2). -/
def payloadBytes : Payload → List Byte
  | .hold p => [p.kind, p.effect, p.cause] ++ be32 p.declaredAt
  | .release p => [p.kind, p.declarer, p.reason]
  | .motion p =>
    [p.state] ++ be16 p.reference ++ be16 p.measured ++ be16 p.load ++ be16 p.command ++ [p.flags]
  | .passage p =>
    [p.serial, p.cabin, p.result, p.riders, byteOf p.tags.length] ++ p.tags.flatMap be16
  | .bay p =>
    [p.kind, p.doors, p.cabin, p.flags, p.queueLen] ++ be16 p.idle
      ++ [p.sumSerial, p.sumCabin, p.sumResult, p.sumRiders]
  | .wind p => [p.level] ++ be16 p.v ++ be16 p.a ++ be16 p.t ++ [p.sector, p.faults]
  | .order p => [p.mode, p.serial]
  | .service p => marks64 p.marks ++ [p.serial]
  | .presence p => [p.role, p.start, p.flags] ++ be16 p.digest
  | .mark p => be32 p.time

/-- The first header byte: class in bits 7 to 5, sender in bits 4 to 0 (11.6.1). -/
def classSender (cls : Nat) (sender : BitVec 5) : Byte := BitVec.ofNat 3 cls ++ sender

/-- A telegram as the bytes on the line (R26, R27, 11.6.1). -/
def telegramBytes (t : Telegram) : List Byte :=
  let k := payloadKind t.payload
  let body := payloadBytes t.payload
  withCheck ([classSender (kindClass k) t.sender, byteOf (kindCode k), t.seq, byteOf body.length] ++ body)

/-- Two bytes, high byte first. -/
def join16 (h l : Byte) : Half := h ++ l

/-- Four bytes, high byte first. -/
def join32 (a b c d : Byte) : Stamp := (a ++ b) ++ (c ++ d)

/-- Party tags from pairs of bytes. -/
def tagsOf : List Byte → List Half
  | h :: l :: rest => join16 h l :: tagsOf rest
  | _ => []

/-- The payload of a kind code from its bytes; none when the length is not one that 11.6.2 gives for the
kind, or a PASSAGE's length does not agree with its tag count (R26). -/
def payloadOf : Nat → List Byte → Option Payload
  | 0, [k, e, c, a, b, x, y] => some (.hold ⟨k, e, c, join32 a b x y⟩)
  | 1, [k, d, r] => some (.release ⟨k, d, r⟩)
  | 2, [st, r1, r0, m1, m0, l1, l0, c1, c0, f] =>
    some (.motion ⟨st, join16 r1 r0, join16 m1 m0, join16 l1 l0, join16 c1 c0, f⟩)
  | 3, s :: c :: r :: q :: n :: rest =>
    if rest.length = 2 * n.toNat then some (.passage ⟨s, c, r, q, tagsOf rest⟩) else none
  | 4, [k, d, c, f, q, i1, i0, ss, sc, sr, sq] =>
    some (.bay ⟨k, d, c, f, q, join16 i1 i0, ss, sc, sr, sq⟩)
  | 5, [l, v1, v0, a1, a0, t1, t0, s, f] =>
    some (.wind ⟨l, join16 v1 v0, join16 a1 a0, join16 t1 t0, s, f⟩)
  | 6, [m, s] => some (.order ⟨m, s⟩)
  | 7, [a, b, c, d, e, f, g, h, s] =>
    some (.service ⟨((h ++ g) ++ (f ++ e)) ++ ((d ++ c) ++ (b ++ a)), s⟩)
  | 8, [r, st, f, d1, d0] => some (.presence ⟨r, st, f, join16 d1 d0⟩)
  | 9, [a, b, c, d] => some (.mark ⟨join32 a b c d⟩)
  | _, _ => none

/-- The content tests of R26: a HOLD or RELEASE names a hold kind code up to 4, a RELEASE a reason up to
1, a PASSAGE up to 4 tags, whatever the tags are (log entry 30). -/
def payloadOk : Payload → Bool
  | .hold p => p.kind.toNat ≤ 4
  | .release p => p.kind.toNat ≤ 4 && p.reason.toNat ≤ 1
  | .passage p => p.tags.length ≤ 4
  | _ => true

/-- A telegram that is not malformed (R26). -/
def telegramOk (t : Telegram) : Bool := t.sender.toNat ≤ 23 && payloadOk t.payload

/-- The telegram that received bytes carry: none when the check fails, the bytes end early or the
telegram is malformed (R26, R27, R33). -/
def telegramOf (frame : List Byte) : Option Telegram :=
  match checkedBody frame with
  | some (cs :: kind :: seq :: len :: body) =>
    if body.length = len.toNat ∧ len.toNat ≤ 24 then
      match payloadOf kind.toNat body with
      | some p =>
        let t : Telegram := { sender := cs.extractLsb' 0 5, seq := seq, payload := p }
        if cs = classSender (kindClass (payloadKind p)) t.sender ∧ telegramOk t then some t else none
      | none => none
    else none
  | _ => none

/-! ### Field frames -/

/-- The inverter command frame (R108, 11.6.6). -/
def commandFrame (seq : Byte) (command : Nat) : List Byte := withCheck (seq :: be16n command)

/-- The content of an inverter answer frame that is complete and passes its check (R108, 11.6.6). -/
structure InverterAnswer where
  seq : Byte
  load : Int
  measured : Nat
  fault : Bool
  deriving DecidableEq, Repr

/-- The inverter answer of received bytes. -/
def inverterAnswerOf (frame : List Byte) : Option InverterAnswer :=
  match checkedBody frame with
  | some [seq, l1, l0, m1, m0, flags] =>
    some { seq := seq, load := (join16 l1 l0).toInt, measured := (join16 m1 m0).toNat,
           fault := flags.getLsbD 0 }
  | _ => none

/-- The cabin number of a tag reader answer that passes its check (R143, 11.6.6). -/
def tagAnswerOf (frame : List Byte) : Option Nat :=
  match checkedBody frame with
  | some [cabin] => some cabin.toNat
  | _ => none

end Sys2Proof.Machine
end

