-- ==== Sys2Proof/Machine/Ops.lean ====
section
/-! DEFINITION. The named operations that every block uses: one update per block, the readings that
several blocks take, writing the log and raising events (chapter 10), and handing a telegram to the link
controller (R30, R31). -/

namespace Sys2Proof.Machine

/-! ### One update per block -/

/-- Update of the clocks. -/
def State.onClock (f : Clock → Clock) (s : State) : State := { s with clock := f s.clock }
/-- Update of the input pins. -/
def State.onPins (f : Pins → Pins) (s : State) : State := { s with pins := f s.pins }
/-- Update of LU. -/
def State.onLu (f : LogUnit → LogUnit) (s : State) : State := { s with lu := f s.lu }
/-- Update of LC. -/
def State.onLc (f : Link → Link) (s : State) : State := { s with lc := f s.lc }
/-- Update of PV. -/
def State.onPv (f : PeerView → PeerView) (s : State) : State := { s with pv := f s.pv }
/-- Update of WMU. -/
def State.onWmu (f : Wmu → Wmu) (s : State) : State := { s with wmu := f s.wmu }
/-- Update of WV. -/
def State.onWv (f : WindView → WindView) (s : State) : State := { s with wv := f s.wv }
/-- Update of HU. -/
def State.onHu (f : HoldUnit → HoldUnit) (s : State) : State := { s with hu := f s.hu }
/-- Update of MU. -/
def State.onMu (f : MotionUnit → MotionUnit) (s : State) : State := { s with mu := f s.mu }
/-- Update of CT. -/
def State.onCt (f : CabinTable → CabinTable) (s : State) : State := { s with ct := f s.ct }
/-- Update of BU. -/
def State.onBu (f : BayUnit → BayUnit) (s : State) : State := { s with bu := f s.bu }
/-- Update of RP. -/
def State.onRp (f : Port → Port) (s : State) : State := { s with rp := f s.rp }
/-- Update of SL. -/
def State.onSl (f : Loader → Loader) (s : State) : State := { s with sl := f s.sl }
/-- Update of the command queue. -/
def State.onPending (f : List Instr → List Instr) (s : State) : State :=
  { s with pending := f s.pending }

/-- A command's effect: none while the RESET line is held (R194, log entry 10). -/
def whenUp (s : State) (f : State → State) : Host.Outcome State Fault Refusal :=
  .next (if s.sl.resetHeld then s else f s)

/-! ### Readings -/

/-- Present monotonic time (R56). -/
def State.now (s : State) : Nat := s.clock.now

/-- Present station time (R57). -/
def State.time (s : State) : Stamp := s.clock.station

/-- The strapped station number (R192). -/
def State.own (s : State) : Nat := s.sl.station

/-- The strapped role (R192); an invalid role code is no role. -/
def State.role (s : State) : Role := roleOf s.sl.roleCode.toNat

/-- JOINING, RUNNING or LISTEN_ONLY. -/
def State.joined (s : State) : Bool :=
  match s.sl.start with
  | .joining | .running | .listenOnly => true
  | .loading | .sheetFault => false

/-- RUNNING and past the settling period (R111, R147). -/
def State.pastSettling (s : State) : Bool := s.sl.start == .running && s.sl.settled

/-- The roster role of a station number (11.6.4). -/
def Sheet.roleAt (sh : Sheet) (n : Nat) : Role := sh.roster.getD n .unfitted

/-- The capacity of a class (R127). -/
def Sheet.capacity (sh : Sheet) : CabinClass → Nat
  | .standard => sh.capStandard
  | .stepFree => sh.capStepFree
  | .priv => sh.capPrivate

/-- The speed of a ride order mode (R115). -/
def Sheet.speed (sh : Sheet) : OrderMode → Nat
  | .halt => 0
  | .creep => sh.creep
  | .slow => sh.slow
  | .run => sh.run

/-- The station numbers that the roster gives a role, rising (R23). -/
def Sheet.stationsOf (sh : Sheet) (r : Role) : List Nat :=
  (List.range 24).filter (fun n => sh.roleAt n == r)

/-- A peer record (R43). -/
def State.peer (s : State) (n : Nat) : Peer := s.pv.table.getD n (Peer.blank .unfitted)

/-- Replace a peer record. -/
def State.setPeer (n : Nat) (p : Peer) (s : State) : State :=
  s.onPv (fun v => { v with table := v.table.set n p })

/-- A cabin record, cabins numbered from 1 (R127). -/
def State.cabin? (s : State) (c : Nat) : Option Cabin :=
  if c = 0 then none else s.ct.cabins[c - 1]?

/-- A recorded time lies at least `d` ms in the past (R56). -/
def State.elapsed (s : State) (since d : Nat) : Bool := since + d ≤ s.now

/-- A recorded time lies within the last `d` ms (log entry 13). -/
def State.within (s : State) (since d : Nat) : Bool := s.now < since + d

/-- The wind closure is closed while the fused level ranks as GUSTY or above (R70). -/
def WindView.closed (w : WindView) : Bool := 2 ≤ windRank w.fused

/-- The wind cap is SLOW while the fused level ranks as BREEZE or above (R70). -/
def WindView.capped (w : WindView) : Bool := 1 ≤ windRank w.fused

/-- The storm standing reading: a fresh record of level STORM (R69). -/
def WindView.stormStanding (w : WindView) : Bool :=
  w.records.any (fun r => r.fresh && (match r.report with
    | some (.storm, _) => true
    | _ => false))

/-- The BRAKE output: energised in STARTING, DRIVING, STOPPING and SETTLING (R110). -/
def MotionUnit.brakeEnergised (m : MotionUnit) : Bool :=
  match m.motion with
  | .starting | .driving | .stopping | .settling => true
  | .braked | .dragStop | .fault => false

/-- The EVT line (R187). -/
def LogUnit.evt (u : LogUnit) : Bool := !u.queue.isEmpty

/-- The RDY line: an answer placed and not yet read (R190). -/
def Port.rdy (p : Port) : Bool :=
  match p.slot with
  | some a => !a.read
  | none => false

/-! ### Log unit (chapter 10) -/

/-- Placing an event: in a queue of 32 the oldest is removed and counted lost (R184, R185). -/
def LogUnit.place (e : EventEntry) (u : LogUnit) : LogUnit :=
  if u.queue.length < 32 then { u with queue := u.queue ++ [e] }
  else { u with queue := u.queue.drop 1 ++ [e], overrun := true, lost := min 255 (u.lost + 1) }

/-- The sheet's masks are trusted (R181, R184: not in LOADING and SHEET_FAULT). -/
def State.masksTrusted (s : State) : Bool := s.joined

/-- An event code is suppressed by the event mask (R184). -/
def State.suppressed (s : State) (c : EventCode) : Bool :=
  s.masksTrusted && !(unmaskable c) && s.sl.sheet.eventMask.getLsbD (eventNo c - 1)

/-- Raise an event with a 16-bit parameter (R184). -/
def raise (c : EventCode) (param : Nat) (s : State) : State :=
  if s.suppressed c then s
  else s.onLu (·.place { code := c, param := BitVec.ofNat 16 param, time := s.time })

/-- Write an entry at the write position and advance it (R179). -/
def LogUnit.write (time : Stamp) (source : Nat) (k : LogKind) (o : LogOutcome) (summary : List Byte)
    (u : LogUnit) : LogUnit :=
  { u with
    ring := u.ring.set u.writePos (some
      { position := u.writePos, time := time, source := source, kind := k, outcome := o,
        summary := summary.take 8 })
    writePos := (u.writePos + 1) % 256 }

/-- Write an entry, raising LOG_HALF or LOG_WRAP at the crossings (R179, R182). -/
def writeEntry (source : Nat) (k : LogKind) (o : LogOutcome) (summary : List Byte) (s : State) : State :=
  let at_ := s.lu.writePos
  let s := s.onLu (·.write s.time source k o summary)
  if at_ = 127 then raise .logHalf 128 s
  else if at_ = 255 then raise .logWrap 0 s
  else s

/-- A block's local actions are written while its mark in the local-action mask is clear (R181). -/
def State.localLogged (s : State) (k : LogKind) : Bool :=
  match localMaskBit k with
  | none => true
  | some b => !(s.masksTrusted && s.sl.sheet.localMask.getLsbD b)

/-- Log a local action: the first summary byte is its action code (R181); what stands as details, also where
the rule names none, is log entry 15's. -/
def logLocal (k : LogKind) (action : Nat) (details : List Byte) (s : State) : State :=
  if s.localLogged k then writeEntry s.own k .localAction (byteOf action :: details) s else s

/-- The log filter's mark for a sender's roster role and a kind; all marks are set where the sheet is not
trusted (R180, R181). -/
def State.filterSet (s : State) (r : Role) (k : Kind) : Bool :=
  !s.masksTrusted || s.sl.sheet.logFilter.getLsbD (10 * roleIndex r + kindCode k)

/-- Number of marks set among the 64 of a SERVICE, those above N included (R180; log entry 44). -/
def countMarks (m : BitVec 64) : Nat := (List.range 64).countP (fun i => m.getLsbD i)

/-- The summary of a telegram's log entry (R180). -/
def telegramSummary (t : Telegram) : List Byte :=
  t.seq :: (match t.payload with
    | .hold p => [p.kind, p.effect, p.cause]
    | .release p => [p.kind, p.declarer, p.reason]
    | .motion p => [p.state] ++ be16 p.reference ++ be16 p.measured ++ [p.flags]
    | .passage p => [p.serial, p.cabin, p.result, p.riders]
    | .bay p => [p.kind, p.doors, p.queueLen, p.sumSerial, p.sumCabin]
    | .wind p => [p.level] ++ be16 p.v ++ [p.sector]
    | .order p => [p.mode, p.serial]
    | .service p => [p.serial, byteOf (countMarks p.marks)]
    | .presence p => [p.role, p.start, p.flags] ++ be16 p.digest
    | .mark p => be32 p.time)

/-- Log a telegram once, against its sender's roster role (R37, R180). -/
def logTelegram (r : Role) (t : Telegram) (o : LogOutcome) (s : State) : State :=
  let k := payloadKind t.payload
  if s.filterSet r k then writeEntry t.sender.toNat (.telegram k) o (telegramSummary t) s else s

/-! ### Transmit queue (section 2.4) -/

/-- The periodic kinds (R30). -/
def kindPeriodic : Kind → Bool
  | .presence | .motion | .wind | .bay | .order | .service | .mark => true
  | .hold | .release | .passage => false

/-- The class of a waiting telegram. -/
def QEntry.cls (e : QEntry) : Nat := kindClass (payloadKind e.payload)

/-- A telegram handed over would supersede a waiting one (R30). -/
def supersedes (p : Payload) (refresh : Bool) (e : QEntry) : Bool :=
  match p, e.payload with
  | .hold a, .hold b => refresh && e.refresh && a.kind == b.kind
  | p, q => kindPeriodic (payloadKind p) && payloadKind p == payloadKind q

/-- An entry waits unless it is the one being transmitted (R30, R32). -/
def Link.isWaiting (l : Link) (e : QEntry) : Bool :=
  match l.sending with
  | none => true
  | some x => e.no != x.no

/-- The waiting telegrams in sending order. -/
def Link.waiting (l : Link) : List QEntry := l.queue.filter l.isWaiting

/-- Sending order: by class, then by entry number (R30). -/
def QEntry.before (a b : QEntry) : Bool := a.cls < b.cls || (a.cls == b.cls && a.no < b.no)

/-- Insert an entry in sending order (R30). -/
def insertEntry (e : QEntry) : List QEntry → List QEntry
  | [] => [e]
  | x :: xs => if e.before x then e :: x :: xs else x :: insertEntry e xs

/-- Add a telegram with the next entry number (R30). -/
def Link.push (p : Payload) (refresh : Bool) (l : Link) : Link :=
  { l with queue := insertEntry { no := l.nextEntry, payload := p, refresh := refresh } l.queue
           nextEntry := l.nextEntry + 1 }

/-- Remove the entry of a number. -/
def Link.dropEntry (n : Nat) (l : Link) : Link :=
  { l with queue := l.queue.filter (fun e => e.no != n) }

/-- A telegram is displaced (action 0) or dropped (action 1): TX_OVERFLOW and a log entry (R31), with its
class and kind as details (log entry 15). -/
def overflow (action : Nat) (p : Payload) (s : State) : State :=
  let k := payloadKind p
  s |> raise .txOverflow (kindClass k * 256 + kindCode k)
    |> logLocal .lc action [byteOf (kindClass k), byteOf (kindCode k)]

/-- Add a telegram; in a full queue a class 0 telegram displaces the last waiting telegram of a class
above 0, and any other is dropped (R31). -/
def addTelegram (p : Payload) (refresh : Bool) (s : State) : State :=
  if s.lc.queue.length < 8 then s.onLc (·.push p refresh)
  else if kindClass (payloadKind p) = 0 then
    match s.lc.waiting.getLast? with
    | some e =>
      if e.cls = 0 then overflow 1 p s
      else overflow 0 e.payload (s.onLc (fun l => (l.dropEntry e.no).push p refresh))
    | none => overflow 1 p s
  else overflow 1 p s

/-- Replace the content of a waiting telegram in its place; another waiting copy is removed
(R30, log entry 12). -/
def Link.replace (n : Nat) (p : Payload) (refresh : Bool) (l : Link) : Link :=
  { l with queue := l.queue.filterMap (fun e =>
      if e.no == n then some { e with payload := p }
      else if l.isWaiting e && supersedes p refresh e then none
      else some e) }

/-- Remove every waiting HOLD refresh of a hold kind (R30). -/
def Link.dropRefreshes (kind : Byte) (l : Link) : Link :=
  { l with queue := l.queue.filter (fun e => !(l.isWaiting e && e.refresh && (match e.payload with
      | .hold h => h.kind == kind
      | _ => false))) }

/-- What a RELEASE with reason OWN does to the queue before it is added (R30). -/
def Link.beforeJoin (p : Payload) (l : Link) : Link :=
  match p with
  | .release r => if r.reason == 0 then l.dropRefreshes r.kind else l
  | _ => l

/-- Hand a telegram to the link controller (R30); in LISTEN_ONLY it is discarded (R39). -/
def handOver (p : Payload) (refresh : Bool) (s : State) : State :=
  if s.sl.start = .listenOnly then s
  else
    let s := s.onLc (·.beforeJoin p)
    match s.lc.waiting.find? (supersedes p refresh) with
    | some old => s.onLc (·.replace old.no p refresh)
    | none => addTelegram p refresh s

end Sys2Proof.Machine
end

