-- ==== Sys2Proof/Machine/Effects.lean ====
section
/-! DEFINITION. What a change of the effective effect, of the occupied count or of boarding sets off in the
other blocks: boarding open and the party queue (R147, R157, R158), the HALT latch (R106), empty-down
(R121, R122), the halt watch (R94, R97), the hold lamp (R99), and the forming of the effective effect
itself (R75, R76). -/

namespace Sys2Proof.Machine

/-- An effect is at least as severe as another (R74). -/
def Effect.atLeast (a b : Effect) : Bool := effectCode b ≤ effectCode a

/-! ### Available drives (R90) -/

/-- A peer record counts as an available drive (R90). -/
def State.driveAvailable (s : State) (p : Peer) : Bool :=
  p.role == .drive && p.state == .fresh && (match p.motion with
    | some (m, at_) => s.within at_ 1000 && motionClear m.flags
    | none => false)

/-- The station numbers of the available drives, rising (R90, R94). -/
def State.availableDrives (s : State) : List Nat :=
  (List.range 24).filter (fun n => s.driveAvailable (s.peer n))

/-! ### Boarding (sections 8.3 and 8.5) -/

/-- Boarding is open at the entry bay (R147). -/
def State.boardingNow (s : State) : Bool :=
  s.role == .entry && s.hu.effect == .none && !s.wv.closed && s.mu.mode != .halt && s.pastSettling

/-- BOARD_LAMP: at the entry bay lit while the window is OPEN and boarding is open (R151), at the exit bay
while the window is OPEN (R168). -/
def State.lampNow (s : State) : Bool :=
  s.bu.window.state == .opened && (match s.role with
    | .entry => s.bu.boarding
    | .exit => true
    | _ => false)

/-- Drive BOARD_LAMP from the window and boarding open. -/
def refreshLamp (s : State) : State := s.onBu (fun b => { b with boardLamp := s.lampNow })

/-- The tags of parties as summary bytes. -/
def tagBytes (ps : List Party) : List Byte := ps.flatMap (fun p => be16 p.tag)

/-- BU log actions (R181): their places in the row of that rule. -/
def logBay (action : Nat) (details : List Byte) (s : State) : State := logLocal .bu action details s

/-- The matched parties of a window go back to the head of the queue in their order, with skip counts and
head-locks; the creep request is cleared (R157, R159). The remaining capacity stays as the match left it (log
entry 43), and the number of tags stands before them in the summary (log entry 15). -/
def returnParties (s : State) : State :=
  let tags := s.bu.window.matched
  let s := s.onBu (fun b => { b with
    queue := b.window.matched ++ b.queue
    window := { b.window with matched := [] }
    creep := false })
  if tags.isEmpty then s else logBay 6 (byteOf tags.length :: tagBytes tags) s

/-- Boarding ceases to be open during a window (R157): only an ARRIVING window changes. -/
def closeInWindow (s : State) : State :=
  match s.bu.window.state with
  | .arriving => returnParties (s.onBu (fun b => { b with window := { b.window with grace := false } }))
  | .idle | .opened | .closing => s

/-- Form boarding open again; when it ceases, R157 applies (R147). -/
def formBoarding (s : State) : State :=
  let was := s.bu.boarding
  let now := s.boardingNow
  let s := refreshLamp (s.onBu (fun b => { b with boarding := now }))
  if was && !now then closeInWindow s else s

/-- PARTY_CANCELLED for each party in queue order (R158). -/
def cancelParties : List Party → State → State
  | [], s => s
  | p :: ps, s => cancelParties ps (raise .partyCancelled p.tag.toNat s)

/-- Flush the party queue (R158). -/
def flushQueue (s : State) : State :=
  let ps := s.bu.queue
  let s := cancelParties ps (s.onBu (fun b => { b with queue := [] }))
  logBay 7 [byteOf ps.length] s

/-! ### Ride order latch (R106) -/

/-- Latch the ride order to HALT; `cause` is 0 for the effect and 1 for empty-down. -/
def latchHalt (cause : Nat) (s : State) : State :=
  if s.mu.mode = .halt then s
  else
    let prev := s.mu.mode
    let s := s.onMu (fun m => { m with mode := .halt })
    formBoarding (logLocal .mu 0 [byteOf (modeCode prev), byteOf cause] s)

/-! ### Halt watch (section 5.8) -/

/-- The counted set as three bytes, station s at bit s (log entry 15). -/
def stationBytes (ns : List Nat) : List Byte :=
  let m : BitVec 24 := ns.foldl (fun acc n => acc ||| ((1 : BitVec 24) <<< n)) 0
  [m.extractLsb' 16 8, m.extractLsb' 8 8, m.extractLsb' 0 8]

/-- The watch ends with HALT_WATCH_DONE and is logged; the counted set is cleared (R96, R97). -/
def endWatch (proxied : Nat) (counted : List Nat) (s : State) : State :=
  s.onHu (fun h => { h with watch := none })
    |> raise .haltWatchDone proxied
    |> logLocal .hu 12 (byteOf proxied :: stationBytes counted)

/-- The reference at trigger (R94): the own one at a DRIVE, else the highest that the listed drives'
motion parts show; of an empty list the spec gives none, and it is a free value (DESIGN CHOICE, log entry 50). -/
def State.triggerReference (s : State) (list : List Nat) : Nat :=
  match s.role with
  | .drive => s.mu.reference
  | _ =>
    if list.isEmpty then Config.referenceOfNone s.now
    else list.foldl (fun acc n => max acc (match (s.peer n).motion with
      | some (m, _) => m.reference.toNat
      | none => 0)) 0

/-- The watch's deceleration (R94). -/
def State.watchDecel (s : State) : Nat :=
  if s.hu.effect = .stop then s.sl.sheet.aStop else s.sl.sheet.aDn

/-- The braked limit in ms (R94). -/
def brakedLimit (reference decel : Nat) : Nat := ceilDiv reference decel * 100 + 5000

/-- A start event of the halt watch: it starts, or retriggers keeping the counted set (R94, R97). -/
def startWatch (s : State) : State :=
  let list := s.availableDrives
  let limit := brakedLimit (s.triggerReference list) s.watchDecel
  let counted := match s.hu.watch with
    | some w => w.counted
    | none => []
  let action := if s.hu.watch.isSome then 11 else 10
  let s := logLocal .hu action (byteOf list.length :: be32 (BitVec.ofNat 32 limit)) s
  if list.isEmpty then endWatch 0 counted s
  else
    let w : Watch := { list := list, acked := [], braked := [], startAt := s.now, limit := limit,
                       ackUntil := some (s.now + 500), counted := counted }
    s.onHu (fun h => { h with watch := some w })

/-! ### Empty-down (section 6.7) -/

/-- Empty-down goes to DONE by completion or by its limit, in the order of R122; EMPTYDOWN_DONE counts whole
seconds, a fraction dropped (log entry 40), and the details logged are log entry 15's. -/
def completeEmptyDown (timeout : Bool) (s : State) : State :=
  let secs := clamp16 ((s.now - s.mu.emptyAt) / 1000)
  let count := s.ct.occupied
  let s := s.onMu (fun m => { m with emptyState := .done })
  let s := latchHalt 1 s
  let s := if timeout then raise .emptydownTimeout count s else raise .emptydownDone secs s
  let s := startWatch s
  logLocal .mu 7 (flagByte timeout :: (if timeout then be16n count else be16n secs)) s

/-- The test of R122 at the start and at each change of the count. -/
def testEmptyDown (s : State) : State :=
  if s.mu.emptyState = .emptying ∧ s.ct.occupied = 0 then completeEmptyDown false s else s

/-- Empty-down starts when the effect becomes EMPTY and returns to IDLE when it leaves EMPTY (R121). -/
def emptyDownOnEffect (old new : Effect) (s : State) : State :=
  if new = .empty then
    s.onMu (fun m => { m with emptyState := .emptying, emptyAt := s.now })
      |> logLocal .mu 6 [byteOf s.ct.occupied]
      |> testEmptyDown
  else if old = .empty then s.onMu (fun m => { m with emptyState := .idle })
  else s

/-! ### The effective effect (R75, R76) -/

/-- The most severe effect among records (R76). -/
def severest : List HoldRec → Effect
  | [] => .none
  | r :: rs => if (severest rs).atLeast r.effect then severest rs else r.effect

/-- A changed effect is handed on (R75): boarding and the flush at the entry bay, the HALT latch,
empty-down, and the halt watch (log entry 23 gives the order). -/
def handOnEffect (old new : Effect) (s : State) : State :=
  let s := formBoarding s
  let s := if s.role = .entry ∧ ¬ old.atLeast .empty ∧ new.atLeast .empty then flushQueue s else s
  let s := if ¬ old.atLeast .halt ∧ new.atLeast .halt then latchHalt 0 s else s
  let s := emptyDownOnEffect old new s
  if (¬ old.atLeast .halt ∧ new.atLeast .halt) ∨ (old = .halt ∧ new = .stop) then startWatch s else s

/-- Form the effective effect again; a change raises EFFECT_CHANGE, is logged and handed on (R76). -/
def formEffect (s : State) : State :=
  let old := s.hu.effect
  let new := severest s.hu.records
  if new = old then s
  else
    s.onHu (fun h => { h with effect := new })
      |> raise .effectChange (effectCode old * 256 + effectCode new)
      |> logLocal .hu 8 [byteOf (effectCode old), byteOf (effectCode new)]
      |> handOnEffect old new

/-! ### The hold lamp (R99) -/

/-- The lamp's case. -/
def lampModeOf (u : HoldUnit) : LampMode :=
  if u.records.any (fun r => r.state == .orphaned) then .flashing
  else if u.effect = .none then .off
  else .steady

/-- At a DESK the lamp changes when its case changes; flashing begins lit (log entry 26). -/
def refreshHoldLamp (s : State) : State :=
  if s.role = .desk ∧ lampModeOf s.hu ≠ s.hu.lampMode then
    s.onHu (fun h => { h with lampMode := lampModeOf h, lampLit := lampModeOf h != .off, lampAt := s.now })
  else s

/-- What follows every insertion, update, removal or change of state of a hold record. -/
def afterRecords (s : State) : State := refreshHoldLamp (formEffect s)

end Sys2Proof.Machine
end

