-- ==== Sys2Proof/Machine/Motion.lean ====
section
/-! DEFINITION. MU (chapter 6): the ride order, the motion update in its seven stages, the brake and the
motion states, and the commands of the table that belong to them. -/

namespace Sys2Proof.Machine

/-! ### Brake and motion state -/

/-- The mismatch timer runs while the BRAKE output and BRAKE_FB disagree, from JOINING on (R110). -/
def refreshMismatch (s : State) : State :=
  if s.role = .drive ∧ s.joined then
    if s.mu.brakeEnergised = s.pins.brakeReleased then s.onMu (fun m => { m with mismatchFrom := none })
    else s.onMu (fun m => { m with mismatchFrom := some (m.mismatchFrom.getD s.now) })
  else s

/-- A change of motion state, logged with the target (R111); the BRAKE output follows (R110). -/
def setMotion (st : MotionState) (s : State) : State :=
  if s.mu.motion = st then s
  else
    let prev := s.mu.motion
    s.onMu (fun m => { m with motion := st })
      |> logLocal .mu 1 ([byteOf (motionCode prev), byteOf (motionCode st)] ++ be16n s.mu.target)
      |> refreshMismatch

/-- Reference, trim and command to 0 (R113, R114; the command by log entry 32). -/
def MotionUnit.still0 (m : MotionUnit) : MotionUnit := { m with reference := 0, trim := 0, command := 0 }

/-- On a cause the drive goes to FAULT at once, from any other state (R114). -/
def goFault (s : State) : State :=
  if s.mu.motion = .fault then s else setMotion .fault (s.onMu (·.still0))

/-- The demand DRAG_STOP (R113). -/
def dragStop (s : State) : State :=
  match s.mu.motion with
  | .starting | .driving | .stopping | .settling =>
    s.onMu (fun m => { m.still0 with still := 0 })
      |> setMotion .dragStop
      |> logLocal .mu 5 [byteOf (motionCode .dragStop)]
  | .braked | .dragStop | .fault => s

/-- LISTEN is entered when LISTEN_ONLY is recorded at a DRIVE (R114). -/
def listenFault (s : State) : State :=
  if s.role = .drive then goFault (s.onMu (fun m => { m with listenCause := true })) else s

/-! ### Stage 1: the answer (R108) -/

/-- The judgement of an answer; `noFrame` is an update before which no frame was sent (log entry 20). -/
inductive Judgement where
  | noFrame | missed | good | flagged
  deriving DecidableEq, Repr

/-- Judge the kept answer against the last frame's sequence (R108). -/
def MotionUnit.judge (m : MotionUnit) : Judgement × Int × Nat :=
  match m.sentSeq with
  | none => (.noFrame, m.load, m.measured)
  | some q =>
    match m.answer.bind inverterAnswerOf with
    | some a =>
      if a.seq = q then
        (if a.fault then .flagged else .good, clampInt (-1500) 1500 a.load, a.measured)
      else (.missed, m.load, m.measured)
    | none => (.missed, m.load, m.measured)

/-- A frame is complete, passes its check and answers the last command frame (R108). -/
def MotionUnit.answersLast (m : MotionUnit) (frame : List Byte) : Bool :=
  match m.sentSeq, inverterAnswerOf frame with
  | some q, some a => a.seq == q
  | _, _ => false

/-- The missed count after a judgement (R108). -/
def missedAfter (j : Judgement) (n : Nat) : Nat :=
  match j with
  | .good | .flagged => 0
  | .missed => min 3 (n + 1)
  | .noFrame => n

/-- An answer that is good, unflagged and shows a measured speed below 5 (R108, R109). -/
def quietAnswer (j : Judgement) (measured : Nat) : Bool := j == .good && measured < 5

/-- Stage 1: latest load and speed, missed count and still count (R108). -/
def takeAnswer (m : MotionUnit) : MotionUnit :=
  let r := m.judge
  { m with
    load := r.2.1
    measured := r.2.2
    missed := missedAfter r.1 m.missed
    still := if quietAnswer r.1 r.2.2 then min 10 (m.still + 1) else 0
    answer := none }

/-! ### Stage 2: the INVERTER cause (R109) -/

/-- The INVERTER cause is entered: 1 for three missed answers, 2 for the inverter's flag. -/
def enterInverter (param : Nat) (s : State) : State :=
  s.onMu (fun m => { m with invCause := true, clear := 0 })
    |> goFault
    |> raise .inverterFault param
    |> logLocal .mu 2 [byteOf param]

/-- The INVERTER cause is removed; the drive goes to BRAKED when no other cause remains (R109, R114). -/
def clearInverter (s : State) : State :=
  let s := s.onMu (fun m => { m with invCause := false, clear := 0 })
  let s := logLocal .mu 3 [] s
  if s.mu.brakeCause || s.mu.listenCause then s else setMotion .braked s

/-- Stage 2. -/
def inverterStage (j : Judgement) (s : State) : State :=
  if s.mu.invCause then
    let c := if quietAnswer j s.mu.measured then s.mu.clear + 1 else 0
    let s := s.onMu (fun m => { m with clear := c })
    if 30 ≤ c then clearInverter s else s
  else if s.mu.missed = 3 then enterInverter 1 s
  else if j = .flagged then enterInverter 2 s
  else s

/-! ### Stage 3: the target (R115, R116) -/

/-- The entry bay's BAY content when the entry bay is fresh (R116). -/
def State.entryBay (s : State) : Option BayPayload :=
  match s.sl.sheet.stationsOf .entry with
  | n :: _ => if (s.peer n).state = .fresh then (s.peer n).bay.map Prod.fst else none
  | [] => none

/-- The idle cap (R116). -/
def idleCap (sh : Sheet) (b : BayPayload) : List Nat :=
  if b.queueLen.toNat ≠ 0 then []
  else if sh.idleTwo ≤ b.idle.toNat then [sh.creep]
  else if sh.idleOne ≤ b.idle.toNat then [sh.slow]
  else []

/-- The hold cap (R115, R121). -/
def holdCap (sh : Sheet) (e : Effect) (d : EmptyState) : List Nat :=
  match e with
  | .none | .close => []
  | .empty => if d = .emptying then [sh.slow] else [0]
  | .halt | .stop => [0]

/-- The caps in force (R115). -/
def State.caps (s : State) : List Nat :=
  let sh := s.sl.sheet
  (if s.pastSettling then [] else [0])
    ++ [sh.speed s.mu.mode]
    ++ (if s.wv.capped then [sh.slow] else [])
    ++ holdCap sh s.hu.effect s.mu.emptyState
    ++ (match s.entryBay with
        | some b => idleCap sh b ++ (if flagCreep b.flags then [sh.creep] else [])
        | none => [])

/-- The target is the lowest of the caps in force (R115). -/
def State.targetNow (s : State) : Nat := s.caps.foldl min (s.sl.sheet.speed s.mu.mode)

/-- The doors interlock: a bay's latest report says doors OPEN, whatever its age (R117). -/
def State.interlock (s : State) : Bool :=
  s.pv.table.any (fun p => (p.role == .entry || p.role == .exit) && (match p.bay with
    | some (b, _) => doorsSayOpen b.doors
    | none => false))

/-! ### Stages 4 and 5 (R111 to R113, R118) -/

/-- The brake may be released (R111). -/
def State.releaseAllowed (s : State) : Bool :=
  s.pastSettling && !(s.hu.effect.atLeast .halt) && s.mu.mode != .halt

/-- The motion state that stage 4 gives. -/
def State.nextMotion (s : State) : MotionState :=
  match s.mu.motion with
  | .braked => if 0 < s.mu.target ∧ s.releaseAllowed then .starting else .braked
  | .starting =>
    if s.mu.target = 0 then .braked else if s.pins.brakeReleased then .driving else .starting
  | .driving => if s.mu.target = 0 then .stopping else .driving
  | .stopping => if 0 < s.mu.target then .driving else .stopping
  | .settling =>
    if 0 < s.mu.target then .driving else if 10 ≤ s.mu.still then .braked else .settling
  | .dragStop => if 10 ≤ s.mu.still then .braked else .dragStop
  | .fault => .fault

/-- One ramp step of the reference (R118). -/
def rampStep (sh : Sheet) (effect : Effect) (interlock : Bool) (target reference : Nat) : Nat :=
  if reference < target then
    if interlock then reference else reference + min sh.aUp (target - reference)
  else if target < reference then
    reference - min (if effect = .stop then sh.aStop else sh.aDn) (reference - target)
  else reference

/-- Stage 5: the ramp, and STOPPING to SETTLING when the reference reaches 0 (R112, R118). -/
def rampStage (s : State) : State :=
  let r := rampStep s.sl.sheet s.hu.effect s.interlock s.mu.target s.mu.reference
  match s.mu.motion with
  | .driving => s.onMu (fun m => { m with reference := r })
  | .stopping =>
    let s := s.onMu (fun m => { m with reference := r })
    if r = 0 then setMotion .settling (s.onMu (fun m => { m with still := 0 })) else s
  | .braked | .starting | .settling | .dragStop | .fault => s.onMu (fun m => { m with reference := 0 })

/-! ### Stage 6: load sharing (R119, R120) -/

/-- DRIVING or STOPPING. -/
def MotionUnit.moving (m : MotionUnit) : Bool := m.motion == .driving || m.motion == .stopping

/-- The load of another station's motion part when it counts (R119). -/
def State.peerLoad (s : State) (n : Nat) : Option Int :=
  let p := s.peer n
  if n ≠ s.own ∧ p.role = .drive then
    match p.motion with
    | some (m, at_) =>
      if s.within at_ 300 ∧ (m.state.toNat = 2 ∨ m.state.toNat = 3) then some m.load.toInt else none
    | none => none
  else none

/-- The loads of the counted drives (R119). -/
def State.countedLoads (s : State) : List Int :=
  (if s.mu.moving then [s.mu.load] else []) ++ (List.range 24).filterMap s.peerLoad

/-- The mean load, rounded toward zero (R119). R119 is silent on the mean of no counted drive: there it is a free
value (DESIGN CHOICE, log entry 46), and R120 reads no mean then. -/
def meanOf (none_ : Int) (loads : List Int) : Int :=
  if loads.isEmpty then none_ else loads.sum.tdiv loads.length

/-- The trim (R120). -/
def trimOf (sh : Sheet) (own mean : Int) : Int :=
  clampInt (-(sh.trimLimit : Int)) sh.trimLimit (((own - mean) * sh.g).tdiv 1024)

/-- The command (R120). -/
def commandOf (sh : Sheet) (reference : Nat) (trim : Int) : Nat :=
  if reference = 0 then 0
  else (clampInt 0 ((sh.run : Int) + sh.trimLimit) ((reference : Int) - trim)).toNat

/-- Stage 6. -/
def loadStage (s : State) : State :=
  let loads := s.countedLoads
  let mean := meanOf (Config.meanOfNone s.now) loads
  let trim :=
    if s.mu.reference = 0 ∨ ¬ s.mu.moving ∨ loads.length = 1 then 0
    else trimOf s.sl.sheet s.mu.load mean
  s.onMu (fun m => { m with
    counted := loads.length
    mean := mean
    trim := trim
    command := commandOf s.sl.sheet m.reference trim })

/-! ### Stage 7 and the whole update (R107, R108, R123) -/

/-- The MOTION report (R123). -/
def MotionUnit.report (m : MotionUnit) : MotionPayload :=
  { state := byteOf (motionCode m.motion)
    reference := BitVec.ofNat 16 m.reference
    measured := BitVec.ofNat 16 m.measured
    load := BitVec.ofInt 16 m.load
    command := BitVec.ofNat 16 m.command
    flags := motionFlags m.invCause m.brakeCause m.listenCause }

/-- Stage 7: the command frame and the MOTION report. -/
def reportStage (s : State) : State :=
  let s := s.onMu (fun m => { m with
    invTx := commandFrame m.frameSeq m.command
    sentSeq := some m.frameSeq
    frameSeq := m.frameSeq + 1
    updateAt := s.now })
  handOver (.motion s.mu.report) false s

/-- The motion update: stages 1 to 7 as one operation (R107). -/
def motionUpdate (s : State) : State :=
  let j := s.mu.judge.1
  let s := inverterStage j (s.onMu takeAnswer)
  let s := s.onMu (fun m => { m with target := s.targetNow })
  let s := setMotion s.nextMotion s
  reportStage (loadStage (rampStage s))

/-- An update is due: every 100 ms at a DRIVE from JOINING on (R107). -/
def State.updateDue (s : State) : Bool :=
  s.role == .drive && s.joined && s.elapsed s.mu.updateAt 100

/-- The due update with an occasion that its outcome shows; otherwise the occasion is absent and nothing
happens (log entries 3 and 4). -/
def updateWhen (occasion : MotionUnit → MotionUnit → Bool) (s : State) : State :=
  let t := motionUpdate s
  if s.updateDue && occasion s.mu t.mu then t else s

/-- MOTION_UPDATE (R107). -/
def execMotionUpdate (s : State) : Host.Outcome State Fault Refusal :=
  whenUp s (fun s => if s.updateDue then motionUpdate s else s)

/-- INVERTER_ANSWER: the answer to the last command frame is kept for judgement at the next update; a late
answer to an earlier frame, and a frame that is no answer, are discarded, and that update finds the answer
missed (R108; log entry 33). -/
def execInverterAnswer (frame : List Byte) (s : State) : Host.Outcome State Fault Refusal :=
  whenUp s (fun s =>
    if s.role = .drive ∧ s.joined ∧ s.mu.answersLast frame then
      s.onMu (fun m => { m with answer := some frame })
    else s)

/-- INVERTER_FAULT: the update at which the missed count reaches 3 enters the cause (R109). -/
def execInverterFault (s : State) : Host.Outcome State Fault Refusal :=
  whenUp s (updateWhen (fun m m' => !m.invCause && m'.invCause && m'.missed == 3))

/-- INVERTER_FAULT_CLEAR: the update at which the clear count reaches 30 removes the cause (R109). -/
def execInverterFaultClear (s : State) : Host.Outcome State Fault Refusal :=
  whenUp s (updateWhen (fun m m' => m.invCause && !m'.invCause))

/-- STILL_COUNT_COMPLETE: the update that takes SETTLING or DRAG_STOP to BRAKED (R112, R113). -/
def execStillCountComplete (s : State) : Host.Outcome State Fault Refusal :=
  whenUp s (updateWhen (fun m m' =>
    (m.motion == .settling || m.motion == .dragStop) && m'.motion == .braked))

/-- BRAKE_FB_CHANGE: the feedback reads released or set (R110); the level stands under RESET too (log
entry 10). -/
def execBrakeFbChange (released : Bool) (s : State) : Host.Outcome State Fault Refusal :=
  whenUp (s.onPins (fun p => { p with brakeReleased := released })) refreshMismatch

/-- The mismatch has lasted 1,000 ms and the BRAKE cause is not yet latched (R110): a cause already latched
is not latched again, and no further event is raised (log entry 39). -/
def State.brakeFaultDue (s : State) : Bool :=
  s.role == .drive && s.joined && !s.mu.brakeCause && (match s.mu.mismatchFrom with
    | some t => s.elapsed t 1000
    | none => false)

/-- The BRAKE cause is latched (R110). -/
def brakeFaultNow (s : State) : State :=
  let param := if s.mu.brakeEnergised then 1 else 2
  s.onMu (fun m => { m with brakeCause := true })
    |> goFault
    |> raise .brakeFault param
    |> logLocal .mu 4 [byteOf param]

/-- BRAKE_FAULT (R110). -/
def execBrakeFault (s : State) : Host.Outcome State Fault Refusal :=
  whenUp s (fun s => if s.brakeFaultDue then brakeFaultNow s else s)

/-! ### Empty-down limit, orders -/

/-- The empty-down limit has run out (R122). -/
def State.emptyLimitDue (s : State) : Bool :=
  s.mu.emptyState == .emptying && s.elapsed s.mu.emptyAt (s.sl.sheet.emptyLimit * 1000)

/-- EMPTYDOWN_TIMEOUT (R122). -/
def execEmptydownTimeout (s : State) : Host.Outcome State Fault Refusal :=
  whenUp s (fun s => if s.emptyLimitDue then completeEmptyDown true s else s)

/-- Hand over an ORDER with the desk order, restarting its period (R104). -/
def handOrder (s : State) : State :=
  handOver (.order { mode := byteOf (modeCode s.mu.deskMode), serial := s.mu.deskSerial }) false
    (s.onMu (fun m => { m with orderAt := s.now }))

/-- The ORDER period has run out at a DESK in RUNNING (R104). -/
def State.orderDue (s : State) : Bool :=
  s.role == .desk && s.sl.start == .running && s.elapsed s.mu.orderAt 1000

/-- ORDER_PERIOD (R104). -/
def execOrderPeriod (s : State) : Host.Outcome State Fault Refusal :=
  whenUp s (fun s => if s.orderDue then handOrder s else s)

/-- An accepted ORDER is judged (R105). -/
def takeOrder (sender : Nat) (p : OrderPayload) (s : State) : State × LogOutcome :=
  match modeOf p.mode.toNat with
  | none => (s, .ignored)
  | some mode =>
    if s.mu.serials.getD sender none = some p.serial then (s, .ignored)
    else
      let s := s.onMu (fun m => { m with serials := m.serials.set sender (some p.serial) })
      if mode ≠ .halt ∧ (s.hu.effect.atLeast .halt ∨ ¬ s.sl.settled) then
        (raise .orderIgnored (sender * 256 + modeCode mode) s, .ignored)
      else (formBoarding (s.onMu (fun m => { m with mode := mode })), .accepted)

end Sys2Proof.Machine
end

