-- ==== Sys2Proof/Machine/Holds.lean ====
section
/-! DEFINITION. HU (chapter 5): the hold set, the station's own holds, holds heard from the line, lapse and
orphaning, the LINK conditions, the halt watch's expiries, and the commands of the table that belong to
them. -/

namespace Sys2Proof.Machine

/-! ### The hold set (section 5.2) -/

/-- A record has a key (R76). -/
def HoldRec.hasKey (k : HoldKind) (d : Nat) (r : HoldRec) : Bool := r.kind == k && r.declarer == d

/-- The record of a key. -/
def HoldUnit.find? (k : HoldKind) (d : Nat) (u : HoldUnit) : Option HoldRec :=
  u.records.find? (·.hasKey k d)

/-- The key of a hold in every hold event (R77). -/
def keyParam (k : HoldKind) (d : Nat) : Nat := holdKindCode k * 256 + d

/-- Kind, effect and cause as summary bytes (R100). -/
def holdBytes (k : HoldKind) (e : Effect) (c : Cause) : List Byte :=
  [byteOf (holdKindCode k), byteOf (effectCode e), byteOf (causeCode c)]

/-- Take a record out of the set: HOLD_OFF, and the effect formed again (R76). -/
def removeRecord (k : HoldKind) (d : Nat) (s : State) : State :=
  s.onHu (fun h => { h with records := h.records.filter (fun r => !r.hasKey k d) })
    |> raise .holdOff (keyParam k d)
    |> afterRecords

/-- Put a new record at the end of the set: HOLD_ON, and the effect formed again (R76, R77). -/
def insertRecord (r : HoldRec) (s : State) : State :=
  s.onHu (fun h => { h with records := h.records ++ [r] })
    |> raise .holdOn (keyParam r.kind r.declarer)
    |> afterRecords

/-- Change the record of a key; the effect is formed again (R76). -/
def updateRecord (k : HoldKind) (d : Nat) (f : HoldRec → HoldRec) (s : State) : State :=
  afterRecords (s.onHu (fun h =>
    { h with records := h.records.map (fun r => if r.hasKey k d then f r else r) }))

/-- The record to displace: the mildest, of those the one longest unrefreshed, of those the first in the
list (R77). -/
def mildest : List HoldRec → Option HoldRec
  | [] => none
  | r :: rs =>
    match mildest rs with
    | none => some r
    | some m =>
      if effectCode m.effect < effectCode r.effect
          ∨ (m.effect = r.effect ∧ m.refreshed < r.refreshed) then some m else some r

/-- Admission of a hold whose key is not in the set (R77). -/
def admitHold (r : HoldRec) (s : State) : State :=
  if s.hu.records.length < 16 then insertRecord r s
  else
    match mildest s.hu.records with
    | some m =>
      if effectCode m.effect < effectCode r.effect then
        removeRecord m.kind m.declarer s
          |> raise .holdDropped (keyParam m.kind m.declarer)
          |> logLocal .hu 7 [byteOf (holdKindCode m.kind), byteOf m.declarer]
          |> insertRecord r
      else
        raise .holdDropped (keyParam r.kind r.declarer) s
          |> logLocal .hu 6 [byteOf (holdKindCode r.kind), byteOf r.declarer]
    | none => s

/-! ### The station's own holds (section 5.3) -/

/-- The own-hold list entry of a kind (R78). -/
def HoldUnit.own? (k : HoldKind) (u : HoldUnit) : Option OwnHold := u.own.find? (fun o => o.kind == k)

/-- Change the own-hold list entry of a kind. -/
def HoldUnit.setOwn (k : HoldKind) (f : OwnHold → OwnHold) (u : HoldUnit) : HoldUnit :=
  { u with own := u.own.map (fun o => if o.kind == k then f o else o) }

/-- Hand over a HOLD telegram for a kind's list entry, restarting its refresh period (R78, R79). -/
def sendOwn (k : HoldKind) (refresh : Bool) (s : State) : State :=
  match s.hu.own? k with
  | some o =>
    handOver (.hold { kind := byteOf (holdKindCode k), effect := byteOf (effectCode o.effect),
                      cause := byteOf (causeCode o.cause), declaredAt := o.declaredAt }) refresh
      (s.onHu (·.setOwn k (fun o => { o with sentAt := s.now })))
  | none => s

/-- The record of an own hold takes its list entry's effect and cause, refreshed now and ACTIVE, or is
offered for admission (R78, R79). -/
def placeOwn (k : HoldKind) (s : State) : State :=
  match s.hu.own? k with
  | some o =>
    if (s.hu.find? k s.own).isSome then
      updateRecord k s.own
        (fun r => { r with effect := o.effect, cause := o.cause, refreshed := s.now, state := .active }) s
    else
      admitHold { kind := k, declarer := s.own, effect := o.effect, cause := o.cause,
                  declaredAt := o.declaredAt, refreshed := s.now, state := .active } s
  | none => s

/-- A new own-hold list entry, declared now (R78). -/
def newOwn (k : HoldKind) (e : Effect) (c : Cause) (s : State) : State :=
  s.onHu (fun h => { h with own := h.own ++
      [{ kind := k, effect := e, cause := c, declaredAt := s.time, sentAt := s.now }] })
    |> logLocal .hu 0 (holdBytes k e c)

/-- Effect and cause of an own-hold list entry replaced, declared-at kept (R78). -/
def changeOwn (k : HoldKind) (e : Effect) (c : Cause) (s : State) : State :=
  s.onHu (·.setOwn k (fun o => { o with effect := e, cause := c }))
    |> logLocal .hu 1 (holdBytes k e c)

/-- A block of the station declares a hold of a kind other than LINK (R78, log entry 25). -/
def declareHold (k : HoldKind) (e : Effect) (c : Cause) (s : State) : State :=
  match s.hu.own? k with
  | none => sendOwn k false (placeOwn k (newOwn k e c s))
  | some o =>
    if effectCode o.effect < effectCode e then sendOwn k false (placeOwn k (changeOwn k e c s))
    else if o.effect = e then
      placeOwn k (if o.cause = c then s else changeOwn k e c s)
    else placeOwn k s

/-- A block of the station releases its own hold of a kind, reason OWN (R80). -/
def releaseOwn (k : HoldKind) (s : State) : State :=
  match s.hu.own? k with
  | none => s
  | some _ =>
    let s := s.onHu (fun h => { h with own := h.own.filter (fun o => o.kind != k) })
    let s := logLocal .hu 2 [byteOf (holdKindCode k)] s
    let s := if (s.hu.find? k s.own).isSome then removeRecord k s.own s else s
    handOver (.release { kind := byteOf (holdKindCode k), declarer := byteOf s.own, reason := 0 }) false s

/-- An own-hold list entry's refresh period has run out (R79). -/
def State.refreshDue (s : State) (k : HoldKind) : Bool :=
  s.joined && (match s.hu.own? k with
    | some o => s.elapsed o.sentAt 1000
    | none => false)

/-- HOLD_REFRESH_PERIOD (R79). -/
def execHoldRefreshPeriod (k : HoldKind) (s : State) : Host.Outcome State Fault Refusal :=
  whenUp s (fun s => if s.refreshDue k then placeOwn k (sendOwn k true s) else s)

/-! ### LINK conditions (section 5.7) -/

/-- A LINK condition (R90). -/
inductive LinkCond where
  | noWind | drivesLow | baySilent | driveRestart | button
  deriving DecidableEq, Repr

/-- A condition's mark. -/
def LinkFlags.get (f : LinkFlags) : LinkCond → Bool
  | .noWind => f.noWind
  | .drivesLow => f.drivesLow
  | .baySilent => f.baySilent
  | .driveRestart => f.driveRestart
  | .button => f.button

/-- Set a condition's mark. -/
def LinkFlags.put (c : LinkCond) (v : Bool) (f : LinkFlags) : LinkFlags :=
  match c with
  | .noWind => { f with noWind := v }
  | .drivesLow => { f with drivesLow := v }
  | .baySilent => { f with baySilent := v }
  | .driveRestart => { f with driveRestart := v }
  | .button => { f with button := v }

/-- The conditions in the order of R91. -/
def linkOrder : List LinkCond := [.noWind, .drivesLow, .baySilent, .driveRestart, .button]

/-- A condition's code in log summaries: its cause code (log entry 15). -/
def condCause : LinkCond → Cause
  | .noWind => .noWind
  | .drivesLow => .drivesLow
  | .baySilent => .baySilent
  | .driveRestart => .driveRestart
  | .button => .button

/-- The effect a condition carries (R74). -/
def condEffect : LinkCond → Effect
  | .noWind => .empty
  | .drivesLow => .halt
  | .baySilent => .halt
  | .driveRestart => .halt
  | .button => .stop

/-- The conditions that count: holding and not overridden; before the end of settling BUTTON alone
(R91, R92). -/
def State.linkCounted (s : State) : List LinkCond :=
  linkOrder.filter (fun c =>
    s.hu.cond.get c && !(s.hu.overridden.get c) && (s.sl.settled || c == .button))

/-- The LINK hold's content: the most severe effect, and the first condition of that effect (R91). -/
def linkContent : List LinkCond → Option (Effect × Cause)
  | [] => none
  | c :: cs =>
    match linkContent cs with
    | some (e, k) =>
      if effectCode (condEffect c) < effectCode e then some (e, k) else some (condEffect c, condCause c)
    | none => some (condEffect c, condCause c)

/-- Declare, raise or lower the LINK hold (R91); with the same effect the entry alone takes the cause
(log entry 24). -/
def declareLink (e : Effect) (c : Cause) (s : State) : State :=
  match s.hu.own? .link with
  | none => sendOwn .link false (placeOwn .link (newOwn .link e c s))
  | some o =>
    if o.effect = e then (if o.cause = c then s else changeOwn .link e c s)
    else sendOwn .link false (placeOwn .link (changeOwn .link e c s))

/-- The monitor acts on the conditions that count (R91), or starts the release dwell (R92). -/
def linkAct (s : State) : State :=
  match linkContent s.linkCounted with
  | some (e, c) => declareLink e c (s.onHu (fun h => { h with dwellFrom := none }))
  | none =>
    if (s.hu.own? .link).isSome then
      s.onHu (fun h => { h with dwellFrom := some (h.dwellFrom.getD s.now) })
    else s

/-- A LINK condition begins or ceases to hold (R90); its overridden mark is cleared when it ceases (R93);
the monitor acts on it past settling, on BUTTON at once (R91). -/
def setCond (c : LinkCond) (v : Bool) (s : State) : State :=
  if s.hu.cond.get c = v then s
  else
    let s := s.onHu (fun h => { h with
      cond := h.cond.put c v
      overridden := if v then h.overridden else h.overridden.put c false })
    let s := logLocal .hu 9 [byteOf (causeCode (condCause c)), flagByte v] s
    if s.sl.settled ∨ c = .button then linkAct s else s

/-- DRIVES_LOW judged again (R90). -/
def recheckDrives (s : State) : State :=
  setCond .drivesLow (s.availableDrives.length < s.sl.sheet.minDrives) s

/-- A bay's part lies 3,000 ms or more in the past (R90). -/
def State.baySilentNow (s : State) : Bool :=
  s.pv.table.any (fun p => (p.role == .entry || p.role == .exit) && (match p.bay with
    | some (_, at_) => s.elapsed at_ 3000
    | none => false))

/-- BAY_SILENT judged again (R90). -/
def recheckBays (s : State) : State := setCond .baySilent s.baySilentNow s

/-- The peer view hands over DRIVE_RESTART, starting its 10,000 ms (R52, R90). -/
def handDriveRestart (s : State) : State :=
  setCond .driveRestart true (s.onHu (fun h => { h with driveRestartAt := s.now }))

/-- An own LINK hold is ended by an override: the BUTTON latch is cleared, every condition then holding is
marked overridden and a running dwell ends (R93). -/
def overrideLink (s : State) : State :=
  let had := s.hu.cond.button
  let s := s.onHu (fun h => { h with
    cond := h.cond.put .button false
    overridden := h.cond.put .button false
    dwellFrom := none })
  if had then logLocal .hu 9 [byteOf (causeCode .button), 0] s else s

/-- The release dwell has run out (R92). -/
def State.dwellDue (s : State) : Bool :=
  match s.hu.dwellFrom with
  | some t => s.elapsed t 5000
  | none => false

/-- LINK_RELEASE_DWELL_EXPIRY (R92). -/
def execLinkReleaseDwellExpiry (s : State) : Host.Outcome State Fault Refusal :=
  whenUp s (fun s =>
    if s.dwellDue then releaseOwn .link (s.onHu (fun h => { h with dwellFrom := none })) else s)

/-- DRIVE_RESTART's 10,000 ms have passed (R90). -/
def State.driveRestartDue (s : State) : Bool :=
  s.hu.cond.driveRestart && s.elapsed s.hu.driveRestartAt 10000

/-- DRIVE_RESTART_EXPIRY (R90). -/
def execDriveRestartExpiry (s : State) : Host.Outcome State Fault Refusal :=
  whenUp s (fun s => if s.driveRestartDue then setCond .driveRestart false s else s)

/-- A motion part has reached an age of 1,000 ms (R90). -/
def State.motionPartAged (s : State) (n : Nat) : Bool :=
  s.joined && (match (s.peer n).motion with
    | some (_, at_) => s.elapsed at_ 1000
    | none => false)

/-- MOTION_PART_AGE_EXPIRY (R90). -/
def execMotionPartAgeExpiry (n : Fin 24) (s : State) : Host.Outcome State Fault Refusal :=
  whenUp s (fun s => if s.motionPartAged n.val then recheckDrives s else s)

/-- A bay part has reached an age of 3,000 ms (R90). -/
def State.bayPartAged (s : State) (n : Nat) : Bool :=
  s.joined && (match (s.peer n).bay with
    | some (_, at_) => s.elapsed at_ 3000
    | none => false)

/-- BAY_PART_AGE_EXPIRY (R90). -/
def execBayPartAgeExpiry (n : Fin 24) (s : State) : Host.Outcome State Fault Refusal :=
  whenUp s (fun s => if s.bayPartAged n.val then recheckBays s else s)

/-- STOP_IN: a BAY or DESK hold STOP BUTTON, or the BUTTON latch at a DRIVE or MAST (R81). -/
def stopIn (s : State) : State :=
  match s.role with
  | .entry | .exit => declareHold .bay .stop .button s
  | .desk => declareHold .desk .stop .button s
  | .drive | .mast => setCond .button true s
  | .unfitted => s

/-- STOP_IN (R81): taken from the entry into JOINING on. -/
def execStopIn (s : State) : Host.Outcome State Fault Refusal :=
  whenUp s (fun s => if s.joined then stopIn s else s)

/-! ### Holds heard from the line (section 5.4) -/

/-- An accepted HOLD (R82): the own one and a malformed one are declined. -/
def takeHold (sender : Nat) (p : HoldPayload) (s : State) : State × LogOutcome :=
  if sender = s.own then (s, .ignored)
  else
    match holdKindOf p.kind.toNat, effectOf p.effect.toNat, causeOf p.cause.toNat with
    | some k, some e, some c =>
      if holdAllowed k c e then
        match s.hu.find? k sender with
        | some old =>
          let s := updateRecord k sender (fun r => { r with
            effect := e, cause := c, declaredAt := p.declaredAt, refreshed := s.now, state := .active }) s
          (if old.state = .orphaned then
            logLocal .hu 5 [byteOf (holdKindCode k), byteOf sender] s else s, .accepted)
        | none =>
          (admitHold { kind := k, declarer := sender, effect := e, cause := c, declaredAt := p.declaredAt,
                       refreshed := s.now, state := .active } s, .accepted)
      else (s, .ignored)
    | _, _, _ => (s, .ignored)

/-- An accepted RELEASE with reason OWN (R83). -/
def takeRelease (sender : Nat) (p : ReleasePayload) (s : State) : State × LogOutcome :=
  if sender = s.own then (s, .ignored)
  else
    match holdKindOf p.kind.toNat with
    | some k =>
      if (s.hu.find? k p.declarer.toNat).isSome then (removeRecord k p.declarer.toNat s, .accepted)
      else (s, .ignored)
    | none => (s, .ignored)

/-- An override ends a hold of the own station: the record and the list entry (R84), and for LINK what
R93 adds. The BUTTON latch is cleared and logged before the record is removed (DESIGN CHOICE, log entry 51). -/
def overrideOwn (k : HoldKind) (s : State) : State :=
  let s := s.onHu (fun h => { h with own := h.own.filter (fun o => o.kind != k) })
  let s := if k = .link then overrideLink s else s
  if (s.hu.find? k s.own).isSome then removeRecord k s.own s else s

/-- An accepted RELEASE with reason DESK_OVERRIDE: the first row of R84 that applies. -/
def takeOverride (p : ReleasePayload) (s : State) : State × LogOutcome :=
  match holdKindOf p.kind.toNat with
  | none => (s, .ignored)
  | some k =>
    let d := p.declarer.toNat
    if k = .storm ∧ s.wv.stormStanding then (s, .ignored)
    else if d = s.own ∧ ((s.hu.find? k d).isSome ∨ (s.hu.own? k).isSome) then (overrideOwn k s, .accepted)
    else if (s.hu.find? k d).isNone then (s, .ignored)
    else (removeRecord k d s, .accepted)

/-! ### Lapse and orphaning (section 5.5) -/

/-- A record becomes ORPHANED (R85, R86). -/
def orphan (k : HoldKind) (d : Nat) (s : State) : State :=
  updateRecord k d (fun r => { r with state := .orphaned }) s
    |> raise .holdOrphaned (keyParam k d)
    |> logLocal .hu 4 [byteOf (holdKindCode k), byteOf d]

/-- A record lapses (R85); its key is the detail logged (log entry 15). -/
def lapse (k : HoldKind) (d : Nat) (s : State) : State :=
  raise .holdLapsed (keyParam k d) s
    |> logLocal .hu 3 [byteOf (holdKindCode k), byteOf d]
    |> removeRecord k d

/-- The lapse check of one record (R85). -/
def lapseOne (s : State) (r : HoldRec) : State :=
  if r.declarer ≠ s.own ∧ r.state = .active ∧ s.elapsed r.refreshed 4000 then
    if (s.peer r.declarer).state = .fresh then lapse r.kind r.declarer s else orphan r.kind r.declarer s
  else s

/-- The lapse check of the set (R85), the due records in the order of the set (DESIGN CHOICE, log entry 48). -/
def lapseAll (s : State) : State :=
  s.hu.records.foldl lapseOne (s.onHu (fun h => { h with lapseAt := s.now }))

/-- The lapse check is due: every 1,000 ms from JOINING on (R85). -/
def State.lapseDue (s : State) : Bool := s.joined && s.elapsed s.hu.lapseAt 1000

/-- LAPSE_CHECK (R85). -/
def execLapseCheck (s : State) : Host.Outcome State Fault Refusal :=
  whenUp s (fun s => if s.lapseDue then lapseAll s else s)

/-- Every ACTIVE record of a restarted peer becomes ORPHANED (R86), in the order of the set (DESIGN CHOICE, log
entry 48). -/
def orphanDeclarer (n : Nat) (s : State) : State :=
  s.hu.records.foldl
    (fun s r => if r.declarer = n ∧ r.state = .active then orphan r.kind r.declarer s else s) s

/-! ### The halt watch (section 5.8) -/

/-- A motion state that acknowledges: STOPPING, SETTLING, BRAKED or DRAG_STOP (R95). -/
def motionAcks (code : Nat) : Bool := code == 3 || code == 4 || code == 0 || code == 5

/-- A MOTION of a drive is taken while a watch runs (R95, R96). -/
def watchMotion (n code : Nat) (s : State) : State :=
  match s.hu.watch with
  | none => s
  | some w =>
    if n ∈ w.list then
      let acked := if w.ackUntil.isSome && motionAcks code && !(w.acked.contains n)
        then w.acked ++ [n] else w.acked
      let braked := if code == 0 && !(w.braked.contains n) then w.braked ++ [n] else w.braked
      let w' : Watch := { w with acked := acked, braked := braked }
      let s := s.onHu (fun h => { h with watch := some w' })
      if w.list.all (fun d => braked.contains d) then endWatch 0 w.counted s else s
    else s

/-- One listed drive not acknowledged at the end of the ack window (R95). -/
def countUnanswered (s : State) (n : Nat) : State :=
  match s.hu.watch with
  | none => s
  | some w =>
    if w.counted.contains n then s
    else
      let p := s.peer n
      let w' : Watch := { w with counted := w.counted ++ [n] }
      s.setPeer n { p with unanswered := min 15 (p.unanswered + 1) }
        |>.onHu (fun h => { h with watch := some w' })
        |> raise .driveUnanswered n

/-- The ack window runs out (R95, R98); several unanswered drives are dealt with in rising station numbers
(DESIGN CHOICE, log entry 48). -/
def endAckWindow (w : Watch) (s : State) : State :=
  let failed := w.list.filter (fun n => !(w.acked.contains n))
  let w' : Watch := { w with ackUntil := none }
  let s := s.onHu (fun h => { h with watch := some w' })
  let s := failed.foldl countUnanswered s
  if s.role = .drive ∧ failed ≠ [] then dragStop s else s

/-- ACK_WINDOW_EXPIRY (R95): at the end of the 500 ms. -/
def ackWindowExpiry (s : State) : State :=
  match s.hu.watch with
  | some w =>
    match w.ackUntil with
    | some t => if t ≤ s.now then endAckWindow w s else s
    | none => s
  | none => s

/-- ACK_WINDOW_EXPIRY (R95). -/
def execAckWindowExpiry (s : State) : Host.Outcome State Fault Refusal := whenUp s ackWindowExpiry

/-- BRAKED_LIMIT_EXPIRY: the drives not braked are proxied and the watch ends (R96). -/
def brakedLimitExpiry (s : State) : State :=
  match s.hu.watch with
  | some w =>
    if s.elapsed w.startAt w.limit then
      endWatch (w.list.filter (fun n => !(w.braked.contains n))).length w.counted s
    else s
  | none => s

/-- BRAKED_LIMIT_EXPIRY (R96). -/
def execBrakedLimitExpiry (s : State) : Host.Outcome State Fault Refusal := whenUp s brakedLimitExpiry

/-! ### The hold lamp (R99) -/

/-- The flashing lamp's 500 ms have passed (R99). -/
def State.lampDue (s : State) : Bool :=
  s.role == .desk && s.hu.lampMode == .flashing && s.elapsed s.hu.lampAt 500

/-- HOLD_LAMP_FLASH (R99). -/
def execHoldLampFlash (s : State) : Host.Outcome State Fault Refusal :=
  whenUp s (fun s =>
    if s.lampDue then s.onHu (fun h => { h with lampLit := !h.lampLit, lampAt := s.now }) else s)

end Sys2Proof.Machine
end

