-- ==== Sys2Proof/Machine/Wind.lean ====
section
/-! DEFINITION. WV (chapter 4): the wind table, the fused level and what it hands on, and the expiry of a
wind record. -/

namespace Sys2Proof.Machine

/-- The level of a fresh record (R61). -/
def WindRec.freshLevel (r : WindRec) : Option WindLevel :=
  if r.fresh then r.report.map Prod.fst else none

/-- The levels of the fresh records, in slot order (R65). -/
def WindView.freshLevels (w : WindView) : List WindLevel := w.records.filterMap (·.freshLevel)

/-- The higher of two levels, BLIND ranking as GUSTY (R65). -/
def higherLevel (a b : WindLevel) : WindLevel := if windRank a < windRank b then b else a

/-- The highest of some levels (R65); CALM, the lowest, of none. -/
def highestLevel (ls : List WindLevel) : WindLevel := ls.foldl higherLevel .calm

/-- The fused level that a table gives (R65). -/
def fusedOf (minMasts : Nat) (ls : List WindLevel) : WindLevel :=
  if ls.length = 0 then .blind
  else if ls.length < minMasts then higherLevel (highestLevel ls) .gusty
  else highestLevel ls

/-- The fusion is degraded when the second row of R65 raises the level. -/
def degradedOf (minMasts : Nat) (ls : List WindLevel) : Bool :=
  ls.length != 0 && ls.length < minMasts && windRank (highestLevel ls) < windRank .gusty

/-- Form the fused level again (R65); a changed level is raised, logged and handed on (R67, R68, R70). -/
def formFused (s : State) : State :=
  let ls := s.wv.freshLevels
  let old := s.wv.fused
  let new := fusedOf s.sl.sheet.minMasts ls
  let s := s.onWv (fun w => { w with
    fused := new, freshCount := ls.length, degraded := degradedOf s.sl.sheet.minMasts ls })
  if new = old then s
  else
    let s := raise .windLevel (ls.length * 256 + windCode new) s
    let s := logLocal .wv 0 [byteOf (windCode old), byteOf (windCode new), byteOf ls.length] s
    let s := if new = .blind then setCond .noWind true s
      else if old = .blind then setCond .noWind false s else s
    formBoarding s

/-- Change the record of a mast's station number (R62). -/
def WindView.updateStation (n : Nat) (f : WindRec → WindRec) (w : WindView) : WindView :=
  { w with records := w.records.map (fun r => if r.station = n then f r else r) }

/-- An accepted WIND (R62). -/
def takeWind (sender : Nat) (seq : Byte) (p : WindPayload) (s : State) : State × LogOutcome :=
  match windOf p.level.toNat with
  | none => (s, .ignored)
  | some level =>
    (formFused (s.onWv (·.updateStation sender (fun r => { r with
      report := some (level, p), receipt := s.now, seq := seq, fresh := level != .blind }))), .accepted)

/-- A slot's fresh record has stood 10,000 ms (R63). -/
def State.windRecordDue (s : State) (slot : Nat) : Bool :=
  match s.wv.records[slot]? with
  | some r => r.fresh && s.elapsed r.receipt 10000
  | none => false

/-- WIND_RECORD_EXPIRY (R63). -/
def execWindRecordExpiry (slot : Fin 4) (s : State) : Host.Outcome State Fault Refusal :=
  whenUp s (fun s =>
    if s.windRecordDue slot.val then
      formFused (s.onWv (fun w => { w with
        records := w.records.modify slot.val (fun r => { r with fresh := false }) }))
    else s)

/-- The wind table set up from the roster, without reports (R61, R71); receipt time and sequence are 0 until
the first report (log entry 29). -/
def windTable (sh : Sheet) : List WindRec :=
  (sh.stationsOf .mast).map (fun n =>
    { station := n, report := none, receipt := 0, seq := 0, fresh := false })

end Sys2Proof.Machine
end

