-- ==== Sys2Proof/Machine/Cabin.lean ====
section
/-! DEFINITION. CT (chapter 7): applying a passage to the cabin table in the six stages of R128, summaries,
service, and the SERVICE period. -/

namespace Sys2Proof.Machine

/-- A passage as the cabin table takes it (R128); `isTelegram` is false for a summary (R135). -/
structure Passage where
  serial : Byte
  cabin : Nat
  result : Option PassResult
  riders : Option Nat
  tags : List Half
  isTelegram : Bool
  deriving DecidableEq, Repr

/-- The cursor of a bay (R128). -/
def CabinTable.cursor (b : BayId) (t : CabinTable) : Cursor :=
  match b with
  | .entry => t.entryCursor
  | .exit => t.exitCursor

/-- Set the cursor of a bay. -/
def CabinTable.setCursor (b : BayId) (c : Cursor) (t : CabinTable) : CabinTable :=
  match b with
  | .entry => { t with entryCursor := c }
  | .exit => { t with exitCursor := c }

/-- A result is one that its bay makes (R130). -/
def resultFits : BayId → PassResult → Bool
  | .exit, .cleared | .exit, .heldOver | .exit, .passedEmpty | .exit, .loadedFound => true
  | .entry, .boarded | .entry, .passed => true
  | .exit, .boarded | .exit, .passed => false
  | .entry, .cleared | .entry, .heldOver | .entry, .passedEmpty | .entry, .loadedFound => false

/-- The cyclic successor of a cabin among n (R127). -/
def nextCabin (n c : Nat) : Nat := if c < n then c + 1 else 1

/-- Change a cabin's record. -/
def State.onCabin (c : Nat) (f : Cabin → Cabin) (s : State) : State :=
  s.onCt (fun t => { t with cabins := t.cabins.modify (c - 1) f })

/-- A record put in doubt (R132): riders, tags and boarded-at removed, overload clear. -/
def Cabin.doubted (c : Cabin) : Cabin :=
  { c with state := .unknown, riders := none, tags := [], boardedAt := none, overload := false }

/-- How many cabins stand strictly between two in cyclic order (R132). -/
def gapCount (n p c : Nat) : Nat := (c + 2 * n - p - 1) % n

/-- The m cabins after p in cyclic order (R132). -/
def cabinsAfter (n p : Nat) : Nat → List Nat
  | 0 => []
  | m + 1 => nextCabin n p :: cabinsAfter n (nextCabin n p) m

/-- Stage 3: the gap test (R132). `station` is the bay's station number. -/
def gapStage (b : BayId) (station c : Nat) (s : State) : State :=
  match (s.ct.cursor b).cabin with
  | none => s
  | some p =>
    let n := s.sl.sheet.n
    let count := gapCount n p c
    if count = 0 then s
    else
      let doubt := cabinsAfter n p count
      let s := doubt.foldl (fun s d => s.onCabin d Cabin.doubted) s
      let s := raise .cabinDoubt (station * 256 + count) s
      logLocal .ct 0 [byteOf (bayCode b), byteOf (doubt.headD 0), byteOf (doubt.getLastD 0), byteOf count] s

/-- A CLEARED or PASSED_EMPTY record (R133). -/
def Cabin.cleared (c : Cabin) : Cabin :=
  { c with state := .empty, riders := some 0, tags := [], overload := false, boardedAt := none, laps := 0 }

/-- Riders of a BOARDED passage, clamped to the capacity (R134). -/
def clampRiders (cap : Nat) (r : Option Nat) : Option Nat := r.map (fun n => min n cap)

/-- Riders above the capacity (R134). -/
def ridersOver (cap : Nat) (r : Option Nat) : Bool :=
  match r with
  | some n => cap < n
  | none => false

/-- Stage 4, the result alone (R133, R134); `now` is station time. -/
def Cabin.applyResult (r : PassResult) (p : Passage) (now : Stamp) (c : Cabin) : Cabin :=
  match r with
  | .cleared | .passedEmpty => c.cleared
  | .heldOver => { c with state := .heldOver, laps := min 3 (c.laps + 1) }
  | .loadedFound =>
    { c with state := .heldOver, riders := none, tags := [], overload := false, boardedAt := none, laps := 1 }
  | .boarded =>
    match c.state with
    | .empty =>
      { c with state := .boarded, riders := clampRiders c.capacity p.riders,
               overload := ridersOver c.capacity p.riders, tags := p.tags, boardedAt := some now, laps := 0 }
    | .boarded | .heldOver =>
      { c with riders := none, tags := p.tags, boardedAt := some now,
               overload := ridersOver c.capacity p.riders || c.overload }
    | .unknown => c
  | .passed => c

/-- Stage 4: the result and the last passage (R133, R134). -/
def resultStage (b : BayId) (r : PassResult) (p : Passage) (s : State) : State :=
  let last : LastPassage := { bay := b, serial := p.serial, time := s.now }
  s.onCabin p.cabin (fun c => { c.applyResult r p s.time with last := some last })

/-- Stage 5: the cursor (R128). -/
def cursorStage (b : BayId) (p : Passage) (s : State) : State :=
  s.onCt (·.setCursor b
    { serial := some p.serial, cabin := some p.cabin, fromSummary := !p.isTelegram })

/-- The occupied count of records (R138). -/
def occupiedOf (cs : List Cabin) : Nat := cs.countP (fun c => c.state != .empty)

/-- Stage 6: the occupied count formed again, and empty-down tested when it has changed (R138, R122). -/
def countStage (s : State) : State :=
  let new := occupiedOf s.ct.cabins
  if new = s.ct.occupied then s
  else testEmptyDown (s.onCt (fun t => { t with occupied := new }))

/-- The further case of R131: the record waits for the tags that this repeat brings. -/
def State.tagsMissing (s : State) (b : BayId) (p : Passage) : Bool :=
  let cur := s.ct.cursor b
  cur.fromSummary && p.isTelegram && cur.cabin == some p.cabin && p.result == some .boarded
    && (match s.cabin? p.cabin with
      | some c => c.state == .boarded && (match c.last with
        | some l => l.bay == b && l.serial == p.serial
        | none => false)
      | none => false)

/-- The tags that a PASSAGE brings after its summary (R131). -/
def supplyTags (b : BayId) (p : Passage) (s : State) : State :=
  if s.tagsMissing b p then
    (s.onCabin p.cabin (fun c => { c with tags := p.tags })).onCt
      (fun t => t.setCursor b { t.cursor b with fromSummary := false })
  else s

/-- A passage or summary applied to the table in the stages of R128. -/
def applyPassage (b : BayId) (station : Nat) (p : Passage) (s : State) : State × LogOutcome :=
  match p.result with
  | none => (s, .ignored)
  | some r =>
    if p.cabin = 0 ∨ s.sl.sheet.n < p.cabin ∨ resultFits b r = false then (s, .ignored)
    else if (s.ct.cursor b).serial = some p.serial then (supplyTags b p s, .ignored)
    else
      (countStage (cursorStage b p (resultStage b r p (gapStage b station p.cabin s))), .accepted)

/-- The bay of a sender's roster role (R128). -/
def bayOf : Role → Option BayId
  | .entry => some .entry
  | .exit => some .exit
  | .drive | .mast | .desk | .unfitted => none

/-- An optional one-byte field as sent: FFH is absent (11.6). -/
def optByte (b : Byte) : Option Nat := if b = absentByte then none else some b.toNat

/-- An accepted PASSAGE (R129); its tags are stored as sent, a tag 0 included (log entry 30). -/
def takePassage (role : Role) (sender : Nat) (p : PassagePayload) (s : State) : State × LogOutcome :=
  match bayOf role with
  | none => (s, .ignored)
  | some b =>
    applyPassage b sender
      { serial := p.serial, cabin := p.cabin.toNat, result := resultOf p.result.toNat,
        riders := optByte p.riders, tags := p.tags, isTelegram := true } s

/-- The summary of an accepted BAY (R135); summary cabin 0 is none since start. -/
def takeSummary (role : Role) (sender : Nat) (p : BayPayload) (s : State) : State × LogOutcome :=
  match bayOf role with
  | none => (s, .ignored)
  | some b =>
    if p.sumCabin = 0 then (s, .ignored)
    else
      applyPassage b sender
        { serial := p.sumSerial, cabin := p.sumCabin.toNat, result := resultOf p.sumResult.toNat,
          riders := optByte p.sumRiders, tags := [], isTelegram := false } s

/-! ### Service (section 7.5) -/

/-- Every cabin's service from 64 marks (R137). -/
def serviceFrom (marks : BitVec 64) (cs : List Cabin) : List Cabin :=
  cs.mapIdx (fun i c => { c with outOfService := marks.getLsbD i })

/-- An accepted SERVICE (R137). -/
def takeService (sender : Nat) (p : ServicePayload) (s : State) : State × LogOutcome :=
  if s.ct.serviceSerials.getD sender none = some p.serial then (s, .ignored)
  else
    (s.onCt (fun t => { t with
      serviceSerials := t.serviceSerials.set sender (some p.serial)
      cabins := serviceFrom p.marks t.cabins }), .accepted)

/-- Marks of cabins above N are unmarked in SERVICE (R136). -/
def marksUpTo (n : Nat) (m : BitVec 64) : BitVec 64 := m &&& (((1 : BitVec 64) <<< n) - 1)

/-- Hand over a SERVICE with the desk service set, restarting its period (R136). -/
def handService (s : State) : State :=
  handOver (.service { marks := marksUpTo s.sl.sheet.n s.ct.deskMarks, serial := s.ct.deskSerial }) false
    (s.onCt (fun t => { t with serviceAt := s.now }))

/-- The SERVICE period has run out at a DESK in RUNNING (R136). -/
def State.serviceDue (s : State) : Bool :=
  s.role == .desk && s.sl.start == .running && s.elapsed s.ct.serviceAt 5000

/-- SERVICE_PERIOD (R136). -/
def execServicePeriod (s : State) : Host.Outcome State Fault Refusal :=
  whenUp s (fun s => if s.serviceDue then handService s else s)

/-! ### Setting up (R139) -/

/-- A cabin's record at the entry into JOINING; `i` is its number less 1. -/
def startCabin (sh : Sheet) (i : Nat) : Cabin :=
  let cls := sh.classes.getD i .standard
  { cls := cls, capacity := sh.capacity cls, outOfService := sh.initMarks.getLsbD i, state := .unknown,
    riders := none, overload := false, tags := [], boardedAt := none, laps := 0, last := none }

/-- The all-UNKNOWN table (R139). -/
def startCabins (sh : Sheet) : List Cabin := (List.range sh.n).map (startCabin sh)

end Sys2Proof.Machine
end

