-- ==== Sys2Proof/Machine/Peers.lean ====
section
/-! DEFINITION. PV (chapter 3): taking a telegram into the peer table, the silence expiries, PRESENCE and
MARK, and the fault records. -/

namespace Sys2Proof.Machine

/-- Update of a peer record. -/
def State.onPeer (n : Nat) (f : Peer → Peer) (s : State) : State := s.setPeer n (f (s.peer n))

/-- A change of a peer record's state raises PEER_STATE and is logged (R49). -/
def setPeerState (n : Nat) (st : PeerState) (s : State) : State :=
  let old := (s.peer n).state
  if old = st then s
  else
    s.onPeer n (fun p => { p with state := st })
      |> raise .peerState (n * 256 + peerStateCode st)
      |> logLocal .pv 0 [byteOf n, byteOf (peerStateCode old), byteOf (peerStateCode st)]

/-- Stage 1 of R45: the sequence judgement (R50). -/
def Peer.judgeSeq (seq : Byte) (p : Peer) : Peer :=
  if p.state = .absent then { p with lastSeq := seq }
  else if seq = p.lastSeq then p
  else if seq = p.lastSeq + 1 then { p with lastSeq := seq }
  else { p with lastSeq := seq, gaps := min 255 (p.gaps + 1) }

/-- A motion part of a DRIVE record received within 1,000 ms shows the rim turning (R52). -/
def State.rimTurning (s : State) : Bool :=
  s.pv.table.any (fun p => p.role == .drive && (match p.motion with
    | some (m, at_) => s.within at_ 1000 && decide (0 < m.measured.toNat)
    | none => false))

/-- A flagged PRESENCE finds a restart to handle (R51). -/
def restartFound (p : Peer) (q : PresencePayload) : Bool :=
  (p.state == .fresh || p.state == .stale)
    && (!p.restartedSeen || ((q.start == 1 || q.start == 0) && (match p.heard with
      | some h => h.start == 2
      | none => false)))

/-- What a peer's restart sets off (R51, R52). -/
def handleRestart (n : Nat) (s : State) : State :=
  let s := orphanDeclarer n s
  let s := logLocal .pv 1 [byteOf n] (raise .peerRestarted n s)
  if (s.peer n).role = .drive ∧ s.rimTurning then handDriveRestart s else s

/-- Stage 2 of R45: the RESTARTED test (R51). -/
def restartTest (n : Nat) (q : PresencePayload) (s : State) : State :=
  let s := if flagRestarted q.flags && restartFound (s.peer n) q then handleRestart n s else s
  s.onPeer n (fun p => { p with restartedSeen := flagRestarted q.flags })

/-- A PRESENCE is matching (R48). -/
def State.presenceMatches (s : State) (n : Nat) (q : PresencePayload) : Bool :=
  let r := (s.peer n).role
  r != .unfitted && q.role.toNat == roleCode r && q.digest == s.sl.digest

/-- The heard part of a PRESENCE (R48). -/
def heardOf (q : PresencePayload) : Heard :=
  { role := q.role, start := q.start, timeSource := flagTimeSource q.flags }

/-- Stage 4 of R45 for another station: the state after the telegram (R45, R48). -/
def State.stateAfter (s : State) (n : Nat) (c : Payload) : PeerState :=
  match c with
  | .presence q => if s.presenceMatches n q then .fresh else .foreign
  | _ => match (s.peer n).state with
    | .absent | .stale | .fresh => .fresh
    | .foreign => .foreign

/-- Stages 4 (the heard part) and 5 of R45: what the content leaves in the record (R48, R53). -/
def Peer.takeContent (c : Payload) (accepted : Bool) (now : Nat) (p : Peer) : Peer :=
  match c with
  | .presence q => { p with heard := some (heardOf q) }
  | .motion m => if accepted then { p with motion := some (m, now) } else p
  | .bay b => if accepted then { p with bay := some (b, now) } else p
  | .hold _ | .release _ | .passage _ | .wind _ | .order _ | .service _ | .mark _ => p

/-- What the hold unit does with a MOTION or BAY newly taken into a part, and with a change of a DRIVE
record's state (R90, R95, R96; log entry 23 gives the order). -/
def afterParts (n : Nat) (c : Payload) (accepted stateChanged : Bool) (s : State) : State :=
  match c with
  | .motion m =>
    if accepted then recheckDrives (watchMotion n m.state.toNat s)
    else if stateChanged && (s.peer n).role == .drive then recheckDrives s else s
  | .bay _ => if accepted then recheckBays s else s
  | _ => if stateChanged && (s.peer n).role == .drive then recheckDrives s else s

/-- The peer view takes a telegram of another station (R45). -/
def pvTakeOther (t : Telegram) (accepted : Bool) (s : State) : State :=
  let n := t.sender.toNat
  let old := (s.peer n).state
  let s := s.onPeer n (·.judgeSeq t.seq)
  let s := match t.payload with
    | .presence q => restartTest n q s
    | _ => s
  let new := s.stateAfter n t.payload
  let s := s.onPeer n (fun p => { p.takeContent t.payload accepted s.now with lastHeard := s.now })
  let s := setPeerState n new s
  afterParts n t.payload accepted (new != old) s

/-- The peer view takes an own echo (R44). -/
def pvTakeOwn (t : Telegram) (accepted : Bool) (s : State) : State :=
  let n := t.sender.toNat
  let s := s.onPeer n (fun p =>
    { p.takeContent t.payload accepted s.now with lastHeard := s.now, lastSeq := t.seq })
  afterParts n t.payload accepted false s

/-- The peer view takes a telegram with the outcome ACCEPT or IGNORE (R37). -/
def pvTake (t : Telegram) (accepted : Bool) (s : State) : State :=
  if t.sender.toNat = s.own then pvTakeOwn t accepted s else pvTakeOther t accepted s

/-- A refusal set or counted in the sender's fault record (R37, R54). -/
def FaultRecord.count (kind : Kind) (byMask : Bool) (time : Stamp) : Option FaultRecord → FaultRecord
  | none => { kind := kind, byMask := byMask, time := time, later := 0 }
  | some f => { f with later := min 255 (f.later + 1) }

/-! ### The current time source and MARK (R59) -/

/-- A record passes the tests of a time source (R59). -/
def State.sourceQualifies (s : State) (n : Nat) : Bool :=
  (s.peer n).state == .fresh && s.sl.sheet.timeSource.getLsbD n && (match (s.peer n).heard with
    | some h => h.timeSource
    | none => false)

/-- The station's current time source (R59). -/
def State.timeSourceNow (s : State) : Option Nat := (List.range 24).find? s.sourceQualifies

/-- The difference of a mark to station time, taken modulo 2^32 as a signed value (R59). -/
def State.markDifference (s : State) (mark : Stamp) : Int := (mark - s.time).toInt

/-- An accepted MARK (R59). -/
def takeMark (sender : Nat) (p : MarkPayload) (s : State) : State × LogOutcome :=
  if sender = s.own then (s, .ignored)
  else if s.timeSourceNow ≠ some sender then (s, .ignored)
  else if -4 ≤ s.markDifference p.time ∧ s.markDifference p.time ≤ 4 then (s, .ignored)
  else (s.onClock (fun c => { c with station := p.time }), .accepted)

/-! ### PRESENCE and MARK handed over (R47, R58) -/

/-- The own number is in the sheet's time-source set (R58). -/
def State.isTimeSource (s : State) : Bool := s.sl.sheet.timeSource.getLsbD s.own

/-- The start state as PRESENCE reports it (11.6.2). -/
def presenceStart : StartState → Byte
  | .loading | .sheetFault => 0
  | .joining => 1
  | .running | .listenOnly => 2

/-- 10,000 ms have passed since the entry into RUNNING and the flag still stands (R47). -/
def State.flagDue (s : State) : Bool :=
  (s.sl.start == .running || s.sl.start == .listenOnly) && s.pv.restartedFlag
    && s.elapsed s.sl.runningAt 10000

/-- The RESTARTED flag as PRESENCE carries it: clear from 10,000 ms after the entry into RUNNING on, whether
or not RESTARTED_FLAG_CLEAR of the same moment has been taken (R47). -/
def State.flagSent (s : State) : Bool := s.pv.restartedFlag && !s.flagDue

/-- The PRESENCE of this moment (R47). -/
def State.presence (s : State) : PresencePayload :=
  { role := byteOf (roleCode s.role)
    start := presenceStart s.sl.start
    flags := presenceFlags s.flagSent (s.sl.start == .running && s.isTimeSource)
    digest := s.sl.digest }

/-- Hand over a PRESENCE, restarting its period (R47). -/
def handPresence (s : State) : State :=
  handOver (.presence s.presence) false (s.onPv (fun v => { v with presenceAt := s.now }))

/-- The PRESENCE period has run out outside LOADING (R47). -/
def State.presenceDue (s : State) : Bool := s.sl.start != .loading && s.elapsed s.pv.presenceAt 1000

/-- PRESENCE_PERIOD (R47). -/
def execPresencePeriod (s : State) : Host.Outcome State Fault Refusal :=
  whenUp s (fun s => if s.presenceDue then handPresence s else s)

/-- Hand over a MARK, restarting its period; the time is written at each attempt to send it (R58). -/
def handMark (s : State) : State :=
  handOver (.mark { time := s.time }) false (s.onPv (fun v => { v with markAt := s.now }))

/-- The MARK period has run out at a time source in RUNNING (R58). -/
def State.markDue (s : State) : Bool :=
  s.sl.start == .running && s.isTimeSource && s.elapsed s.pv.markAt 10000

/-- MARK_PERIOD (R58). -/
def execMarkPeriod (s : State) : Host.Outcome State Fault Refusal :=
  whenUp s (fun s => if s.markDue then handMark s else s)

/-- RESTARTED_FLAG_CLEAR (R47). -/
def execRestartedFlagClear (s : State) : Host.Outcome State Fault Refusal :=
  whenUp s (fun s => if s.flagDue then s.onPv (fun v => { v with restartedFlag := false }) else s)

/-! ### Silence (R46) -/

/-- A change of a DRIVE record's state is an occasion of DRIVES_LOW (R90). -/
def recheckIfDrive (n : Nat) (s : State) : State :=
  if (s.peer n).role = .drive then recheckDrives s else s

/-- A FRESH record of another station has been silent for 3,000 ms (R46). -/
def State.staleDue (s : State) (n : Nat) : Bool :=
  n != s.own && (s.peer n).state == .fresh && s.elapsed (s.peer n).lastHeard 3000

/-- PEER_STALE_EXPIRY (R46). -/
def execPeerStaleExpiry (n : Fin 24) (s : State) : Host.Outcome State Fault Refusal :=
  whenUp s (fun s =>
    if s.staleDue n.val then recheckIfDrive n.val (setPeerState n.val .stale s) else s)

/-- A STALE or FOREIGN record of another station has been silent for 20,000 ms (R46). -/
def State.absentDue (s : State) (n : Nat) : Bool :=
  n != s.own && ((s.peer n).state == .stale || (s.peer n).state == .foreign)
    && s.elapsed (s.peer n).lastHeard 20000

/-- PEER_ABSENT_EXPIRY: the heard part is removed and RESTARTED seen set to no (R46). -/
def execPeerAbsentExpiry (n : Fin 24) (s : State) : Host.Outcome State Fault Refusal :=
  whenUp s (fun s =>
    if s.absentDue n.val then
      s.onPeer n.val (fun p => { p with heard := none, restartedSeen := false })
        |> setPeerState n.val .absent
        |> recheckIfDrive n.val
    else s)

end Sys2Proof.Machine
end

