-- ==== Sys2Proof/Machine/Bay.lean ====
section
/-! DEFINITION. BU (chapters 8 and 9): the BAY report, the tag reader, the entry window with its matching,
the exit window with its decision, the close of the doors and the departures. -/

namespace Sys2Proof.Machine

/-! ### Reports (R160, R175) -/

/-- The station works a bay. -/
def State.isBay (s : State) : Bool := s.role == .entry || s.role == .exit

/-- The bay of the station's role; the exit's at an EXIT station. -/
def State.ownBay (s : State) : BayId := if s.role = .exit then .exit else .entry

/-- Idle seconds: 0 before the entry into JOINING, from which they count (R159, R165). -/
def State.idleSeconds (s : State) : Nat :=
  if s.joined then clamp16 ((s.now - s.bu.idleStart) / 1000) else 0

/-- An optional cabin as sent: FFH is absent (11.6). -/
def cabinByte (c : Option Nat) : Byte :=
  match c with
  | some n => byteOf n
  | none => absentByte

/-- The cabin at the bay: the window's, while the window is not IDLE (R160). -/
def BayUnit.cabinAtBay (b : BayUnit) : Option Nat :=
  if b.window.state = .idle then none else b.window.cabin

/-- The summary fields of a report: serial, cabin, result, riders (R160; log entry 16 for none). -/
def summaryBytes (o : Option Summary) : Byte × Byte × Byte × Byte :=
  match o with
  | some x => (x.serial, byteOf x.cabin, byteOf (resultCode x.result), cabinByte x.riders)
  | none => (0, 0, 0, absentByte)

/-- The BAY report of this moment (R160, R175). -/
def State.bayReport (s : State) : BayPayload :=
  let m := summaryBytes s.bu.summary
  let entry := s.role == .entry
  { kind := byteOf (bayCode s.ownBay)
    doors := flagByte s.bu.doorsOpen
    cabin := cabinByte s.bu.cabinAtBay
    flags := bayFlags (entry && s.bu.boarding) (entry && s.bu.creep)
    queueLen := byteOf s.bu.queue.length
    idle := BitVec.ofNat 16 (if entry then s.idleSeconds else 0)
    sumSerial := m.1, sumCabin := m.2.1, sumResult := m.2.2.1, sumRiders := m.2.2.2 }

/-- Hand over a BAY report, restarting its period (R160). -/
def handBay (s : State) : State :=
  handOver (.bay s.bayReport) false (s.onBu (fun b => { b with reportAt := s.now }))

/-- The BAY report period has run out (R160). -/
def State.bayReportDue (s : State) : Bool := s.isBay && s.joined && s.elapsed s.bu.reportAt 500

/-- BAY_REPORT_PERIOD (R160, R175). -/
def execBayReportPeriod (s : State) : Host.Outcome State Fault Refusal :=
  whenUp s (fun s => if s.bayReportDue then handBay s else s)

/-! ### The tag reader (R143, R166) -/

/-- The tag poll's 100 ms have passed (R143). -/
def State.tagPollDue (s : State) : Bool := s.isBay && s.joined && s.elapsed s.bu.pollAt 100

/-- TAG_POLL (R143, 11.6.6). -/
def execTagPoll (s : State) : Host.Outcome State Fault Refusal :=
  whenUp s (fun s =>
    if s.tagPollDue then s.onBu (fun b => { b with tagTx := [0x01], pollAt := s.now }) else s)

/-- A tag answer that passes its check is kept with its receipt time (R143). -/
def keepTag (frame : List Byte) (s : State) : State :=
  match tagAnswerOf frame with
  | some c => s.onBu (fun b => { b with tag := some (c, s.now) })
  | none => s

/-- TAG_ANSWER (R143). -/
def execTagAnswer (frame : List Byte) (s : State) : Host.Outcome State Fault Refusal :=
  whenUp s (fun s => if s.isBay ∧ s.joined then keepTag frame s else s)

/-- The tag is read: the latest answer is less than 200 ms old and names a cabin 1 to N (R143). -/
def State.tagRead (s : State) : Option Nat :=
  match s.bu.tag with
  | some (c, at_) => if s.within at_ 200 ∧ 1 ≤ c ∧ c ≤ s.sl.sheet.n then some c else none
  | none => none

/-- The cabin of a new window: the tag's, else the cyclic successor of the cursor's last cabin, else
absent (R148, R167). -/
def State.arrivingCabin (s : State) : Option Nat :=
  match s.tagRead with
  | some c => some c
  | none => (s.ct.cursor s.ownBay).cabin.map (nextCabin s.sl.sheet.n)

/-- TAG_UNREAD when the tag is unread (R148, R167). -/
def raiseUnread (s : State) : State :=
  if s.tagRead.isSome then s else raise .tagUnread (s.arrivingCabin.getD 0) s

/-! ### Track events -/

/-- The four track lines, in the order in which a cabin meets them (R143). -/
inductive TrackLine where
  | arrive | align | closeMark | departLimit
  deriving DecidableEq, Repr

/-- Their codes in log summaries (log entry 15). -/
def lineCode : TrackLine → Nat
  | .arrive => 0 | .align => 1 | .closeMark => 2 | .departLimit => 3

/-- A track event out of sequence, logged with the line and the window state (R162). -/
def outOfSequence (l : TrackLine) (s : State) : State :=
  logBay 10 [byteOf (lineCode l), byteOf (windowCode s.bu.window.state)] s

/-- Change the window. -/
def State.onWindow (f : Window → Window) (s : State) : State :=
  s.onBu (fun b => { b with window := f b.window })

/-! ### Doors (R151, R153, R168, R170) -/

/-- A close is pending (R153). -/
def BayUnit.closePending (b : BayUnit) : Bool := b.closeDeferred || b.doorClose

/-- The doors are released and the gate opened; the report goes at once (R151, R168). The cabin is the detail
logged (log entry 15). -/
def releaseDoors (s : State) : State :=
  let s := s.onBu (fun b => { b with doorRelease := true, gateOpen := true, doorsOpen := true })
  let s := refreshLamp (s.onWindow (fun w => { w with state := .opened }))
  handBay (logBay 1 [cabinByte s.bu.window.cabin] s)

/-- The close is carried out on the lines; the report goes at once (R153). -/
def shutDoors (s : State) : State :=
  handBay (s.onBu (fun b => { b with
    doorRelease := false, gateOpen := false, doorClose := true, closeDeferred := false,
    doorsOpen := false }))

/-- The close of an OPEN window (R153, R170); `cause` is 0 for CLOSE_MARK, 1 for CLOSE DOORS and 2 before
a departure. -/
def closeWindow (cause : Nat) (s : State) : State :=
  let s := refreshLamp (s.onWindow (fun w => { w with state := .closing }))
  let deferred := !s.pins.gateClear
  let s := if deferred then s.onBu (fun b => { b with closeDeferred := true }) else shutDoors s
  logBay 3 [byteOf cause, flagByte deferred] s

/-- GATE_CLEAR: a deferred close is carried out at the change to clear (R153); the level stands under RESET
too (log entry 10). -/
def execGateClear (clear : Bool) (s : State) : Host.Outcome State Fault Refusal :=
  whenUp (s.onPins (fun p => { p with gateClear := clear })) (fun s =>
    if clear ∧ s.bu.closeDeferred then shutDoors s else s)

/-- DOOR_LOCKED: DOOR_CLOSE stays driven until it reads locked (R153); the level stands under RESET too (log
entry 10). -/
def execDoorLocked (locked : Bool) (s : State) : Host.Outcome State Fault Refusal :=
  whenUp (s.onPins (fun p => { p with doorLocked := locked })) (fun s =>
    if locked then s.onBu (fun b => { b with doorClose := false }) else s)

/-! ### Matching (R149, R150) -/

/-- A party's need fits a class (R149). -/
def needFits : Need → CabinClass → Bool
  | .any, .standard | .any, .stepFree => true
  | .stepFree, .stepFree => true
  | .priv, .priv => true
  | _, _ => false

/-- The walk stops after a match (R149). -/
def walkStops (cls : CabinClass) (sharing : Bool) (left : Nat) (matched : List Party) : Bool :=
  left == 0 || matched.length == 4 || cls == .priv || !sharing

/-- One skip (R149). -/
def Party.skip (limit : Nat) (p : Party) : Party :=
  let n := min 15 (p.skips + 1)
  { p with skips := n, locked := decide (limit ≤ n) }

/-- The matching walk (R149): what stays queued, what is matched, and the remaining capacity. -/
def matchWalk (cls : CabinClass) (sharing : Bool) (limit : Nat) :
    Nat → List Party → List Party → List Party × List Party × Nat
  | left, matched, [] => ([], matched, left)
  | left, matched, p :: ps =>
    if needFits p.need cls && decide (p.size ≤ left) then
      if walkStops cls sharing (left - p.size) (matched ++ [p]) then (ps, matched ++ [p], left - p.size)
      else matchWalk cls sharing limit (left - p.size) (matched ++ [p]) ps
    else if p.locked then (p :: ps, matched, left)
    else if needFits p.need cls then
      if (p.skip limit).locked then (p.skip limit :: ps, matched, left)
      else
        let r := matchWalk cls sharing limit left matched ps
        (p.skip limit :: r.1, r.2)
    else
      let r := matchWalk cls sharing limit left matched ps
      (p :: r.1, r.2)

/-- The walk made at an arrival (R148, R149); a matched STEP_FREE party sets the creep request (R159). -/
def matchParties (c : Cabin) (s : State) : State :=
  let sh := s.sl.sheet
  let r := matchWalk c.cls sh.sharing sh.skipLimit c.capacity [] s.bu.queue
  s.onBu (fun b => { b with
    queue := r.1
    window := { b.window with matched := r.2.1, remaining := r.2.2 }
    creep := b.creep || r.2.1.any (fun p => p.need == .stepFree) })

/-- A wanted grace begins (R150). -/
def beginGrace (c : Cabin) (s : State) : State :=
  raise .partyWanted (classCode c.cls * 256 + c.capacity)
    (s.onWindow (fun w => { w with grace := true }))

/-- The wanted grace ends. -/
def endGrace (s : State) : State := s.onWindow (fun w => { w with grace := false })

/-- The record of a cabin that may be boarded (R148). -/
def State.boardable? (s : State) (cabin : Option Nat) : Option Cabin :=
  match cabin.bind s.cabin? with
  | some c => if s.bu.boarding ∧ c.state = .empty ∧ ¬ c.outOfService then some c else none
  | none => none

/-! ### The entry window (R148, R151, R153 to R156) -/

/-- A new window at the entry bay (R148). -/
def openEntry (s : State) : State :=
  let read := s.tagRead.isSome
  let cabin := s.arrivingCabin
  let rec? := s.boardable? cabin
  let s := raiseUnread s
  let s := s.onBu (fun b => { b with
    window := { Window.idle with state := .arriving, cabin := cabin, boardable := rec?.isSome } })
  let s := match rec? with
    | some c =>
      let s := matchParties c s
      if s.bu.window.matched.isEmpty then beginGrace c s else s
    | none => s
  logBay 0 ([cabinByte cabin, flagByte read, flagByte rec?.isSome] ++ tagBytes s.bu.window.matched)
    (refreshLamp s)

/-- The tests of the door and the gate at a departure (R154, R171). -/
def departureTests (s : State) : State :=
  let s := if s.pins.doorLocked then s
    else declareHold .bay .stop .doorUnlocked (logBay 4 [byteOf (causeCode .doorUnlocked)] s)
  if s.pins.gateClear then s
  else declareHold .bay .halt .gate (logBay 4 [byteOf (causeCode .gate)] s)

/-- A passage made: it takes the serial, is applied to the own table, handed over and raised
(R154, R171). -/
def makePassage (c : Nat) (r : PassResult) (riders : Option Nat) (tags : List Half) (s : State) : State :=
  let serial := s.bu.serial
  let s := s.onBu (fun b => { b with
    serial := b.serial + 1
    summary := some { serial := serial, cabin := c, result := r, riders := riders } })
  let s := (applyPassage s.ownBay s.own
    { serial := serial, cabin := c, result := some r, riders := riders, tags := tags,
      isTelegram := true } s).1
  let s := handOver (.passage { serial := serial, cabin := byteOf c, result := byteOf (resultCode r),
                                riders := cabinByte riders, tags := tags }) false s
  raise .passage (c * 256 + resultCode r) s

/-- PARTY_BOARDED for each party in order (R154). -/
def boardParties : List Party → State → State
  | [], s => s
  | p :: ps, s => boardParties ps (raise .partyBoarded p.tag.toNat s)

/-- The sum of party sizes. -/
def sizeSum (ps : List Party) : Nat := (ps.map Party.size).sum

/-- The window becomes IDLE (R154, R171). -/
def endWindow (s : State) : State := refreshLamp (s.onWindow (fun _ => Window.idle))

/-- The entry window ends (R154, R155). The return of matched parties is logged as out of sequence under the
line DEPART_LIMIT, at a forced departure too (log entry 42). -/
def departEntry (s : State) : State :=
  let s := if s.bu.window.state = .arriving ∧ ¬ s.bu.window.matched.isEmpty then
      outOfSequence .departLimit (returnParties s) else s
  let s := departureTests s
  let w := s.bu.window
  let s := match w.cabin with
    | none => s
    | some c =>
      if w.matched.isEmpty then makePassage c .passed none [] s
      else
        let s := makePassage c .boarded (some (w.count.getD (sizeSum w.matched)))
          (w.matched.map Party.tag) s
        boardParties w.matched (s.onBu (fun b => { b with idleStart := s.now }))
  endWindow (s.onBu (fun b => { b with creep := false }))

/-- ARRIVE at the entry bay (R148, R156). -/
def arriveEntry (s : State) : State :=
  match s.bu.window.state with
  | .idle => openEntry s
  | .arriving | .closing => openEntry (departEntry (outOfSequence .arrive s))
  | .opened => openEntry (departEntry (closeWindow 2 (outOfSequence .arrive s)))

/-- ALIGN at the entry bay (R151). -/
def alignEntry (s : State) : State :=
  if s.bu.window.state = .arriving ∧ ¬ s.bu.window.aligned then
    let s := s.onWindow (fun w => { w with aligned := true, grace := false })
    if ¬ s.bu.window.matched.isEmpty ∧ s.bu.boarding ∧ ¬ s.bu.closePending then releaseDoors s else s
  else outOfSequence .align s

/-- CLOSE_MARK at the entry bay (R153, R155). -/
def closeMarkEntry (s : State) : State :=
  match s.bu.window.state with
  | .idle => outOfSequence .closeMark s
  | .arriving =>
    let s := endGrace s
    if s.bu.window.matched.isEmpty then s else outOfSequence .closeMark (returnParties s)
  | .opened => closeWindow 0 s
  | .closing => s

/-- DEPART_LIMIT at the entry bay (R154, R156). -/
def departLimitEntry (s : State) : State :=
  match s.bu.window.state with
  | .idle => outOfSequence .departLimit s
  | .arriving | .closing => departEntry s
  | .opened => departEntry (closeWindow 2 s)

/-- A track event is taken at a station of the line's role from JOINING on (R143, R166). -/
def atBay (r : Role) (f : State → State) (s : State) : Host.Outcome State Fault Refusal :=
  whenUp s (fun s => if s.role = r ∧ s.joined then f s else s)

/-- ARRIVE (R148). -/
def execArrive (s : State) : Host.Outcome State Fault Refusal := atBay .entry arriveEntry s

/-- ALIGN (R151). -/
def execAlign (s : State) : Host.Outcome State Fault Refusal := atBay .entry alignEntry s

/-- CLOSE_MARK (R153). -/
def execCloseMark (s : State) : Host.Outcome State Fault Refusal := atBay .entry closeMarkEntry s

/-- DEPART_LIMIT (R154). -/
def execDepartLimit (s : State) : Host.Outcome State Fault Refusal := atBay .entry departLimitEntry s

/-! ### The exit window (chapter 9) -/

/-- The state of the window's cabin in the own table; an absent cabin has none (R168, R169). -/
def State.windowCabin? (s : State) : Option Cabin := s.bu.window.cabin.bind s.cabin?

/-- A cabin record's state as a summary byte. -/
def cabinStateByte (c : Option Cabin) : Byte :=
  match c with
  | some x => byteOf (cabinStateCode x.state)
  | none => absentByte

/-- A new window at the exit bay (R167). -/
def openExit (s : State) : State :=
  let read := s.tagRead.isSome
  let cabin := s.arrivingCabin
  let s := raiseUnread s
  let s := s.onBu (fun b => { b with window := { Window.idle with state := .arriving, cabin := cabin } })
  logBay 0 [cabinByte cabin, flagByte read, cabinStateByte s.windowCabin?] (refreshLamp s)

/-- The result that the contact and the record give (R169). -/
def exitResult (c : Cabin) (empty : Bool) : PassResult :=
  if c.state = .empty then (if empty then .passedEmpty else .loadedFound)
  else (if empty then .cleared else .heldOver)

/-- A contact reading as a summary byte: empty 1, occupied 0, none FFH (log entry 15). -/
def contactByte (c : Option Bool) : Byte :=
  match c with
  | some b => flagByte b
  | none => absentByte

/-- A result as a summary byte. -/
def resultByte (r : Option PassResult) : Byte :=
  match r with
  | some x => byteOf (resultCode x)
  | none => absentByte

/-- The decision, made once (R169). -/
def decideExit (empty : Bool) (s : State) : State :=
  if s.bu.window.contact.isSome then s
  else
    let c := s.windowCabin?
    let r := c.map (fun c => exitResult c empty)
    let s := s.onWindow (fun w => { w with contact := some empty, result := r })
    logBay 2 [cabinByte s.bu.window.cabin, cabinStateByte c, flagByte empty, resultByte r] s

/-- A cabin held over for the third lap in a row (R172). -/
def carriedRound (c : Nat) (s : State) : State :=
  match s.cabin? c with
  | some r =>
    if r.laps = 3 then declareHold .bay .halt .carriedRound (logBay 9 [byteOf c] s) else s
  | none => s

/-- What an exit passage sets off (R171, R172). -/
def afterExitPassage (c : Nat) (r : PassResult) (s : State) : State :=
  match r with
  | .loadedFound => raise .loadedFound c s
  | .heldOver => carriedRound c s
  | .cleared | .passedEmpty | .boarded | .passed => s

/-- The departure at the exit bay (R171). For an absent cabin step 3 leaves out steps 4 to 6: the window
stands as it is until the next EXIT_ARRIVE (log entry 22). -/
def departExit (empty : Bool) (s : State) : State :=
  let s := if s.bu.window.cabin.isSome then decideExit empty s else s
  let s := departureTests s
  let w := s.bu.window
  match w.cabin, w.result with
  | some c, some r => endWindow (afterExitPassage c r (makePassage c r none [] s))
  | some _, none => endWindow s
  | none, _ => logBay 8 [contactByte w.contact] s

/-- ARRIVE at the exit bay (R167, R173). -/
def arriveExit (empty : Bool) (s : State) : State :=
  match s.bu.window.state with
  | .idle => openExit s
  | .arriving | .closing => openExit (departExit empty (outOfSequence .arrive s))
  | .opened => openExit (departExit empty (closeWindow 2 (outOfSequence .arrive s)))

/-- The doors are released for an absent cabin and for one not EMPTY (R168). -/
def State.exitReleases (s : State) : Bool :=
  match s.windowCabin? with
  | some c => c.state != .empty
  | none => true

/-- ALIGN at the exit bay (R168). -/
def alignExit (s : State) : State :=
  if s.bu.window.state = .arriving ∧ ¬ s.bu.window.aligned then
    let s := s.onWindow (fun w => { w with aligned := true })
    if s.exitReleases ∧ ¬ s.bu.closePending then releaseDoors s else s
  else outOfSequence .align s

/-- CLOSE_MARK at the exit bay (R169, R170). In OPEN the close is carried out also where the result was decided
before, though R169 says that such a CLOSE_MARK changes nothing (DESIGN CHOICE, log entry 49). -/
def closeMarkExit (empty : Bool) (s : State) : State :=
  match s.bu.window.state with
  | .idle => outOfSequence .closeMark s
  | .arriving | .closing => decideExit empty s
  | .opened => closeWindow 0 (decideExit empty s)

/-- DEPART_LIMIT at the exit bay (R171, R173). -/
def departLimitExit (empty : Bool) (s : State) : State :=
  match s.bu.window.state with
  | .idle => outOfSequence .departLimit s
  | .arriving | .closing => departExit empty s
  | .opened => departExit empty (closeWindow 2 s)

/-- EXIT_ARRIVE (R167). -/
def execExitArrive (empty : Bool) (s : State) : Host.Outcome State Fault Refusal :=
  atBay .exit (arriveExit empty) s

/-- EXIT_ALIGN (R168). -/
def execExitAlign (s : State) : Host.Outcome State Fault Refusal := atBay .exit alignExit s

/-- EXIT_CLOSE_MARK (R169). -/
def execExitCloseMark (empty : Bool) (s : State) : Host.Outcome State Fault Refusal :=
  atBay .exit (closeMarkExit empty) s

/-- EXIT_DEPART_LIMIT (R171). -/
def execExitDepartLimit (empty : Bool) (s : State) : Host.Outcome State Fault Refusal :=
  atBay .exit (departLimitExit empty) s

/-! ### What the host asks of a bay (R145, R146, R152, R153) -/

/-- A request's result code and answer data. -/
structure Verdict where
  code : Nat
  data : List Byte
  deriving DecidableEq, Repr

/-- A verdict without data. -/
def verdict (code : Nat) : Verdict := { code := code, data := [] }

/-- The station answers the requests that act with 13 (R39, R145). -/
def State.notActing (s : State) : Bool := s.sl.start == .sheetFault || s.sl.start == .listenOnly

/-- The largest capacity among the classes that serve a need (R145). -/
def largestCapacity (sh : Sheet) : Need → Nat
  | .any => max sh.capStandard sh.capStepFree
  | .stepFree => sh.capStepFree
  | .priv => sh.capPrivate

/-- The greatest size that a need admits; no sheet stands in SHEET_FAULT (log entry 19). -/
def State.sizeLimit (s : State) (n : Need) : Nat := if s.joined then largestCapacity s.sl.sheet n else 25

/-- A tag is held by a queued party, or by one matched in a window not IDLE (R145). -/
def BayUnit.tagHeld (t : Half) (b : BayUnit) : Bool :=
  b.queue.any (fun p => p.tag == t) || b.window.matched.any (fun p => p.tag == t)

/-- The places taken toward the full test (R145). -/
def BayUnit.placesTaken (b : BayUnit) : Nat :=
  b.queue.length + (if b.window.state = .arriving then b.window.matched.length else 0)

/-- A party joins the end of the queue and is offered to a pending grace (R145, R150). -/
def joinQueue (p : Party) (s : State) : State × Verdict :=
  let taken := match s.windowCabin? with
    | some c => s.bu.window.grace && !(s.bu.queue.any (·.locked)) && needFits p.need c.cls
        && decide (p.size ≤ c.capacity)
    | none => false
  if taken then
    (s.onBu (fun b => { b with
      window := { b.window with matched := b.window.matched ++ [p],
                                remaining := b.window.remaining - p.size, grace := false }
      creep := b.creep || p.need == .stepFree }), { code := 0, data := [0] })
  else
    (s.onBu (fun b => { b with queue := b.queue ++ [p] }),
      { code := 0, data := [byteOf (s.bu.queue.length + 1)] })

/-- SUBMIT PARTY past its parameters (R145). -/
def submitJudged (tag : Half) (size : Nat) (need : Need) (s : State) : State × Verdict :=
  if s.notActing then (s, verdict 13)
  else if s.hu.effect.atLeast .empty then (s, verdict 8)
  else if s.bu.tagHeld tag then (s, verdict 5)
  else if 16 ≤ s.bu.placesTaken then (s, verdict 4)
  else joinQueue { tag := tag, size := size, need := need, skips := 0, locked := false } s

/-- SUBMIT PARTY (R145). -/
def submitParty (tag : Half) (size need : Byte) (s : State) : State × Verdict :=
  if s.role ≠ .entry then (s, verdict 1)
  else
    match needOf need.toNat with
    | none => (s, verdict 3)
    | some n =>
      if tag = 0 ∨ size = 0 ∨ s.sizeLimit n < size.toNat then (s, verdict 3)
      else submitJudged tag size.toNat n s

/-- WITHDRAW PARTY (R146). -/
def withdrawParty (tag : Half) (s : State) : State × Verdict :=
  if s.role ≠ .entry then (s, verdict 1)
  else if tag = 0 then (s, verdict 3)
  else if s.notActing then (s, verdict 13)
  else if s.bu.queue.any (fun p => p.tag == tag) then
    (raise .partyWithdrawn tag.toNat
      (s.onBu (fun b => { b with queue := b.queue.filter (fun p => p.tag != tag) })), verdict 0)
  else if s.bu.window.matched.any (fun p => p.tag == tag) then (s, verdict 7)
  else (s, verdict 6)

/-- The window is OPEN or CLOSING. -/
def BayUnit.inService (b : BayUnit) : Bool := b.window.state == .opened || b.window.state == .closing

/-- The residue of a rider count (R152). -/
def BayUnit.residue (b : BayUnit) (riders : Nat) : Int := (sizeSum b.window.matched : Int) - riders

/-- A rider count taken (R152). -/
def takeCount (riders : Nat) (s : State) : State × Verdict :=
  let residue := signed16 (s.bu.residue riders)
  let s := s.onWindow (fun w => { w with count := some riders })
  let s := logBay 5 (byteOf riders :: residue) s
  let s := match s.windowCabin? with
    | some c => if c.capacity < riders then declareHold .bay .halt .overload s else s
    | none => s
  (s, { code := 0, data := residue })

/-- REPORT COUNT (R152). -/
def reportCount (riders : Byte) (s : State) : State × Verdict :=
  if s.role ≠ .entry then (s, verdict 1)
  else if s.notActing then (s, verdict 13)
  else if s.bu.inService then takeCount riders.toNat s
  else (s, verdict 11)

/-- CLOSE DOORS (R153, R170). -/
def closeDoors (s : State) : State × Verdict :=
  if s.isBay = false then (s, verdict 1)
  else if s.sl.start = .sheetFault then (s, verdict 13)
  else
    match s.bu.window.state with
    | .idle | .arriving => (s, verdict 11)
    | .opened => (closeWindow 1 s, verdict 0)
    | .closing => (s, verdict 0)

end Sys2Proof.Machine
end

