-- ==== Sys2Proof/Machine/Link.lean ====
section
/-! DEFINITION. LC (chapter 2): sending, the judgement of echoes, line faults, the duplicate station, and
the reception of a telegram with its acceptance, its owner and its log entry. -/

namespace Sys2Proof.Machine

/-! ### Sending (R25, R28, R29, R32, R40) -/

/-- The telegram to try (R25, R41): the head of the waiting telegrams in RUNNING, the first PRESENCE in
JOINING and in a SHEET_FAULT without a duplicate. -/
def State.sendable (s : State) : Option QEntry :=
  let presence := s.lc.waiting.find? (fun e => payloadKind e.payload == .presence)
  match s.sl.start with
  | .running => s.lc.waiting.head?
  | .joining => presence
  | .sheetFault => if s.lc.duplicate then none else presence
  | .loading | .listenOnly => none

/-- The station time is written into a MARK at each attempt (R58). -/
def stampPayload (time : Stamp) : Payload → Payload
  | .mark _ => .mark { time := time }
  | p => p

/-- The telegram of an attempt: it carries the next-sequence value (R29). -/
def State.attempt (s : State) (e : QEntry) : Telegram :=
  { sender := BitVec.ofNat 5 s.own, seq := s.lc.nextSeq, payload := stampPayload s.time e.payload }

/-- TRANSMISSION_START (R25). -/
def execTransmissionStart (s : State) : Host.Outcome State Fault Refusal :=
  whenUp s (fun s =>
    match s.lc.sending, s.sendable with
    | none, some e =>
      let x : Sending := { no := e.no, telegram := s.attempt e }
      s.onLc (fun l => { l with sending := some x, echoDue := none })
    | _, _ => s)

/-- ARBITRATION_LOST: the telegram returns to waiting, no count changes (R28). -/
def execArbitrationLost (s : State) : Host.Outcome State Fault Refusal :=
  whenUp s (fun s => s.onLc (fun l => { l with sending := none }))

/-- A line fault: raised and logged at the first of an episode (R40). -/
def lineFault (case_ : Nat) (s : State) : State :=
  if s.lc.lineFault then s
  else
    s.onLc (fun l => { l with lineFault := true })
      |> raise .lineFault case_
      |> logLocal .lc 3 [byteOf case_]

/-- An intact echo: the telegram leaves, the sequence advances, the episode ends (R32). -/
def Link.echoIntact (x : Sending) (l : Link) : Link :=
  { l.dropEntry x.no with
    nextSeq := l.nextSeq + 1
    sending := none
    echoDue := some x.telegram
    echoFails := 0
    lineFault := false }

/-- One receive error (R33). -/
def Link.countError (l : Link) : Link := { l with rxErrors := min 65535 (l.rxErrors + 1) }

/-- A newer telegram waits beside a failed one as its superseder (R32). -/
def Link.superseded (no : Nat) (l : Link) : Bool :=
  match l.queue.find? (fun e => e.no == no) with
  | some f => l.queue.any (fun e => f.no < e.no && supersedes e.payload e.refresh f)
  | none => false

/-- A failed echo (R32). -/
def Link.echoFailed (x : Sending) (l : Link) : Link :=
  let l := if l.superseded x.no then l.dropEntry x.no else l
  { l.countError with echoFails := l.echoFails + 1, sending := none }

/-- The end of a transmission (R32). -/
def endTransmission (intact : Bool) (x : Sending) (s : State) : State :=
  if intact then s.onLc (·.echoIntact x)
  else
    let s := s.onLc (·.echoFailed x)
    if 3 ≤ s.lc.echoFails then lineFault 2 s else s

/-- TRANSMISSION_COMPLETE (R32). -/
def execTransmissionComplete (intact : Bool) (s : State) : Host.Outcome State Fault Refusal :=
  whenUp s (fun s =>
    match s.lc.sending with
    | some x => endTransmission intact x s
    | none => s)

/-- LINE_DOMINANT_TIMEOUT: found only with a telegram waiting (R40). -/
def execLineDominantTimeout (s : State) : Host.Outcome State Fault Refusal :=
  whenUp s (fun s => if s.lc.waiting.isEmpty then s else lineFault 1 s)

/-- TELEGRAM_CHECK_FAILED: bytes that carry no telegram are discarded and counted (R33). -/
def execTelegramCheckFailed (frame : List Byte) (s : State) : Host.Outcome State Fault Refusal :=
  whenUp s (fun s => if (telegramOf frame).isNone then s.onLc (·.countError) else s)

/-! ### Start states (R193) -/

/-- Enter a start state; the change is logged whatever the masks (R181, R193). -/
def setStart (st : StartState) (s : State) : State :=
  let prev := startCode s.sl.start s.sl.settled
  let s := s.onSl (fun l => { l with start := st })
  logLocal .sl 1 [byteOf prev, byteOf (startCode st s.sl.settled)] s

/-! ### Duplicates (R38, R39) -/

/-- The entry into LISTEN_ONLY (R39); from JOINING settling is counted as though RUNNING had been entered
(R193). -/
def enterListenOnly (s : State) : State :=
  let s := if s.sl.start = .joining then s.onSl (fun l => { l with runningAt := l.joinedAt + 2000 }) else s
  let s := s.onLc (fun l => { l with queue := [], sending := none })
  formBoarding (listenFault (setStart .listenOnly s))

/-- The first telegram of a duplicate station (R38). -/
def foundDuplicate (s : State) : State :=
  let s := s.onLc (fun l => { l with duplicate := true })
  let s := logLocal .lc 2 [byteOf s.own] (raise .dupStation s.own s)
  if s.sl.start = .joining ∨ s.sl.start = .running then enterListenOnly s else s

/-- A telegram under the own number that is no echo (R38). -/
def receiveDuplicate (t : Telegram) (s : State) : State :=
  let s := if s.lc.duplicate then s else foundDuplicate s
  logTelegram (s.sl.sheet.roleAt t.sender.toNat) t .refused s

/-! ### Acceptance (R34 to R36) -/

/-- The roles that may send a HOLD of a kind (R35). -/
def mayHold (r : Role) : HoldKind → Bool
  | .storm | .wind => r == .mast
  | .bay => r == .entry || r == .exit
  | .desk => r == .desk
  | .link => r != .unfitted

/-- The same by kind code. -/
def mayHoldCode (r : Role) (code : Byte) : Bool :=
  match holdKindOf code.toNat with
  | some k => mayHold r k
  | none => false

/-- The fixed acceptance table for a roster role (R35). -/
def tableAccepts (r : Role) (timeSource : BitVec 24) (t : Telegram) : Bool :=
  match t.payload with
  | .presence _ => true
  | .mark _ => r != .unfitted && timeSource.getLsbD t.sender.toNat
  | .hold p => mayHoldCode r p.kind
  | .release p =>
    if p.reason = 1 then r == .desk else mayHoldCode r p.kind && p.declarer.toNat == t.sender.toNat
  | .motion _ => r == .drive
  | .passage _ | .bay _ => r == .entry || r == .exit
  | .wind _ => r == .mast
  | .order _ | .service _ => r == .desk

/-- The place of a kind in the refuse mask; PRESENCE has none (R36, 11.6.4). -/
def maskPlace : Kind → Option Nat
  | .presence => none
  | .mark => some 8
  | .hold => some 0 | .release => some 1 | .motion => some 2 | .passage => some 3 | .bay => some 4
  | .wind => some 5 | .order => some 6 | .service => some 7

/-- The refuse mask marks a role and a kind (R36). -/
def maskRefuses (mask : BitVec 48) (r : Role) (k : Kind) : Bool :=
  match maskPlace k with
  | some p => r != .unfitted && mask.getLsbD (9 * roleIndex r + p)
  | none => false

/-- The outcomes of R34. -/
inductive Judged where
  | ignore
  | refuse (byMask : Bool)
  | accept
  deriving DecidableEq, Repr

/-- Stages 4 to 7 of R34. -/
def State.judge (s : State) (t : Telegram) : Judged :=
  let k := payloadKind t.payload
  let r := s.sl.sheet.roleAt t.sender.toNat
  if (s.peer t.sender.toNat).state = .foreign ∧ k ≠ .presence then .ignore
  else if tableAccepts r s.sl.sheet.timeSource t = false then .refuse false
  else if maskRefuses s.sl.sheet.refuseMask r k then .refuse true
  else .accept

/-! ### Owners (R37) -/

/-- The owner takes the content of an accepted telegram (R37). -/
def giveOwner (t : Telegram) (s : State) : State × LogOutcome :=
  let n := t.sender.toNat
  let r := s.sl.sheet.roleAt n
  match t.payload with
  | .hold p => takeHold n p s
  | .release p => if p.reason = 1 then takeOverride p s else takeRelease n p s
  | .motion _ => (s, .accepted)
  | .passage p => takePassage r n p s
  | .bay p => takeSummary r n p s
  | .wind p => takeWind n t.seq p s
  | .order p => takeOrder n p s
  | .service p => takeService n p s
  | .presence _ => (s, .accepted)
  | .mark p => takeMark n p s

/-- A refusal: fault record, PEER_REFUSED, log entry (R37). -/
def refuseTelegram (t : Telegram) (byMask : Bool) (s : State) : State :=
  let n := t.sender.toNat
  let k := payloadKind t.payload
  s.onPeer n (fun p => { p with fault := some (FaultRecord.count k byMask s.time p.fault) })
    |> raise .peerRefused (n * 256 + kindCode k)
    |> logTelegram (s.sl.sheet.roleAt n) t .refused

/-- An accepted telegram: peer view, owner, log entry (R37). -/
def acceptTelegram (t : Telegram) (s : State) : State :=
  let r := giveOwner t (pvTake t true s)
  logTelegram (s.sl.sheet.roleAt t.sender.toNat) t r.2 r.1

/-- An ignored telegram: peer view and log entry (R37). -/
def ignoreTelegram (t : Telegram) (s : State) : State :=
  logTelegram (s.sl.sheet.roleAt t.sender.toNat) t .ignored (pvTake t false s)

/-- Stages 3 to 7 of R34 and their outcome. -/
def judgeTelegram (t : Telegram) (s : State) : State :=
  if s.joined = false then s
  else
    match s.judge t with
    | .ignore => ignoreTelegram t s
    | .refuse byMask => refuseTelegram t byMask s
    | .accept => acceptTelegram t s

/-- A telegram is the echo of the transmission just completed (R34 stage 1). -/
def State.isEcho (s : State) (t : Telegram) : Bool :=
  t.sender.toNat == s.own && s.lc.echoDue == some t

/-- A received telegram that passed its check (R33, R34). -/
def receive (t : Telegram) (s : State) : State :=
  if telegramOk t = false then s.onLc (·.countError)
  else
    let echo := s.isEcho t
    let s := s.onLc (fun l => { l with echoDue := none })
    if t.sender.toNat = s.own ∧ echo = false ∧ s.sl.start ≠ .loading then receiveDuplicate t s
    else judgeTelegram t s

/-- A telegram received. -/
def execReceive (sender : BitVec 5) (seq : Byte) (p : Payload) (s : State) :
    Host.Outcome State Fault Refusal :=
  whenUp s (receive { sender := sender, seq := seq, payload := p })

/-- HOLD_RECEIVED (R82). -/
def execHoldReceived (sender : BitVec 5) (seq : Byte) (p : HoldPayload) (s : State) :
    Host.Outcome State Fault Refusal := execReceive sender seq (.hold p) s

/-- RELEASE_RECEIVED (R83, R84). -/
def execReleaseReceived (sender : BitVec 5) (seq : Byte) (p : ReleasePayload) (s : State) :
    Host.Outcome State Fault Refusal := execReceive sender seq (.release p) s

/-- MOTION_RECEIVED (R53). -/
def execMotionReceived (sender : BitVec 5) (seq : Byte) (p : MotionPayload) (s : State) :
    Host.Outcome State Fault Refusal := execReceive sender seq (.motion p) s

/-- PASSAGE_RECEIVED (R129). -/
def execPassageReceived (sender : BitVec 5) (seq : Byte) (p : PassagePayload) (s : State) :
    Host.Outcome State Fault Refusal := execReceive sender seq (.passage p) s

/-- BAY_RECEIVED (R135). -/
def execBayReceived (sender : BitVec 5) (seq : Byte) (p : BayPayload) (s : State) :
    Host.Outcome State Fault Refusal := execReceive sender seq (.bay p) s

/-- WIND_RECEIVED (R62). -/
def execWindReceived (sender : BitVec 5) (seq : Byte) (p : WindPayload) (s : State) :
    Host.Outcome State Fault Refusal := execReceive sender seq (.wind p) s

/-- ORDER_RECEIVED (R105). -/
def execOrderReceived (sender : BitVec 5) (seq : Byte) (p : OrderPayload) (s : State) :
    Host.Outcome State Fault Refusal := execReceive sender seq (.order p) s

/-- SERVICE_RECEIVED (R137). -/
def execServiceReceived (sender : BitVec 5) (seq : Byte) (p : ServicePayload) (s : State) :
    Host.Outcome State Fault Refusal := execReceive sender seq (.service p) s

/-- PRESENCE_RECEIVED (R48). -/
def execPresenceReceived (sender : BitVec 5) (seq : Byte) (p : PresencePayload) (s : State) :
    Host.Outcome State Fault Refusal := execReceive sender seq (.presence p) s

/-- MARK_RECEIVED (R59). -/
def execMarkReceived (sender : BitVec 5) (seq : Byte) (p : MarkPayload) (s : State) :
    Host.Outcome State Fault Refusal := execReceive sender seq (.mark p) s

end Sys2Proof.Machine
end

