-- ==== Sys2Proof/Machine/Wmu.lean ====
section
/-! DEFINITION. WMU (chapter 1): the measurement window in its eight stages, the cup pulses, and the
commands of the table that belong to them. -/

namespace Sys2Proof.Machine

/-! ### Settings (R3, R23) -/

/-- A channel that no sheet settings enable. -/
def ChannelCfg.off : ChannelCfg := { enabled := false, reference := false, cal := 0, weight := 0 }

/-- The settings of a channel of a slot. -/
def SlotCfg.channel (g : SlotCfg) (i : Nat) : ChannelCfg := g.channels.getD i .off

/-- The station's slot: its rank among the MAST numbers (R23). -/
def State.ownSlot (s : State) : SlotCfg :=
  s.sl.sheet.slots.getD ((s.sl.sheet.stationsOf .mast).idxOf s.own) { channels := [], exposure := [] }

/-- A change of every enabled channel (R3). -/
def mapEnabled (g : SlotCfg) (f : Nat → ChannelCfg → Channel → Channel) (cs : List Channel) :
    List Channel :=
  cs.mapIdx (fun i c => if (g.channel i).enabled then f i (g.channel i) c else c)

/-- An enabled channel that is not STUCK (R3). -/
def SlotCfg.working (g : SlotCfg) (i : Nat) (c : Channel) : Bool :=
  (g.channel i).enabled && c.state == .working

/-! ### Stages 1 and 2 (R2, R4 to R6) -/

/-- The quotient of R4 before its clamp. -/
def windRun (cal p : Nat) : Nat := p * cal / 250

/-- A new sample joins the gust ring (R5). -/
def joinRing (ring : List Nat) (x : Nat) : List Nat :=
  if ring.length < 12 then ring ++ [x] else ring.drop 1 ++ [x]

/-- The scaled mean after a sample; the shift rounds toward minus infinity (R6). -/
def nextMean (k x m16 : Nat) (started : Bool) : Nat :=
  if started then ((m16 : Int) + ((16 * x : Int) - m16) / (2 ^ k : Nat)).toNat else 16 * x

/-- The pulse count latched and the counter started again (R2). -/
def Channel.latch (c : Channel) : Channel := { c with p := c.counter, counter := 0 }

/-- Stage 2 of a channel: sample, gust, mean (R4, R5, R6). -/
def Channel.measure (k : Nat) (g : ChannelCfg) (c : Channel) : Channel :=
  let x := clamp16 (windRun g.cal c.p)
  let ring := joinRing c.ring x
  let m16 := nextMean k x c.m16 c.meanStarted
  { c with sample := x, ring := ring, ringSum := ring.sum, gust := ring.sum / 12, m16 := m16,
           meanStarted := true, mean := m16 / 16 }

/-! ### Stage 3 (R13 to R17) -/

/-- Another working channel shows wind; states as they stood before stage 3 (R13). -/
def windElsewhere (g : SlotCfg) (cs : List Channel) (i : Nat) : Bool :=
  (List.range 4).any (fun j => j != i && (match cs[j]? with
    | some c => g.working j c && decide (3000 ≤ c.gust)
    | none => false))

/-- The STUCK state of a channel (R13, R14). -/
def Channel.judgeStuck (wind : Bool) (c : Channel) : Channel :=
  match c.state with
  | .working =>
    if c.p = 0 ∧ wind then
      if 30000 ≤ c.zeroTime + 250 then { c with state := .stuck, zeroTime := 0, recovery := 0 }
      else { c with zeroTime := c.zeroTime + 250 }
    else { c with zeroTime := 0 }
  | .stuck =>
    if c.p = 0 then { c with recovery := 0 }
    else if 10 ≤ c.recovery + 1 then { c with state := .working, zeroTime := 0, recovery := 0 }
    else { c with recovery := c.recovery + 1 }

/-- R4 flags the channel OVERRANGE. -/
def overRange (cal p : Nat) : Bool := decide (65535 < windRun cal p) || decide (1023 ≤ p)

/-- The OVERRANGE flags of a channel (R15). -/
def Channel.judgeOver (g : ChannelCfg) (c : Channel) : Channel :=
  { c with overrange := overRange g.cal c.p, overrangeMark := c.overrangeMark || overRange g.cal c.p }

/-- Stage 3 of every enabled channel. -/
def judgeChannels (g : SlotCfg) (cs : List Channel) : List Channel :=
  mapEnabled g (fun i h c => (c.judgeStuck (windElsewhere g cs i)).judgeOver h) cs

/-- The changes of a channel's fault, in the order of R17's table. -/
def faultChanges (old new : Channel) : List Nat :=
  (if old.state = .working ∧ new.state = .stuck then [1] else [])
    ++ (if old.state = .stuck ∧ new.state = .working then [2] else [])
    ++ (if old.overrange = false ∧ new.overrange then [3] else [])

/-- CHANNEL_FAULT and the log entry of one change (R17, R22). -/
def reportFault (i : Nat) (gust : Nat) (s : State) (change : Nat) : State :=
  raise .channelFault (i * 256 + change) s
    |> logLocal .wmu 1 ([byteOf i, byteOf change] ++ be16n gust)

/-- The changes of the channels from number i on, in channel order. -/
def reportFaults : Nat → List Channel → List Channel → State → State
  | i, o :: os, n :: ns, s =>
    reportFaults (i + 1) os ns ((faultChanges o n).foldl (reportFault i n.gust) s)
  | _, _, _, s => s

/-! ### Stage 4 (R7 to R9) -/

/-- The exposure of a channel (R7). -/
def Channel.expose (weight : Nat) (c : Channel) : Channel :=
  { c with exposure := clamp16 (c.gust * weight / 128) }

/-- The exposure of the working reference, when there is one (R8). -/
def referenceExposure (g : SlotCfg) (cs : List Channel) : Option Nat :=
  (List.range 4).findSome? (fun i => match cs[i]? with
    | some c => if g.working i c && (g.channel i).reference then some c.exposure else none
    | none => none)

/-- The adjusted exposure (R8). -/
def adjust (er : Option Nat) (h : ChannelCfg) (c : Channel) : Option Nat :=
  match er, c.state with
  | some e, .working =>
    if h.reference then some c.exposure else some (clamp16 (max c.exposure (e * h.weight / 128)))
  | some e, .stuck => if h.reference then none else some (clamp16 (e * h.weight / 128))
  | none, .working => some c.exposure
  | none, .stuck => none

/-- A: the greatest adjusted exposure (R9). -/
def greatestExposure (g : SlotCfg) (cs : List Channel) : Nat :=
  (cs.mapIdx (fun i c => if (g.channel i).enabled then c.adjusted.getD 0 else 0)).foldl max 0

/-- T: the greatest lead of the gust over the mean among the working channels (R9). -/
def turbulence (g : SlotCfg) (cs : List Channel) : Nat :=
  (cs.mapIdx (fun i c => if g.working i c then c.gust - c.mean else 0)).foldl max 0

/-- V (R9). -/
def assessedValue (spread a t : Nat) : Nat := min 65535 (a + (t - spread) / 2)

/-- The mast has a working channel (R16). -/
def anyWorking (g : SlotCfg) (cs : List Channel) : Bool :=
  (cs.mapIdx (fun i c => g.working i c)).any id

/-- Stage 4 on the channels. -/
def exposeChannels (g : SlotCfg) (sector : Nat) (cs : List Channel) : List Channel :=
  let cs := mapEnabled g (fun _ _ c => c.expose (g.exposure.getD sector 0)) cs
  let er := referenceExposure g cs
  mapEnabled g (fun _ h c => { c with adjusted := adjust er h c }) cs

/-- Stage 4: exposures, A, T and V (R7, R8, R9, R16). -/
def Wmu.assess (g : SlotCfg) (spread : Nat) (w : Wmu) : Wmu :=
  let cs := exposeChannels g w.sector w.channels
  if anyWorking g cs then
    let a := greatestExposure g cs
    let t := turbulence g cs
    { w with channels := cs, a := a, t := t, v := assessedValue spread a t }
  else { w with channels := cs, a := 0, t := 0, v := 0 }

/-! ### Stage 6: the level (R11, R12, R16) -/

/-- The level of a code 0 to 4. -/
def levelAt (n : Nat) : WindLevel := (windOf n).getD .calm

/-- The highest level above the current one whose enter threshold V reaches (R11). -/
def riseTo (sh : Sheet) (v cur : Nat) : Option Nat :=
  [4, 3, 2, 1].find? (fun j => decide (cur < j) && decide (sh.enter.getD (j - 1) 0 ≤ v))

/-- Level and dwell timer after a window (R11, R12). -/
def nextLevel (sh : Sheet) (v cur dwell : Nat) : Nat × Nat :=
  match riseTo sh v cur with
  | some j => (j, 0)
  | none =>
    if cur = 0 then (0, 0)
    else if sh.leave.getD (cur - 1) 0 ≤ v then (cur, 0)
    else if sh.dwell.getD (cur - 1) 0 * 1000 ≤ dwell + 250 then (cur - 1, 0)
    else (cur, dwell + 250)

/-- Stage 6 (R11, R12, R16). -/
def Wmu.levelStage (g : SlotCfg) (sh : Sheet) (w : Wmu) : Wmu :=
  if anyWorking g w.channels then
    let r := nextLevel sh w.v (windCode w.level) w.dwell
    { w with level := levelAt r.1, dwell := r.2, blind := false }
  else { w with blind := true }

/-- A level change, entering BLIND included (R16, R19, R22). -/
def levelChanged (old new : Wmu) : Bool := old.level != new.level || (!old.blind && new.blind)

/-- The level as reported and logged: BLIND in place of a level (R18, R22). -/
def Wmu.shown (w : Wmu) : WindLevel := if w.blind then .blind else w.level

/-- The log entry of a level change (R22). -/
def logLevel (old new : Wmu) (s : State) : State :=
  logLocal .wmu 0 ([byteOf (windCode old.shown), byteOf (windCode new.shown)] ++ be16n new.v) s

/-! ### Stage 7: the mast's holds (R20, R21) -/

/-- What a level change hands to the hold unit. -/
def handLevelHolds (old new : WindLevel) (s : State) : State :=
  if windCode old < windCode new then
    match new with
    | .storm => declareHold .storm .stop .level s
    | .hold => declareHold .wind .empty .level s
    | .calm | .breeze | .gusty | .blind => s
  else
    match old, new with
    | .storm, .hold => releaseOwn .storm (declareHold .wind .empty .level s)
    | .hold, .gusty => releaseOwn .wind s
    | _, _ => s

/-! ### Stage 8: reports (R18, R19) -/

/-- The report period in ms (R19). -/
def Wmu.reportPeriod (now : Nat) (w : Wmu) : Nat :=
  if w.level ≠ .calm ∨ w.blind ∨ now < w.changeAt + 60000 then 1000 else 4000

/-- The WIND report (R18). -/
def Wmu.report (w : Wmu) : WindPayload :=
  { level := byteOf (windCode w.shown)
    v := BitVec.ofNat 16 w.v
    a := BitVec.ofNat 16 w.a
    t := BitVec.ofNat 16 w.t
    sector := byteOf w.sector
    faults := windFaults (w.channels.map (fun c => c.state == .stuck))
      (w.channels.map (fun c => c.overrangeMark)) }

/-- Queue a WIND report: the marks are cleared and the period starts again (R18, R19). -/
def sendWind (s : State) : State :=
  let p := s.wmu.report
  let s := s.onWmu (fun w => { w with
    channels := w.channels.map (fun c => { c with overrangeMark := false })
    reportAt := s.now })
  handOver (.wind p) false s

/-- Stage 8 (R19); `forced` is a level change or the end of warm-up. -/
def reportWind (forced : Bool) (s : State) : State :=
  if forced ∨ s.elapsed s.wmu.reportAt (s.wmu.reportPeriod s.now) then sendWind s else s

/-! ### The window (R1) -/

/-- Stage 1, with the window that opens at the close (R1, R2). -/
def Wmu.latchAll (g : SlotCfg) (vane : BitVec 4) (now : Nat) (w : Wmu) : Wmu :=
  { w with
    channels := mapEnabled g (fun _ _ c => c.latch) w.channels
    sector := vaneSector vane
    windowFrom := some now
    windows := min 12 (w.windows + 1) }

/-- Stages 1 and 2 (R2, R4 to R6). -/
def Wmu.measured (g : SlotCfg) (k : Nat) (vane : BitVec 4) (now : Nat) (w : Wmu) : Wmu :=
  { w.latchAll g vane now with
    channels := mapEnabled g (fun _ h c => c.latch.measure k h) w.channels }

/-- Stage 3 (R13 to R15). -/
def Wmu.judged (g : SlotCfg) (w : Wmu) : Wmu := { w with channels := judgeChannels g w.channels }

/-- Stages 1 to 4: what a close leaves in the WMU before the level is judged. -/
def Wmu.closed (g : SlotCfg) (sh : Sheet) (vane : BitVec 4) (now : Nat) (w : Wmu) : Wmu :=
  ((w.measured g sh.k vane now).judged g).assess g sh.spread

/-- Stages 6 to 8, once warm-up has ended (R10, R11, R12, R16, R19 to R22). -/
def levelAndReport (old : Wmu) (s : State) : State :=
  let g := s.ownSlot
  let first := old.windows < 12
  let s := s.onWmu (·.levelStage g s.sl.sheet)
  let changed := levelChanged old s.wmu
  let new := s.wmu
  let s := if changed ∨ first then s.onWmu (fun w => { w with changeAt := s.now }) else s
  let s := if changed then logLevel old new s else s
  let s := handLevelHolds old.level new.level s
  reportWind (changed || first) s

/-- The close of a window: the eight stages as one operation (R1). -/
def windowClose (vane : BitVec 4) (s : State) : State :=
  let g := s.ownSlot
  let sh := s.sl.sheet
  let old := s.wmu
  let m := old.measured g sh.k vane s.now
  let s := reportFaults 0 m.channels (m.judged g).channels s
  let s := s.onWmu (fun _ => old.closed g sh vane s.now)
  if s.wmu.windows < 12 then s else levelAndReport old s

/-- A close is due: 250 ms after the window opened, at a MAST from JOINING on (R1). -/
def State.windowDue (s : State) : Bool :=
  s.role == .mast && s.joined && (match s.wmu.windowFrom with
    | some t => s.elapsed t 250
    | none => false)

/-- WINDOW_CLOSE (R1). -/
def execWindowClose (vane : BitVec 4) (s : State) : Host.Outcome State Fault Refusal :=
  whenUp s (fun s => if s.windowDue then windowClose vane s else s)

/-- The due close with an occasion that its outcome shows; otherwise the occasion is absent and nothing
happens (log entries 3 and 4). -/
def closeWhen (vane : BitVec 4) (occasion : Wmu → Wmu → Bool) (s : State) : State :=
  let t := windowClose vane s
  if s.windowDue && occasion s.wmu t.wmu then t else s

/-- WARM_UP_END: the close of the 12th window (R10). -/
def execWarmUpEnd (vane : BitVec 4) (s : State) : Host.Outcome State Fault Refusal :=
  whenUp s (closeWhen vane (fun w w' => decide (w.windows < 12) && w'.windows == 12))

/-- LEVEL_DWELL_EXPIRY: the close at which the level falls (R12). -/
def execLevelDwellExpiry (vane : BitVec 4) (s : State) : Host.Outcome State Fault Refusal :=
  whenUp s (closeWhen vane (fun w w' => decide (windCode w'.level < windCode w.level)))

/-- The fault state of a channel. -/
def Wmu.channelState (w : Wmu) (ch : Nat) : ChannelState :=
  match w.channels[ch]? with
  | some c => c.state
  | none => .working

/-- STUCK_ENTRY: the close at which the channel becomes STUCK (R13). -/
def execStuckEntry (ch : Fin 4) (vane : BitVec 4) (s : State) : Host.Outcome State Fault Refusal :=
  whenUp s (closeWhen vane (fun w w' =>
    w.channelState ch.val == .working && w'.channelState ch.val == .stuck))

/-- STUCK_RECOVERY: the close at which the channel returns to WORKING (R14). -/
def execStuckRecovery (ch : Fin 4) (vane : BitVec 4) (s : State) : Host.Outcome State Fault Refusal :=
  whenUp s (closeWhen vane (fun w w' =>
    w.channelState ch.val == .stuck && w'.channelState ch.val == .working))

/-- WIND_REPORT_PERIOD: the close at which the report period is reached (R19). -/
def execWindReportPeriod (vane : BitVec 4) (s : State) : Host.Outcome State Fault Refusal :=
  whenUp s (closeWhen vane (fun w w' =>
    w.windows == 12 && s.elapsed w.reportAt (w'.reportPeriod s.now)))

/-- CUP_PULSE: counted on an enabled channel while a window is open (R2). -/
def execCupPulse (ch : Fin 4) (s : State) : Host.Outcome State Fault Refusal :=
  whenUp s (fun s =>
    if s.role = .mast ∧ s.wmu.windowFrom.isSome ∧ (s.ownSlot.channel ch.val).enabled then
      s.onWmu (fun w => { w with
        channels := w.channels.modify ch.val (fun c => { c with counter := min 1023 (c.counter + 1) }) })
    else s)

end Sys2Proof.Machine
end

