-- ==== Sys2Proof/Machine/SheetRead.lean ====
section
/-! DEFINITION. SL's reading of the station sheet: the layout of 11.6.4, the digest, and the ranges that
R192 gathers from R23, R64, R90, R125, R141 and R164. -/

namespace Sys2Proof.Machine

/-! ### Fields of the image (11.6.4) -/

/-- A byte of the image. -/
def byteAt (im : List Byte) (i : Nat) : Byte := im.getD i 0

/-- A one-byte number. -/
def numAt (im : List Byte) (i : Nat) : Nat := (byteAt im i).toNat

/-- A two-byte number, high byte first. -/
def num2At (im : List Byte) (i : Nat) : Nat := numAt im i * 256 + numAt im (i + 1)

/-- A three-byte number, high byte first. -/
def num3At (im : List Byte) (i : Nat) : Nat := num2At im i * 256 + numAt im (i + 2)

/-- A field of bits counted from bit 0 of its first byte, as a number of `n` bytes. -/
def bitsAt (im : List Byte) (i : Nat) : Nat → Nat
  | 0 => 0
  | n + 1 => numAt im i + 256 * bitsAt im (i + 1) n

/-- Two-byte numbers in a row. -/
def num2sAt (im : List Byte) (i n : Nat) : List Nat := (List.range n).map (fun j => num2At im (i + 2 * j))

/-- The roster codes, bytes 0 to 23. -/
def rosterCodes (im : List Byte) : List Nat := (List.range 24).map (numAt im)

/-- The class code of cabin i + 1: two bits, cabin 1 in bits 1 to 0 of byte 28. -/
def classCodeAt (im : List Byte) (i : Nat) : Nat := numAt im (28 + i / 4) / 4 ^ (i % 4) % 4

/-- A channel's settings: flags, cal (3), w. -/
def channelAt (im : List Byte) (i : Nat) : ChannelCfg :=
  { enabled := (byteAt im i).getLsbD 0, reference := (byteAt im i).getLsbD 1, cal := num3At im (i + 1),
    weight := numAt im (i + 4) }

/-- A mast slot's settings: four channels of 5 bytes, then X[0] to X[15]. -/
def slotAt (im : List Byte) (i : Nat) : SlotCfg :=
  { channels := (List.range 4).map (fun c => channelAt im (i + 5 * c))
    exposure := (List.range 16).map (fun x => numAt im (i + 20 + x)) }

/-- The digest field, bytes 268 and 269. -/
def digestField (im : List Byte) : Half := join16 (byteAt im 268) (byteAt im 269)

/-- The sum of bytes 0 to 267, modulo 65,536 (R192). -/
def digestSum (im : List Byte) : Half := (im.take 268).foldl (fun a b => a + b.setWidth 16) 0

/-- The sheet that an image gives. -/
def sheetOf (im : List Byte) : Sheet :=
  { roster := (rosterCodes im).map roleOf
    timeSource := BitVec.ofNat 24 (bitsAt im 24 3)
    n := numAt im 27
    classes := (List.range 64).map (fun i => classOf (classCodeAt im i))
    capStandard := numAt im 44, capStepFree := numAt im 45, capPrivate := numAt im 46
    initMarks := BitVec.ofNat 64 (bitsAt im 47 8)
    run := num2At im 55, slow := num2At im 57, creep := num2At im 59
    aUp := numAt im 61, aDn := numAt im 62, aStop := numAt im 63
    g := num2At im 64, trimLimit := numAt im 66, minDrives := numAt im 67, minMasts := numAt im 68
    idleOne := num2At im 69, idleTwo := num2At im 71, emptyLimit := num2At im 73
    skipLimit := numAt im 75, sharing := numAt im 76 == 1
    slots := (List.range 4).map (fun j => slotAt im (77 + 36 * j))
    k := numAt im 221, spread := num2At im 222
    enter := num2sAt im 224 4, leave := num2sAt im 232 4, dwell := num2sAt im 240 4
    refuseMask := BitVec.ofNat 48 (bitsAt im 248 6)
    logFilter := BitVec.ofNat 64 (bitsAt im 254 8)
    localMask := byteAt im 262
    eventMask := BitVec.ofNat 32 (bitsAt im 263 4) }

/-! ### Ranges -/

/-- A value lies in a range, both ends included. -/
def inRange (lo hi n : Nat) : Bool := decide (lo ≤ n) && decide (n ≤ hi)

/-- How many station numbers the roster gives a role. -/
def Sheet.count (sh : Sheet) (r : Role) : Nat := (sh.stationsOf r).length

/-- A slot's settings (R23): cal of the enabled channels; one reference at most, on an enabled channel. -/
def slotOk (g : SlotCfg) : Bool :=
  g.channels.all (fun h => !h.enabled || inRange 1000 1000000 h.cal)
    && g.channels.all (fun h => !h.reference || h.enabled)
    && decide (g.channels.countP (fun h => h.reference) ≤ 1)

/-- Each threshold above the one before (R23). -/
def rising : Nat → List Nat → Bool
  | _, [] => true
  | a, b :: bs => decide (a < b) && rising b bs

/-- R23. -/
def windOk (sh : Sheet) : Bool :=
  sh.slots.all slotOk && inRange 4 10 sh.k && rising 0 sh.enter
    && (sh.leave.zip sh.enter).all (fun p => decide (1 ≤ p.1) && decide (p.1 < p.2))
    && sh.dwell.all (inRange 1 3600) && decide (sh.count .mast ≤ 4)

/-- R64. -/
def mastsOk (sh : Sheet) : Bool :=
  decide (1 ≤ sh.count .mast) && inRange 1 4 sh.minMasts && decide (sh.minMasts ≤ sh.count .mast)

/-- R90. -/
def drivesOk (sh : Sheet) : Bool := inRange 1 12 (sh.count .drive) && inRange 1 (sh.count .drive) sh.minDrives

/-- R125. -/
def motionOk (sh : Sheet) : Bool :=
  inRange 1 1000 sh.run && inRange 1 1000 sh.slow && inRange 1 1000 sh.creep
    && decide (sh.creep < sh.slow) && decide (sh.slow < sh.run)
    && inRange 1 100 sh.aUp && inRange 1 100 sh.aDn && inRange sh.aDn 200 sh.aStop
    && inRange 0 1024 sh.g && inRange 0 100 sh.trimLimit
    && inRange 1 3600 sh.idleOne && inRange 1 3600 sh.idleTwo && decide (sh.idleOne < sh.idleTwo)
    && inRange 60 7200 sh.emptyLimit

/-- R141; the class entries of cabins 1 to N stand in the image. -/
def cabinsOk (im : List Byte) (sh : Sheet) : Bool :=
  inRange 16 64 sh.n && (List.range sh.n).all (fun i => classCodeAt im i != 3)
    && inRange 1 25 sh.capStandard && inRange 1 25 sh.capStepFree && inRange 1 25 sh.capPrivate
    && sh.count .entry == 1 && sh.count .exit == 1

/-- R164; the sharing byte is 0 or 1 (log entry 27). -/
def baysOk (im : List Byte) (sh : Sheet) : Bool := inRange 1 15 sh.skipLimit && decide (numAt im 76 ≤ 1)

/-- The roster of R192: codes 0 to 4 and 7, one or two DESK. -/
def rosterOk (im : List Byte) (sh : Sheet) : Bool :=
  (rosterCodes im).all (fun c => decide (c ≤ 4) || c == 7) && inRange 1 2 (sh.count .desk)

/-- An image passes every check of R192 that does not involve the straps. -/
def imageOk (im : List Byte) : Bool :=
  let sh := sheetOf im
  im.length == 270 && digestField im == digestSum im && windOk sh && mastsOk sh && drivesOk sh
    && motionOk sh && cabinsOk im sh && baysOk im sh && rosterOk im sh

/-- The straps are valid and the roster gives the strapped number the strapped role (R192). -/
def strapsOk (station : Nat) (code : BitVec 3) (sh : Sheet) : Bool :=
  decide (station ≤ 23) && decide (code.toNat ≤ 4) && sh.roleAt station == roleOf code.toNat

end Sys2Proof.Machine
end

