-- ==== Sys2Proof/Machine/Reset.lean ====
section
/-! DEFINITION. The resets (R188, R194, R195): power-on, the RESET line and the restart that a RESTART
request causes. Each keeps the levels of the input pins (log entry 6) and the waiting commands (log
entry 5). -/

namespace Sys2Proof.Machine

/-- What a restart keeps of the log, with the RESTARTED event and the start entry (R181, R182, R188). -/
def LogUnit.restarted (station : Nat) (u : LogUnit) : LogUnit :=
  let at_ := u.writePos
  let u := { u with queue := restartedQueue 1, overrun := false, lost := 0 }
  let u := u.write 0 station .sl .localAction [0, 1]
  if at_ = 127 then u.place { code := .logHalf, param := 128, time := 0 }
  else if at_ = 255 then u.place { code := .logWrap, param := 0, time := 0 }
  else u

/-- Every block but the log unit at its reset values, in LOADING with the straps given (R194). -/
def State.cleared (lines : StrapLines) (held : Bool) (lu : LogUnit) (s : State) : State :=
  { clock := .reset, pins := s.pins, lu := lu, lc := .reset, pv := .reset, wmu := .reset, wv := .reset,
    hu := .reset, mu := .reset, ct := .reset, bu := .reset, rp := .reset,
    sl := .reset lines held, pending := s.pending }

/-- The straps as last read. -/
def State.straps (s : State) : StrapLines := { stn := BitVec.ofNat 5 s.own, role := s.sl.roleCode }

/-- POWER_ON; while RESET is asserted the part stays reset, and LOADING begins at the release (R194). -/
def execPowerOn (lines : StrapLines) (s : State) : Host.Outcome State Fault Refusal :=
  .next (s.cleared lines s.sl.resetHeld (.powerOn lines.stn.toNat))

/-- RESET_ASSERTED: the part restarts and stays reset (R194); the start entry stands under the number last
read (log entry 10). -/
def execResetAsserted (s : State) : Host.Outcome State Fault Refusal :=
  whenUp s (fun s => s.cleared s.straps true (s.lu.restarted s.own))

/-- RESET_RELEASED: LOADING begins, the straps are read (R192, R194). -/
def execResetReleased (lines : StrapLines) (s : State) : Host.Outcome State Fault Refusal :=
  .next (if s.sl.resetHeld then { s with sl := .reset lines false } else s)

/-- The restart of a RESTART request: no answer is placed, RDY falls (R194). -/
def restartNow (lines : StrapLines) (s : State) : State :=
  s.cleared lines false (s.lu.restarted lines.stn.toNat)

end Sys2Proof.Machine
end

