-- ==== Sys2Proof/Machine/Port.lean ====
section
/-! DEFINITION. RP (chapter 11): the PUT and GET transactions, the judgement of every request and its
answer data (log entries 16 to 19). -/

namespace Sys2Proof.Machine

/-! ### Answer data -/

/-- An age in ms, clamped to 65,535. -/
def State.age (s : State) (since : Nat) : List Byte := be16n (clamp16 (s.now - since))

/-- n bytes of FFH: an absent part. -/
def absentBytes (n : Nat) : List Byte := List.replicate n absentByte

/-- A verdict with data. -/
def answer (data : List Byte) : Verdict := { code := 0, data := data }

/-- STATUS (R191). At a strapped role code 5 to 7 the role byte is 7, the code that R192 gives PRESENCE for an
invalid role (DESIGN CHOICE, log entry 47). -/
def State.statusData (s : State) : List Byte :=
  [ byteOf (roleCode s.role), byteOf s.own, byteOf (startCode s.sl.start s.sl.settled),
    byteOf (effectCode s.hu.effect), byteOf (windCode s.wv.fused), byteOf (modeCode s.mu.mode),
    (if s.role = .drive then byteOf (motionCode s.mu.motion) else absentByte),
    (if s.role = .entry then byteOf s.bu.queue.length else 0),
    byteOf s.lu.queue.length, byteOf s.rp.refused ]
    ++ be16n s.lc.rxErrors
    ++ [if s.joined then byteOf s.ct.occupied else absentByte]

/-- A fault record's fields, or absent (R54). -/
def faultBytes (f : Option FaultRecord) : List Byte :=
  match f with
  | some f => [byteOf (kindCode f.kind), flagByte f.byMask] ++ be32 f.time ++ [byteOf f.later]
  | none => absentBytes 7

/-- The heard part's fields, or absent. -/
def heardBytes (h : Option Heard) : List Byte :=
  match h with
  | some h => [h.role, h.start, flagByte h.timeSource]
  | none => absentBytes 3

/-- The part that the roster role allows, with its age, or absent. -/
def State.partBytes (s : State) (p : Peer) : List Byte :=
  match p.role with
  | .drive => match p.motion with
    | some (m, t) => payloadBytes (.motion m) ++ s.age t
    | none => absentBytes 12
  | .entry | .exit => match p.bay with
    | some (b, t) => payloadBytes (.bay b) ++ s.age t
    | none => absentBytes 13
  | .mast | .desk | .unfitted => []

/-- READ PEER. -/
def State.peerData (s : State) (p : Peer) : List Byte :=
  [byteOf (roleCode p.role), byteOf (peerStateCode p.state)] ++ peerMarks p ++ heardBytes p.heard
    ++ s.age p.lastHeard ++ [p.lastSeq, byteOf p.gaps, byteOf p.unanswered]
    ++ faultBytes p.fault ++ s.partBytes p

/-- A wind record (R72). -/
def State.windData (s : State) (r : WindRec) : List Byte :=
  byteOf r.station :: (match r.report with
    | some (_, p) => payloadBytes (.wind p) ++ [r.seq, flagByte r.fresh] ++ s.age r.receipt
    | none => absentBytes 13)

/-- The fused level (R72). -/
def State.fusedData (s : State) : List Byte :=
  [byteOf (windCode s.wv.fused), byteOf s.wv.freshCount, flagByte s.wv.degraded,
   byteOf s.sl.sheet.minMasts]

/-- One hold record (R89). -/
def State.holdData (s : State) (r : HoldRec) : List Byte :=
  [byteOf (holdKindCode r.kind), byteOf r.declarer, byteOf (effectCode r.effect),
   byteOf (causeCode r.cause)] ++ be32 r.declaredAt ++ [byteOf (holdStateCode r.state)]
    ++ s.age r.refreshed

/-- READ HOLDS from an index (R89). -/
def State.holdsData (s : State) (start : Nat) : List Byte :=
  [byteOf s.hu.records.length, byteOf (effectCode s.hu.effect)]
    ++ ((s.hu.records.drop start).take 4).flatMap s.holdData

/-- The last passage of a cabin, or absent (R140). -/
def State.lastPassageData (s : State) (l : Option LastPassage) : List Byte :=
  match l with
  | some l => [byteOf (bayCode l.bay), l.serial] ++ s.age l.time
  | none => absentBytes 4

/-- The boarded-at time, or FFH bytes in its place (R140, log entry 16). -/
def boardedBytes (b : Option Stamp) : List Byte :=
  match b with
  | some t => be32 t
  | none => absentBytes 4

/-- READ CABIN (R140). -/
def State.cabinData (s : State) (c : Cabin) : List Byte :=
  [byteOf (classCode c.cls), byteOf c.capacity, flagByte c.outOfService, byteOf (cabinStateCode c.state),
   cabinByte c.riders, flagByte c.overload, byteOf c.tags.length] ++ c.tags.flatMap be16
    ++ boardedBytes c.boardedAt ++ [byteOf c.laps] ++ s.lastPassageData c.last

/-- A log position in an answer: 16 bytes (11.6.5). -/
def logBytes (pos : Nat) (e : Option LogEntry) : List Byte :=
  match e with
  | some e =>
    [byteOf e.position] ++ be32 e.time ++ [byteOf e.source, byteOf (logKindCode e.kind),
      byteOf (outcomeCode e.outcome)] ++ e.summary ++ List.replicate (8 - e.summary.length) 0
  | none => byteOf pos :: absentBytes 15

/-- READ LOG (R183). -/
def State.logData (s : State) (pos count : Nat) : List Byte :=
  byteOf s.lu.writePos :: (List.range count).flatMap (fun i =>
    let p := (pos + i) % 256
    logBytes p (s.lu.ring.getD p none))

/-! ### The requests (section 11.2) -/

/-- Requests that read are judged: parameters first, then SHEET_FAULT (log entry 18). -/
def State.readJudged (s : State) (ok : Bool) (v : Verdict) : Verdict :=
  if ok = false then verdict 3 else if s.sl.start = .sheetFault then verdict 13 else v

/-- READ PEER. -/
def readPeer (n : Nat) (s : State) : Verdict := s.readJudged (decide (n ≤ 23)) (answer (s.peerData (s.peer n)))

/-- TAKE PEER FAULT (R54). -/
def takePeerFault (n : Nat) (s : State) : State × Verdict :=
  if 23 < n then (s, verdict 3)
  else if s.sl.start = .sheetFault then (s, verdict 13)
  else
    match (s.peer n).fault with
    | some f => (s.onPeer n (fun p => { p with fault := none }), answer (faultBytes (some f)))
    | none => (s, verdict 6)

/-- READ WIND (R72). -/
def readWind (sel : Nat) (s : State) : Verdict :=
  s.readJudged (decide (sel ≤ 3) || sel == 255)
    (if sel = 255 then answer s.fusedData
     else match s.wv.records[sel]? with
      | some r => answer (s.windData r)
      | none => verdict 6)

/-- READ HOLDS (R89). -/
def readHolds (start : Nat) (s : State) : Verdict :=
  s.readJudged (decide (start ≤ 15)) (answer (s.holdsData start))

/-- READ CABIN (R140). -/
def readCabin (c : Nat) (s : State) : Verdict :=
  if s.sl.start = .sheetFault then verdict 13
  else
    match s.cabin? c with
    | some r => answer (s.cabinData r)
    | none => verdict 3

/-- READ LOG (R183). -/
def readLog (pos count : Nat) (s : State) : Verdict :=
  s.readJudged (decide (1 ≤ count) && decide (count ≤ 4)) (answer (s.logData pos count))

/-- TAKE EVENT (R186). -/
def takeEvent (s : State) : State × Verdict :=
  match s.lu.queue with
  | [] => (s, verdict 6)
  | e :: rest =>
    (s.onLu (fun u => { u with queue := rest, overrun := false, lost := 0 }),
      answer ([byteOf (eventNo e.code)] ++ be16 e.param ++ be32 e.time
        ++ [flagByte s.lu.overrun, byteOf s.lu.lost, byteOf rest.length]))

/-- The kind of hold that the host declares at the station (R87). -/
def State.hostKind (s : State) : HoldKind := if s.role = .desk then .desk else .bay

/-- DECLARE HOLD (R87). -/
def hostDeclare (effect cause : Byte) (s : State) : State × Verdict :=
  if s.role = .drive ∨ s.role = .mast then (s, verdict 1)
  else
    match effectOf effect.toNat with
    | none => (s, verdict 3)
    | some e =>
      if causeOf cause.toNat ≠ some .host ∨ holdAllowed s.hostKind .host e = false then (s, verdict 3)
      else if s.notActing then (s, verdict 13)
      else (declareHold s.hostKind e .host s, verdict 0)

/-- The set holds the key, or the own-hold list an entry for it (R88). -/
def State.holdsKey (s : State) (k : HoldKind) (d : Nat) : Bool :=
  (s.hu.find? k d).isSome || (d == s.own && (s.hu.own? k).isSome)

/-- The release carried out with result 0 (R88, R93). At a desk's own LINK hold the record is removed and logged
before the BUTTON latch is cleared (DESIGN CHOICE, log entry 51). -/
def releaseKey (k : HoldKind) (d : Nat) (s : State) : State :=
  match s.role with
  | .entry | .exit => releaseOwn k s
  | .drive | .mast => setCond .button false s
  | .desk =>
    if d = s.own then
      let s := releaseOwn k s
      if k = .link then overrideLink s else s
    else
      handOver (.release { kind := byteOf (holdKindCode k), declarer := byteOf d, reason := 1 }) false
        (removeRecord k d s)
  | .unfitted => s

/-- A bay, drive or mast may release its own hold of one kind alone (R88). -/
def State.releaseRoleError (s : State) (k : HoldKind) (d : Nat) : Bool :=
  match s.role with
  | .entry | .exit => k != .bay || d != s.own
  | .drive | .mast => k != .link || d != s.own
  | .desk | .unfitted => false

/-- RELEASE HOLD (R88). -/
def hostRelease (kind declarer : Byte) (s : State) : State × Verdict :=
  match holdKindOf kind.toNat with
  | none => (s, verdict 3)
  | some k =>
    let d := declarer.toNat
    if 23 < d then (s, verdict 3)
    else if s.releaseRoleError k d then (s, verdict 1)
    else if s.notActing then (s, verdict 13)
    else if s.holdsKey k d = false then (s, verdict 9)
    else if s.role = .desk ∧ k = .storm ∧ d ≠ s.own ∧ s.wv.stormStanding then (s, verdict 10)
    else (releaseKey k d s, verdict 0)

/-- ORDER RIDE (R104). -/
def orderRide (mode : Byte) (s : State) : State × Verdict :=
  if s.role ≠ .desk then (s, verdict 1)
  else
    match modeOf mode.toNat with
    | none => (s, verdict 3)
    | some m =>
      if s.notActing then (s, verdict 13)
      else if m ≠ .halt ∧ (s.hu.effect.atLeast .halt ∨ ¬ s.sl.settled) then (s, verdict 12)
      else
        (handOrder (s.onMu (fun u => { u with deskMode := m, deskSerial := u.deskSerial + 1 })), verdict 0)

/-- The greatest cabin number; no sheet stands in SHEET_FAULT (log entry 19). -/
def State.cabinLimit (s : State) : Nat := if s.joined then s.sl.sheet.n else 64

/-- A mark set or cleared. -/
def setMark (m : BitVec 64) (i : Nat) (v : Bool) : BitVec 64 :=
  if v then m ||| ((1 : BitVec 64) <<< i) else m &&& ~~~((1 : BitVec 64) <<< i)

/-- SET SERVICE (R136). -/
def setService (cabin state : Byte) (s : State) : State × Verdict :=
  if s.role ≠ .desk then (s, verdict 1)
  else if cabin = 0 ∨ s.cabinLimit < cabin.toNat ∨ 1 < state.toNat then (s, verdict 3)
  else if s.notActing then (s, verdict 13)
  else
    (handService (s.onCt (fun t => { t with
      deskMarks := setMark t.deskMarks (cabin.toNat - 1) (state == 1)
      deskSerial := t.deskSerial + 1 })), verdict 0)

/-! ### PUT (R189, R190) -/

/-- The code of a request (section 11.2). -/
def requestCode : Request → Byte
  | .unknown c => c
  | .status => 1 | .readPeer _ => 2 | .takePeerFault _ => 3 | .readWind _ => 4 | .readHolds _ => 5
  | .readCabin _ => 6 | .readLog _ _ => 7 | .takeEvent => 8 | .submitParty _ _ _ => 9
  | .withdrawParty _ => 10 | .reportCount _ => 11 | .closeDoors => 12 | .declareHold _ _ => 13
  | .releaseHold _ _ => 14 | .orderRide _ => 15 | .setService _ _ => 16

/-- The parameter length of a request code; none for a code that section 11.2 does not give (R189). -/
def requestLength : Nat → Option Nat
  | 1 | 8 | 12 | 17 => some 0
  | 2 | 3 | 4 | 5 | 6 | 11 | 15 => some 1
  | 7 | 10 | 13 | 14 | 16 => some 2
  | 9 => some 4
  | _ => none

/-- A request carried out against its owner's state (section 11.2). -/
def serve (r : Request) (s : State) : State × Verdict :=
  match r with
  | .unknown _ => (s, verdict 3)
  | .status => (s, answer s.statusData)
  | .readPeer n => (s, readPeer n.toNat s)
  | .takePeerFault n => takePeerFault n.toNat s
  | .readWind sel => (s, readWind sel.toNat s)
  | .readHolds start => (s, readHolds start.toNat s)
  | .readCabin c => (s, readCabin c.toNat s)
  | .readLog pos count => (s, readLog pos.toNat count.toNat s)
  | .takeEvent => takeEvent s
  | .submitParty tag size need => submitParty tag size need s
  | .withdrawParty tag => withdrawParty tag s
  | .reportCount riders => reportCount riders s
  | .closeDoors => closeDoors s
  | .declareHold effect cause => hostDeclare effect cause s
  | .releaseHold kind declarer => hostRelease kind declarer s
  | .orderRide mode => orderRide mode s
  | .setService cabin state => setService cabin state s

/-- An answer placed in the slot: busy is cleared, RDY rises (R190). -/
def placeAnswer (code num : Byte) (v : Verdict) (s : State) : State :=
  let a : Answer := { code := code, num := num, result := v.code, data := v.data, part := 0, read := false }
  s.onRp (fun p => { p with slot := some a, busy := false, deferred := none })

/-- A request carried out and answered (R190). -/
def carryOut (num : Byte) (r : Request) (s : State) : State :=
  let x := serve r s
  placeAnswer (requestCode r) num x.2 x.1

/-- The port takes a PUT: not busy, and the slot empty or read (R190). -/
def Port.free (p : Port) : Bool := !p.busy && !p.rdy

/-- A complete PUT (R190); in LOADING it waits with busy set, READ CABIN included (log entry 41). -/
def putRequest (num : Byte) (r : Request) (s : State) : State :=
  if s.rp.free then
    if s.sl.start = .loading then s.onRp (fun p => { p with busy := true, deferred := some (num, r) })
    else carryOut num r s
  else s.onRp (fun p => { p with refused := min 255 (p.refused + 1) })

/-- A PUT of a request. -/
def execPut (num : Byte) (r : Request) (s : State) : Host.Outcome State Fault Refusal :=
  whenUp s (putRequest num r)

/-- PUT_UNKNOWN_REQUEST: an unknown code, or a length that is not the code's (R189). -/
def execPutUnknownRequest (code num length : Byte) (s : State) : Host.Outcome State Fault Refusal :=
  whenUp s (fun s =>
    if requestLength code.toNat = some length.toNat then s else putRequest num (.unknown code) s)

/-- PUT_INCOMPLETE: discarded without an answer or a count (R189). -/
def execPutIncomplete (s : State) : Host.Outcome State Fault Refusal := whenUp s id

/-- STATUS. -/
def execStatus (num : Byte) (s : State) : Host.Outcome State Fault Refusal := execPut num .status s

/-- READ PEER. -/
def execReadPeer (num station : Byte) (s : State) : Host.Outcome State Fault Refusal :=
  execPut num (.readPeer station) s

/-- TAKE PEER FAULT. -/
def execTakePeerFault (num station : Byte) (s : State) : Host.Outcome State Fault Refusal :=
  execPut num (.takePeerFault station) s

/-- READ WIND. -/
def execReadWind (num selector : Byte) (s : State) : Host.Outcome State Fault Refusal :=
  execPut num (.readWind selector) s

/-- READ HOLDS. -/
def execReadHolds (num start : Byte) (s : State) : Host.Outcome State Fault Refusal :=
  execPut num (.readHolds start) s

/-- READ CABIN. -/
def execReadCabin (num cabin : Byte) (s : State) : Host.Outcome State Fault Refusal :=
  execPut num (.readCabin cabin) s

/-- READ LOG. -/
def execReadLog (num position count : Byte) (s : State) : Host.Outcome State Fault Refusal :=
  execPut num (.readLog position count) s

/-- TAKE EVENT. -/
def execTakeEvent (num : Byte) (s : State) : Host.Outcome State Fault Refusal := execPut num .takeEvent s

/-- SUBMIT PARTY. -/
def execSubmitParty (num : Byte) (tag : Half) (size need : Byte) (s : State) :
    Host.Outcome State Fault Refusal := execPut num (.submitParty tag size need) s

/-- WITHDRAW PARTY. -/
def execWithdrawParty (num : Byte) (tag : Half) (s : State) : Host.Outcome State Fault Refusal :=
  execPut num (.withdrawParty tag) s

/-- REPORT COUNT. -/
def execReportCount (num riders : Byte) (s : State) : Host.Outcome State Fault Refusal :=
  execPut num (.reportCount riders) s

/-- CLOSE DOORS. -/
def execCloseDoors (num : Byte) (s : State) : Host.Outcome State Fault Refusal :=
  execPut num .closeDoors s

/-- DECLARE HOLD. -/
def execDeclareHold (num effect cause : Byte) (s : State) : Host.Outcome State Fault Refusal :=
  execPut num (.declareHold effect cause) s

/-- RELEASE HOLD. -/
def execReleaseHold (num kind declarer : Byte) (s : State) : Host.Outcome State Fault Refusal :=
  execPut num (.releaseHold kind declarer) s

/-- ORDER RIDE. -/
def execOrderRide (num mode : Byte) (s : State) : Host.Outcome State Fault Refusal :=
  execPut num (.orderRide mode) s

/-- SET SERVICE. -/
def execSetService (num cabin state : Byte) (s : State) : Host.Outcome State Fault Refusal :=
  execPut num (.setService cabin state) s

/-- RESTART: taken whatever the busy mark and the slot (R190, R194). -/
def execRestart (_num : Byte) (lines : StrapLines) (s : State) : Host.Outcome State Fault Refusal :=
  whenUp s (restartNow lines)

/-! ### GET (R189, R190) -/

/-- The number of parts of an answer: 24 bytes each, one at least. -/
def Answer.parts (a : Answer) : Nat := max 1 (ceilDiv a.data.length 24)

/-- The bytes of the current part (R189, 11.6.3). -/
def Answer.partBytes (a : Answer) : List Byte :=
  let d := (a.data.drop (24 * a.part)).take 24
  [a.code, a.num, byteOf a.result, byteOf (a.part * 16 + a.parts), byteOf d.length] ++ d

/-- What a GET sends on MISO; an empty slot gives zeros and no data (R189, log entry 17). -/
def Port.getBytes (p : Port) : List Byte :=
  match p.slot with
  | some a => a.partBytes
  | none => [0, 0, 0, 1, 0]

/-- A complete GET advances the slot, or marks the answer read at the last part (R189). -/
def Answer.advance (a : Answer) : Answer :=
  if a.part + 1 < a.parts then { a with part := a.part + 1 } else { a with read := true }

/-- GET; one that is cut short sends without advancing (log entry 17). -/
def execGet (complete : Bool) (s : State) : Host.Outcome State Fault Refusal :=
  whenUp s (fun s => s.onRp (fun p => { p with
    miso := p.getBytes
    slot := if complete then p.slot.map Answer.advance else p.slot }))

end Sys2Proof.Machine
end

