-- ==== Sys2Proof/Machine/Start.lean ====
section
/-! DEFINITION. SL (chapter 11): the end of LOADING, the entry into JOINING, RUNNING and the end of
settling. -/

namespace Sys2Proof.Machine

/-- The digest field as read: 0 when the read failed (R192, log entry 9). -/
def readDigest (image : Option (List Byte)) : Half :=
  match image with
  | some im => if im.length = 270 then digestField im else 0
  | none => 0

/-- The sheet that is taken, when every check of R192 passes. -/
def State.takenSheet (s : State) (image : Option (List Byte)) : Option Sheet :=
  match image with
  | some im => if imageOk im && strapsOk s.own s.sl.roleCode (sheetOf im) then some (sheetOf im) else none
  | none => none

/-- The peer table with the roster's roles (R43, R60). -/
def rosterTable (sh : Sheet) : List Peer := (List.range 24).map (fun n => Peer.blank (sh.roleAt n))

/-- The entry into SHEET_FAULT (R47, R192). -/
def enterSheetFault (s : State) : State := handPresence (setStart .sheetFault s)

/-- The peer view at the entry into JOINING: roster roles, the own record FRESH (R44). -/
def startPeers (s : State) : State :=
  s.onPv (fun v => { v with table := rosterTable s.sl.sheet })
    |>.onPeer s.own (fun p => { p with state := .fresh, lastHeard := s.now })

/-- The cabin table, the desk service set and the bay unit at the entry into JOINING (R139, R142, R159). -/
def startTables (s : State) : State :=
  let sh := s.sl.sheet
  s.onCt (fun t => { t with
      cabins := startCabins sh, occupied := occupiedOf (startCabins sh), deskMarks := sh.initMarks })
    |>.onBu (fun b => { b with idleStart := s.now, reportAt := s.now, pollAt := s.now })

/-- The first window of a MAST opens, and the lapse check begins (R1, R85). -/
def startTimers (s : State) : State :=
  s.onWmu (fun w => { w with windowFrom := if s.role = .mast then some s.now else none })
    |>.onHu (fun h => { h with lapseAt := s.now })

/-- NO_WIND is handed over and DRIVES_LOW holds (R68, R71, R90, R102). -/
def startConditions (s : State) : State := recheckDrives (setCond .noWind true (formFused s))

/-- The entry into JOINING with a sheet (R44, R47, R71, R107, R110, R139, R193). -/
def enterJoining (sh : Sheet) (s : State) : State :=
  let s := s.onSl (fun l => { l with sheet := sh, joinedAt := s.now })
  let s := startPeers (setStart .joining s)
  let s := s.onWv (fun w => { w with records := windTable sh })
  let s := startConditions (startTimers (startTables s))
  let s := handPresence (refreshMismatch s)
  if s.role = .drive then motionUpdate s else s

/-- A PUT taken in LOADING is carried out in the state entered (R190), READ CABIN included (log entry 41). -/
def serveDeferred (s : State) : State :=
  match s.rp.deferred with
  | some (num, r) => carryOut num r s
  | none => s

/-- The end of LOADING (R192, R193). -/
def endLoading (image : Option (List Byte)) (s : State) : State :=
  let sheet := s.takenSheet image
  let s := s.onSl (fun l => { l with digest := readDigest image })
  serveDeferred (match sheet with
    | some sh => enterJoining sh s
    | none => enterSheetFault s)

/-- SHEET_READ_COMPLETE (R192). -/
def execSheetReadComplete (image : Option (List Byte)) (s : State) : Host.Outcome State Fault Refusal :=
  whenUp s (fun s => if s.sl.start = .loading then endLoading image s else s)

/-- JOINING has lasted 2,000 ms (R193). -/
def State.joiningDue (s : State) : Bool := s.sl.start == .joining && s.elapsed s.sl.joinedAt 2000

/-- The entry into RUNNING: MARK, ORDER and SERVICE begin (R58, R104, R136, R193). -/
def enterRunning (s : State) : State :=
  let s := setStart .running s
  let s := s.onSl (fun l => { l with runningAt := s.now })
  let s := if s.isTimeSource then handMark s else s
  if s.role = .desk then handService (handOrder s) else s

/-- JOINING_END (R193). -/
def execJoiningEnd (s : State) : Host.Outcome State Fault Refusal :=
  whenUp s (fun s => if s.joiningDue then enterRunning s else s)

/-- Settling has lasted 15,000 ms (R91, R193). -/
def State.settlingDue (s : State) : Bool :=
  (s.sl.start == .running || s.sl.start == .listenOnly) && !s.sl.settled && s.elapsed s.sl.runningAt 15000

/-- The end of settling: the LINK monitor acts, boarding is formed again (R91, R147). -/
def endSettling (s : State) : State :=
  formBoarding (linkAct (s.onSl (fun l => { l with settled := true })))

/-- SETTLING_END (R91). -/
def execSettlingEnd (s : State) : Host.Outcome State Fault Refusal :=
  whenUp s (fun s => if s.settlingDue then endSettling s else s)

end Sys2Proof.Machine
end

