-- ==== Sys2Proof/Machine/Dispatch.lean ====
section
/-! DEFINITION. One arm per command: the meaning of every row of spec/opcode_table.json. -/

namespace Sys2Proof.Machine

/-- The effect of a command on everything but the queue. -/
def exec (i : Instr) (s : State) : Host.Outcome State Fault Refusal :=
  match i with
  | .powerOn lines => Sys2Proof.Machine.execPowerOn lines s
  | .resetAsserted => Sys2Proof.Machine.execResetAsserted s
  | .resetReleased lines => Sys2Proof.Machine.execResetReleased lines s
  | .sheetReadComplete image => Sys2Proof.Machine.execSheetReadComplete image s
  | .joiningEnd => Sys2Proof.Machine.execJoiningEnd s
  | .settlingEnd => Sys2Proof.Machine.execSettlingEnd s
  | .restartedFlagClear => Sys2Proof.Machine.execRestartedFlagClear s
  | .cupPulse ch => Sys2Proof.Machine.execCupPulse ch s
  | .windowClose vane => Sys2Proof.Machine.execWindowClose vane s
  | .warmUpEnd vane => Sys2Proof.Machine.execWarmUpEnd vane s
  | .levelDwellExpiry vane => Sys2Proof.Machine.execLevelDwellExpiry vane s
  | .stuckEntry ch vane => Sys2Proof.Machine.execStuckEntry ch vane s
  | .stuckRecovery ch vane => Sys2Proof.Machine.execStuckRecovery ch vane s
  | .windReportPeriod vane => Sys2Proof.Machine.execWindReportPeriod vane s
  | .transmissionStart => Sys2Proof.Machine.execTransmissionStart s
  | .arbitrationLost => Sys2Proof.Machine.execArbitrationLost s
  | .transmissionComplete intact => Sys2Proof.Machine.execTransmissionComplete intact s
  | .lineDominantTimeout => Sys2Proof.Machine.execLineDominantTimeout s
  | .telegramCheckFailed frame => Sys2Proof.Machine.execTelegramCheckFailed frame s
  | .holdReceived sender seq p => Sys2Proof.Machine.execHoldReceived sender seq p s
  | .releaseReceived sender seq p => Sys2Proof.Machine.execReleaseReceived sender seq p s
  | .motionReceived sender seq p => Sys2Proof.Machine.execMotionReceived sender seq p s
  | .passageReceived sender seq p => Sys2Proof.Machine.execPassageReceived sender seq p s
  | .bayReceived sender seq p => Sys2Proof.Machine.execBayReceived sender seq p s
  | .windReceived sender seq p => Sys2Proof.Machine.execWindReceived sender seq p s
  | .orderReceived sender seq p => Sys2Proof.Machine.execOrderReceived sender seq p s
  | .serviceReceived sender seq p => Sys2Proof.Machine.execServiceReceived sender seq p s
  | .presenceReceived sender seq p => Sys2Proof.Machine.execPresenceReceived sender seq p s
  | .markReceived sender seq p => Sys2Proof.Machine.execMarkReceived sender seq p s
  | .presencePeriod => Sys2Proof.Machine.execPresencePeriod s
  | .markPeriod => Sys2Proof.Machine.execMarkPeriod s
  | .peerStaleExpiry station => Sys2Proof.Machine.execPeerStaleExpiry station s
  | .peerAbsentExpiry station => Sys2Proof.Machine.execPeerAbsentExpiry station s
  | .motionPartAgeExpiry station => Sys2Proof.Machine.execMotionPartAgeExpiry station s
  | .bayPartAgeExpiry station => Sys2Proof.Machine.execBayPartAgeExpiry station s
  | .driveRestartExpiry => Sys2Proof.Machine.execDriveRestartExpiry s
  | .windRecordExpiry slot => Sys2Proof.Machine.execWindRecordExpiry slot s
  | .holdRefreshPeriod kind => Sys2Proof.Machine.execHoldRefreshPeriod kind s
  | .lapseCheck => Sys2Proof.Machine.execLapseCheck s
  | .stopIn => Sys2Proof.Machine.execStopIn s
  | .linkReleaseDwellExpiry => Sys2Proof.Machine.execLinkReleaseDwellExpiry s
  | .ackWindowExpiry => Sys2Proof.Machine.execAckWindowExpiry s
  | .brakedLimitExpiry => Sys2Proof.Machine.execBrakedLimitExpiry s
  | .holdLampFlash => Sys2Proof.Machine.execHoldLampFlash s
  | .motionUpdate => Sys2Proof.Machine.execMotionUpdate s
  | .inverterAnswer frame => Sys2Proof.Machine.execInverterAnswer frame s
  | .inverterFault => Sys2Proof.Machine.execInverterFault s
  | .inverterFaultClear => Sys2Proof.Machine.execInverterFaultClear s
  | .stillCountComplete => Sys2Proof.Machine.execStillCountComplete s
  | .brakeFbChange released => Sys2Proof.Machine.execBrakeFbChange released s
  | .brakeFault => Sys2Proof.Machine.execBrakeFault s
  | .emptydownTimeout => Sys2Proof.Machine.execEmptydownTimeout s
  | .orderPeriod => Sys2Proof.Machine.execOrderPeriod s
  | .servicePeriod => Sys2Proof.Machine.execServicePeriod s
  | .tagPoll => Sys2Proof.Machine.execTagPoll s
  | .tagAnswer frame => Sys2Proof.Machine.execTagAnswer frame s
  | .arrive => Sys2Proof.Machine.execArrive s
  | .align => Sys2Proof.Machine.execAlign s
  | .closeMark => Sys2Proof.Machine.execCloseMark s
  | .departLimit => Sys2Proof.Machine.execDepartLimit s
  | .gateClear clear => Sys2Proof.Machine.execGateClear clear s
  | .doorLocked locked => Sys2Proof.Machine.execDoorLocked locked s
  | .bayReportPeriod => Sys2Proof.Machine.execBayReportPeriod s
  | .exitArrive empty => Sys2Proof.Machine.execExitArrive empty s
  | .exitAlign => Sys2Proof.Machine.execExitAlign s
  | .exitCloseMark empty => Sys2Proof.Machine.execExitCloseMark empty s
  | .exitDepartLimit empty => Sys2Proof.Machine.execExitDepartLimit empty s
  | .get complete => Sys2Proof.Machine.execGet complete s
  | .putUnknownRequest code num length => Sys2Proof.Machine.execPutUnknownRequest code num length s
  | .putIncomplete => Sys2Proof.Machine.execPutIncomplete s
  | .status num => Sys2Proof.Machine.execStatus num s
  | .readPeer num station => Sys2Proof.Machine.execReadPeer num station s
  | .takePeerFault num station => Sys2Proof.Machine.execTakePeerFault num station s
  | .readWind num selector => Sys2Proof.Machine.execReadWind num selector s
  | .readHolds num start => Sys2Proof.Machine.execReadHolds num start s
  | .readCabin num cabin => Sys2Proof.Machine.execReadCabin num cabin s
  | .readLog num position count => Sys2Proof.Machine.execReadLog num position count s
  | .takeEvent num => Sys2Proof.Machine.execTakeEvent num s
  | .submitParty num tag size need => Sys2Proof.Machine.execSubmitParty num tag size need s
  | .withdrawParty num tag => Sys2Proof.Machine.execWithdrawParty num tag s
  | .reportCount num riders => Sys2Proof.Machine.execReportCount num riders s
  | .closeDoors num => Sys2Proof.Machine.execCloseDoors num s
  | .declareHold num effect cause => Sys2Proof.Machine.execDeclareHold num effect cause s
  | .releaseHold num kind declarer => Sys2Proof.Machine.execReleaseHold num kind declarer s
  | .orderRide num mode => Sys2Proof.Machine.execOrderRide num mode s
  | .setService num cabin state => Sys2Proof.Machine.execSetService num cabin state s
  | .restart num lines => Sys2Proof.Machine.execRestart num lines s

end Sys2Proof.Machine
end

