-- ==== Sys2Proof/Machine/Tick.lean ====
section
/-! DEFINITION. The passing of one millisecond with no command waiting (log entry 1): both clocks advance
(R56, R57) and every timer that has then run out puts its row into the queue, in a free order (log
entry 2). -/

namespace Sys2Proof.Machine

/-- A row when its occasion is present. -/
def rowIf (b : Bool) (i : Instr) : List Instr := if b then [i] else []

/-- One row for each number below n whose occasion is present. -/
def rowsFor (n : Nat) (b : Nat → Bool) (i : Fin n → Instr) : List Instr :=
  (List.finRange n).flatMap (fun k => rowIf (b k.val) (i k))

/-- A motion part reaches an age of 1,000 ms at this moment (R90). -/
def State.motionAgeNow (s : State) (n : Nat) : Bool :=
  s.joined && (match (s.peer n).motion with
    | some (_, t) => s.now == t + 1000
    | none => false)

/-- A bay part reaches an age of 3,000 ms at this moment (R90). -/
def State.bayAgeNow (s : State) (n : Nat) : Bool :=
  s.joined && (match (s.peer n).bay with
    | some (_, t) => s.now == t + 3000
    | none => false)

/-- The ack window has run out (R95). -/
def State.ackDue (s : State) : Bool :=
  match s.hu.watch with
  | some w => match w.ackUntil with
    | some t => decide (t ≤ s.now)
    | none => false
  | none => false

/-- The braked limit has run out (R96). -/
def State.limitDue (s : State) : Bool :=
  match s.hu.watch with
  | some w => s.elapsed w.startAt w.limit
  | none => false

/-- DOOR_LOCKED reads locked while DOOR_CLOSE is driven (R153, log entry 28). -/
def State.lockedDue (s : State) : Bool := s.bu.doorClose && s.pins.doorLocked

/-- The timers of the loader, the wind and the peer view. -/
def State.viewTimers (s : State) : List Instr :=
  rowIf s.joiningDue .joiningEnd
    ++ rowIf s.settlingDue .settlingEnd
    ++ rowIf s.flagDue .restartedFlagClear
    ++ rowIf s.windowDue (.windowClose (Config.vaneLines s.now))
    ++ rowIf s.presenceDue .presencePeriod
    ++ rowIf s.markDue .markPeriod
    ++ rowsFor 24 s.staleDue .peerStaleExpiry
    ++ rowsFor 24 s.absentDue .peerAbsentExpiry
    ++ rowsFor 24 s.motionAgeNow .motionPartAgeExpiry
    ++ rowsFor 24 s.bayAgeNow .bayPartAgeExpiry
    ++ rowsFor 4 s.windRecordDue .windRecordExpiry

/-- The timers of the hold unit. -/
def State.holdTimers (s : State) : List Instr :=
  rowIf s.driveRestartDue .driveRestartExpiry
    ++ [HoldKind.storm, .wind, .bay, .desk, .link].flatMap
        (fun k => rowIf (s.refreshDue k) (.holdRefreshPeriod k))
    ++ rowIf s.lapseDue .lapseCheck
    ++ rowIf s.dwellDue .linkReleaseDwellExpiry
    ++ rowIf s.ackDue .ackWindowExpiry
    ++ rowIf s.limitDue .brakedLimitExpiry
    ++ rowIf s.lampDue .holdLampFlash

/-- The timers of the motion unit, the cabin table and the bay unit. -/
def State.machineTimers (s : State) : List Instr :=
  rowIf s.updateDue .motionUpdate
    ++ rowIf s.brakeFaultDue .brakeFault
    ++ rowIf s.emptyLimitDue .emptydownTimeout
    ++ rowIf s.orderDue .orderPeriod
    ++ rowIf s.serviceDue .servicePeriod
    ++ rowIf s.tagPollDue .tagPoll
    ++ rowIf s.bayReportDue .bayReportPeriod
    ++ rowIf s.lockedDue (.doorLocked true)

/-- Every timer that has run out. -/
def State.dueTimers (s : State) : List Instr := s.viewTimers ++ s.holdTimers ++ s.machineTimers

/-- The rows in a free order; a list of one row stands as it is (log entry 2). -/
def arrange (now : Nat) : Nat → List Instr → List Instr
  | n + 1, x :: y :: rest =>
    let xs := x :: y :: rest
    let i := Config.nextTimer now xs.length % xs.length
    (xs[i]?.getD x) :: arrange now n (xs.eraseIdx i)
  | _, xs => xs

/-- Both clocks one millisecond on (R56, R57). -/
def State.advance (s : State) : State :=
  s.onClock (fun c => { now := c.now + 1, station := c.station + 1 })

/-- One millisecond; while RESET is held time stands (log entry 10). -/
def tick (s : State) : State :=
  if s.sl.resetHeld then s
  else
    let t := s.advance
    let due := t.dueTimers
    t.onPending (fun q => q ++ arrange t.now due.length due)

end Sys2Proof.Machine
end

