-- ==== Sys2Proof/Machine/Step.lean ====
section
/-! DEFINITION. One step: the command at the front of the queue, or a millisecond when none waits (log
entry 1). -/

namespace Sys2Proof.Machine

/-- One step of the block. -/
def step (s : State) : Host.Outcome State Fault Refusal :=
  match s.pending with
  | [] => .next (tick s)
  | c :: rest => exec c (s.onPending (fun _ => rest))

/-- The state with the command of a table word at the front of its queue; unchanged where the word spells
none. -/
def State.withFetchWord (s : State) (nbits w : Nat) : State :=
  match decodeTableWord nbits w with
  | some c => s.onPending (fun q => c :: q)
  | none => s

end Sys2Proof.Machine
end

