-- ==== Sys2Proof/Machine/Transaction.lean ====
section
/-! DEFINITION. The request port's SPI transactions (R189): the bytes that the host sends from the fall of SSEL
to its rise, and the row of the table that they are. -/

namespace Sys2Proof.Machine

/-- The row of a complete PUT: a code of section 11.2 with the parameters of its page, in the sizes of 11.6.3,
or an unknown request (R189). -/
def putRow (lines : StrapLines) (code num length : Byte) (params : List Byte) : Instr :=
  match code.toNat, params with
  | 1, [] => .status num
  | 2, [station] => .readPeer num station
  | 3, [station] => .takePeerFault num station
  | 4, [selector] => .readWind num selector
  | 5, [start] => .readHolds num start
  | 6, [cabin] => .readCabin num cabin
  | 7, [position, count] => .readLog num position count
  | 8, [] => .takeEvent num
  | 9, [hi, lo, size, need] => .submitParty num (hi ++ lo) size need
  | 10, [hi, lo] => .withdrawParty num (hi ++ lo)
  | 11, [riders] => .reportCount num riders
  | 12, [] => .closeDoors num
  | 13, [effect, cause] => .declareHold num effect cause
  | 14, [kind, declarer] => .releaseHold num kind declarer
  | 15, [mode] => .orderRide num mode
  | 16, [cabin, state] => .setService num cabin state
  | 17, [] => .restart num lines
  | _, _ => .putUnknownRequest code num length

/-- The row of the bytes after 01H: a length above 16 is complete whatever follows, fewer bytes than the length
names make an incomplete PUT, and bytes after the named parameters are ignored (R189). A transaction that ends
before its length names none and counts as incomplete (log entry 45). -/
def putTransaction (lines : StrapLines) (frame : List Byte) : Instr :=
  match frame with
  | code :: num :: length :: rest =>
    if 16 < length.toNat then .putUnknownRequest code num length
    else if rest.length < length.toNat then .putIncomplete
    else putRow lines code num length (rest.take length.toNat)
  | _ => .putIncomplete

/-- A GET is complete when the host has clocked every byte of the part that the port sends (log entry 45). -/
def Port.getCompletes (p : Port) (clocked : Nat) : Bool := decide (p.getBytes.length ≤ clocked)

/-- The row of a transaction, its first byte naming the operation; none for any other first byte, which ends it
without effect (R189). The strap levels are those that a RESTART reads (R192). -/
def State.transactionRow (s : State) (lines : StrapLines) (mosi : List Byte) : Option Instr :=
  match mosi with
  | [] => none
  | op :: frame =>
    if op = 1 then some (putTransaction lines frame)
    else if op = 2 then some (.get (s.rp.getCompletes frame.length))
    else none

/-- A transaction's effect: that of its row, taken at the rise of SSEL (R189). -/
def execTransaction (lines : StrapLines) (mosi : List Byte) (s : State) :
    Host.Outcome State Fault Refusal :=
  match s.transactionRow lines mosi with
  | some row => exec row s
  | none => .next s

end Sys2Proof.Machine
end

