-- ==== Sys2Proof/Safety.lean ====
section
/-! DEFINITION. What every reachable state of the block satisfies, block by block, and which blocks each
command may change. The statements of Certificates are written with these. -/

namespace Sys2Proof.Machine

/-! ### Invariants -/

/-- LU (R179, R184 to R186): 256 positions, each entry at its own position with a summary of at most 8
bytes; at most 32 events; the overrun flag tells a lost count above 0, and an empty queue has neither. -/
def LogUnit.Wf (u : LogUnit) : Prop :=
  u.ring.length = 256 ∧ u.writePos < 256
    ∧ (∀ (i : Nat) (e : LogEntry), u.ring[i]? = some (some e) → e.position = i ∧ e.summary.length ≤ 8)
    ∧ u.queue.length ≤ 32 ∧ u.lost ≤ 255 ∧ (u.overrun = true ↔ 0 < u.lost)
    ∧ (u.queue = [] → u.lost = 0)

/-- LC (R30, R31, R32, R33): at most 8 telegrams in sending order under distinct entry numbers already
given, the telegram being transmitted among them, and a receive-error count of 16 bits. -/
def Link.Wf (l : Link) : Prop :=
  l.queue.length ≤ 8 ∧ l.queue.Pairwise (fun a b => a.before b = true)
    ∧ (l.queue.map QEntry.no).Nodup ∧ (∀ e ∈ l.queue, e.no < l.nextEntry)
    ∧ (∀ x, l.sending = some x → ∃ e ∈ l.queue, e.no = x.no) ∧ l.rxErrors ≤ 65535

/-- HU (R76, R77, R78): at most 16 records under distinct keys, the effective effect the most severe among
them, and at most one own hold of each kind. -/
def HoldUnit.Wf (u : HoldUnit) : Prop :=
  u.records.length ≤ 16 ∧ (u.records.map (fun r => (r.kind, r.declarer))).Nodup
    ∧ u.effect = severest u.records ∧ (u.own.map OwnHold.kind).Nodup

/-- MU (R108, R110 to R114): FAULT stands exactly while a cause stands, the reference is 0 outside DRIVING
and STOPPING, and the counts keep their ranges. -/
def MotionUnit.Wf (m : MotionUnit) : Prop :=
  (m.motion = .fault ↔ (m.invCause || m.brakeCause || m.listenCause) = true)
    ∧ (m.moving = false → m.reference = 0) ∧ m.missed ≤ 3 ∧ m.still ≤ 10

/-- CT (R127, R138): the occupied count is that of the records, at most three laps are counted, and no
riders stand above the capacity. -/
def CabinTable.Wf (t : CabinTable) : Prop :=
  t.occupied = occupiedOf t.cabins
    ∧ ∀ c ∈ t.cabins, c.laps ≤ 3 ∧ ∀ n, c.riders = some n → n ≤ c.capacity

/-- BU (R145, R149, R150): queued parties and those matched in an ARRIVING window are at most 16, at most
four are matched and none while a wanted grace stands, and every tag is held once. -/
def BayUnit.Wf (b : BayUnit) : Prop :=
  b.placesTaken ≤ 16 ∧ b.window.matched.length ≤ 4 ∧ (b.window.grace = true → b.window.matched = [])
    ∧ ((b.queue ++ b.window.matched).map Party.tag).Nodup

/-- RP (R189, R190): busy while a PUT of LOADING waits and then alone, the part in the slot is one of the
answer's, and the refused count keeps its range. -/
def Port.Wf (p : Port) : Prop :=
  p.busy = p.deferred.isSome ∧ (∀ a, p.slot = some a → a.part < a.parts) ∧ p.refused ≤ 255

/-- A channel record (R2, R5, R14). -/
def Channel.Wf (c : Channel) : Prop :=
  c.counter ≤ 1023 ∧ c.p ≤ 1023 ∧ c.ring.length ≤ 12 ∧ c.ringSum = c.ring.sum ∧ c.recovery < 10

/-- WMU (R3, R10). -/
def Wmu.Wf (w : Wmu) : Prop := w.channels.length = 4 ∧ (∀ c ∈ w.channels, c.Wf) ∧ w.windows ≤ 12

/-- PV (R43): a record for each station number, with the counts in their ranges. -/
def PeerView.Wf (v : PeerView) : Prop :=
  v.table.length = 24 ∧ ∀ p ∈ v.table, p.gaps ≤ 255 ∧ p.unanswered ≤ 15

/-- WV (R65): the fused level, the fresh count and the degraded mark are those of the wind table. -/
def State.WindFused (s : State) : Prop :=
  s.wv.fused = fusedOf s.sl.sheet.minMasts s.wv.freshLevels ∧ s.wv.freshCount = s.wv.freshLevels.length
    ∧ s.wv.degraded = degradedOf s.sl.sheet.minMasts s.wv.freshLevels

/-- The cabin table matches the sheet (R127, R128, R139): from JOINING on a record for each cabin 1 to N,
and every cursor that names a cabin names one of them; a cursor is set only then. -/
def State.CabinsKnown (s : State) : Prop :=
  (s.joined = true → s.ct.cabins.length = s.sl.sheet.n) ∧
    ∀ b c, (s.ct.cursor b).cabin = some c → s.joined = true ∧ 1 ≤ c ∧ c ≤ s.sl.sheet.n

/-- The part as RESET holds it (R194): while the line is asserted, the start state is LOADING, no sheet is
taken and every block but the log unit stands at its reset values. -/
def State.HeldIsReset (s : State) : Prop :=
  s.sl.resetHeld = true →
    s.sl = .reset s.straps true ∧ s.clock = .reset ∧ s.lc = .reset ∧ s.pv = .reset ∧ s.wmu = .reset
      ∧ s.wv = .reset ∧ s.hu = .reset ∧ s.mu = .reset ∧ s.ct = .reset ∧ s.bu = .reset ∧ s.rp = .reset

/-! ### Which blocks a command may change -/

/-- The blocks of State. -/
inductive Block where
  | clock | pins | lu | lc | pv | wmu | wv | hu | mu | ct | bu | rp | sl | pending
  deriving DecidableEq, Repr

/-- Two states agree on a block. -/
def Block.same (b : Block) (s t : State) : Prop :=
  match b with
  | .clock => t.clock = s.clock
  | .pins => t.pins = s.pins
  | .lu => t.lu = s.lu
  | .lc => t.lc = s.lc
  | .pv => t.pv = s.pv
  | .wmu => t.wmu = s.wmu
  | .wv => t.wv = s.wv
  | .hu => t.hu = s.hu
  | .mu => t.mu = s.mu
  | .ct => t.ct = s.ct
  | .bu => t.bu = s.bu
  | .rp => t.rp = s.rp
  | .sl => t.sl = s.sl
  | .pending => t.pending = s.pending

/-- What follows a change of a hold record: the set, the HALT latch and empty-down, boarding and the party
queue, the log. -/
def holdBlocks : List Block := [.hu, .mu, .bu, .lu]

/-- The same with telegrams handed over. -/
def sentHoldBlocks : List Block := .lc :: holdBlocks

/-- What a received telegram of any kind may change: the sender's record and what follows from it, and the
start state at a duplicate. -/
def heardBlocks : List Block := .pv :: .sl :: sentHoldBlocks

/-- What a passage at a bay may change. -/
def passageBlocks : List Block := .ct :: sentHoldBlocks

/-- The blocks that a command may change; every other block stays as it is. -/
def mayChange : Instr → List Block
  | .powerOn _ | .resetAsserted | .restart _ _ =>
    [.clock, .lu, .lc, .pv, .wmu, .wv, .hu, .mu, .ct, .bu, .rp, .sl]
  | .resetReleased _ => [.sl]
  | .sheetReadComplete _ => [.lu, .lc, .pv, .wmu, .wv, .hu, .mu, .ct, .bu, .rp, .sl]
  | .joiningEnd => [.sl, .pv, .mu, .ct, .lu, .lc]
  | .settlingEnd => .sl :: sentHoldBlocks
  | .restartedFlagClear => [.pv]
  | .cupPulse _ => [.wmu]
  | .windowClose _ | .warmUpEnd _ | .levelDwellExpiry _ | .stuckEntry _ _ | .stuckRecovery _ _
  | .windReportPeriod _ => .wmu :: sentHoldBlocks
  | .transmissionStart | .arbitrationLost | .telegramCheckFailed _ => [.lc]
  | .transmissionComplete _ | .lineDominantTimeout => [.lc, .lu]
  | .holdReceived _ _ _ | .releaseReceived _ _ _ | .motionReceived _ _ _ | .orderReceived _ _ _
  | .presenceReceived _ _ _ => heardBlocks
  | .passageReceived _ _ _ | .bayReceived _ _ _ | .serviceReceived _ _ _ => .ct :: heardBlocks
  | .windReceived _ _ _ => .wv :: heardBlocks
  | .markReceived _ _ _ => .clock :: heardBlocks
  | .presencePeriod | .markPeriod => [.pv, .lu, .lc]
  | .peerStaleExpiry _ | .peerAbsentExpiry _ => .pv :: sentHoldBlocks
  | .motionPartAgeExpiry _ | .bayPartAgeExpiry _ | .driveRestartExpiry | .holdRefreshPeriod _ | .stopIn
  | .linkReleaseDwellExpiry => sentHoldBlocks
  | .windRecordExpiry _ => .wv :: sentHoldBlocks
  | .lapseCheck | .emptydownTimeout => holdBlocks
  | .ackWindowExpiry => [.hu, .lu, .pv, .mu]
  | .brakedLimitExpiry => [.hu, .lu]
  | .holdLampFlash => [.hu]
  | .motionUpdate | .inverterFault | .inverterFaultClear | .stillCountComplete | .orderPeriod =>
    [.mu, .lu, .lc]
  | .inverterAnswer _ => [.mu]
  | .brakeFbChange _ => [.pins, .mu]
  | .brakeFault => [.mu, .lu]
  | .servicePeriod => [.ct, .lu, .lc]
  | .tagPoll | .tagAnswer _ => [.bu]
  | .arrive | .departLimit | .exitArrive _ | .exitDepartLimit _ => passageBlocks
  | .align | .closeMark | .exitAlign | .exitCloseMark _ | .bayReportPeriod => [.bu, .lu, .lc]
  | .gateClear _ => [.pins, .bu, .lu, .lc]
  | .doorLocked _ => [.pins, .bu]
  | .putIncomplete => []
  | .get _ | .putUnknownRequest _ _ _ | .status _ | .readPeer _ _ | .readWind _ _ | .readHolds _ _
  | .readCabin _ _ | .readLog _ _ _ => [.rp]
  | .takePeerFault _ _ => [.rp, .pv]
  | .takeEvent _ => [.rp, .lu]
  | .submitParty _ _ _ _ => [.rp, .bu]
  | .withdrawParty _ _ => [.rp, .bu, .lu]
  | .reportCount _ _ | .declareHold _ _ _ | .releaseHold _ _ _ => .rp :: sentHoldBlocks
  | .closeDoors _ => [.rp, .bu, .lu, .lc]
  | .orderRide _ _ => [.rp, .mu, .lu, .lc]
  | .setService _ _ _ => [.rp, .ct, .lu, .lc]

/-- The blocks that the rows of the table belong to. -/
inductive Family where
  | start | wind | link | peers | holds | motion | bay | host
  deriving DecidableEq, Repr

/-- The family of a command. -/
def family : Instr → Family
  | .powerOn _ | .resetAsserted | .resetReleased _ | .sheetReadComplete _ | .joiningEnd | .settlingEnd
  | .restartedFlagClear => .start
  | .cupPulse _ | .windowClose _ | .warmUpEnd _ | .levelDwellExpiry _ | .stuckEntry _ _
  | .stuckRecovery _ _ | .windReportPeriod _ => .wind
  | .transmissionStart | .arbitrationLost | .transmissionComplete _ | .lineDominantTimeout
  | .telegramCheckFailed _ | .holdReceived _ _ _ | .releaseReceived _ _ _ | .motionReceived _ _ _
  | .passageReceived _ _ _ | .bayReceived _ _ _ | .windReceived _ _ _ | .orderReceived _ _ _
  | .serviceReceived _ _ _ | .presenceReceived _ _ _ | .markReceived _ _ _ => .link
  | .presencePeriod | .markPeriod | .peerStaleExpiry _ | .peerAbsentExpiry _ | .motionPartAgeExpiry _
  | .bayPartAgeExpiry _ | .driveRestartExpiry | .windRecordExpiry _ => .peers
  | .holdRefreshPeriod _ | .lapseCheck | .stopIn | .linkReleaseDwellExpiry | .ackWindowExpiry
  | .brakedLimitExpiry | .holdLampFlash => .holds
  | .motionUpdate | .inverterAnswer _ | .inverterFault | .inverterFaultClear | .stillCountComplete
  | .brakeFbChange _ | .brakeFault | .emptydownTimeout | .orderPeriod | .servicePeriod => .motion
  | .tagPoll | .tagAnswer _ | .arrive | .align | .closeMark | .departLimit | .gateClear _
  | .doorLocked _ | .bayReportPeriod | .exitArrive _ | .exitAlign | .exitCloseMark _
  | .exitDepartLimit _ => .bay
  | .get _ | .putUnknownRequest _ _ _ | .putIncomplete | .status _ | .readPeer _ _
  | .takePeerFault _ _ | .readWind _ _ | .readHolds _ _ | .readCabin _ _ | .readLog _ _ _
  | .takeEvent _ | .submitParty _ _ _ _ | .withdrawParty _ _ | .reportCount _ _ | .closeDoors _
  | .declareHold _ _ _ | .releaseHold _ _ _ | .orderRide _ _ | .setService _ _ _ | .restart _ _ => .host

/-- A command leaves every block that it may not change. -/
def Spares (c : Instr) : Prop :=
  ∀ s t, exec c s = .next t → ∀ b : Block, b ∉ mayChange c → b.same s t

/-! ### Telegrams received -/

/-- The row of a telegram received. -/
def arrival (t : Telegram) : Instr :=
  match t.payload with
  | .hold p => .holdReceived t.sender t.seq p
  | .release p => .releaseReceived t.sender t.seq p
  | .motion p => .motionReceived t.sender t.seq p
  | .passage p => .passageReceived t.sender t.seq p
  | .bay p => .bayReceived t.sender t.seq p
  | .wind p => .windReceived t.sender t.seq p
  | .order p => .orderReceived t.sender t.seq p
  | .service p => .serviceReceived t.sender t.seq p
  | .presence p => .presenceReceived t.sender t.seq p
  | .mark p => .markReceived t.sender t.seq p

/-- A telegram of another station reaches its judgement: RESET is released, the station has joined, and
the telegram is not malformed (R33, R34). -/
def State.hears (s : State) (t : Telegram) : Prop :=
  s.sl.resetHeld = false ∧ s.joined = true ∧ telegramOk t = true ∧ t.sender.toNat ≠ s.own

/-- A telegram of another station is accepted (R34 to R36). -/
def State.accepts (s : State) (t : Telegram) : Prop := s.hears t ∧ s.judge t = .accept

/-- The station's own telegram reaches its judgement: it is the echo of the transmission just completed (R32,
R34). -/
def State.echoes (s : State) (t : Telegram) : Prop :=
  s.sl.resetHeld = false ∧ s.joined = true ∧ telegramOk t = true ∧ t.sender.toNat = s.own
    ∧ s.lc.echoDue = some t

/-- An own echo is accepted (R34 to R37). -/
def State.acceptsEcho (s : State) (t : Telegram) : Prop := s.echoes t ∧ s.judge t = .accept

/-- A telegram is accepted: another station's, or the own echo (R37, R44). -/
def State.takes (s : State) (t : Telegram) : Prop := s.accepts t ∨ s.acceptsEcho t

/-- A telegram of station n changes no DRIVE record's state (R44, R45, R90). -/
def State.steady (s : State) (n : Nat) : Prop :=
  n = s.own ∨ (s.peer n).state = .fresh ∨ (s.peer n).role ≠ .drive

/-- The hold lamp after a change of the hold set (R99): at a DESK its case is that of the set, and a changed case
begins now, lit unless it is off (log entry 26); at another role it stays. -/
def State.lampFollows (s u : State) : Prop :=
  (s.role = .desk → u.hu.records ≠ s.hu.records →
    ((∃ r ∈ u.hu.records, r.state = .orphaned) → u.hu.lampMode = .flashing) ∧
    ((∀ r ∈ u.hu.records, r.state ≠ .orphaned) →
      u.hu.lampMode = if u.hu.effect = .none then .off else .steady) ∧
    (u.hu.lampMode ≠ s.hu.lampMode →
      u.hu.lampAt = s.clock.now ∧ (u.hu.lampLit = true ↔ u.hu.lampMode ≠ .off))) ∧
  (s.role ≠ .desk →
    u.hu.lampMode = s.hu.lampMode ∧ u.hu.lampLit = s.hu.lampLit ∧ u.hu.lampAt = s.hu.lampAt)

/-! ### Requests -/

/-- The port takes a request and carries it out at once (R190). -/
def State.serves (s : State) : Prop :=
  s.sl.resetHeld = false ∧ s.sl.start ≠ .loading ∧ s.rp.busy = false ∧ s.rp.rdy = false

/-- The slot holds a request's answer, its first part not yet sent (R190). -/
def Port.holds (code num : Byte) (result : Nat) (data : List Byte) (p : Port) : Prop :=
  p.slot = some { code := code, num := num, result := result, data := data, part := 0, read := false }
    ∧ p.busy = false

end Sys2Proof.Machine
end

