-- ==== Sys2Proof/Certificates/Slice0/Obligations.lean ====
section
/-! DEFINITION. The statements about the block, from the rules of spec/. A clause that rests on a choice of the
model names its log entry. Nothing is proved here. -/

open Sys2Proof Sys2Proof.Machine

/-! ### Steps -/

/-- A step with a command waiting is exec of the front command on the state with the queue's rest. -/
def Obligations.StepRunsTheFrontCommand : Prop :=
  ∀ (s : State) (c : Instr) (rest : List Instr),
    step { s with pending := c :: rest } = exec c { s with pending := rest }

/-- A step with no command waiting is one millisecond (log entries 1, 2 and 10): both clocks advance by
one, station time wrapping (R56, R57), every timer then due puts its row into the queue once, and nothing
else changes; while RESET is held nothing changes. A row joins the queue exactly when its time has come: each
row's start, its period and the state in which it runs are spelled out (the vane lines of a close are free, log
entry 8; a DOOR_LOCKED that already reads locked is log entry 28; that BRAKE_FAULT joins only while its cause is
not latched is log entry 39; the rows that log entry 4 names never join). -/
def Obligations.IdleStepIsOneMillisecond : Prop :=
  ∀ s : State, s.pending = [] →
    (s.sl.resetHeld = true → step s = .next s) ∧
    (s.sl.resetHeld = false → ∃ t, step s = .next t ∧
      t.clock.now = s.clock.now + 1 ∧ t.clock.station = s.clock.station + 1 ∧
      t.pending.Perm s.advance.dueTimers ∧ t.pending.Nodup ∧
      (∀ b : Block, b ≠ .clock → b ≠ .pending → b.same s t) ∧
      let now := s.clock.now + 1
      let past := fun since d : Nat => since + d ≤ now
      let settles := s.sl.start = .running ∨ s.sl.start = .listenOnly
      let bay := s.joined = true ∧ (s.role = .entry ∨ s.role = .exit)
      let desk := s.role = .desk ∧ s.sl.start = .running
      ∀ c : Instr, c ∈ t.pending ↔ match c with
        | .joiningEnd => s.sl.start = .joining ∧ past s.sl.joinedAt 2000
        | .settlingEnd => settles ∧ s.sl.settled = false ∧ past s.sl.runningAt 15000
        | .restartedFlagClear => settles ∧ s.pv.restartedFlag = true ∧ past s.sl.runningAt 10000
        | .windowClose vane => vane = Config.vaneLines now ∧ s.role = .mast ∧ s.joined = true ∧
            ∃ at_, s.wmu.windowFrom = some at_ ∧ past at_ 250
        | .presencePeriod => s.sl.start ≠ .loading ∧ past s.pv.presenceAt 1000
        | .markPeriod => s.sl.start = .running ∧ s.sl.sheet.timeSource.getLsbD s.sl.station = true ∧
            past s.pv.markAt 10000
        | .peerStaleExpiry n => n.val ≠ s.sl.station ∧ (s.peer n.val).state = .fresh ∧
            past (s.peer n.val).lastHeard 3000
        | .peerAbsentExpiry n => n.val ≠ s.sl.station ∧
            ((s.peer n.val).state = .stale ∨ (s.peer n.val).state = .foreign) ∧
            past (s.peer n.val).lastHeard 20000
        | .motionPartAgeExpiry n => s.joined = true ∧
            ∃ m at_, (s.peer n.val).motion = some (m, at_) ∧ now = at_ + 1000
        | .bayPartAgeExpiry n => s.joined = true ∧
            ∃ b at_, (s.peer n.val).bay = some (b, at_) ∧ now = at_ + 3000
        | .windRecordExpiry slot => ∃ r, s.wv.records[slot.val]? = some r ∧ r.fresh = true ∧
            past r.receipt 10000
        | .driveRestartExpiry => s.hu.cond.driveRestart = true ∧ past s.hu.driveRestartAt 10000
        | .holdRefreshPeriod k => s.joined = true ∧ ∃ o, s.hu.own? k = some o ∧ past o.sentAt 1000
        | .lapseCheck => s.joined = true ∧ past s.hu.lapseAt 1000
        | .linkReleaseDwellExpiry => ∃ at_, s.hu.dwellFrom = some at_ ∧ past at_ 5000
        | .ackWindowExpiry => ∃ w at_, s.hu.watch = some w ∧ w.ackUntil = some at_ ∧ at_ ≤ now
        | .brakedLimitExpiry => ∃ w, s.hu.watch = some w ∧ past w.startAt w.limit
        | .holdLampFlash => s.role = .desk ∧ s.hu.lampMode = .flashing ∧ past s.hu.lampAt 500
        | .motionUpdate => s.role = .drive ∧ s.joined = true ∧ past s.mu.updateAt 100
        | .brakeFault => s.role = .drive ∧ s.joined = true ∧ s.mu.brakeCause = false ∧
            ∃ at_, s.mu.mismatchFrom = some at_ ∧ past at_ 1000
        | .emptydownTimeout => s.mu.emptyState = .emptying ∧
            past s.mu.emptyAt (s.sl.sheet.emptyLimit * 1000)
        | .orderPeriod => desk ∧ past s.mu.orderAt 1000
        | .servicePeriod => desk ∧ past s.ct.serviceAt 5000
        | .tagPoll => bay ∧ past s.bu.pollAt 100
        | .bayReportPeriod => bay ∧ past s.bu.reportAt 500
        | .doorLocked locked => locked = true ∧ s.bu.doorClose = true ∧ s.pins.doorLocked = true
        | _ => False)

/-- Every command answers a next state, in every state, and leaves the waiting commands as they are. While
RESET stays asserted the part stays reset: no command but POWER_ON and RESET_RELEASED changes anything of it,
and BRAKE_FB_CHANGE, GATE_CLEAR and DOOR_LOCKED set the level of their pin alone (the model's choices, log
entries 6 and 10). -/
def Obligations.EveryCommandAnswersNext : Prop :=
  (∀ (c : Instr) (s : State), ∃ t, exec c s = .next t ∧ t.pending = s.pending) ∧
  (∀ (c : Instr) (s : State), s.sl.resetHeld = true → (∀ l, c ≠ .powerOn l) → (∀ l, c ≠ .resetReleased l) →
    (∀ v, c ≠ .brakeFbChange v) → (∀ v, c ≠ .gateClear v) → (∀ v, c ≠ .doorLocked v) →
    exec c s = .next s) ∧
  (∀ (s : State) (v : Bool), s.sl.resetHeld = true →
    exec (.brakeFbChange v) s = .next { s with pins := { s.pins with brakeReleased := v } } ∧
    exec (.gateClear v) s = .next { s with pins := { s.pins with gateClear := v } } ∧
    exec (.doorLocked v) s = .next { s with pins := { s.pins with doorLocked := v } })

/-! ### Resets -/

/-- POWER_ON takes every block to its reset values, with the straps as read, and while RESET is asserted the
part stays reset; the input pins keep their levels and the waiting commands stay (the model's choices, log
entries 5 and 6). RESET_RELEASED begins LOADING with the straps as read, and does nothing where RESET is not
held (log entry 10). -/
def Obligations.PowerOnAndReleaseBeginLoading : Prop :=
  (∀ (lines : StrapLines) (s : State),
    exec (.powerOn lines) s = .next
      { State.reset with
        lu := .powerOn lines.stn.toNat, sl := .reset lines s.sl.resetHeld, pins := s.pins,
        pending := s.pending }) ∧
  (∀ (lines : StrapLines) (s : State),
    (s.sl.resetHeld = true →
      exec (.resetReleased lines) s = .next { s with sl := .reset lines false }) ∧
    (s.sl.resetHeld = false → exec (.resetReleased lines) s = .next s))

/-- RESET_ASSERTED and RESTART take every block but the log to its reset values, RESTART going to LOADING
with the straps as read, RESET_ASSERTED staying reset; the log keeps its entries but for the start entry,
written at the kept write position. Model's choices: the pins keep their levels (log entry 6), the number in
the start entry of RESET_ASSERTED is the one last read (log entry 10), and RESTARTED stands before a LOG_HALF
or LOG_WRAP of the start entry (log entry 23). -/
def Obligations.RestartKeepsTheLog : Prop :=
  ∀ (s : State) (num : Byte) (lines : StrapLines), s.sl.resetHeld = false → s.lu.ring.length = 256 →
    s.lu.writePos < 256 →
    ∃ t u : State, exec (.restart num lines) s = .next t ∧ exec .resetAsserted s = .next u ∧
      t.sl = .reset lines false ∧ u.sl.resetHeld = true ∧ u.sl.start = .loading ∧
      (∀ r, r = t ∨ r = u →
        r.clock = .reset ∧ r.lc = .reset ∧ r.pv = .reset ∧ r.wmu = .reset ∧ r.wv = .reset ∧
        r.hu = .reset ∧ r.mu = .reset ∧ r.ct = .reset ∧ r.bu = .reset ∧ r.rp = .reset ∧
        r.pins = s.pins ∧
        (∀ i, i ≠ s.lu.writePos → r.lu.ring[i]? = s.lu.ring[i]?) ∧
        r.lu.writePos = (s.lu.writePos + 1) % 256 ∧
        r.lu.queue.head? = some { code := .restarted, param := 1, time := 0 } ∧
        (s.lu.writePos ≠ 127 → s.lu.writePos ≠ 255 → r.lu.queue.length = 1) ∧
        r.lu.overrun = false ∧ r.lu.lost = 0) ∧
      t.lu.ring[s.lu.writePos]? = some (some (startEntry s.lu.writePos lines.stn.toNat 1)) ∧
      u.lu.ring[s.lu.writePos]? = some (some (startEntry s.lu.writePos s.sl.station 1))

/-! ### Start-up -/

/-- SHEET_READ_COMPLETE. With a sheet that passes every check the station enters JOINING with the sheet, its
own peer record FRESH and the others ABSENT with their roster roles, an all-UNKNOWN cabin table, the wind table
without reports and a BLIND fused level. With a sheet that fails a check, or with no sheet read, it enters
SHEET_FAULT and the sheet is not taken; the digest is the field as read, 0 when the read failed. A PUT
held back in LOADING is then carried out in the state entered, z, and its answer fills the slot (R190). The checks
are those of R23, R64, R90, R125, R141, R164 and R192, spelled out over the sheet that the image gives. Model's
choices: a read of other than 270 bytes is a failed read (log entry 9), which bits no check covers (log
entry 27), and that READ CABIN is held back like every other request (log entry 41). -/
def Obligations.SheetDecidesTheStart : Prop :=
  (∀ (s : State) (im : List Byte), s.sl.resetHeld = false → s.sl.start = .loading →
    s.rp.Wf → imageOk im = true → strapsOk s.sl.station s.sl.roleCode (sheetOf im) = true →
    ∃ t z, exec (.sheetReadComplete (some im)) s = .next t ∧
      t.sl.start = .joining ∧ t.sl.sheet = sheetOf im ∧ t.sl.digest = digestField im ∧
      t.sl.joinedAt = s.clock.now ∧ t.sl.station = s.sl.station ∧
      (∀ n, n < 24 → (t.peer n).state = if n = s.sl.station then .fresh else .absent) ∧
      (∀ n, n < 24 → (t.peer n).role = (sheetOf im).roleAt n) ∧
      t.ct.cabins = startCabins (sheetOf im) ∧ t.ct.occupied = (sheetOf im).n ∧
      t.wv.records = windTable (sheetOf im) ∧ t.wv.fused = .blind ∧
      t.rp.busy = false ∧
      z.sl = { s.sl with
        start := .joining, sheet := sheetOf im, digest := digestField im, joinedAt := s.clock.now } ∧
      z.ct.cabins = startCabins (sheetOf im) ∧ z.ct.occupied = (sheetOf im).n ∧
      z.wv.records = windTable (sheetOf im) ∧ z.wv.fused = .blind ∧ z.rp = s.rp ∧ z.clock = s.clock ∧
      (∀ n, n < 24 → (z.peer n).state = if n = s.sl.station then .fresh else .absent) ∧
      (s.rp.deferred = none → t = z) ∧
      (∀ num r, s.rp.deferred = some (num, r) → t = { (serve r z).1 with rp := { s.rp with
        slot := some ⟨requestCode r, num, (serve r z).2.code, (serve r z).2.data, 0, false⟩
        busy := false
        deferred := none } })) ∧
  (∀ (s : State) (image : Option (List Byte)), s.sl.resetHeld = false → s.sl.start = .loading →
    s.rp.Wf → s.takenSheet image = none →
    ∃ t z, exec (.sheetReadComplete image) s = .next t ∧
      t.sl = { s.sl with start := .sheetFault, digest := readDigest image } ∧
      t.ct.cabins = s.ct.cabins ∧ t.wv = s.wv ∧ t.rp.busy = false ∧
      z.sl = t.sl ∧ z.ct = s.ct ∧ z.wv = s.wv ∧ z.hu = s.hu ∧ z.mu = s.mu ∧ z.bu = s.bu ∧ z.rp = s.rp ∧
      (s.rp.deferred = none → t = z) ∧
      (∀ num r, s.rp.deferred = some (num, r) → t = { (serve r z).1 with rp := { s.rp with
        slot := some ⟨requestCode r, num, (serve r z).2.code, (serve r z).2.data, 0, false⟩
        busy := false
        deferred := none } })) ∧
  (∀ im : List Byte,
    let sh := sheetOf im
    let byte := fun i => (im.getD i 0).toNat
    let many := fun r => ((List.range 24).filter (fun n => sh.roster.getD n .unfitted == r)).length
    let within := fun lo hi n : Nat => lo ≤ n ∧ n ≤ hi
    imageOk im = true ↔ im.length = 270 ∧
      digestField im = BitVec.ofNat 16 ((im.take 268).map BitVec.toNat).sum ∧
      (∀ g ∈ sh.slots, (∀ h ∈ g.channels, (h.enabled = true → within 1000 1000000 h.cal) ∧
          (h.reference = true → h.enabled = true)) ∧
        (g.channels.filter (fun h => h.reference)).length ≤ 1) ∧
      within 4 10 sh.k ∧ 1 ≤ sh.enter.getD 0 0 ∧
      (∀ i, i < 3 → sh.enter.getD i 0 < sh.enter.getD (i + 1) 0) ∧
      (∀ i, i < 4 → 1 ≤ sh.leave.getD i 0 ∧ sh.leave.getD i 0 < sh.enter.getD i 0 ∧
        within 1 3600 (sh.dwell.getD i 0)) ∧
      within 1 4 (many .mast) ∧ within 1 4 sh.minMasts ∧ sh.minMasts ≤ many .mast ∧
      within 1 12 (many .drive) ∧ within 1 (many .drive) sh.minDrives ∧
      1 ≤ sh.creep ∧ sh.creep < sh.slow ∧ sh.slow < sh.run ∧ sh.run ≤ 1000 ∧
      within 1 100 sh.aUp ∧ within 1 100 sh.aDn ∧ within sh.aDn 200 sh.aStop ∧ sh.g ≤ 1024 ∧
      sh.trimLimit ≤ 100 ∧ 1 ≤ sh.idleOne ∧ sh.idleOne < sh.idleTwo ∧ sh.idleTwo ≤ 3600 ∧
      within 60 7200 sh.emptyLimit ∧ within 16 64 sh.n ∧
      (∀ i, i < sh.n → byte (28 + i / 4) / 4 ^ (i % 4) % 4 ≠ 3) ∧
      within 1 25 sh.capStandard ∧ within 1 25 sh.capStepFree ∧ within 1 25 sh.capPrivate ∧
      many .entry = 1 ∧ many .exit = 1 ∧ within 1 2 (many .desk) ∧
      within 1 15 sh.skipLimit ∧ byte 76 ≤ 1 ∧ (∀ i, i < 24 → byte i ≤ 4 ∨ byte i = 7)) ∧
  (∀ (station : Nat) (code : BitVec 3) (sh : Sheet), strapsOk station code sh = true ↔
    station ≤ 23 ∧ code.toNat ≤ 4 ∧ sh.roster.getD station .unfitted = roleOf code.toNat)

/-- The start-state timers: JOINING_END enters RUNNING, where a time source hands over a MARK (R58) and a desk
its ORDER and its SERVICE (R104, R136), the first of each at this moment by log entry 21; SETTLING_END ends the
settling period, boarding is formed again (R147) and the LINK monitor acts on the conditions then holding (R91,
R92); RESTARTED_FLAG_CLEAR clears the flag of PRESENCE. Each acts at its time alone: a timer row before its time
does nothing (the model's choice, log entry 3). -/
def Obligations.StartStateTimers : Prop :=
  ∀ s : State, s.sl.resetHeld = false →
    (s.sl.start = .joining → s.sl.joinedAt + 2000 ≤ s.clock.now →
      ∃ t, exec .joiningEnd s = .next t ∧
        t.sl = { s.sl with start := .running, runningAt := s.clock.now } ∧
        let source := s.sl.sheet.timeSource.getLsbD s.sl.station
        let marked := if source = true then handOver (.mark ⟨s.clock.station⟩) false s else s
        let ordered := handOver (.order ⟨byteOf (modeCode s.mu.deskMode), s.mu.deskSerial⟩) false marked
        t.lc = (if s.role = .desk then handOver
            (.service ⟨marksUpTo s.sl.sheet.n s.ct.deskMarks, s.ct.deskSerial⟩) false ordered
          else marked).lc ∧
        t.pv = (if source = true then { s.pv with markAt := s.clock.now } else s.pv) ∧
        (s.role = .desk → t.mu = { s.mu with orderAt := s.clock.now } ∧
          t.ct = { s.ct with serviceAt := s.clock.now }) ∧
        (s.role ≠ .desk → t.mu = s.mu ∧ t.ct = s.ct)) ∧
    ((s.sl.start = .running ∨ s.sl.start = .listenOnly) → s.sl.settled = false →
      s.sl.runningAt + 15000 ≤ s.clock.now →
      ∃ t, exec .settlingEnd s = .next t ∧ t.sl = { s.sl with settled := true } ∧
        t.bu.boarding = t.boardingNow ∧
        let rows := [(LinkCond.noWind, Effect.empty, Cause.noWind), (.drivesLow, .halt, .drivesLow),
          (.baySilent, .halt, .baySilent), (.driveRestart, .halt, .driveRestart), (.button, .stop, .button)]
        let counts := fun c : LinkCond => s.hu.cond.get c = true ∧ s.hu.overridden.get c = false
        (∀ (i : Nat) c e d, rows[i]? = some (c, e, d) → counts c →
          (∀ (j : Nat) x f g, rows[j]? = some (x, f, g) → counts x →
            effectCode f < effectCode e ∨ (f = e ∧ i ≤ j)) →
          t.hu.dwellFrom = none ∧ ∃ h, t.hu.own? .link = some h ∧ h.effect = e ∧ h.cause = d) ∧
        ((∀ c, ¬ counts c) → t.lc = s.lc ∧ t.hu = (if (s.hu.own? .link).isSome = true
          then { s.hu with dwellFrom := some (s.hu.dwellFrom.getD s.clock.now) } else s.hu))) ∧
    ((s.sl.start = .running ∨ s.sl.start = .listenOnly) → s.pv.restartedFlag = true →
      s.sl.runningAt + 10000 ≤ s.clock.now →
      exec .restartedFlagClear s = .next { s with pv := { s.pv with restartedFlag := false } }) ∧
    (s.joiningDue = false → exec .joiningEnd s = .next s) ∧
    (s.settlingDue = false → exec .settlingEnd s = .next s) ∧
    (s.flagDue = false → exec .restartedFlagClear s = .next s)

/-! ### Wind measurement -/

/-- CUP_PULSE counts an edge on an enabled channel of a MAST while a window is open, the counter
saturating at 1,023, and changes nothing else; on a channel that is not enabled, with no window open, or
at another station, nothing changes (R2, R3). -/
def Obligations.CupPulseIsCounted : Prop :=
  ∀ (s : State) (ch : Fin 4), s.sl.resetHeld = false →
    (s.role = .mast → s.wmu.windowFrom.isSome = true → (s.ownSlot.channel ch.val).enabled = true →
      exec (.cupPulse ch) s = .next { s with wmu := { s.wmu with
        channels := s.wmu.channels.modify ch.val
          (fun c => { c with counter := min 1023 (c.counter + 1) }) } }) ∧
    ((s.role ≠ .mast ∨ s.wmu.windowFrom = none ∨ (s.ownSlot.channel ch.val).enabled = false) →
      exec (.cupPulse ch) s = .next s)

/-- WINDOW_CLOSE, stages 1 and 2 of R1: the vane sector, and for every enabled channel the pulse count
latched and its counter cleared (R2), the sample (R4), the gust ring of the last 12 samples with its sum
and gust value (R5), the mean (R6) and the exposure (R7). A channel is OVERRANGE when its sample is clamped or
its counter full; the mark stays set from then on until a report is queued, which clears it (R15, R18). A
channel that is not enabled keeps every field (R3), but for the overrange mark that a report clears. -/
def Obligations.WindowCloseMeasuresEveryEnabledChannel : Prop :=
  ∀ (s : State) (vane : BitVec 4), s.sl.resetHeld = false → s.windowDue = true → s.wmu.Wf →
    ∃ t, exec (.windowClose vane) s = .next t ∧
      t.wmu.sector = vaneSector vane ∧ t.wmu.windowFrom = some s.clock.now ∧
      t.wmu.windows = min 12 (s.wmu.windows + 1) ∧ t.wmu.channels.length = 4 ∧
      ∀ (i : Fin 4) (c d : Channel), s.wmu.channels[i.val]? = some c →
        t.wmu.channels[i.val]? = some d →
        let g := s.ownSlot.channel i.val
        (g.enabled = true →
          d.p = c.counter ∧ d.counter = 0 ∧ d.sample = min 65535 (c.counter * g.cal / 250) ∧
          d.ring = (c.ring ++ [d.sample]).drop (c.ring.length + 1 - 12) ∧ d.ringSum = d.ring.sum ∧
          d.gust = d.ring.sum / 12 ∧ d.meanStarted = true ∧ d.mean = d.m16 / 16 ∧
          (c.meanStarted = false → d.m16 = 16 * d.sample) ∧
          (c.meanStarted = true →
            (d.m16 : Int) = c.m16 + (16 * (d.sample : Int) - c.m16) / 2 ^ s.sl.sheet.k) ∧
          d.exposure = min 65535 (d.gust * s.ownSlot.exposure.getD (vaneSector vane) 0 / 128) ∧
          (d.overrange = true ↔ 65535 < c.counter * g.cal / 250 ∨ c.counter = 1023) ∧
          (t.wmu.reportAt ≠ s.clock.now → d.overrangeMark = (c.overrangeMark || d.overrange)) ∧
          (s.wmu.reportAt ≠ s.clock.now → t.wmu.reportAt = s.clock.now → d.overrangeMark = false)) ∧
        (g.enabled = false → { d with overrangeMark := c.overrangeMark } = c)

/-- The assessed values of a window. The adjusted exposure of an enabled channel (R8): the reference channel has
its own while it works and is excluded while STUCK; with a working reference another channel has the share of
the reference's exposure that its weight gives, a working one its own where that is greater; without one a
working channel has its own and a STUCK one is excluded. With a working channel, A is the greatest adjusted
exposure of the enabled channels, T the greatest lead of the gust over the mean of the working channels, and V
their combination (R9); with none the mast is BLIND and all three are 0 (R16). -/
def Obligations.AssessmentFollowsTheChannels : Prop :=
  ∀ (s : State) (vane : BitVec 4), s.sl.resetHeld = false → s.windowDue = true → s.wmu.Wf →
    ∃ t, exec (.windowClose vane) s = .next t ∧
      (∀ (i : Fin 4) (c : Channel), t.wmu.channels[i.val]? = some c →
        (s.ownSlot.channel i.val).enabled = true →
        let h := s.ownSlot.channel i.val
        let refersTo := fun r : Channel => ∃ j : Fin 4, t.wmu.channels[j.val]? = some r ∧
          s.ownSlot.working j.val r = true ∧ (s.ownSlot.channel j.val).reference = true
        (h.reference = true →
          c.adjusted = if c.state = .working then some c.exposure else none) ∧
        (h.reference = false → (∃ r, refersTo r) → ∃ r, refersTo r ∧
          c.adjusted = some (min 65535 (if c.state = .working then max c.exposure (r.exposure * h.weight / 128)
            else r.exposure * h.weight / 128))) ∧
        (h.reference = false → (∀ r, ¬ refersTo r) →
          c.adjusted = if c.state = .working then some c.exposure else none)) ∧
      (anyWorking s.ownSlot t.wmu.channels = true →
        (∀ (i : Fin 4) (c : Channel) (e : Nat), t.wmu.channels[i.val]? = some c →
          (s.ownSlot.channel i.val).enabled = true → c.adjusted = some e → e ≤ t.wmu.a) ∧
        (t.wmu.a ≠ 0 → ∃ (i : Fin 4) (c : Channel), t.wmu.channels[i.val]? = some c ∧
          (s.ownSlot.channel i.val).enabled = true ∧ c.adjusted = some t.wmu.a) ∧
        (∀ (i : Fin 4) (c : Channel), t.wmu.channels[i.val]? = some c →
          s.ownSlot.working i.val c = true → c.gust - c.mean ≤ t.wmu.t) ∧
        (t.wmu.t ≠ 0 → ∃ (i : Fin 4) (c : Channel), t.wmu.channels[i.val]? = some c ∧
          s.ownSlot.working i.val c = true ∧ t.wmu.t = c.gust - c.mean) ∧
        t.wmu.v = min 65535 (t.wmu.a + (t.wmu.t - s.sl.sheet.spread) / 2)) ∧
      (anyWorking s.ownSlot t.wmu.channels = false → t.wmu.a = 0 ∧ t.wmu.t = 0 ∧ t.wmu.v = 0)

/-- The mast level after a close past warm-up: a rise to the highest level above the present one whose enter
threshold V reaches, else a fall by one level after the dwell below the exit threshold; while BLIND neither
applies. The mast's own WIND or STORM hold then stands in its own-hold list where the change of level declares
it. During warm-up a close measures and assesses alone: the level, the dwell timer, the holds and the transmit
queue stay as they are. -/
def Obligations.LevelRisesAndFalls : Prop :=
  (∀ (s : State) (vane : BitVec 4), s.sl.resetHeld = false → s.windowDue = true →
    11 ≤ s.wmu.windows → windCode s.wmu.level ≤ 4 →
    ∃ t, exec (.windowClose vane) s = .next t ∧
      let cur := windCode s.wmu.level
      let rises := fun j => cur < j ∧ j ≤ 4 ∧ s.sl.sheet.enter.getD (j - 1) 0 ≤ t.wmu.v
      let leave := s.sl.sheet.leave.getD (cur - 1) 0
      let dwell := s.sl.sheet.dwell.getD (cur - 1) 0 * 1000
      (anyWorking s.ownSlot t.wmu.channels = false →
        t.wmu.blind = true ∧ t.wmu.level = s.wmu.level ∧ t.wmu.dwell = s.wmu.dwell) ∧
      (anyWorking s.ownSlot t.wmu.channels = true →
        t.wmu.blind = false ∧
        (∀ j, rises j → (∀ i, rises i → i ≤ j) → windCode t.wmu.level = j ∧ t.wmu.dwell = 0) ∧
        ((∀ j, ¬ rises j) →
          (cur = 0 → t.wmu.level = .calm ∧ t.wmu.dwell = 0) ∧
          (cur ≠ 0 → leave ≤ t.wmu.v → t.wmu.level = s.wmu.level ∧ t.wmu.dwell = 0) ∧
          (cur ≠ 0 → t.wmu.v < leave → s.wmu.dwell + 250 < dwell →
            t.wmu.level = s.wmu.level ∧ t.wmu.dwell = s.wmu.dwell + 250) ∧
          (cur ≠ 0 → t.wmu.v < leave → dwell ≤ s.wmu.dwell + 250 →
            windCode t.wmu.level = cur - 1 ∧ t.wmu.dwell = 0)) ∧
        (windCode t.wmu.level > cur →
          (t.wmu.level = .storm → (t.hu.own? .storm).isSome = true) ∧
          (t.wmu.level = .hold → (t.hu.own? .wind).isSome = true)) ∧
        (s.wmu.level = .storm → t.wmu.level = .hold →
          (t.hu.own? .wind).isSome = true ∧ t.hu.own? .storm = none) ∧
        (s.wmu.level = .hold → t.wmu.level = .gusty → t.hu.own? .wind = none))) ∧
  (∀ (s : State) (vane : BitVec 4), s.sl.resetHeld = false → s.windowDue = true → s.wmu.windows < 11 →
    ∃ t, exec (.windowClose vane) s = .next t ∧
      t.wmu.windows = s.wmu.windows + 1 ∧ t.wmu.level = s.wmu.level ∧ t.wmu.dwell = s.wmu.dwell ∧
      t.wmu.blind = s.wmu.blind ∧ t.wmu.reportAt = s.wmu.reportAt ∧ t.hu = s.hu ∧ t.lc = s.lc ∧
      t.mu = s.mu ∧ t.bu = s.bu)

/-- The rows that name an occasion of a window's close do that close (DEDUCED, log entry 4), with the outcome
that the row names: the end of warm-up with the first report, the fall after the dwell, a channel becoming
STUCK or working again, and the report of the period, of 1 s at BREEZE or above, while BLIND and for 60 s after
a change, and of 4 s otherwise (R19). A close past warm-up hands over a WIND report exactly at the end of
warm-up, at a change of level or a turn to BLIND, and at the period (R19); the report carries the values of this
close (R18), after the hold telegrams of a change of level, z being the state in which it is handed over. -/
def Obligations.WindowOccasionsDoTheClose : Prop :=
  ∀ (s : State) (vane : BitVec 4) (ch : Fin 4), s.sl.resetHeld = false → s.windowDue = true → s.wmu.Wf →
    let g := s.ownSlot
    let sh := s.sl.sheet
    let m := s.wmu.measured g sh.k vane s.clock.now
    let w := s.wmu.closed g sh vane s.clock.now
    (s.wmu.windows = 11 → ∃ t, exec (.warmUpEnd vane) s = .next t ∧
      exec (.windowClose vane) s = .next t ∧ t.wmu.windows = 12 ∧ t.wmu.reportAt = s.clock.now) ∧
    (11 ≤ s.wmu.windows → anyWorking g w.channels = true → 1 ≤ windCode s.wmu.level →
      windCode s.wmu.level ≤ 4 →
      (∀ j, windCode s.wmu.level < j → j ≤ 4 → w.v < sh.enter.getD (j - 1) 0) →
      w.v < sh.leave.getD (windCode s.wmu.level - 1) 0 →
      sh.dwell.getD (windCode s.wmu.level - 1) 0 * 1000 ≤ s.wmu.dwell + 250 →
      ∃ t, exec (.levelDwellExpiry vane) s = .next t ∧ exec (.windowClose vane) s = .next t ∧
        windCode t.wmu.level = windCode s.wmu.level - 1 ∧ t.wmu.dwell = 0) ∧
    (∀ c, s.wmu.channels[ch.val]? = some c → (g.channel ch.val).enabled = true → c.state = .working →
      c.counter = 0 → 29750 ≤ c.zeroTime → windElsewhere g m.channels ch.val = true →
      ∃ t, exec (.stuckEntry ch vane) s = .next t ∧ exec (.windowClose vane) s = .next t ∧
        ∃ d, t.wmu.channels[ch.val]? = some d ∧ d.state = .stuck ∧ d.zeroTime = 0 ∧ d.recovery = 0) ∧
    (∀ c, s.wmu.channels[ch.val]? = some c → (g.channel ch.val).enabled = true → c.state = .stuck →
      0 < c.counter → c.recovery = 9 →
      ∃ t, exec (.stuckRecovery ch vane) s = .next t ∧ exec (.windowClose vane) s = .next t ∧
        ∃ d, t.wmu.channels[ch.val]? = some d ∧ d.state = .working ∧ d.zeroTime = 0 ∧ d.recovery = 0) ∧
    (s.wmu.windows = 12 →
      (s.wmu.reportAt + 4000 ≤ s.clock.now ∨
        (s.wmu.reportAt + 1000 ≤ s.clock.now ∧ s.clock.now < s.wmu.changeAt + 60000)) →
      ∃ t, exec (.windReportPeriod vane) s = .next t ∧ exec (.windowClose vane) s = .next t ∧
        t.wmu.reportAt = s.clock.now) ∧
    (s.wmu.windows = 12 → s.wmu.reportAt + 1000 ≤ s.clock.now → ∀ t, exec (.windowClose vane) s = .next t →
      t.wmu.level ≠ .calm ∨ t.wmu.blind = true →
      exec (.windReportPeriod vane) s = .next t ∧ t.wmu.reportAt = s.clock.now) ∧
    (11 ≤ s.wmu.windows → ∃ t, exec (.windowClose vane) s = .next t ∧
      let changed := t.wmu.level ≠ s.wmu.level ∨ (s.wmu.blind = false ∧ t.wmu.blind = true)
      let period := if t.wmu.level ≠ .calm ∨ t.wmu.blind = true ∨ s.clock.now < s.wmu.changeAt + 60000
        then 1000 else 4000
      let reports := s.wmu.windows = 11 ∨ changed ∨ s.wmu.reportAt + period ≤ s.clock.now
      (¬ reports → t.wmu.reportAt = s.wmu.reportAt ∧ t.lc = s.lc) ∧
      (reports → t.wmu.reportAt = s.clock.now ∧ (∀ c ∈ t.wmu.channels, c.overrangeMark = false) ∧
        ∃ (z : State) (p : WindPayload), z.sl = s.sl ∧ (t.wmu.level = s.wmu.level → z.lc = s.lc) ∧
          t.lc = (handOver (.wind p) false z).lc ∧
          p.level = (if t.wmu.blind = true then 5 else byteOf (windCode t.wmu.level)) ∧
          p.v = BitVec.ofNat 16 t.wmu.v ∧ p.a = BitVec.ofNat 16 t.wmu.a ∧
          p.t = BitVec.ofNat 16 t.wmu.t ∧ p.sector = byteOf (vaneSector vane) ∧
          ∀ (i : Fin 4) (c d : Channel), s.wmu.channels[i.val]? = some c →
            t.wmu.channels[i.val]? = some d →
            ((g.channel i.val).enabled = true →
              (p.faults.getLsbD i.val = true ↔ d.state = .stuck) ∧
              (p.faults.getLsbD (4 + i.val) = true ↔ c.overrangeMark = true ∨ d.overrange = true)) ∧
            ((g.channel i.val).enabled = false → c.state = .working → c.overrangeMark = false →
              p.faults.getLsbD i.val = false ∧ p.faults.getLsbD (4 + i.val) = false)))

/-! ### The ride link: sending -/

/-- TRANSMISSION_START tries the first waiting telegram in RUNNING, and a PRESENCE alone in JOINING and in a
SHEET_FAULT without a duplicate, under the own number and with the next-sequence value, and a completed
telegram's echo is no longer awaited (log entry 11). In those two states telegrams of other kinds are passed over
and wait (R41). With nothing to send nothing changes (log entry 3). ARBITRATION_LOST returns the telegram to
waiting and changes no count. -/
def Obligations.TransmissionStartsWithTheFirstWaiting : Prop :=
  ∀ s : State, s.sl.resetHeld = false →
    let sent := fun e : QEntry =>
      Telegram.mk (BitVec.ofNat 5 s.sl.station) s.lc.nextSeq (stampPayload s.clock.station e.payload)
    let starts := fun e : QEntry => exec .transmissionStart s = .next { s with
      lc := { s.lc with echoDue := none, sending := some { no := e.no, telegram := sent e } } }
    (∀ e rest, s.sl.start = .running → s.lc.sending = none → s.lc.queue = e :: rest → starts e) ∧
    (∀ e rest, (s.sl.start = .joining ∨ (s.sl.start = .sheetFault ∧ s.lc.duplicate = false)) →
      s.lc.sending = none →
      s.lc.queue.filter (fun q => payloadKind q.payload == .presence) = e :: rest → starts e) ∧
    (s.sl.start = .loading ∨ s.sl.start = .listenOnly ∨ s.lc.sending.isSome = true ∨ s.lc.queue = [] ∨
        (s.sl.start = .sheetFault ∧ s.lc.duplicate = true) → exec .transmissionStart s = .next s) ∧
    (s.sl.start = .joining ∨ s.sl.start = .sheetFault →
      (∀ e ∈ s.lc.queue, payloadKind e.payload ≠ .presence) → exec .transmissionStart s = .next s) ∧
    exec .arbitrationLost s = .next { s with lc := { s.lc with sending := none } }

/-- TRANSMISSION_COMPLETE: after an intact echo the telegram leaves the queue, the next sequence is used, the
count of failures is 0 and a line-fault episode ends; after a failed one the receive-error and failure counts
rise and the telegram stays, unless a newer one waits as its superseder (log entry 12); the third failure in a
row is a line fault. LINE_DOMINANT_TIMEOUT begins a line-fault episode when a telegram waits, once in an
episode. TELEGRAM_CHECK_FAILED counts one receive error and does nothing else. Model's choices: the intact echo
is awaited as a telegram (log entry 11), and the failure count has no bound (log entry 36). -/
def Obligations.TransmissionEndsByItsEcho : Prop :=
  (∀ (s : State) (x : Sending), s.sl.resetHeld = false → s.lc.sending = some x →
    exec (.transmissionComplete true) s = .next { s with lc := { s.lc with
      queue := s.lc.queue.filter (fun e => e.no != x.no), nextSeq := s.lc.nextSeq + 1, sending := none,
      echoDue := some x.telegram, echoFails := 0, lineFault := false } } ∧
    ∃ t, exec (.transmissionComplete false) s = .next t ∧
      t.lc = { s.lc with
        queue := (if s.lc.superseded x.no then s.lc.queue.filter (fun e => e.no != x.no) else s.lc.queue)
        sending := none
        rxErrors := min 65535 (s.lc.rxErrors + 1)
        echoFails := s.lc.echoFails + 1
        lineFault := s.lc.lineFault || decide (3 ≤ s.lc.echoFails + 1) } ∧
      (s.lc.lineFault = true ∨ s.lc.echoFails + 1 < 3 → t.lu = s.lu) ∧
      (s.lc.lineFault = false → 3 ≤ s.lc.echoFails + 1 → s.suppressed .lineFault = false →
        { code := .lineFault, param := 2, time := s.clock.station : EventEntry } ∈ t.lu.queue)) ∧
  (∀ (s : State) (frame : List Byte), s.sl.resetHeld = false →
    (s.lc.waiting ≠ [] → s.lc.lineFault = false → ∃ t, exec .lineDominantTimeout s = .next t ∧
      t.lc = { s.lc with lineFault := true } ∧
      (s.suppressed .lineFault = false →
        { code := .lineFault, param := 1, time := s.clock.station : EventEntry } ∈ t.lu.queue)) ∧
    (s.lc.waiting = [] ∨ s.lc.lineFault = true → exec .lineDominantTimeout s = .next s) ∧
    (telegramOf frame = none → exec (.telegramCheckFailed frame) s =
      .next { s with lc := { s.lc with rxErrors := min 65535 (s.lc.rxErrors + 1) } }))

/-- What handing over a telegram does to the transmit queue (R30, R31, R39): a RELEASE with reason OWN first
removes the waiting refreshes of its hold kind; then the telegram takes the place of a waiting one that it
supersedes, every other entry staying but for a further waiting copy that it supersedes (log entry 12); else it
joins in sending order under the next entry number; in a full queue a class 0 telegram
displaces the last waiting one of a higher class, and any other is dropped; in LISTEN_ONLY it is discarded. -/
def Obligations.HandingOverATelegram : Prop :=
  ∀ (s : State) (p : Payload) (refresh : Bool), s.lc.Wf →
    let ended := fun x : QEntry => match p, x.payload with
      | .release r, .hold h => r.reason == 0 && s.lc.isWaiting x && x.refresh && h.kind == r.kind
      | _, _ => false
    let l := { s.lc with queue := s.lc.queue.filter (fun x => !ended x) }
    let q := (handOver p refresh s).lc.queue
    let e : QEntry := { no := s.lc.nextEntry, payload := p, refresh := refresh }
    (s.sl.start = .listenOnly → handOver p refresh s = s) ∧
    (s.sl.start ≠ .listenOnly →
      (∀ old, l.waiting.find? (supersedes p refresh) = some old →
        { old with payload := p } ∈ q ∧ q.length ≤ l.queue.length ∧
        (∀ x ∈ q, x.no ≠ old.no → x ∈ l.queue) ∧
        (∀ x ∈ l.queue, x.no ≠ old.no → l.isWaiting x = false ∨ supersedes p refresh x = false →
          x ∈ q)) ∧
      (l.waiting.find? (supersedes p refresh) = none →
        (l.queue.length < 8 →
          q.Perm (e :: l.queue) ∧ q.Pairwise (fun a b => a.before b = true)) ∧
        (l.queue.length = 8 → kindClass (payloadKind p) = 0 →
          ∀ x, l.waiting.getLast? = some x → x.cls ≠ 0 →
            q.Perm (e :: l.queue.filter (fun y => y.no != x.no))) ∧
        (l.queue.length = 8 →
          (kindClass (payloadKind p) ≠ 0 ∨ ∀ x ∈ l.waiting, x.cls = 0) → q = l.queue)))

/-! ### The ride link: receiving -/

/-- A telegram that is malformed counts one receive error and reaches no block (R33); one received in LOADING, or
in SHEET_FAULT unless it shows a duplicate, is discarded and neither logged nor counted (stage 3 of R34, R41); one
that is refused, another station's or the own echo, reaches its sender's fault record, the event queue as
PEER_REFUSED with the station number and the kind, and the log as REFUSED, and nothing else (R37, R54); one that
is ignored from a FOREIGN station reaches no owner, is logged as IGNORED, and leaves in its sender's record the
moment of hearing, the sequence and the gap count (R34, R37, R45, R50). Any of them but a malformed one ends the
wait for an own echo (the model's choice, log entry 11). -/
def Obligations.TelegramsTurnedAway : Prop :=
  ∀ (s : State) (t : Telegram), s.sl.resetHeld = false →
    let n := t.sender.toNat
    let kind := payloadKind t.payload
    let role := s.sl.sheet.roleAt n
    (telegramOk t = false → exec (arrival t) s =
      .next { s with lc := { s.lc with rxErrors := min 65535 (s.lc.rxErrors + 1) } }) ∧
    (telegramOk t = true → s.sl.start = .loading ∨
        (s.sl.start = .sheetFault ∧ (n ≠ s.sl.station ∨ s.lc.echoDue = some t)) →
      exec (arrival t) s = .next { s with lc := { s.lc with echoDue := none } }) ∧
    (∀ byMask, s.hears t ∨ s.echoes t → s.judge t = .refuse byMask → s.pv.Wf →
      ∃ u, exec (arrival t) s = .next u ∧ u.lc = { s.lc with echoDue := none } ∧
        (∀ b : Block, b ≠ .lc → b ≠ .pv → b ≠ .lu → b.same s u) ∧
        u.peer n = { s.peer n with
          fault := some (match (s.peer n).fault with
            | none => { kind := kind, byMask := byMask, time := s.clock.station, later := 0 }
            | some f => { f with later := min 255 (f.later + 1) }) } ∧
        (∀ m, m < 24 → m ≠ n → u.peer m = s.peer m) ∧
        u.lu = (logTelegram role t .refused (raise .peerRefused (n * 256 + kindCode kind) s)).lu ∧
        (s.suppressed .peerRefused = false →
          EventEntry.mk .peerRefused (BitVec.ofNat 16 (n * 256 + kindCode kind)) s.clock.station
            ∈ u.lu.queue)) ∧
    (s.hears t → s.judge t = .ignore → ∃ u, exec (arrival t) s = .next u ∧
      u.lc = { s.lc with echoDue := none } ∧
      (∀ b : Block, b ≠ .lc → b ≠ .pv → b ≠ .lu → b.same s u) ∧
      (s.pv.Wf → let p := s.peer n
        u.peer n = { p with
          lastHeard := s.clock.now
          lastSeq := t.seq
          gaps := if t.seq = p.lastSeq ∨ t.seq = p.lastSeq + 1 then p.gaps else min 255 (p.gaps + 1) } ∧
        p.state = .foreign ∧ (∀ m, m < 24 → m ≠ n → u.peer m = s.peer m) ∧
        u.lu = (logTelegram role t .ignored s).lu))

/-- A telegram under the own number that is no echo (not the telegram awaited after an own transmission, the
model's choice, log entry 11) shows a duplicate station: the first one raises DUP_STATION with the own number and
takes JOINING and RUNNING to LISTEN_ONLY with an empty transmit queue and a drive to FAULT (R38, R39, R114),
settling then counted from JOINING as though RUNNING had been entered 2,000 ms after it (R193); in SHEET_FAULT
(R41), and at every later one, the start state stays, and a later one is logged as REFUSED and raises nothing. -/
def Obligations.DuplicateStationIsFound : Prop :=
  ∀ (s : State) (t : Telegram), s.sl.resetHeld = false → telegramOk t = true →
    t.sender.toNat = s.sl.station → s.lc.echoDue ≠ some t → s.sl.start ≠ .loading →
    ∃ u, exec (arrival t) s = .next u ∧ u.lc.duplicate = true ∧
      (s.lc.duplicate = false →
        EventEntry.mk .dupStation (BitVec.ofNat 16 s.sl.station) s.clock.station ∈ u.lu.queue) ∧
      (s.lc.duplicate = false → s.sl.start = .joining ∨ s.sl.start = .running →
        u.sl = { s.sl with
          start := .listenOnly
          runningAt := if s.sl.start = .joining then s.sl.joinedAt + 2000 else s.sl.runningAt } ∧
        u.lc.queue = [] ∧ u.lc.sending = none ∧
        (s.role = .drive → u.mu.motion = .fault ∧ u.mu.listenCause = true)) ∧
      (s.sl.start = .sheetFault ∨ s.lc.duplicate = true → u.sl = s.sl) ∧
      (s.lc.duplicate = true → (∀ b : Block, b ≠ .lc → b ≠ .lu → b.same s u) ∧
        u.lu = (logTelegram (s.sl.sheet.roleAt s.sl.station) t .refused s).lu)

/-! ### The ride link: what an accepted telegram does -/

/-- HOLD_RECEIVED (R74, R76, R77, R82): an accepted HOLD of another station that R74 allows updates the
record of its key; a new one is admitted at the end of the set, in a full set by displacing the mildest
record when that is milder, else dropped; the effective effect is the most severe of the records. One that
R74 does not allow changes no hold. A telegram of an effect above the effective one raises it, by a new record,
by an update or by a displacement; what that sets off: from below HALT the ride order is latched to HALT (R106);
from below HALT, from HALT to STOP, and when an empty table completes empty-down at once, the halt watch starts
or retriggers over the available drives, keeping the counted set, and an empty list ends it (R94, R97);
empty-down starts at EMPTY and returns to IDLE when EMPTY is left (R121, R122); at the entry bay boarding closes,
an ARRIVING window gives its matched parties back to the head of the queue (R157), its remaining capacity
standing (the model's choice, log entry 43), and from below EMPTY the queue is flushed, PARTY_CANCELLED raised for
each party (R158). The hold lamp of a DESK follows the set (R99; flashing begins lit, log entry 26). The own
HOLD, heard as an echo, is declined (R82). -/
def Obligations.ReceivedHoldEntersTheSet : Prop :=
  (∀ (s : State) (t : Telegram) (p : HoldPayload) (k : HoldKind), t.payload = .hold p → s.accepts t →
    s.hu.Wf → holdKindOf p.kind.toNat = some k →
    let n := t.sender.toNat
    ∃ u, exec (arrival t) s = .next u ∧
      (s.steady n →
        (∀ e c, effectOf p.effect.toNat = some e → causeOf p.cause.toNat = some c → holdAllowed k c e = true →
          let r := HoldRec.mk k n e c p.declaredAt s.clock.now .active
          u.hu.effect = severest u.hu.records ∧ s.lampFollows u ∧
          ((s.hu.find? k n).isSome = true → u.hu.records = s.hu.records.map (fun x => if x.hasKey k n then r else x)) ∧
          (s.hu.find? k n = none → s.hu.records.length < 16 → u.hu.records = s.hu.records ++ [r]) ∧
          (s.hu.find? k n = none → s.hu.records.length = 16 → ∀ m, mildest s.hu.records = some m →
            (effectCode m.effect < effectCode e →
              u.hu.records = s.hu.records.filter (fun x => !x.hasKey m.kind m.declarer) ++ [r]) ∧
            (effectCode e ≤ effectCode m.effect → u.hu.records = s.hu.records))) ∧
        ((∀ e c, effectOf p.effect.toNat = some e → causeOf p.cause.toNat = some c →
          holdAllowed k c e = false) → u.hu = s.hu) ∧
        (∀ e c, effectOf p.effect.toNat = some e → causeOf p.cause.toNat = some c → holdAllowed k c e = true →
          effectCode s.hu.effect < effectCode e →
          let below := fun x : Effect => effectCode s.hu.effect < effectCode x ∧ effectCode x ≤ effectCode e
          let completes := e = .empty ∧ s.ct.occupied = 0
          let list := u.availableDrives
          let reference := if s.role = .drive then s.mu.reference else
            list.foldl (fun m d => max m (match (u.peer d).motion with
              | some (x, _) => x.reference.toNat
              | none => 0)) 0
          let decel := if e = .stop then s.sl.sheet.aStop else s.sl.sheet.aDn
          let counted := match s.hu.watch with | some w => w.counted | none => []
          let back := if s.bu.boarding = true ∧ s.bu.window.state = .arriving then s.bu.window.matched else []
          u.hu.effect = e ∧
          (below .halt ∨ completes → u.mu.mode = .halt) ∧
          (below .halt ∨ (s.hu.effect = .halt ∧ e = .stop) ∨ completes →
            u.hu.watch = if list = [] then none else some { list := list, acked := [], braked := []
                                                            startAt := s.clock.now
                                                            limit := ceilDiv reference decel * 100 + 5000
                                                            ackUntil := some (s.clock.now + 500)
                                                            counted := counted }) ∧
          (¬ below .halt → ¬ (s.hu.effect = .halt ∧ e = .stop) → ¬ completes →
            u.hu.watch = s.hu.watch ∧ u.mu.mode = s.mu.mode) ∧
          (e = .empty → u.mu.emptyAt = s.clock.now ∧
            u.mu.emptyState = if s.ct.occupied = 0 then .done else .emptying) ∧
          (s.hu.effect = .empty → u.mu.emptyState = .idle) ∧
          (e ≠ .empty → s.hu.effect ≠ .empty → u.mu.emptyState = s.mu.emptyState) ∧
          (s.role = .entry → u.bu.boarding = false ∧ u.bu.boardLamp = false ∧
            u.bu.queue = (if below .empty then [] else back ++ s.bu.queue) ∧
            (s.bu.boarding = true → s.bu.window.state = .arriving →
              u.bu.window = { s.bu.window with matched := [], grace := false } ∧ u.bu.creep = false) ∧
            (¬ (s.bu.boarding = true ∧ s.bu.window.state = .arriving) → u.bu.window = s.bu.window) ∧
            (below .empty → s.bu.Wf → s.suppressed .partyCancelled = false → ∀ x ∈ back ++ s.bu.queue,
              EventEntry.mk .partyCancelled x.tag s.clock.station ∈ u.lu.queue)))) ∧
      (∀ e c, effectOf p.effect.toNat = some e → causeOf p.cause.toNat = some c → holdAllowed k c e = true →
        s.hu.records.length ≤ 14 →
        u.hu.find? k n = some (HoldRec.mk k n e c p.declaredAt s.clock.now .active))) ∧
  (∀ (s : State) (t : Telegram) (p : HoldPayload), t.payload = .hold p → s.acceptsEcho t →
    ∃ u, exec (arrival t) s = .next u ∧ ∀ b : Block, b ≠ .lc → b ≠ .pv → b ≠ .lu → b.same s u)

/-- RELEASE_RECEIVED (R83, R84): with reason OWN the sender's record of the kind leaves the set. With
reason DESK_OVERRIDE the first row of R84 that applies: a STORM hold stands while the storm does; an own
hold loses its record and its list entry, an own LINK hold its BUTTON latch, its running dwell and every
condition then holding, marked overridden (R93); a key that is not held is ignored; another station's
record is removed. The hold lamp of a DESK follows the set (R99; log entry 26). The own RELEASE, heard as an echo, is
declined with reason OWN (R83) and judged like another's with reason DESK_OVERRIDE (R84). -/
def Obligations.ReceivedReleaseEndsTheHold : Prop :=
  ∀ (s : State) (t : Telegram) (p : ReleasePayload) (k : HoldKind), t.payload = .release p → s.takes t →
    s.hu.Wf → holdKindOf p.kind.toNat = some k →
    let d := p.declarer.toNat
    let rest := s.hu.records.filter (fun x => !x.hasKey k d)
    ∃ u, exec (arrival t) s = .next u ∧
      (s.accepts t → p.reason = 0 → u.hu.find? k d = none) ∧
      (s.acceptsEcho t → p.reason = 0 → ∀ b : Block, b ≠ .lc → b ≠ .pv → b ≠ .lu → b.same s u) ∧
      (s.steady t.sender.toNat → s.lampFollows u) ∧
      (s.accepts t → s.steady t.sender.toNat → p.reason = 0 →
        u.hu.records = rest ∧ u.hu.own = s.hu.own ∧ u.hu.effect = severest rest) ∧
      (s.steady t.sender.toNat → p.reason = 1 → k = .storm → s.wv.stormStanding = true → u.hu = s.hu) ∧
      (s.steady t.sender.toNat → p.reason = 1 → ¬ (k = .storm ∧ s.wv.stormStanding = true) →
        (d = s.sl.station → (s.hu.find? k d).isSome = true ∨ (s.hu.own? k).isSome = true →
          u.hu.records = rest ∧ u.hu.own? k = none ∧ (∀ j, j ≠ k → u.hu.own? j = s.hu.own? j) ∧
          u.hu.effect = severest rest ∧
          (k = .link → u.hu.cond = { s.hu.cond with button := false } ∧
            u.hu.overridden = { s.hu.cond with button := false } ∧ u.hu.dwellFrom = none)) ∧
        ((s.hu.find? k d).isSome = false → (d = s.sl.station → s.hu.own? k = none) → u.hu = s.hu) ∧
        (d ≠ s.sl.station → u.hu.records = rest ∧ u.hu.own = s.hu.own ∧ u.hu.effect = severest rest))

/-- MOTION_RECEIVED and BAY_RECEIVED (R44, R45, R53, R90): an accepted report, the own echo among them, becomes the
part of its sender's record with this moment as its receipt time, the record is last heard now and FRESH, the own
one keeping its state, no other record changes, and DRIVES_LOW or BAY_SILENT is judged again. In a running halt
watch the MOTION of a listed drive acknowledges it within the ack window when it shows STOPPING, SETTLING, BRAKED
or DRAG_STOP, and marks it braked when it shows BRAKED; when every listed drive is braked the watch ends with
HALT_WATCH_DONE and parameter 0 (R95, R96), unless the monitor acting on a change of DRIVES_LOW retriggers it. -/
def Obligations.ReceivedReportsBecomeParts : Prop :=
  ∀ (s : State) (t : Telegram), s.takes t → s.pv.Wf → ∃ u, exec (arrival t) s = .next u ∧
    let after := if t.sender.toNat = s.sl.station then (s.peer t.sender.toNat).state else PeerState.fresh
    (∀ m, t.payload = .motion m →
      (u.peer t.sender.toNat).motion = some (m, s.clock.now) ∧
      (u.peer t.sender.toNat).bay = (s.peer t.sender.toNat).bay ∧
      (u.peer t.sender.toNat).state = after ∧ (u.peer t.sender.toNat).lastHeard = s.clock.now ∧
      (∀ n, n ≠ t.sender.toNat → u.peer n = s.peer n) ∧
      (u.hu.cond.drivesLow = true ↔ u.availableDrives.length < s.sl.sheet.minDrives) ∧
      (∀ w, s.hu.watch = some w → t.sender.toNat ∈ w.list → s.sl.settled = false ∨ u.hu.cond = s.hu.cond →
        let n := t.sender.toNat
        let acks := w.ackUntil.isSome = true ∧ m.state ∈ [(0 : Byte), 3, 4, 5]
        let acked := if acks ∧ n ∉ w.acked then w.acked ++ [n] else w.acked
        let braked := if m.state = 0 ∧ n ∉ w.braked then w.braked ++ [n] else w.braked
        ((∃ d ∈ w.list, d ∉ braked) →
          u.hu.watch = some { w with acked := acked, braked := braked }) ∧
        ((∀ d ∈ w.list, d ∈ braked) → u.hu.watch = none ∧ (s.suppressed .haltWatchDone = false →
          EventEntry.mk .haltWatchDone 0 s.clock.station ∈ u.lu.queue)))) ∧
    (∀ b, t.payload = .bay b →
      (u.peer t.sender.toNat).bay = some (b, s.clock.now) ∧
      (u.peer t.sender.toNat).motion = (s.peer t.sender.toNat).motion ∧
      (u.peer t.sender.toNat).state = after ∧ (u.peer t.sender.toNat).lastHeard = s.clock.now ∧
      (∀ n, n ≠ t.sender.toNat → u.peer n = s.peer n) ∧
      u.hu.cond.baySilent = u.baySilentNow)

/-- PASSAGE_RECEIVED, and the summary of BAY_RECEIVED (R128 to R135): an accepted passage with a new
serial, a cabin 1 to N and a result that its bay makes is applied to the cabin's record, puts every cabin
passed over in doubt, sets the cursor, and the occupied count is formed again; a repeated serial changes
nothing, but for the tags that a PASSAGE brings after its summary (R131). A passage declined for its cabin or
its result (R130), and a summary of a bay that has made no passage (cabin 0), change nothing of the table. What
each result does to a record, and what doubt does, is spelled out field by field (R132, R133, R134). A bay's own
PASSAGE and BAY, heard as echoes, are judged alike; the passage has been applied at its departure, so its echo is a
repeat (R131). -/
def Obligations.ReceivedPassageIsApplied : Prop :=
  (∀ (c : Cabin) (p : Passage) (now : Stamp),
    let after := fun r => c.applyResult r p now
    let above := ∃ n, p.riders = some n ∧ c.capacity < n
    (∀ r, r = .cleared ∨ r = .passedEmpty → after r = { c with
      state := .empty, riders := some 0, tags := [], overload := false, boardedAt := none, laps := 0 }) ∧
    after .heldOver = { c with state := .heldOver, laps := min 3 (c.laps + 1) } ∧
    after .loadedFound = { c with
      state := .heldOver, riders := none, tags := [], overload := false, boardedAt := none, laps := 1 } ∧
    after .passed = c ∧
    (c.state = .empty → after .boarded = { c with
      state := .boarded, riders := p.riders.map (min c.capacity), tags := p.tags, overload := decide above,
      boardedAt := some now, laps := 0 }) ∧
    (c.state = .boarded ∨ c.state = .heldOver → after .boarded = { c with
      riders := none, tags := p.tags, boardedAt := some now, overload := c.overload || decide above }) ∧
    (c.state = .unknown → after .boarded = c) ∧
    c.doubted = { c with state := .unknown, riders := none, tags := [], boardedAt := none, overload := false }) ∧
  ∀ (s : State) (t : Telegram) (b : BayId) (p : Passage), s.takes t →
    bayOf (s.sl.sheet.roleAt t.sender.toNat) = some b →
    ((∃ x, t.payload = .passage x ∧ p = Passage.mk x.serial x.cabin.toNat (resultOf x.result.toNat)
        (optByte x.riders) x.tags true) ∨
      (∃ x, t.payload = .bay x ∧ p = Passage.mk x.sumSerial x.sumCabin.toNat
        (resultOf x.sumResult.toNat) (optByte x.sumRiders) [] false)) →
    (p.cabin = 0 ∨ s.sl.sheet.n < p.cabin ∨ (∀ r, p.result = some r → resultFits b r = false) →
      ∃ u, exec (arrival t) s = .next u ∧ u.ct = s.ct) ∧
    (∀ r, p.result = some r → 1 ≤ p.cabin → p.cabin ≤ s.sl.sheet.n → resultFits b r = true → s.CabinsKnown →
    ∃ u, exec (arrival t) s = .next u ∧
      ((s.ct.cursor b).serial ≠ some p.serial →
        let cur := Cursor.mk (some p.serial) (some p.cabin) (!p.isTelegram)
        let last := LastPassage.mk b p.serial s.clock.now
        let passed := match (s.ct.cursor b).cabin with
          | some q => cabinsAfter s.sl.sheet.n q (gapCount s.sl.sheet.n q p.cabin)
          | none => []
        u.ct.cursor b = cur ∧
        u.cabin? p.cabin = (s.cabin? p.cabin).map (fun c =>
          { c.applyResult r p s.clock.station with last := some last }) ∧
        (∀ d, d ≠ p.cabin → u.cabin? d =
          (s.cabin? d).map (fun c => if d ∈ passed then c.doubted else c)) ∧
        u.ct.occupied = occupiedOf u.ct.cabins) ∧
      ((s.ct.cursor b).serial = some p.serial → s.tagsMissing b p = false → u.ct = s.ct) ∧
      ((s.ct.cursor b).serial = some p.serial → s.tagsMissing b p = true →
        u.cabin? p.cabin = (s.cabin? p.cabin).map (fun c => { c with tags := p.tags }) ∧
        (∀ d, d ≠ p.cabin → u.cabin? d = s.cabin? d)))

/-- An accepted WIND report, a mast's own echo among them (R62), with one of the six levels becomes its mast's
record, fresh unless BLIND, and the fused level is formed again; another level code changes nothing (the model's
choice, log entry 30). WIND_RECORD_EXPIRY: a fresh wind record whose receipt lies 10,000 ms back becomes not fresh,
keeping its report, receipt time and sequence, and the fused level is formed again; before that nothing happens
(log entry 3). What a forming leaves: the fused level, the count F and the degraded mark that the fresh records
give (R65), the readings of the fused level and of the storm (R69, R70); a changed level raises WIND_LEVEL (R67),
turns NO_WIND on and off (R68) and has boarding formed again (R147); an unchanged one hands nothing on (R66). The
event is stated where no LINK action follows it. -/
def Obligations.WindTableFollowsTheReports : Prop :=
  let rank := fun l : WindLevel => if l = .blind then 2 else windCode l
  let formed := fun s u : State =>
    let levels := u.wv.records.filterMap (fun r => if r.fresh = true then r.report.map Prod.fst else none)
    let raised := levels ≠ [] ∧ levels.length < s.sl.sheet.minMasts ∧ ∀ l ∈ levels, rank l < 2
    let old := s.wv.fused
    let new := u.wv.fused
    u.wv.freshCount = levels.length ∧ (u.wv.degraded = true ↔ raised) ∧
    (levels = [] → new = .blind) ∧ (raised → new = .gusty) ∧
    (levels ≠ [] → ¬ raised → new ∈ levels ∧ ∀ l ∈ levels, rank l ≤ rank new) ∧
    (u.wv.capped = true ↔ new ≠ .calm) ∧ (u.wv.closed = true ↔ new ≠ .calm ∧ new ≠ .breeze) ∧
    (u.wv.stormStanding = true ↔
      ∃ r ∈ u.wv.records, r.fresh = true ∧ r.report.map Prod.fst = some .storm) ∧
    (new = old → u.hu = s.hu ∧ u.mu = s.mu ∧ u.bu = s.bu) ∧
    (new ≠ old →
      (new = .blind → u.hu.cond.noWind = true) ∧ (old = .blind → u.hu.cond.noWind = false) ∧
      (new ≠ .blind → old ≠ .blind → u.hu = s.hu ∧ u.mu = s.mu) ∧
      (u.bu.boarding = true ↔ s.role = .entry ∧ u.hu.effect = .none ∧ (new = .calm ∨ new = .breeze) ∧
        u.mu.mode ≠ .halt ∧ s.sl.start = .running ∧ s.sl.settled = true) ∧
      ((new ≠ .blind ∧ old ≠ .blind) ∨ s.sl.settled = false → s.suppressed .windLevel = false →
        EventEntry.mk .windLevel (BitVec.ofNat 16 (levels.length * 256 + windCode new)) s.clock.station
          ∈ u.lu.queue))
  (∀ (s : State) (t : Telegram) (p : WindPayload), t.payload = .wind p → s.takes t →
    ∃ u, exec (arrival t) s = .next u ∧
      (∀ l, windOf p.level.toNat = some l →
        u.wv.records = s.wv.records.map (fun r => if r.station = t.sender.toNat then
          { r with report := some (l, p), receipt := s.clock.now, seq := t.seq, fresh := l != .blind }
          else r) ∧
        u.WindFused ∧ (s.steady t.sender.toNat → formed s u)) ∧
      (windOf p.level.toNat = none → u.wv = s.wv)) ∧
  (∀ (s : State) (slot : Fin 4) (r : WindRec), s.sl.resetHeld = false →
    s.wv.records[slot.val]? = some r →
    (r.fresh = true → r.receipt + 10000 ≤ s.clock.now → ∃ t, exec (.windRecordExpiry slot) s = .next t ∧
      t.wv.records = s.wv.records.set slot.val { r with fresh := false } ∧ t.WindFused ∧ formed s t) ∧
    (r.fresh = false ∨ s.clock.now < r.receipt + 10000 → exec (.windRecordExpiry slot) s = .next s))

/-- ORDER_RECEIVED and SERVICE_RECEIVED (R105, R137): an accepted order with a new serial becomes the ride
order, but for a mode above HALT while a hold of HALT or STOP stands or before the end of settling; an
accepted SERVICE with a new serial sets the service of every cabin. A repeated serial changes nothing. A mode
code above 3 changes nothing (the model's choice, log entry 30). A desk's own echoes count alike. -/
def Obligations.ReceivedOrderAndService : Prop :=
  ∀ (s : State) (t : Telegram), s.takes t → ∃ u, exec (arrival t) s = .next u ∧
    (∀ p, t.payload = .order p → s.steady t.sender.toNat →
      (s.mu.serials.getD t.sender.toNat none = some p.serial ∨ modeOf p.mode.toNat = none → u.mu = s.mu) ∧
      (∀ m, s.mu.serials.getD t.sender.toNat none ≠ some p.serial → modeOf p.mode.toNat = some m →
        u.mu.serials = s.mu.serials.set t.sender.toNat (some p.serial) ∧
        u.mu.mode = (if m ≠ .halt ∧ (s.hu.effect.atLeast .halt = true ∨ s.sl.settled = false)
          then s.mu.mode else m))) ∧
    (∀ p, t.payload = .service p →
      (s.ct.serviceSerials.getD t.sender.toNat none = some p.serial → u.ct = s.ct) ∧
      (s.ct.serviceSerials.getD t.sender.toNat none ≠ some p.serial →
        u.ct = { s.ct with
          serviceSerials := s.ct.serviceSerials.set t.sender.toNat (some p.serial)
          cabins := s.ct.cabins.mapIdx (fun i c => { c with outOfService := p.marks.getLsbD i }) }))

/-- PRESENCE_RECEIVED and MARK_RECEIVED (R45, R48, R51, R59): a matching PRESENCE makes its sender's record
FRESH and any other makes it FOREIGN, with the heard part and the RESTARTED mark as sent; a MARK of the
current time source that differs by more than 4 ms sets station time, and no other MARK does. Every accepted
telegram leaves its sequence in its sender's record, and a step of 2 or more in a record that was not ABSENT
raises the gap count by 1, saturating at 255 (R50). An own echo of any kind leaves in the own record its moment,
its sequence and its heard, motion or bay part, and in no record anything else (R44); the own MARK sets no
time (R59). -/
def Obligations.ReceivedPresenceAndMark : Prop :=
  (∀ (s : State) (t : Telegram), s.accepts t → s.pv.Wf → ∃ u, exec (arrival t) s = .next u ∧
    (u.peer t.sender.toNat).lastSeq = t.seq ∧
    (u.peer t.sender.toNat).gaps = (let p := s.peer t.sender.toNat
      if p.state = .absent ∨ t.seq = p.lastSeq ∨ t.seq = p.lastSeq + 1 then p.gaps
      else min 255 (p.gaps + 1)) ∧
    (∀ q, t.payload = .presence q →
      (u.peer t.sender.toNat).state = (if s.presenceMatches t.sender.toNat q then .fresh else .foreign) ∧
      (u.peer t.sender.toNat).heard = some { role := q.role, start := q.start, timeSource := q.flags.getLsbD 1 } ∧
      (u.peer t.sender.toNat).restartedSeen = q.flags.getLsbD 0 ∧
      (u.peer t.sender.toNat).lastHeard = s.clock.now ∧
      (∀ n, n ≠ t.sender.toNat → u.peer n = s.peer n)) ∧
    (∀ p, t.payload = .mark p →
      (u.peer t.sender.toNat).state = .fresh ∧ (u.peer t.sender.toNat).lastHeard = s.clock.now ∧
      u.clock = { s.clock with station :=
        if u.timeSourceNow = some t.sender.toNat ∧
          ¬ (-4 ≤ (p.time - s.clock.station).toInt ∧ (p.time - s.clock.station).toInt ≤ 4)
        then p.time else s.clock.station })) ∧
  (∀ (s : State) (t : Telegram), s.acceptsEcho t → s.pv.Wf → ∃ u, exec (arrival t) s = .next u ∧
    u.clock = s.clock ∧ (∀ n, n ≠ s.sl.station → u.peer n = s.peer n) ∧
    let p := s.peer s.sl.station
    u.peer s.sl.station = { p with
      lastHeard := s.clock.now
      lastSeq := t.seq
      heard := match t.payload with
        | .presence q => some { role := q.role, start := q.start, timeSource := q.flags.getLsbD 1 }
        | _ => p.heard
      motion := match t.payload with
        | .motion m => some (m, s.clock.now)
        | _ => p.motion
      bay := match t.payload with
        | .bay b => some (b, s.clock.now)
        | _ => p.bay })

/-! ### Timers of the peer view and the reports -/

/-- The periodic reports: at the end of its period, and not before, each of PRESENCE (R47), MARK (R58),
ORDER (R104), SERVICE (R136) and BAY (R160, R175) is handed to the link controller with the values of this
moment and its period starts again. PRESENCE carries the RESTARTED flag until 10,000 ms after the entry into
RUNNING, and not at that moment (R47). Before its period a row does nothing (log entry 3); when the first of
each goes out is the model's choice (log entry 21). -/
def Obligations.PeriodicReportsAreHandedOver : Prop :=
  ∀ s : State, s.sl.resetHeld = false →
    (s.sl.start ≠ .loading → s.pv.presenceAt + 1000 ≤ s.clock.now →
      exec .presencePeriod s = .next (handOver (.presence s.presence) false
        { s with pv := { s.pv with presenceAt := s.clock.now } })) ∧
    (s.presence.flags.getLsbD 0 = true ↔ s.pv.restartedFlag = true ∧
      ((s.sl.start = .running ∨ s.sl.start = .listenOnly) → s.clock.now < s.sl.runningAt + 10000)) ∧
    (s.sl.start = .running → s.sl.sheet.timeSource.getLsbD s.sl.station = true →
      s.pv.markAt + 10000 ≤ s.clock.now →
      exec .markPeriod s = .next (handOver (.mark ⟨s.clock.station⟩) false
        { s with pv := { s.pv with markAt := s.clock.now } })) ∧
    (s.role = .desk → s.sl.start = .running → s.mu.orderAt + 1000 ≤ s.clock.now →
      exec .orderPeriod s = .next (handOver (.order ⟨byteOf (modeCode s.mu.deskMode), s.mu.deskSerial⟩) false
        { s with mu := { s.mu with orderAt := s.clock.now } })) ∧
    (s.role = .desk → s.sl.start = .running → s.ct.serviceAt + 5000 ≤ s.clock.now →
      exec .servicePeriod s = .next (handOver
        (.service ⟨marksUpTo s.sl.sheet.n s.ct.deskMarks, s.ct.deskSerial⟩) false
        { s with ct := { s.ct with serviceAt := s.clock.now } })) ∧
    (s.role = .entry ∨ s.role = .exit → s.joined = true → s.bu.reportAt + 500 ≤ s.clock.now →
      exec .bayReportPeriod s = .next (handOver (.bay s.bayReport) false
        { s with bu := { s.bu with reportAt := s.clock.now } })) ∧
    (s.presenceDue = false → exec .presencePeriod s = .next s) ∧
    (s.markDue = false → exec .markPeriod s = .next s) ∧
    (s.orderDue = false → exec .orderPeriod s = .next s) ∧
    (s.serviceDue = false → exec .servicePeriod s = .next s) ∧
    (s.bayReportDue = false → exec .bayReportPeriod s = .next s)

/-- PEER_STALE_EXPIRY and PEER_ABSENT_EXPIRY (R46): a FRESH record silent for 3,000 ms becomes STALE, a
STALE or FOREIGN one silent for 20,000 ms ABSENT without its heard part, every other field and record
staying; DRIVES_LOW is judged again for a drive (R90). Before, and for the own record, nothing happens (log
entry 3). -/
def Obligations.SilencePassesThroughStaleToAbsent : Prop :=
  ∀ (s : State) (n : Fin 24), s.sl.resetHeld = false → s.pv.Wf →
    let low := fun t : State => ((s.peer n.val).role = .drive →
        (t.hu.cond.drivesLow = true ↔ t.availableDrives.length < s.sl.sheet.minDrives)) ∧
      ((s.peer n.val).role ≠ .drive → t.hu = s.hu)
    (n.val ≠ s.sl.station → (s.peer n.val).state = .fresh →
      (s.peer n.val).lastHeard + 3000 ≤ s.clock.now → ∃ t, exec (.peerStaleExpiry n) s = .next t ∧
        t.peer n.val = { s.peer n.val with state := .stale } ∧
        (∀ m, m ≠ n.val → t.peer m = s.peer m) ∧ low t) ∧
    (n.val ≠ s.sl.station → (s.peer n.val).state = .stale ∨ (s.peer n.val).state = .foreign →
      (s.peer n.val).lastHeard + 20000 ≤ s.clock.now → ∃ t, exec (.peerAbsentExpiry n) s = .next t ∧
        t.peer n.val = { s.peer n.val with state := .absent, heard := none, restartedSeen := false } ∧
        (∀ m, m ≠ n.val → t.peer m = s.peer m) ∧ low t) ∧
    (n.val = s.sl.station ∨ (s.peer n.val).state ≠ .fresh ∨ s.clock.now < (s.peer n.val).lastHeard + 3000 →
      exec (.peerStaleExpiry n) s = .next s) ∧
    (n.val = s.sl.station ∨ (s.peer n.val).state = .fresh ∨ (s.peer n.val).state = .absent ∨
        s.clock.now < (s.peer n.val).lastHeard + 20000 → exec (.peerAbsentExpiry n) s = .next s)

/-- The rows at which a LINK condition changes with time (R90): a motion part of 1,000 ms has DRIVES_LOW
judged again, a bay part of 3,000 ms BAY_SILENT, and DRIVE_RESTART ceases after its 10,000 ms; no other
condition changes. -/
def Obligations.LinkConditionsChangeWithTime : Prop :=
  ∀ (s : State) (n : Fin 24), s.sl.resetHeld = false → s.joined = true →
    (∀ m at_, (s.peer n.val).motion = some (m, at_) → at_ + 1000 ≤ s.clock.now →
      ∃ t, exec (.motionPartAgeExpiry n) s = .next t ∧ t.pv = s.pv ∧ t.hu.cond = { s.hu.cond with
        drivesLow := decide (s.availableDrives.length < s.sl.sheet.minDrives) }) ∧
    (∀ b at_, (s.peer n.val).bay = some (b, at_) → at_ + 3000 ≤ s.clock.now →
      ∃ t, exec (.bayPartAgeExpiry n) s = .next t ∧ t.pv = s.pv ∧
        t.hu.cond = { s.hu.cond with baySilent := s.baySilentNow } ∧
        ((s.peer n.val).role = .entry ∨ (s.peer n.val).role = .exit → s.pv.Wf → t.hu.cond.baySilent = true)) ∧
    (s.hu.cond.driveRestart = true → s.hu.driveRestartAt + 10000 ≤ s.clock.now →
      ∃ t, exec .driveRestartExpiry s = .next t ∧ t.pv = s.pv ∧
        t.hu.cond = { s.hu.cond with driveRestart := false })

/-! ### The hold unit's own rows -/

/-- HOLD_REFRESH_PERIOD (R79): 1,000 ms after the last hand-over for an own hold, a HOLD refresh of its
present content is handed over, and its record is refreshed, ACTIVE, with the entry's effect and cause, or
is offered again. Before its time the row does nothing (log entry 3). -/
def Obligations.OwnHoldsAreRefreshed : Prop :=
  ∀ (s : State) (k : HoldKind) (o : OwnHold), s.sl.resetHeld = false → s.joined = true →
    s.hu.own? k = some o →
    (o.sentAt + 1000 ≤ s.clock.now → ∃ t, exec (.holdRefreshPeriod k) s = .next t ∧
      t.hu.own? k = some { o with sentAt := s.clock.now } ∧
      (∀ j, j ≠ k → t.hu.own? j = s.hu.own? j) ∧
      t.lc = (handOver (.hold ⟨byteOf (holdKindCode k), byteOf (effectCode o.effect),
        byteOf (causeCode o.cause), o.declaredAt⟩) true s).lc ∧
      (∀ r, s.hu.find? k s.sl.station = some r → t.hu.find? k s.sl.station = some { r with
        effect := o.effect, cause := o.cause, refreshed := s.clock.now, state := .active }) ∧
      (s.hu.find? k s.sl.station = none → s.hu.records.length < 16 →
        t.hu.find? k s.sl.station = some
          (HoldRec.mk k s.sl.station o.effect o.cause o.declaredAt s.clock.now .active))) ∧
    (s.clock.now < o.sentAt + 1000 → exec (.holdRefreshPeriod k) s = .next s)

/-- LAPSE_CHECK (R85): each ACTIVE record of another station last refreshed 4,000 ms ago or more is removed while
its declarer is FRESH, and is kept ORPHANED otherwise; every other record stays, the order is kept, and the
effective effect is that of the records left; the hold lamp of a DESK follows (R99; log entry 26). Before its time
the row does nothing (log entries 3 and 34). PRESENCE_RECEIVED with the RESTARTED flag, from a FRESH or STALE
record whose RESTARTED seen is "no", or that was heard RUNNING and now shows JOINING or SHEET_FAULT (R51): every
record that the sender declared is ORPHANED (R86), PEER_RESTARTED is raised, and the restart of a drive while a
motion part received within the last 1,000 ms (log entry 13) shows the rim turning sets DRIVE_RESTART for 10,000 ms
from now (R52). With no other condition acted on, at another role or before the end of settling, the set changes in
nothing else. -/
def Obligations.HoldsLapseOrAreOrphaned : Prop :=
  (∀ s : State, s.sl.resetHeld = false → s.hu.Wf →
    (s.joined = true → s.hu.lapseAt + 1000 ≤ s.clock.now → ∃ t, exec .lapseCheck s = .next t ∧
      t.hu.lapseAt = s.clock.now ∧ s.lampFollows t ∧ t.hu.own = s.hu.own ∧ t.hu.effect = severest t.hu.records ∧
      t.hu.records = s.hu.records.filterMap (fun r =>
        if r.declarer ≠ s.sl.station ∧ r.state = .active ∧ r.refreshed + 4000 ≤ s.clock.now then
          (if (s.peer r.declarer).state = .fresh then none else some { r with state := .orphaned })
        else some r)) ∧
    (s.joined = false ∨ s.clock.now < s.hu.lapseAt + 1000 → exec .lapseCheck s = .next s)) ∧
  (∀ (s : State) (t : Telegram) (q : PresencePayload), s.accepts t → t.payload = .presence q → s.hu.Wf →
    s.pv.Wf → q.flags.getLsbD 0 = true →
    let n := t.sender.toNat
    let p := s.peer n
    p.state = .fresh ∨ p.state = .stale →
    p.restartedSeen = false ∨
      ((q.start = 0 ∨ q.start = 1) ∧ ∃ h, p.heard = some h ∧ h.start = 2) →
    let orphaned := fun r : HoldRec => if r.declarer = n ∧ r.state = .active
      then { r with state := .orphaned } else r
    let turning := ∃ d m at_, (s.peer d).role = .drive ∧ (s.peer d).motion = some (m, at_) ∧
      s.clock.now < at_ + 1000 ∧ m.measured ≠ 0
    ∃ u, exec (arrival t) s = .next u ∧
      (∀ r ∈ u.hu.records, r.declarer = n → r.state = .orphaned) ∧
      (s.hu.records.length ≤ 14 → ∀ k r, s.hu.find? k n = some r →
        u.hu.find? k n = some (orphaned r)) ∧
      (p.role ≠ .drive ∨ s.sl.settled = false → u.hu.records = s.hu.records.map orphaned ∧
        (s.suppressed .peerRestarted = false →
          EventEntry.mk .peerRestarted (BitVec.ofNat 16 n) s.clock.station ∈ u.lu.queue)) ∧
      (p.role = .drive → turning → u.hu.cond.driveRestart = true ∧ u.hu.driveRestartAt = s.clock.now) ∧
      (p.role ≠ .drive ∨ ¬ turning → u.hu.cond.driveRestart = s.hu.cond.driveRestart ∧
        u.hu.driveRestartAt = s.hu.driveRestartAt))

/-- STOP_IN (R81): at a bay or a desk the own BAY or DESK hold is STOP BUTTON and the effective effect is
STOP, whatever stood before; at a drive or mast the BUTTON latch is set and the LINK hold is STOP BUTTON. In
LOADING and SHEET_FAULT nothing happens. -/
def Obligations.StopButtonStops : Prop :=
  ∀ s : State, s.sl.resetHeld = false → s.hu.Wf →
    (s.joined = true → ∀ k, (k = .bay ∧ (s.role = .entry ∨ s.role = .exit)) ∨ (k = .desk ∧ s.role = .desk) →
      ∃ t o, exec .stopIn s = .next t ∧ t.hu.own? k = some o ∧ o.effect = .stop ∧ o.cause = .button ∧
        t.hu.effect = .stop) ∧
    (s.joined = true → s.role = .drive ∨ s.role = .mast → s.hu.overridden.button = false →
      s.hu.cond.button = false →
      ∃ t o, exec .stopIn s = .next t ∧ t.hu.cond = { s.hu.cond with button := true } ∧
        t.hu.own? .link = some o ∧ o.effect = .stop ∧ o.cause = .button ∧
        (s.hu.own? .link = none → t.hu.effect = .stop)) ∧
    (s.joined = true → s.role = .drive ∨ s.role = .mast → s.hu.cond.button = true →
      exec .stopIn s = .next s) ∧
    (s.joined = false → exec .stopIn s = .next s)

/-- The LINK monitor (R91, R92): the conditions that count are those that hold and are not overridden, before the
end of settling BUTTON alone; acting on them it declares, raises or lowers the LINK hold to their most severe
effect and, of that effect, the first cause in the order of R91, ends a running dwell, keeps the declared-at of a
standing hold, and hands over a HOLD where the hold is new or its effect another. With none that counts it starts
the release dwell of a standing hold, and does nothing without one; LINK_RELEASE_DWELL_EXPIRY releases the hold after
5,000 ms with a RELEASE of reason OWN (R80). Before its time the row does nothing (the model's choice, log
entry 3). -/
def Obligations.LinkMonitorDeclaresAndReleases : Prop :=
  ∀ s : State,
    let rows := [(LinkCond.noWind, Effect.empty, Cause.noWind), (.drivesLow, .halt, .drivesLow),
      (.baySilent, .halt, .baySilent), (.driveRestart, .halt, .driveRestart), (.button, .stop, .button)]
    let counts := fun c : LinkCond => s.hu.cond.get c = true ∧ s.hu.overridden.get c = false ∧
      (s.sl.settled = true ∨ c = .button)
    (∀ (i : Nat) c e d, rows[i]? = some (c, e, d) → counts c →
      (∀ (j : Nat) x f g, rows[j]? = some (x, f, g) → counts x → effectCode f < effectCode e ∨ (f = e ∧ i ≤ j)) →
      (linkAct s).hu.dwellFrom = none ∧ ∃ o, (linkAct s).hu.own? .link = some o ∧ o.effect = e ∧ o.cause = d ∧
        o.declaredAt = (match s.hu.own? .link with
          | some p => p.declaredAt
          | none => s.clock.station) ∧
        ((∀ p, s.hu.own? .link = some p → p.effect ≠ e) → (linkAct s).lc = (handOver
          (.hold ⟨4, byteOf (effectCode e), byteOf (causeCode d), o.declaredAt⟩) false s).lc) ∧
        (∀ p, s.hu.own? .link = some p → p.effect = e → (linkAct s).lc = s.lc)) ∧
    ((∀ c, ¬ counts c) → linkAct s = if (s.hu.own? .link).isSome = true
      then { s with hu := { s.hu with dwellFrom := some (s.hu.dwellFrom.getD s.clock.now) } } else s) ∧
    (∀ from_ o, s.sl.resetHeld = false → s.hu.dwellFrom = some from_ → from_ + 5000 ≤ s.clock.now →
      s.hu.own? .link = some o → ∃ t, exec .linkReleaseDwellExpiry s = .next t ∧
        t.hu.dwellFrom = none ∧ t.hu.own? .link = none ∧
        (∀ j, j ≠ .link → t.hu.own? j = s.hu.own? j) ∧ t.hu.find? .link s.sl.station = none ∧
        t.lc = (handOver (.release ⟨4, byteOf s.sl.station, 0⟩) false s).lc) ∧
    (s.sl.resetHeld = false → s.dwellDue = false → exec .linkReleaseDwellExpiry s = .next s)

/-- The halt watch's expiries: at the end of the ack window each listed drive not acknowledged is counted
unanswered once and DRIVE_UNANSWERED raised for it (R95), and a drive that finds one goes to DRAG_STOP from any
moving state (R98, R113), its speed command 0 at once (the model's choice, log entry 32); at the braked limit the
watch ends with HALT_WATCH_DONE and the number of listed drives not braked (R96). HOLD_LAMP_FLASH turns the
flashing lamp every 500 ms (R99), and does nothing before its time (log entry 3). -/
def Obligations.HaltWatchRunsOut : Prop :=
  ∀ s : State, s.sl.resetHeld = false → s.pv.Wf →
    (∀ w until_, s.hu.watch = some w → w.ackUntil = some until_ → until_ ≤ s.clock.now →
      ∃ t w', exec .ackWindowExpiry s = .next t ∧ t.hu = { s.hu with watch := some w' } ∧
        w'.ackUntil = none ∧ w'.list = w.list ∧ w'.braked = w.braked ∧ w'.startAt = w.startAt ∧
        w'.limit = w.limit ∧
        (∀ n, n ∈ w'.counted ↔ n ∈ w.counted ∨ (n ∈ w.list ∧ n ∉ w.acked)) ∧
        (∀ n, n < 24 → t.peer n = { s.peer n with unanswered :=
          if n ∈ w.list ∧ n ∉ w.acked ∧ n ∉ w.counted then min 15 ((s.peer n).unanswered + 1)
          else (s.peer n).unanswered }) ∧
        (w.list.length ≤ 24 → s.suppressed .driveUnanswered = false → ∀ n ∈ w.list, n ∉ w.acked →
          n ∉ w.counted →
          EventEntry.mk .driveUnanswered (BitVec.ofNat 16 n) s.clock.station ∈ t.lu.queue) ∧
        (s.role = .drive → (∃ n ∈ w.list, n ∉ w.acked) →
          s.mu.motion = .starting ∨ s.mu.motion = .driving ∨ s.mu.motion = .stopping ∨
            s.mu.motion = .settling →
          t.mu.motion = .dragStop ∧ t.mu.reference = 0 ∧ t.mu.trim = 0 ∧ t.mu.command = 0 ∧
            t.mu.still = 0 ∧ t.mu.brakeEnergised = false) ∧
        (s.role ≠ .drive ∨ (∀ n ∈ w.list, n ∈ w.acked) → t.mu = s.mu)) ∧
    (∀ w, s.hu.watch = some w → w.startAt + w.limit ≤ s.clock.now →
      ∃ t, exec .brakedLimitExpiry s = .next t ∧ t.hu = { s.hu with watch := none } ∧
        (s.suppressed .haltWatchDone = false →
          EventEntry.mk .haltWatchDone (BitVec.ofNat 16 (w.list.countP (fun n => decide (n ∉ w.braked))))
            s.clock.station ∈ t.lu.queue)) ∧
    (s.hu.watch = none → exec .ackWindowExpiry s = .next s ∧ exec .brakedLimitExpiry s = .next s) ∧
    (s.role = .desk → s.hu.lampMode = .flashing → s.hu.lampAt + 500 ≤ s.clock.now →
      exec .holdLampFlash s = .next { s with hu := { s.hu with
        lampLit := !s.hu.lampLit, lampAt := s.clock.now } }) ∧
    (s.lampDue = false → exec .holdLampFlash s = .next s)

/-! ### The drive -/

/-- MOTION_UPDATE, stages 1 and 2 (R108, R109): an answer of the last frame's sequence gives load and speed
and clears the missed count, any other counts as missed; ten quiet answers complete the still count. The
third missed answer, or the inverter's flag, takes the drive to FAULT, and thirty quiet answers in a row end
the cause. INVERTER_FAULT, INVERTER_FAULT_CLEAR and STILL_COUNT_COMPLETE do that same update
(DEDUCED, log entry 4). -/
def Obligations.UpdateJudgesTheAnswer : Prop :=
  ∀ (s : State) (q : Byte), s.sl.resetHeld = false → s.role = .drive → s.joined = true → s.mu.Wf →
    s.mu.updateAt + 100 ≤ s.clock.now → s.mu.sentSeq = some q →
    let taken := fun a : InverterAnswer => s.mu.answer.bind inverterAnswerOf = some a ∧ a.seq = q
    let quiet := ∃ a, taken a ∧ a.fault = false ∧ a.measured < 5
    ∃ t, exec .motionUpdate s = .next t ∧ t.mu.answer = none ∧
      let settles := s.mu.motion ≠ .settling ∧ t.mu.motion = .settling
      let faulted := fun n : Nat => t.mu.invCause = true ∧ t.mu.clear = 0 ∧ t.mu.motion = .fault ∧
        t.mu.reference = 0 ∧ t.mu.trim = 0 ∧ t.mu.command = 0 ∧ (s.suppressed .inverterFault = false →
          EventEntry.mk .inverterFault (BitVec.ofNat 16 n) s.clock.station ∈ t.lu.queue)
      (∀ a, taken a →
        t.mu.load = clampInt (-1500) 1500 a.load ∧ t.mu.measured = a.measured ∧ t.mu.missed = 0) ∧
      ((∀ a, ¬ taken a) → t.mu.load = s.mu.load ∧ t.mu.measured = s.mu.measured ∧
        t.mu.missed = min 3 (s.mu.missed + 1)) ∧
      (settles → t.mu.still = 0) ∧
      (¬ settles → quiet → t.mu.still = min 10 (s.mu.still + 1)) ∧
      (¬ settles → ¬ quiet → t.mu.still = 0) ∧
      (s.mu.invCause = false → 2 ≤ s.mu.missed → (∀ a, ¬ taken a) →
        exec .inverterFault s = .next t ∧ faulted 1) ∧
      (s.mu.invCause = false → ∀ a, taken a → a.fault = true → faulted 2) ∧
      (s.mu.invCause = false → (∀ a, taken a → a.fault = false) → ((∀ a, ¬ taken a) → s.mu.missed < 2) →
        t.mu.invCause = false) ∧
      (s.mu.invCause = true → quiet → 29 ≤ s.mu.clear → exec .inverterFaultClear s = .next t ∧
        t.mu.invCause = false ∧ t.mu.clear = 0 ∧
        (t.mu.motion = .fault ↔ (s.mu.brakeCause || s.mu.listenCause) = true)) ∧
      (s.mu.invCause = true → quiet → s.mu.clear < 29 →
        t.mu.invCause = true ∧ t.mu.clear = s.mu.clear + 1 ∧ t.mu.motion = .fault) ∧
      (s.mu.invCause = true → ¬ quiet →
        t.mu.invCause = true ∧ t.mu.clear = 0 ∧ t.mu.motion = .fault) ∧
      (quiet → 9 ≤ s.mu.still →
        s.mu.motion = .dragStop ∨ (s.mu.motion = .settling ∧ s.mu.mode = .halt) →
        exec .stillCountComplete s = .next t ∧ t.mu.motion = .braked)

/-- MOTION_UPDATE, stages 3 to 7 (R110 to R112, R114 to R120, R123): the target is the least cap in force; a
drive that is not in FAULT follows the table of its motion states; one that is, or stays, in FAULT has its brake
set and reference, trim and command 0 (R114); the reference ramps in DRIVING and
STOPPING and is 0 elsewhere; load sharing gives the trim and the command; the command frame goes out with
the next sequence and the MOTION report is handed over. Before its time the update does nothing (log
entry 3). The mean of no counted drive is a free value (log entry 46). -/
def Obligations.UpdateMovesTheDrive : Prop :=
  ∀ s : State, s.sl.resetHeld = false →
    (s.role = .drive → s.joined = true → s.mu.Wf → s.mu.updateAt + 100 ≤ s.clock.now →
      ∃ t m, exec .motionUpdate s = .next t ∧
        let sh := s.sl.sheet
        let x := t.mu.target
        let r := s.mu.reference
        (s.pastSettling = false ∨ s.hu.effect = .halt ∨ s.hu.effect = .stop ∨
          (s.hu.effect = .empty ∧ s.mu.emptyState ≠ .emptying) → x = 0) ∧
        (s.wv.capped = true ∨ s.hu.effect = .empty → x ≤ sh.slow) ∧
        (∀ b, s.entryBay = some b →
          (flagCreep b.flags = true → x ≤ sh.creep) ∧
          (b.queueLen = 0 → sh.idleOne ≤ b.idle.toNat → b.idle.toNat < sh.idleTwo → x ≤ sh.slow) ∧
          (b.queueLen = 0 → sh.idleTwo ≤ b.idle.toNat → x ≤ sh.creep)) ∧
        x ≤ sh.speed s.mu.mode ∧ x ∈ s.caps ∧
        (t.mu.motion ≠ .fault →
          m = (match (if s.mu.motion = .fault then .braked else s.mu.motion) with
            | .braked => if 0 < x ∧ s.pastSettling = true ∧ s.hu.effect ≠ .halt ∧ s.hu.effect ≠ .stop ∧
                s.mu.mode ≠ .halt then .starting else .braked
            | .starting => if x = 0 then .braked
                else if s.pins.brakeReleased = true then .driving else .starting
            | .driving => if x = 0 then .stopping else .driving
            | .stopping => if 0 < x then .driving else .stopping
            | .settling => if 0 < x then .driving else if 10 ≤ t.mu.still then .braked else .settling
            | .dragStop => if 10 ≤ t.mu.still then .braked else .dragStop
            | .fault => .fault) ∧
          (m = .driving ∨ m = .stopping → t.mu.reference =
            if r < x then (if s.interlock = true then r else min (r + sh.aUp) x)
            else max x (r - (if s.hu.effect = .stop then sh.aStop else sh.aDn))) ∧
          (m ≠ .driving → m ≠ .stopping → t.mu.reference = 0) ∧
          t.mu.motion = (if m = .stopping ∧ t.mu.reference = 0 then .settling else m)) ∧
        (t.mu.motion = .fault → t.mu.reference = 0 ∧ t.mu.trim = 0 ∧ t.mu.command = 0 ∧
          t.mu.brakeEnergised = false) ∧
        t.mu.counted = t.countedLoads.length ∧
        (t.countedLoads ≠ [] → t.mu.mean = t.countedLoads.sum.tdiv t.countedLoads.length) ∧
        (t.mu.reference = 0 ∨ t.mu.moving = false ∨ t.mu.counted = 1 → t.mu.trim = 0) ∧
        (t.mu.reference ≠ 0 → t.mu.moving = true → t.mu.counted ≠ 1 → t.mu.trim =
          clampInt (-(sh.trimLimit : Int)) sh.trimLimit (((t.mu.load - t.mu.mean) * sh.g).tdiv 1024)) ∧
        (t.mu.reference = 0 → t.mu.command = 0) ∧
        (t.mu.reference ≠ 0 → (t.mu.command : Int) =
          clampInt 0 ((sh.run : Int) + sh.trimLimit) ((t.mu.reference : Int) - t.mu.trim)) ∧
        t.mu.invTx = commandFrame s.mu.frameSeq t.mu.command ∧ t.mu.sentSeq = some s.mu.frameSeq ∧
        t.mu.frameSeq = s.mu.frameSeq + 1 ∧ t.mu.updateAt = s.clock.now ∧
        t.lc = (handOver (.motion t.mu.report) false s).lc) ∧
    (s.updateDue = false → exec .motionUpdate s = .next s)

/-- The brake (R108, R110): INVERTER_ANSWER keeps the answer to the last command frame for the next update and
discards any other frame, a late answer among them (log entry 33); BRAKE_FB_CHANGE sets the
feedback and starts or ends the mismatch time; a mismatch of 1,000 ms latches the BRAKE cause, takes the
drive to FAULT with its brake set and its speed command 0 (the model's choice, log entry 32) and raises
BRAKE_FAULT. At another station, or before its time, a row does nothing more (log entries 3 and 34), and neither
does BRAKE_FAULT while the cause stands latched (the model's choice, log entry 39). -/
def Obligations.BrakeFeedbackIsWatched : Prop :=
  ∀ (s : State) (frame : List Byte) (released : Bool), s.sl.resetHeld = false →
    (s.role = .drive → s.joined = true →
      (∀ q a, s.mu.sentSeq = some q → inverterAnswerOf frame = some a → a.seq = q →
        exec (.inverterAnswer frame) s = .next { s with mu := { s.mu with answer := some frame } }) ∧
      ((∀ q a, s.mu.sentSeq = some q → inverterAnswerOf frame = some a → a.seq ≠ q) →
        exec (.inverterAnswer frame) s = .next s) ∧
      exec (.brakeFbChange released) s = .next { s with
        pins := { s.pins with brakeReleased := released }
        mu := { s.mu with
          mismatchFrom := if s.mu.brakeEnergised = released then none
            else some (s.mu.mismatchFrom.getD s.clock.now) } }) ∧
    (s.role ≠ .drive ∨ s.joined = false →
      exec (.inverterAnswer frame) s = .next s ∧
      exec (.brakeFbChange released) s = .next { s with
        pins := { s.pins with brakeReleased := released } }) ∧
    (∀ since, s.role = .drive → s.joined = true → s.mu.brakeCause = false →
      s.mu.mismatchFrom = some since → since + 1000 ≤ s.clock.now →
      ∃ t, exec .brakeFault s = .next t ∧ t.mu.brakeCause = true ∧ t.mu.motion = .fault ∧
        t.mu.brakeEnergised = false ∧
        (s.mu.motion ≠ .fault → t.mu.reference = 0 ∧ t.mu.trim = 0 ∧ t.mu.command = 0) ∧
        (s.suppressed .brakeFault = false →
          (EventEntry.mk .brakeFault (if s.mu.brakeEnergised = true then 1 else 2) s.clock.station)
            ∈ t.lu.queue)) ∧
    (s.brakeFaultDue = false → exec .brakeFault s = .next s)

/-- EMPTYDOWN_TIMEOUT (R122): at its limit empty-down is DONE, the ride order is latched to HALT, the event
is raised with the cabins still occupied, and the halt watch starts over the available drives (R94). Before its
time, or with empty-down not EMPTYING, the row does nothing (the model's choice, log entry 3). -/
def Obligations.EmptyDownEndsAtItsLimit : Prop :=
  ∀ s : State, s.sl.resetHeld = false →
    (s.mu.emptyState = .emptying → s.mu.emptyAt + s.sl.sheet.emptyLimit * 1000 ≤ s.clock.now →
      ∃ t, exec .emptydownTimeout s = .next t ∧
        t.mu = { s.mu with emptyState := .done, mode := .halt } ∧
        (s.suppressed .emptydownTimeout = false →
          EventEntry.mk .emptydownTimeout (BitVec.ofNat 16 s.ct.occupied) s.clock.station ∈ t.lu.queue) ∧
        (s.availableDrives = [] → t.hu = { s.hu with watch := none }) ∧
        (s.availableDrives ≠ [] → ∃ w, t.hu = { s.hu with watch := some w } ∧
          w.list = s.availableDrives ∧ w.acked = [] ∧ w.braked = [] ∧ w.startAt = s.clock.now ∧
          w.ackUntil = some (s.clock.now + 500) ∧
          w.counted = (match s.hu.watch with | some v => v.counted | none => []))) ∧
    (s.emptyLimitDue = false → exec .emptydownTimeout s = .next s)

/-! ### The bays -/

/-- TAG_POLL and TAG_ANSWER: the poll byte every 100 ms; an answer that passes its check is kept with its time,
any other is dropped. GATE_CLEAR carries a deferred close out at the change to clear, and DOOR_CLOSE stays
driven until DOOR_LOCKED reads locked (log entry 28). A poll before its time changes nothing (the model's
choice, log entry 3), and neither do the track lines of another role, or before JOINING (log entry 34). -/
def Obligations.BayFieldLines : Prop :=
  (∀ (s : State) (frame : List Byte) (v : Bool), s.sl.resetHeld = false →
    (s.role = .entry ∨ s.role = .exit → s.joined = true →
      (s.bu.pollAt + 100 ≤ s.clock.now →
        exec .tagPoll s = .next { s with bu := { s.bu with tagTx := [0x01], pollAt := s.clock.now } }) ∧
      (∀ c, tagAnswerOf frame = some c →
        exec (.tagAnswer frame) s = .next { s with bu := { s.bu with tag := some (c, s.clock.now) } })) ∧
    (tagAnswerOf frame = none ∨ (s.role ≠ .entry ∧ s.role ≠ .exit) ∨ s.joined = false →
      exec (.tagAnswer frame) s = .next s) ∧
    (s.tagPollDue = false → exec .tagPoll s = .next s) ∧
    (s.bu.closeDeferred = true → ∃ t, exec (.gateClear true) s = .next t ∧ t.pins.gateClear = true ∧
      t.bu.doorRelease = false ∧ t.bu.gateOpen = false ∧ t.bu.doorClose = true ∧
      t.bu.closeDeferred = false ∧ t.bu.doorsOpen = false ∧ t.bu.window = s.bu.window ∧
      t.lc = (handOver (.bay t.bayReport) false s).lc) ∧
    (v = false ∨ s.bu.closeDeferred = false →
      exec (.gateClear v) s = .next { s with pins := { s.pins with gateClear := v } }) ∧
    exec (.doorLocked v) s = .next { s with
      pins := { s.pins with doorLocked := v }
      bu := { s.bu with doorClose := s.bu.doorClose && !v } }) ∧
  (∀ (s : State) (empty : Bool),
    (s.role ≠ .entry ∨ s.joined = false → ∀ c ∈ [Instr.arrive, .align, .closeMark, .departLimit],
      exec c s = .next s) ∧
    (s.role ≠ .exit ∨ s.joined = false →
      ∀ c ∈ [Instr.exitArrive empty, .exitAlign, .exitCloseMark empty, .exitDepartLimit empty],
        exec c s = .next s))

/-- The matching walk (R149): matched parties keep the queue's order, fit the class and the capacity, are at
most four, and one alone in a private cabin or without sharing; the others stay queued in order; the first
party is matched where it fits, stops the walk where it is head-locked, and is skipped where only its size
does not fit. The same at every later party, with the capacity left and the parties matched so far: the walk
goes on after a match unless the cabin is full, four are matched, the cabin is private or sharing is off, and
after a party passed over unless that party is, or now becomes, head-locked. -/
def Obligations.MatchingFollowsTheQueue : Prop :=
  ∀ (cls : CabinClass) (sharing : Bool) (limit cap : Nat) (q : List Party),
    let r := matchWalk cls sharing limit cap [] q
    r.2.1.Sublist q ∧ (∀ p ∈ r.2.1, needFits p.need cls = true) ∧ sizeSum r.2.1 + r.2.2 = cap ∧
    r.2.1.length ≤ 4 ∧ (cls = .priv ∨ sharing = false → r.2.1.length ≤ 1) ∧
    (r.1.map Party.tag).Sublist (q.map Party.tag) ∧
    ((r.2.1 ++ r.1).map Party.tag).Perm (q.map Party.tag) ∧
    (∀ (left : Nat) (got : List Party), matchWalk cls sharing limit left got [] = ([], got, left)) ∧
    (∀ (left : Nat) (got : List Party) (p : Party) (ps : List Party),
      let walk := matchWalk cls sharing limit left got (p :: ps)
      let fits := needFits p.need cls = true
      let skipped := { p with skips := min 15 (p.skips + 1), locked := decide (limit ≤ min 15 (p.skips + 1)) }
      let onward := matchWalk cls sharing limit left got ps
      (fits → p.size ≤ left →
        let stops := left = p.size ∨ got.length = 3 ∨ cls = .priv ∨ sharing = false
        (stops → walk = (ps, got ++ [p], left - p.size)) ∧
        (¬ stops → walk = matchWalk cls sharing limit (left - p.size) (got ++ [p]) ps)) ∧
      (¬ (fits ∧ p.size ≤ left) → p.locked = true → walk = (p :: ps, got, left)) ∧
      (fits → left < p.size → p.locked = false →
        (limit ≤ min 15 (p.skips + 1) → walk = (skipped :: ps, got, left)) ∧
        (min 15 (p.skips + 1) < limit → walk = (skipped :: onward.1, onward.2))) ∧
      (¬ fits → p.locked = false → walk = (p :: onward.1, onward.2))) ∧
    (∀ p ps, q = p :: ps →
      (needFits p.need cls = true → p.size ≤ cap → r.2.1.head? = some p) ∧
      (needFits p.need cls = false ∨ cap < p.size → p.locked = true → r = (q, [], cap)) ∧
      (needFits p.need cls = true → cap < p.size → p.locked = false → r.1.head? = some { p with
        skips := min 15 (p.skips + 1), locked := decide (limit ≤ min 15 (p.skips + 1)) }) ∧
      (needFits p.need cls = false → p.locked = false → r.1.head? = some p))

/-- ARRIVE at the entry bay in an IDLE window (R148, R149, R150, R159): the new window has the cabin of the
tag, else the successor of the last passage's; a boardable cabin, EMPTY and in service while boarding is
open, is matched with the queue, and with no party matched a wanted grace begins; otherwise nothing is
matched. From another window state the old window first ends with its passage (R156). -/
def Obligations.EntryWindowArrives : Prop :=
  ∀ s : State, s.sl.resetHeld = false → s.role = .entry → s.joined = true → ∃ t, exec .arrive s = .next t ∧
    t.bu.window.state = .arriving ∧ t.bu.window.aligned = false ∧ t.bu.window.count = none ∧
    (s.bu.window.state = .idle →
      let cabin := match s.tagRead with
        | some c => some c
        | none => s.ct.entryCursor.cabin.map (fun c => if c < s.sl.sheet.n then c + 1 else 1)
      let boards := fun c : Cabin => s.bu.boarding = true ∧ c.state = .empty ∧ c.outOfService = false
      t.bu.window.cabin = cabin ∧ t.bu.serial = s.bu.serial ∧ t.ct = s.ct ∧
      (∀ c, cabin.bind s.cabin? = some c → boards c →
        let r := matchWalk c.cls s.sl.sheet.sharing s.sl.sheet.skipLimit c.capacity [] s.bu.queue
        t.bu.window.boardable = true ∧ t.bu.queue = r.1 ∧ t.bu.window.matched = r.2.1 ∧
        t.bu.window.remaining = r.2.2 ∧
        t.bu.creep = (s.bu.creep || r.2.1.any (fun p => p.need == .stepFree)) ∧
        (t.bu.window.grace = true ↔ r.2.1 = []) ∧
        (r.2.1 = [] → s.suppressed .partyWanted = false →
          EventEntry.mk .partyWanted (BitVec.ofNat 16 (classCode c.cls * 256 + c.capacity)) s.clock.station
            ∈ t.lu.queue)) ∧
      ((∀ c, cabin.bind s.cabin? = some c → ¬ boards c) →
        t.bu.window.boardable = false ∧ t.bu.queue = s.bu.queue ∧ t.bu.window.matched = [] ∧
        t.bu.window.grace = false ∧ t.bu.creep = s.bu.creep)) ∧
    (∀ c, s.bu.window.state ≠ .idle → s.bu.window.cabin = some c → t.bu.serial = s.bu.serial + 1)

/-- ALIGN at the entry bay: in an ARRIVING window not yet aligned the grace ends, and with parties matched,
boarding open and no close pending the doors are released, the gate and the window are OPEN, the lamp is lit and
a BAY report is handed over; anywhere else nothing but the log changes. CLOSE_MARK: an OPEN window becomes
CLOSING with its lamp out, its doors closed at once when the gate is clear, else the close deferred; in an
ARRIVING window the grace ends and matched parties go back to the head of the queue (R155), the remaining capacity
standing as it was (the model's choice, log entry 43); elsewhere the bay stays. -/
def Obligations.EntryWindowOpensAndCloses : Prop :=
  (∀ s : State, s.sl.resetHeld = false → s.role = .entry → s.joined = true → ∃ t, exec .align s = .next t ∧
    let opens := s.bu.window.matched ≠ [] ∧ s.bu.boarding = true ∧ s.bu.closeDeferred = false ∧
      s.bu.doorClose = false
    (s.bu.window.state = .arriving → s.bu.window.aligned = false →
      t.bu.window.aligned = true ∧ t.bu.window.grace = false ∧ t.bu.window.matched = s.bu.window.matched ∧
      (opens → t.bu.window.state = .opened ∧ t.bu.doorRelease = true ∧ t.bu.gateOpen = true ∧
        t.bu.doorsOpen = true ∧ t.bu.boardLamp = true ∧
        t.lc = (handOver (.bay t.bayReport) false s).lc) ∧
      (¬ opens → t.bu = { s.bu with window := { s.bu.window with aligned := true, grace := false } } ∧
        t.lc = s.lc)) ∧
    (s.bu.window.state ≠ .arriving ∨ s.bu.window.aligned = true → t.bu = s.bu ∧ t.lc = s.lc)) ∧
  (∀ s : State, s.sl.resetHeld = false → s.role = .entry → s.joined = true →
    ∃ t, exec .closeMark s = .next t ∧
      (s.bu.window.state = .opened →
        t.bu.window = { s.bu.window with state := .closing } ∧ t.bu.boardLamp = false ∧
        (s.pins.gateClear = true → t.bu.doorRelease = false ∧ t.bu.gateOpen = false ∧
          t.bu.doorClose = true ∧ t.bu.doorsOpen = false ∧ t.bu.closeDeferred = false ∧
          t.lc = (handOver (.bay t.bayReport) false s).lc) ∧
        (s.pins.gateClear = false → t.bu.doorRelease = s.bu.doorRelease ∧ t.bu.gateOpen = s.bu.gateOpen ∧
          t.bu.doorClose = s.bu.doorClose ∧ t.bu.doorsOpen = s.bu.doorsOpen ∧
          t.bu.closeDeferred = true ∧ t.lc = s.lc)) ∧
      (s.bu.window.state = .arriving →
        (s.bu.window.matched = [] →
          t.bu = { s.bu with window := { s.bu.window with grace := false } }) ∧
        (s.bu.window.matched ≠ [] → t.bu = { s.bu with
          queue := s.bu.window.matched ++ s.bu.queue
          window := { s.bu.window with grace := false, matched := [] }
          creep := false })) ∧
      (s.bu.window.state = .idle ∨ s.bu.window.state = .closing → t.bu = s.bu))

/-- DEPART_LIMIT at the entry bay (R154, R155): the window ends IDLE with the lamp out and the creep request
cleared; a cabin with matched parties makes a BOARDED passage with the counted riders, else their number,
and their tags; any other known cabin a PASSED one. The passage takes the next serial, is the summary, enters the
own table, is handed over and raised, after it PARTY_BOARDED for each party. It is handed over in the state z: with
the door locked and the gate clear that is after the BAY report of a close that the departure carries out, and no
other telegram. A door not locked declares BAY STOP DOOR_UNLOCKED, an open gate BAY HALT GATE. -/
def Obligations.EntryWindowDeparts : Prop :=
  ∀ s : State, s.sl.resetHeld = false → s.role = .entry → s.joined = true →
    ∃ t, exec .departLimit s = .next t ∧
      let w := s.bu.window
      let boards := w.state ≠ .arriving ∧ w.matched ≠ []
      let passage := fun (c : Nat) (r : PassResult) (riders : Option Nat) (tags : List Half) =>
        let p := Passage.mk s.bu.serial c (some r) riders tags true
        t.bu.serial = s.bu.serial + 1 ∧ t.bu.summary = some ⟨s.bu.serial, c, r, riders⟩ ∧
        (s.CabinsKnown → s.ct.entryCursor.serial ≠ some s.bu.serial → 1 ≤ c → c ≤ s.sl.sheet.n →
          t.ct.entryCursor = ⟨some s.bu.serial, some c, false⟩ ∧
          t.cabin? c = (s.cabin? c).map (fun x => { x.applyResult r p s.clock.station with
            last := some ⟨.entry, s.bu.serial, s.clock.now⟩ })) ∧
        (∃ z : State, z.sl = s.sl ∧
          (s.pins.doorLocked = true → s.pins.gateClear = true → z.lc = if w.state = .opened then
            (handOver (.bay { s.bayReport with doors := 0 }) false s).lc else s.lc) ∧
          t.lc = (handOver (.passage ⟨s.bu.serial, byteOf c, byteOf (resultCode r), cabinByte riders, tags⟩)
            false z).lc) ∧
        (s.bu.Wf → s.suppressed .passage = false →
          EventEntry.mk .passage (BitVec.ofNat 16 (c * 256 + resultCode r)) s.clock.station ∈ t.lu.queue)
      (w.state = .idle → t.bu = s.bu) ∧
      (w.state ≠ .idle →
        t.bu.window = Window.idle ∧ t.bu.creep = false ∧ t.bu.boardLamp = false ∧
        (w.cabin = none → t.bu.serial = s.bu.serial ∧ t.ct = s.ct) ∧
        (∀ c, w.cabin = some c → boards →
          passage c .boarded (some (w.count.getD (sizeSum w.matched))) (w.matched.map Party.tag) ∧
          t.bu.idleStart = s.clock.now ∧
          (s.bu.Wf → s.suppressed .partyBoarded = false → ∀ x ∈ w.matched,
            EventEntry.mk .partyBoarded x.tag s.clock.station ∈ t.lu.queue)) ∧
        (∀ c, w.cabin = some c → ¬ boards → passage c .passed none []) ∧
        (s.pins.doorLocked = false →
          ∃ o, t.hu.own? .bay = some o ∧ o.effect = .stop ∧ o.cause = .doorUnlocked) ∧
        (s.pins.gateClear = false → s.pins.doorLocked = true → s.hu.own? .bay = none →
          ∃ o, t.hu.own? .bay = some o ∧ o.effect = .halt ∧ o.cause = .gate))

/-- EXIT_ARRIVE and EXIT_ALIGN (R167, R168): the new window has the cabin of the tag, else the successor of
the last passage's; at ALIGN the doors are released for a cabin that is absent or not EMPTY, when no close
is pending, and stay shut for an EMPTY one. -/
def Obligations.ExitWindowOpens : Prop :=
  ∀ (s : State) (empty : Bool), s.sl.resetHeld = false → s.role = .exit → s.joined = true →
    (∃ t, exec (.exitArrive empty) s = .next t ∧ t.bu.window.state = .arriving ∧
      t.bu.window.aligned = false ∧ t.bu.window.result = none ∧ t.bu.window.contact = none ∧
      (s.bu.window.state = .idle →
        t.bu.window.cabin = (match s.tagRead with
          | some c => some c
          | none => s.ct.exitCursor.cabin.map (fun c => if c < s.sl.sheet.n then c + 1 else 1)) ∧
        t.bu.serial = s.bu.serial ∧ t.ct = s.ct) ∧
      (∀ c r, s.bu.window.state ≠ .idle → s.bu.window.cabin = some c → s.cabin? c = some r →
        s.bu.window.contact = none → t.bu.serial = s.bu.serial + 1)) ∧
    (∃ t, exec .exitAlign s = .next t ∧
      let opens := (∀ c, s.bu.window.cabin.bind s.cabin? = some c → c.state ≠ .empty) ∧
        s.bu.closeDeferred = false ∧ s.bu.doorClose = false
      (s.bu.window.state = .arriving → s.bu.window.aligned = false →
        t.bu.window.aligned = true ∧
        (opens → t.bu.window.state = .opened ∧ t.bu.doorRelease = true ∧ t.bu.gateOpen = true ∧
          t.bu.doorsOpen = true ∧ t.bu.boardLamp = true ∧
          t.lc = (handOver (.bay t.bayReport) false s).lc) ∧
        (¬ opens → t.bu = { s.bu with window := { s.bu.window with aligned := true } } ∧ t.lc = s.lc)) ∧
      (s.bu.window.state ≠ .arriving ∨ s.bu.window.aligned = true → t.bu = s.bu ∧ t.lc = s.lc))

/-- EXIT_CLOSE_MARK and EXIT_DEPART_LIMIT (R169 to R172): the decision is made once from the record and the
contact; an OPEN window closes as at the entry bay, also where its result was decided before (the model's choice,
log entry 49). At every departure a door not locked declares BAY STOP
DOOR_UNLOCKED and a gate not clear BAY HALT GATE; then the passage of the result takes the next serial, enters
the own table, is handed over in the state z, leaving y, and raised, the window becomes IDLE, LOADED_FOUND is raised
for that result, and a cabin held over for the third lap declares BAY HALT CARRIED_ROUND, its telegram after the
passage. For an absent cabin no passage is made and the window is not made
IDLE: it stands until the next EXIT_ARRIVE (R171 read step by step; DEDUCED, log entry 22). An IDLE window
stays. -/
def Obligations.ExitWindowDecidesAndDeparts : Prop :=
  ∀ (s : State) (empty : Bool), s.sl.resetHeld = false → s.role = .exit → s.joined = true →
    let w := s.bu.window
    let result := fun c : Cabin =>
      if c.state = .empty then (if empty = true then PassResult.passedEmpty else .loadedFound)
      else (if empty = true then .cleared else .heldOver)
    (∃ t, exec (.exitCloseMark empty) s = .next t ∧
      (w.state = .idle → t.bu = s.bu) ∧
      (w.state ≠ .idle → w.contact = none → t.bu.window.contact = some empty ∧
        t.bu.window.result = (w.cabin.bind s.cabin?).map result) ∧
      (w.state ≠ .idle → w.contact ≠ none →
        t.bu.window.contact = w.contact ∧ t.bu.window.result = w.result) ∧
      (w.state = .arriving ∨ w.state = .closing → t.bu.window.state = w.state ∧ t.lc = s.lc) ∧
      (w.state = .opened → t.bu.window.state = .closing ∧ t.bu.boardLamp = false ∧
        (s.pins.gateClear = true → t.bu.doorRelease = false ∧ t.bu.gateOpen = false ∧
          t.bu.doorClose = true ∧ t.bu.doorsOpen = false) ∧
        (s.pins.gateClear = false → t.bu.closeDeferred = true))) ∧
    (∃ t, exec (.exitDepartLimit empty) s = .next t ∧
      (w.state = .idle → t.bu = s.bu) ∧
      (w.state ≠ .idle →
        (s.pins.doorLocked = false →
          ∃ o, t.hu.own? .bay = some o ∧ o.effect = .stop ∧ o.cause = .doorUnlocked) ∧
        (s.pins.gateClear = false → s.pins.doorLocked = true → s.hu.own? .bay = none →
          ∃ o, t.hu.own? .bay = some o ∧ o.effect = .halt ∧
            ((∀ x, w.cabin.bind s.cabin? = some x → x.laps < 2) → o.cause = .gate)) ∧
        (w.cabin ≠ none → t.bu.window = Window.idle) ∧
        (w.cabin = none → t.bu.serial = s.bu.serial ∧ t.ct = s.ct ∧ t.bu.window.cabin = none ∧
          t.bu.window.state = (if w.state = .opened then .closing else w.state) ∧
          t.bu.window.result = w.result ∧ t.bu.window.contact = w.contact) ∧
        (∀ c x r, w.cabin = some c → s.cabin? c = some x →
          (w.contact = none ∧ r = result x ∨ w.contact ≠ none ∧ w.result = some r) →
          t.bu.serial = s.bu.serial + 1 ∧ t.bu.summary = some ⟨s.bu.serial, c, r, none⟩ ∧
          (r = .loadedFound → s.suppressed .loadedFound = false →
            EventEntry.mk .loadedFound (BitVec.ofNat 16 c) s.clock.station ∈ t.lu.queue) ∧
          (∃ z y : State, z.sl = s.sl ∧ y.sl = s.sl ∧
            (s.pins.doorLocked = true → s.pins.gateClear = true → z.lc = if w.state = .opened then
              (handOver (.bay { s.bayReport with doors := 0 }) false s).lc else s.lc) ∧
            y.lc = (handOver (.passage ⟨s.bu.serial, byteOf c, byteOf (resultCode r), 0xFF, []⟩) false z).lc ∧
            (r ≠ .heldOver ∨ x.laps < 2 → t.lc = y.lc) ∧
            (r = .heldOver → x.laps = 3 ∨ (x.laps = 2 ∧ s.CabinsKnown ∧
                s.ct.exitCursor.serial ≠ some s.bu.serial ∧ 1 ≤ c ∧ c ≤ s.sl.sheet.n) →
              s.pins.doorLocked = true → s.pins.gateClear = true → s.hu.own? .bay = none →
              t.lc = (handOver (.hold ⟨byteOf (holdKindCode .bay), byteOf (effectCode .halt),
                byteOf (causeCode .carriedRound), s.clock.station⟩) false y).lc)) ∧
          (r ≠ .heldOver ∨ x.laps < 2 ∨ (s.pins.doorLocked = true ∧ s.pins.gateClear = true ∧
              s.hu.records.length < 16) → s.suppressed .passage = false →
            EventEntry.mk .passage (BitVec.ofNat 16 (c * 256 + resultCode r)) s.clock.station ∈ t.lu.queue) ∧
          (s.CabinsKnown → s.ct.exitCursor.serial ≠ some s.bu.serial → 1 ≤ c → c ≤ s.sl.sheet.n →
            resultFits .exit r = true →
            t.ct.exitCursor = ⟨some s.bu.serial, some c, false⟩ ∧
            t.cabin? c = some { x.applyResult r (Passage.mk s.bu.serial c (some r) none [] true)
              s.clock.station with last := some ⟨.exit, s.bu.serial, s.clock.now⟩ } ∧
            (r = .heldOver → 2 ≤ x.laps → s.pins.doorLocked = true →
              s.pins.gateClear = true → s.hu.own? .bay = none →
              ∃ o, t.hu.own? .bay = some o ∧ o.effect = .halt ∧ o.cause = .carriedRound)))))

/-! ### The request port -/

/-- PUT, GET and an incomplete PUT (R189, R190): a free port answers a complete PUT at once from the owner's
state, in LOADING it holds the request back with busy set, and a port that is not free counts one refused
PUT; the request rows are such PUTs, an unknown code answered with result 3 and no data. A GET sends the
current part of 24 bytes at most; a complete one advances to the next part, the last one marking the answer
read (an empty slot sends zeros with one part, log entry 17). Of the bytes of a transaction the first names the
operation: 01H a PUT, carried out as the row of its code where its length is the code's, as an unknown request
where it is not or is above 16, and as an incomplete one where fewer parameters arrive, bytes after the
parameters being ignored; 02H a GET, complete when every byte of the part is clocked (log entry 45); any other
byte has no effect. Every request that has a row is held back in LOADING, READ CABIN among them (the model's
choice, log entry 41). -/
def Obligations.PortTakesPutAndGet : Prop :=
  ∀ (s : State) (num a b d : Byte) (tag : Half), s.sl.resetHeld = false →
    (∀ c r, (c, r) ∈ [(Instr.status num, Request.status), (.readPeer num a, .readPeer a),
        (.takePeerFault num a, .takePeerFault a), (.readWind num a, .readWind a),
        (.readHolds num a, .readHolds a), (.readCabin num a, .readCabin a),
        (.readLog num a b, .readLog a b), (.takeEvent num, .takeEvent),
        (.submitParty num tag a b, .submitParty tag a b), (.withdrawParty num tag, .withdrawParty tag),
        (.reportCount num a, .reportCount a), (.closeDoors num, .closeDoors),
        (.declareHold num a b, .declareHold a b), (.releaseHold num a b, .releaseHold a b),
        (.orderRide num a, .orderRide a), (.setService num a b, .setService a b)] ∨
        (requestLength d.toNat ≠ some b.toNat ∧
          (c, r) = (Instr.putUnknownRequest d num b, Request.unknown d)) →
      (s.serves → ∃ t, exec c s = .next t ∧ t.rp = { s.rp with
        slot := some ⟨requestCode r, num, (serve r s).2.code, (serve r s).2.data, 0, false⟩
        busy := false
        deferred := none }) ∧
      (s.sl.start = .loading → s.rp.busy = false → s.rp.rdy = false →
        exec c s = .next { s with rp := { s.rp with busy := true, deferred := some (num, r) } }) ∧
      (s.rp.busy = true ∨ s.rp.rdy = true →
        exec c s = .next { s with rp := { s.rp with refused := min 255 (s.rp.refused + 1) } })) ∧
    (serve (.unknown d) s = (s, ⟨3, []⟩)) ∧
    exec .putIncomplete s = .next s ∧
    (∀ (lines : StrapLines) (c : Instr) (code : Byte) (params rest : List Byte),
      (c, code, params) ∈ [(Instr.status num, (1 : Byte), ([] : List Byte)), (.readPeer num a, 2, [a]),
        (.takePeerFault num a, 3, [a]), (.readWind num a, 4, [a]), (.readHolds num a, 5, [a]),
        (.readCabin num a, 6, [a]), (.readLog num a b, 7, [a, b]), (.takeEvent num, 8, []),
        (.submitParty num tag a b, 9, be16 tag ++ [a, b]), (.withdrawParty num tag, 10, be16 tag),
        (.reportCount num a, 11, [a]), (.closeDoors num, 12, []), (.declareHold num a b, 13, [a, b]),
        (.releaseHold num a b, 14, [a, b]), (.orderRide num a, 15, [a]), (.setService num a b, 16, [a, b]),
        (.restart num lines, 17, [])] →
      execTransaction lines (0x01 :: code :: num :: byteOf params.length :: (params ++ rest)) s = exec c s) ∧
    (∀ (lines : StrapLines) (rest : List Byte),
      (16 < b.toNat ∨ (b.toNat ≤ rest.length ∧ requestLength d.toNat ≠ some b.toNat) →
        execTransaction lines (0x01 :: d :: num :: b :: rest) s = exec (.putUnknownRequest d num b) s) ∧
      (b.toNat ≤ 16 → rest.length < b.toNat →
        execTransaction lines (0x01 :: d :: num :: b :: rest) s = .next s) ∧
      (rest.length < 3 → execTransaction lines (0x01 :: rest) s = .next s) ∧
      execTransaction lines (0x02 :: rest) s =
        exec (.get (decide (s.rp.getBytes.length ≤ rest.length))) s ∧
      (d ≠ 1 → d ≠ 2 → execTransaction lines (d :: rest) s = .next s) ∧
      execTransaction lines [] s = .next s) ∧
    (∀ complete, s.rp.slot = none →
      exec (.get complete) s = .next { s with rp := { s.rp with miso := [0, 0, 0, 1, 0] } }) ∧
    (∀ x : Answer, s.rp.slot = some x →
      let parts := max 1 ((x.data.length + 23) / 24)
      let body := (x.data.drop (24 * x.part)).take 24
      let sent := [x.code, x.num, byteOf x.result, byteOf (x.part * 16 + parts), byteOf body.length] ++ body
      exec (.get false) s = .next { s with rp := { s.rp with miso := sent } } ∧
      (x.part + 1 < parts → exec (.get true) s = .next { s with rp := { s.rp with
        miso := sent
        slot := some { x with part := x.part + 1 } } }) ∧
      (parts ≤ x.part + 1 → exec (.get true) s = .next { s with rp := { s.rp with
        miso := sent
        slot := some { x with read := true } } }))

/-- The requests that read: each is answered from the state as it stands, a parameter out of range with 3, a
station in SHEET_FAULT with 13 but for STATUS, and nothing but the port changes. TAKE PEER FAULT: the fault
record is answered and removed; an absent one gives 6, a station number above 23 gives 3, and SHEET_FAULT 13.
The order of the fields is the model's (log entry 16), and so is the order of the results: 3 before 13, but at
READ CABIN 13 before 3 (log entry 18). The role of STATUS is code 7 at a strapped role code that no role has (the
model's choice, log entry 47). -/
def Obligations.ReadsAreAnswered : Prop :=
  (∀ (s : State) (num a b : Byte), s.serves → ∃ t1 t2 t3 t4 t5 t6,
    exec (.status num) s = .next t1 ∧ exec (.readPeer num a) s = .next t2 ∧
    exec (.readWind num a) s = .next t3 ∧ exec (.readHolds num a) s = .next t4 ∧
    exec (.readCabin num a) s = .next t5 ∧ exec (.readLog num a b) s = .next t6 ∧
    t1.rp.holds 1 num 0 ([byteOf (roleCode s.role), byteOf s.sl.station,
      byteOf (startCode s.sl.start s.sl.settled), byteOf (effectCode s.hu.effect),
      byteOf (windCode s.wv.fused), byteOf (modeCode s.mu.mode),
      if s.role = .drive then byteOf (motionCode s.mu.motion) else 0xFF,
      if s.role = .entry then byteOf s.bu.queue.length else 0, byteOf s.lu.queue.length,
      byteOf s.rp.refused] ++ be16n s.lc.rxErrors
      ++ [if s.joined = true then byteOf s.ct.occupied else 0xFF]) ∧
    (23 < a.toNat → t2.rp.holds 2 num 3 []) ∧
    (3 < a.toNat → a ≠ 255 → t3.rp.holds 4 num 3 []) ∧
    (15 < a.toNat → t4.rp.holds 5 num 3 []) ∧
    (b = 0 ∨ 4 < b.toNat → t6.rp.holds 7 num 3 []) ∧
    (s.sl.start = .sheetFault →
      (a.toNat ≤ 23 → t2.rp.holds 2 num 13 []) ∧ (a.toNat ≤ 3 ∨ a = 255 → t3.rp.holds 4 num 13 []) ∧
      (a.toNat ≤ 15 → t4.rp.holds 5 num 13 []) ∧ t5.rp.holds 6 num 13 [] ∧
      (b ≠ 0 → b.toNat ≤ 4 → t6.rp.holds 7 num 13 [])) ∧
    (s.joined = true →
      (a.toNat ≤ 23 → t2.rp.holds 2 num 0 (s.peerData (s.peer a.toNat))) ∧
      (a = 255 → t3.rp.holds 4 num 0 [byteOf (windCode s.wv.fused), byteOf s.wv.freshCount,
        flagByte s.wv.degraded, byteOf s.sl.sheet.minMasts]) ∧
      (∀ r, a.toNat ≤ 3 → s.wv.records[a.toNat]? = some r → t3.rp.holds 4 num 0 (s.windData r)) ∧
      (a.toNat ≤ 3 → s.wv.records[a.toNat]? = none → t3.rp.holds 4 num 6 []) ∧
      (a.toNat ≤ 15 → t4.rp.holds 5 num 0 ([byteOf s.hu.records.length, byteOf (effectCode s.hu.effect)]
        ++ ((s.hu.records.drop a.toNat).take 4).flatMap s.holdData)) ∧
      (∀ c, s.cabin? a.toNat = some c → t5.rp.holds 6 num 0 (s.cabinData c)) ∧
      (s.cabin? a.toNat = none → t5.rp.holds 6 num 3 []) ∧
      (b ≠ 0 → b.toNat ≤ 4 → t6.rp.holds 7 num 0 (byteOf s.lu.writePos ::
        (List.range b.toNat).flatMap (fun i =>
          logBytes ((a.toNat + i) % 256) (s.lu.ring.getD ((a.toNat + i) % 256) none))))) ∧
    (∀ t ∈ [t1, t2, t3, t4, t5, t6], ∀ x : Block, x ≠ .rp → x.same s t)) ∧
  (∀ (s : State) (num n : Byte), s.serves → s.pv.Wf → ∃ t, exec (.takePeerFault num n) s = .next t ∧
    (23 < n.toNat → t.rp.holds 3 num 3 [] ∧ t.pv = s.pv) ∧
    (n.toNat ≤ 23 → s.sl.start = .sheetFault → t.rp.holds 3 num 13 [] ∧ t.pv = s.pv) ∧
    (n.toNat ≤ 23 → s.sl.start ≠ .sheetFault → (s.peer n.toNat).fault = none →
      t.rp.holds 3 num 6 [] ∧ t.pv = s.pv) ∧
    (∀ f, n.toNat ≤ 23 → s.sl.start ≠ .sheetFault → (s.peer n.toNat).fault = some f →
      t.rp.holds 3 num 0 ([byteOf (kindCode f.kind), flagByte f.byMask] ++ be32 f.time
        ++ [byteOf f.later]) ∧
      t.peer n.toNat = { s.peer n.toNat with fault := none } ∧
      ∀ m, m ≠ n.toNat → t.peer m = s.peer m))

/-- TAKE EVENT (R186): in every start state and role (in LOADING a PUT waits for its end, R190) the oldest
event is removed and answered with its code, parameter, time, the overrun flag and lost count as they stand and
the number left; flag and count are then cleared. An empty queue answers 6, and flag and count stand cleared.
With a full queue an event placed first leaves the next oldest to the take with the overrun flag set; a take
first makes room, and the event is placed without overrun. -/
def Obligations.TakeEventTakesTheOldest : Prop :=
  ∀ (s : State) (num : Byte), s.serves → ∃ t, exec (.takeEvent num) s = .next t ∧
    (s.lu.queue = [] → t.rp.holds 8 num 6 [] ∧ t.lu = s.lu ∧
      (s.lu.Wf → t.lu.overrun = false ∧ t.lu.lost = 0)) ∧
    (∀ e rest, s.lu.queue = e :: rest →
      t.rp.holds 8 num 0 ([byteOf (eventNo e.code)] ++ be16 e.param ++ be32 e.time
        ++ [flagByte s.lu.overrun, byteOf s.lu.lost, byteOf rest.length]) ∧
      t.lu = { s.lu with queue := rest, overrun := false, lost := 0 }) ∧
    (∀ (c : EventCode) (n : Nat) (x y : EventEntry) (rest : List EventEntry), s.suppressed c = false →
      s.lu.queue = x :: y :: rest → s.lu.queue.length = 32 →
      (∃ u, exec (.takeEvent num) (raise c n s) = .next u ∧ ∃ a, u.rp.slot = some a ∧ a.result = 0 ∧
        a.data.take 3 = [byteOf (eventNo y.code)] ++ be16 y.param ∧ a.data[7]? = some 1) ∧
      (raise c n t).lu.overrun = false ∧
      (raise c n t).lu.queue.getLast? = some ⟨c, BitVec.ofNat 16 n, t.clock.station⟩)

/-- SUBMIT PARTY (R145, R150): the first case that applies gives the answer; with result 0 the party joins
the end of the queue at the position answered, or, with a wanted grace pending, no head-lock in the queue and
a fit, is matched at once with position 0. A station without a sheet judges the size by 25
(the model's choice, log entry 19). -/
def Obligations.PartiesAreSubmitted : Prop :=
  ∀ (s : State) (num size need : Byte) (tag : Half), s.serves →
    ∃ t, exec (.submitParty num tag size need) s = .next t ∧
      let sh := s.sl.sheet
      let limit := fun n : Need => match n with
        | .any => max sh.capStandard sh.capStepFree
        | .stepFree => sh.capStepFree
        | .priv => sh.capPrivate
      let refused := fun code : Nat => t.rp.holds 9 num code [] ∧ t.bu = s.bu
      let barred := s.sl.start = .sheetFault ∨ s.sl.start = .listenOnly
      let stopped := s.hu.effect = .empty ∨ s.hu.effect = .halt ∨ s.hu.effect = .stop
      let held := ∃ p ∈ s.bu.queue ++ s.bu.window.matched, p.tag = tag
      (s.role ≠ .entry → refused 1) ∧
      (s.role = .entry →
        ((tag = 0 ∨ size = 0 ∨ needOf need.toNat = none) → refused 3) ∧
        (∀ n, needOf need.toNat = some n → s.joined = true → limit n < size.toNat → refused 3) ∧
        (∀ n, needOf need.toNat = some n → s.joined = true → size.toNat ≤ limit n → tag ≠ 0 → size ≠ 0 →
          (barred → refused 13) ∧
          (¬ barred → stopped → refused 8) ∧
          (¬ barred → ¬ stopped → held → refused 5) ∧
          (¬ barred → ¬ stopped → ¬ held → 16 ≤ s.bu.placesTaken → refused 4) ∧
          (¬ barred → ¬ stopped → ¬ held → s.bu.placesTaken < 16 →
            let p := Party.mk tag size.toNat n 0 false
            let offered := s.bu.window.grace = true ∧ (∀ x ∈ s.bu.queue, x.locked = false) ∧
              ∃ c, s.bu.window.cabin.bind s.cabin? = some c ∧ needFits n c.cls = true ∧
                size.toNat ≤ c.capacity
            (¬ offered → t.rp.holds 9 num 0 [byteOf (s.bu.queue.length + 1)] ∧
              t.bu = { s.bu with queue := s.bu.queue ++ [p] }) ∧
            (offered → t.rp.holds 9 num 0 [0] ∧ t.bu.queue = s.bu.queue ∧
              t.bu.window.matched = s.bu.window.matched ++ [p] ∧ t.bu.window.grace = false ∧
              (n = .stepFree → t.bu.creep = true)))) ∧
        (∀ n, needOf need.toNat = some n → s.sl.start = .sheetFault → tag ≠ 0 → size ≠ 0 →
          size.toNat ≤ 25 → refused 13))

/-- WITHDRAW PARTY (R146): the first case that applies gives the answer; a queued party is removed, those
behind it moving up, and PARTY_WITHDRAWN is raised with its tag; a matched one stays matched. -/
def Obligations.PartiesAreWithdrawn : Prop :=
  ∀ (s : State) (num : Byte) (tag : Half), s.serves → ∃ t, exec (.withdrawParty num tag) s = .next t ∧
    let barred := s.sl.start = .sheetFault ∨ s.sl.start = .listenOnly
    let refused := fun code : Nat => t.rp.holds 10 num code [] ∧ t.bu = s.bu ∧ t.lu = s.lu
    (s.role ≠ .entry → refused 1) ∧
    (s.role = .entry → tag = 0 → refused 3) ∧
    (s.role = .entry → tag ≠ 0 → barred → refused 13) ∧
    (s.role = .entry → tag ≠ 0 → ¬ barred →
      ((∃ p ∈ s.bu.queue, p.tag = tag) → t.rp.holds 10 num 0 [] ∧
        t.bu = { s.bu with queue := s.bu.queue.filter (fun p => p.tag != tag) } ∧
        (s.suppressed .partyWithdrawn = false →
          t.lu = s.lu.place ⟨.partyWithdrawn, tag, s.clock.station⟩)) ∧
      ((∀ p ∈ s.bu.queue, p.tag ≠ tag) → (∃ p ∈ s.bu.window.matched, p.tag = tag) → refused 7) ∧
      ((∀ p ∈ s.bu.queue, p.tag ≠ tag) → (∀ p ∈ s.bu.window.matched, p.tag ≠ tag) → refused 6))

/-- REPORT COUNT and CLOSE DOORS (R152, R153, R170): the first case that applies gives the answer; a count
replaces the window's, is answered with its residue in two bytes (DESIGN CHOICE, log entry 16), and above the
capacity declares BAY HALT OVERLOAD; an OPEN window closes as at CLOSE_MARK. -/
def Obligations.HostWorksTheBay : Prop :=
  ∀ (s : State) (num riders : Byte), s.serves →
    ∃ t u, exec (.reportCount num riders) s = .next t ∧ exec (.closeDoors num) s = .next u ∧
      let w := s.bu.window
      let open_ := w.state = .opened ∨ w.state = .closing
      let bay := s.role = .entry ∨ s.role = .exit
      let no := fun code : Nat => t.rp.holds 11 num code [] ∧ t.bu = s.bu
      let shut := fun code : Nat => u.rp.holds 12 num code [] ∧ u.bu = s.bu
      (s.role ≠ .entry → no 1) ∧
      (s.role = .entry →
        (s.sl.start = .sheetFault ∨ s.sl.start = .listenOnly → no 13) ∧
        (s.sl.start ≠ .sheetFault → s.sl.start ≠ .listenOnly →
          (¬ open_ → no 11) ∧
          (open_ → t.rp.holds 11 num 0 (be16 (BitVec.ofInt 16 ((sizeSum w.matched : Int) - riders.toNat))) ∧
            t.bu.window = { w with count := some riders.toNat } ∧
            (∀ c, w.cabin.bind s.cabin? = some c → c.capacity < riders.toNat → s.hu.own? .bay = none →
              ∃ o, t.hu.own? .bay = some o ∧ o.effect = .halt ∧ o.cause = .overload) ∧
            ((∀ c, w.cabin.bind s.cabin? = some c → riders.toNat ≤ c.capacity) → t.hu = s.hu)))) ∧
      (¬ bay → shut 1) ∧
      (bay →
        (s.sl.start = .sheetFault → shut 13) ∧
        (s.sl.start ≠ .sheetFault → ¬ open_ → shut 11) ∧
        (s.sl.start ≠ .sheetFault → w.state = .closing → shut 0) ∧
        (s.sl.start ≠ .sheetFault → w.state = .opened → u.rp.holds 12 num 0 [] ∧
          u.bu.window.state = .closing ∧ u.bu.boardLamp = false ∧
          (s.pins.gateClear = true → u.bu.doorRelease = false ∧ u.bu.gateOpen = false ∧
            u.bu.doorClose = true ∧ u.bu.doorsOpen = false) ∧
          (s.pins.gateClear = false → u.bu.closeDeferred = true)))

/-- DECLARE HOLD (R87): the first case that applies gives the answer; the station's own BAY or DESK hold is
declared with cause HOST, a milder one than the standing own hold leaving that as it is (R78), and a HOLD is handed
over where the hold is new or more severe than it stood (R78). At
a role code that no strap table names the hold is judged as a bay's (log entry 18). -/
def Obligations.HostDeclaresHolds : Prop :=
  ∀ (s : State) (num effect cause : Byte), s.serves →
    ∃ t, exec (.declareHold num effect cause) s = .next t ∧
      let k : HoldKind := if s.role = .desk then .desk else .bay
      let no := fun code : Nat => t.rp.holds 13 num code [] ∧ t.hu = s.hu
      let allowed := ∃ e, effectOf effect.toNat = some e ∧ causeOf cause.toNat = some .host ∧
        holdAllowed k .host e = true
      (s.role = .drive ∨ s.role = .mast → no 1) ∧
      (s.role ≠ .drive → s.role ≠ .mast →
        (¬ allowed → no 3) ∧
        (allowed → s.sl.start = .sheetFault ∨ s.sl.start = .listenOnly → no 13) ∧
        (s.sl.start ≠ .sheetFault → s.sl.start ≠ .listenOnly → ∀ e, effectOf effect.toNat = some e →
          causeOf cause.toNat = some .host → holdAllowed k .host e = true →
          t.rp.holds 13 num 0 [] ∧ (∀ j, j ≠ k → t.hu.own? j = s.hu.own? j) ∧
          (let sent := fun declaredAt => (handOver (.hold ⟨byteOf (holdKindCode k), byteOf (effectCode e),
              byteOf (causeCode .host), declaredAt⟩) false s).lc
           t.lc = match s.hu.own? k with
              | none => sent s.clock.station
              | some o => if effectCode o.effect < effectCode e then sent o.declaredAt else s.lc) ∧
          (s.hu.own? k = none →
            t.hu.own? k = some ⟨k, e, .host, s.clock.station, s.clock.now⟩) ∧
          (∀ o, s.hu.own? k = some o → effectCode o.effect ≤ effectCode e →
            ∃ q, t.hu.own? k = some q ∧ q.effect = e ∧ q.cause = .host ∧
              q.declaredAt = o.declaredAt) ∧
          (∀ o, s.hu.own? k = some o → effectCode e < effectCode o.effect →
            t.hu.own? k = some o)))

/-- RELEASE HOLD (R88): the first case that applies gives the answer; a bay releases its own BAY hold and a desk an
own one: the list entry ends, the record leaves the set and a RELEASE of reason OWN is handed over (R80), nothing
being sent where no list entry stands; a drive or mast clears the BUTTON latch alone; a desk releases its own hold,
or another station's with a RELEASE of reason DESK_OVERRIDE, but not a STORM hold while the storm stands. -/
def Obligations.HostReleasesHolds : Prop :=
  ∀ (s : State) (num kind declarer : Byte), s.serves →
    ∃ t, exec (.releaseHold num kind declarer) s = .next t ∧
      let d := declarer.toNat
      let no := fun code : Nat => t.rp.holds 14 num code [] ∧ t.hu = s.hu
      let barred := s.sl.start = .sheetFault ∨ s.sl.start = .listenOnly
      (holdKindOf kind.toNat = none ∨ 23 < d → no 3) ∧
      (∀ k, holdKindOf kind.toNat = some k → d ≤ 23 →
        let mine := fun x : HoldKind => k = x ∧ d = s.sl.station
        let wrong := ((s.role = .entry ∨ s.role = .exit) ∧ ¬ mine .bay) ∨
          ((s.role = .drive ∨ s.role = .mast) ∧ ¬ mine .link)
        let known := (s.hu.find? k d).isSome = true ∨
          (d = s.sl.station ∧ (s.hu.own? k).isSome = true)
        let storm := s.role = .desk ∧ k = .storm ∧ d ≠ s.sl.station ∧ s.wv.stormStanding = true
        (wrong → no 1) ∧
        (¬ wrong → barred → no 13) ∧
        (¬ wrong → ¬ barred → ¬ known → no 9) ∧
        (¬ wrong → ¬ barred → known → storm → no 10) ∧
        (¬ wrong → ¬ barred → known → ¬ storm → t.rp.holds 14 num 0 [] ∧
          (s.role = .entry ∨ s.role = .exit ∨ (s.role = .desk ∧ d = s.sl.station) →
            ((s.hu.own? k).isSome = true → t.hu.find? k d = none ∧
              t.lc = (handOver (.release ⟨byteOf (holdKindCode k), declarer, 0⟩) false s).lc) ∧
            (s.hu.own? k = none → t.lc = s.lc)) ∧
          (s.role = .entry ∨ s.role = .exit → t.hu.own? k = none ∧
            (∀ j, j ≠ k → t.hu.own? j = s.hu.own? j)) ∧
          (s.role = .drive ∨ s.role = .mast → t.hu.cond = { s.hu.cond with button := false }) ∧
          (s.role = .desk → d = s.sl.station → t.hu.own? k = none ∧
            (k = .link → t.hu.cond.button = false ∧
              t.hu.overridden = { s.hu.cond with button := false } ∧ t.hu.dwellFrom = none)) ∧
          (s.role = .desk → d ≠ s.sl.station →
            t.hu.find? k d = none ∧ t.hu.own = s.hu.own ∧
            t.lc = (handOver (.release ⟨byteOf (holdKindCode k), declarer, 1⟩) false s).lc)))

/-- ORDER RIDE and SET SERVICE (R104, R136): the first case that applies gives the answer; the desk order
takes the mode, and the desk service set the cabin's mark, with the next serial, and the telegram is handed
over at once. A station without a sheet judges the cabin by 64 (the model's choice, log entry 19). -/
def Obligations.DeskOrdersAndService : Prop :=
  ∀ (s : State) (num mode cabin state : Byte), s.serves →
    ∃ t u, exec (.orderRide num mode) s = .next t ∧ exec (.setService num cabin state) s = .next u ∧
      let barred := s.sl.start = .sheetFault ∨ s.sl.start = .listenOnly
      let no := fun code : Nat => t.rp.holds 15 num code [] ∧ t.mu = s.mu ∧ t.lc = s.lc
      let not_ := fun code : Nat => u.rp.holds 16 num code [] ∧ u.ct = s.ct ∧ u.lc = s.lc
      (s.role ≠ .desk → no 1 ∧ not_ 1) ∧
      (s.role = .desk →
        (modeOf mode.toNat = none → no 3) ∧
        (∀ m, modeOf mode.toNat = some m →
          let early := m ≠ .halt ∧
            (s.hu.effect = .halt ∨ s.hu.effect = .stop ∨ s.sl.settled = false)
          (barred → no 13) ∧ (¬ barred → early → no 12) ∧
          (¬ barred → ¬ early → t.rp.holds 15 num 0 [] ∧
            t.mu = { s.mu with
              deskMode := m
              deskSerial := s.mu.deskSerial + 1
              orderAt := s.clock.now } ∧
            t.lc = (handOver (.order ⟨byteOf (modeCode m), s.mu.deskSerial + 1⟩) false s).lc)) ∧
        (s.joined = true →
          (cabin = 0 ∨ s.sl.sheet.n < cabin.toNat ∨ 1 < state.toNat → not_ 3) ∧
          (cabin ≠ 0 → cabin.toNat ≤ s.sl.sheet.n → state.toNat ≤ 1 →
            (barred → not_ 13) ∧
            (¬ barred → u.rp.holds 16 num 0 [] ∧ u.ct.deskSerial = s.ct.deskSerial + 1 ∧
              u.ct.serviceAt = s.clock.now ∧ u.ct.cabins = s.ct.cabins ∧
              (∀ i, i < 64 → u.ct.deskMarks.getLsbD i =
                if i + 1 = cabin.toNat then state == 1 else s.ct.deskMarks.getLsbD i) ∧
              u.lc = (handOver (.service ⟨marksUpTo s.sl.sheet.n u.ct.deskMarks, s.ct.deskSerial + 1⟩)
                false s).lc))) ∧
        (s.sl.start = .sheetFault → cabin ≠ 0 → cabin.toNat ≤ 64 → state.toNat ≤ 1 → not_ 13))

/-! ### The log unit -/

/-- Raising an event (R184, R185): an event that the mask suppresses leaves the log unit; else it joins the
end of the queue, in a queue of 32 removing the oldest, setting the overrun flag and raising the lost count,
which saturates at 255. The queue never holds more than 32. -/
def Obligations.FullQueueLosesTheOldest : Prop :=
  ∀ (s : State) (c : EventCode) (n : Nat), s.lu.Wf →
    let e := EventEntry.mk c (BitVec.ofNat 16 n) s.clock.station
    let t := raise c n s
    t.lu.queue.length ≤ 32 ∧
    (s.suppressed c = true → t = s) ∧
    (s.suppressed c = false → s.lu.queue.length < 32 →
      t = { s with lu := { s.lu with queue := s.lu.queue ++ [e] } }) ∧
    (s.suppressed c = false → s.lu.queue.length = 32 →
      t = { s with lu := { s.lu with
        queue := s.lu.queue.tail ++ [e]
        overrun := true
        lost := min 255 (s.lu.lost + 1) } }) ∧
    (c = .holdOn ∨ c = .holdOff ∨ c = .holdOrphaned ∨ c = .effectChange ∨ c = .dupStation ∨
      c = .brakeFault → s.suppressed c = false)

/-- The log ring (R179, R182): an entry is written whole at the write position, every other position stays, and the
position advances by one, from 255 to 0; at the advance to 128 LOG_HALF is raised with parameter 128, at the
advance to 0 LOG_WRAP with parameter 0, after the entry stands; at no other advance is anything raised. A summary
is cut to 8 bytes (DESIGN CHOICE, log entry 15). The start entry of a restart counts alike toward the crossing, its
notice standing after RESTARTED (log entry 23). A telegram is written where the log filter marks the pair of its
sender's roster role and its kind (R180), a local action where the local-action mask does not mark its block, SL
having no mark (R181); before JOINING and in SHEET_FAULT both are always written. The summary of a SERVICE counts
every mark that it carries (the model's choice, log entry 44). A telegram that is accepted is written once, after
its owner has taken it, as ACCEPTED or IGNORED (R37, R180). -/
def Obligations.LogRaisesHalfAndWrap : Prop :=
  (∀ (s : State) (source : Nat) (k : LogKind) (o : LogOutcome) (summary : List Byte), s.lu.Wf →
    let t := writeEntry source k o summary s
    let w := s.lu.writePos
    let e := LogEntry.mk w s.clock.station source k o (summary.take 8)
    let u := { s with lu := { s.lu with ring := s.lu.ring.set w (some e), writePos := (w + 1) % 256 } }
    t.lu.ring.length = 256 ∧ t.lu.ring[w]? = some (some e) ∧
    (∀ i, i ≠ w → t.lu.ring[i]? = s.lu.ring[i]?) ∧ t.lu.writePos = (w + 1) % 256 ∧
    (w = 127 → t = raise .logHalf 128 u) ∧ (w = 255 → t = raise .logWrap 0 u) ∧
    (w ≠ 127 → w ≠ 255 → t = u) ∧
    (∀ num lines, s.sl.resetHeld = false → ∃ v, exec (.restart num lines) s = .next v ∧
      v.lu.writePos = (w + 1) % 256 ∧
      v.lu.queue.map EventEntry.code = .restarted :: (if w = 127 then [.logHalf] else
        if w = 255 then [.logWrap] else []))) ∧
  (∀ (s : State) (r : Role) (t : Telegram) (o : LogOutcome),
    let k := payloadKind t.payload
    let marked := s.sl.sheet.logFilter.getLsbD (10 * roleIndex r + kindCode k) = true
    let summary := t.seq :: (match t.payload with
      | .hold p => [p.kind, p.effect, p.cause]
      | .release p => [p.kind, p.declarer, p.reason]
      | .motion p => p.state :: be16 p.reference ++ be16 p.measured ++ [p.flags]
      | .passage p => [p.serial, p.cabin, p.result, p.riders]
      | .bay p => [p.kind, p.doors, p.queueLen, p.sumSerial, p.sumCabin]
      | .wind p => p.level :: be16 p.v ++ [p.sector]
      | .order p => [p.mode, p.serial]
      | .service p => [p.serial, byteOf (((List.range 64).filter (fun i => p.marks.getLsbD i)).length)]
      | .presence p => [p.role, p.start, p.flags] ++ be16 p.digest
      | .mark p => be32 p.time)
    (s.joined = true → ¬ marked → logTelegram r t o s = s) ∧
    (s.joined = false ∨ marked →
      logTelegram r t o s = writeEntry t.sender.toNat (.telegram k) o summary s)) ∧
  (∀ (s : State) (k : LogKind) (action : Nat) (details : List Byte),
    let places := [LogKind.lc, .pv, .wmu, .wv, .hu, .mu, .ct, .bu]
    let written := writeEntry s.sl.station k .localAction (byteOf action :: details) s
    (∀ i, places[i]? = some k →
      (s.joined = true → s.sl.sheet.localMask.getLsbD i = true → logLocal k action details s = s) ∧
      (s.joined = false ∨ s.sl.sheet.localMask.getLsbD i = false → logLocal k action details s = written)) ∧
    (k = .sl → logLocal k action details s = written)) ∧
  (∀ (s : State) (t : Telegram), s.takes t → ∃ (z : State) (o : LogOutcome),
    exec (arrival t) s = .next (logTelegram (s.sl.sheet.roleAt t.sender.toNat) t o z) ∧ z.sl = s.sl ∧
    (o = .accepted ∨ o = .ignored))

/-- The EVT line (R187): asserted while the queue holds an entry and released while it is empty; so from the
placing of an event, and after every reset, until the take that empties it; STATUS reports the number of
entries. -/
def Obligations.EvtFollowsTheQueue : Prop :=
  ∀ (s : State) (num : Byte) (lines : StrapLines),
    (s.lu.evt = true ↔ s.lu.queue ≠ []) ∧
    (∀ c n, s.suppressed c = false → (raise c n s).lu.evt = true) ∧
    (∀ t, exec (.powerOn lines) s = .next t → t.lu.evt = true) ∧
    (s.sl.resetHeld = false → (∀ t, exec (.restart num lines) s = .next t → t.lu.evt = true) ∧
      ∀ t, exec .resetAsserted s = .next t → t.lu.evt = true) ∧
    (s.serves →
      (∀ t, exec (.takeEvent num) s = .next t → (t.lu.evt = true ↔ 2 ≤ s.lu.queue.length)) ∧
      ∀ t, exec (.status num) s = .next t →
        ∃ a, t.rp.slot = some a ∧ a.data[8]? = some (byteOf s.lu.queue.length))

/-! ### Frames, invariants and the wire form -/

/-- The frame of every command: it leaves every block that Safety.lean does not list for it as it is. -/
def Obligations.EveryCommandSparesTheRest : Prop :=
 ∀ c : Instr, Spares c

/-- Each block's form is kept by every step: the bounds of the log, the event queue, the transmit queue, the
hold set, the party queue, the gust rings and the answer slot, the effective effect that of the set, FAULT
exactly with a cause, and the counts that go with the records. -/
def Obligations.StepKeepsEveryBlock : Prop :=
  ∀ s t : State, step s = .next t →
    (s.lu.Wf → t.lu.Wf) ∧ (s.lc.Wf → t.lc.Wf) ∧ (s.pv.Wf → t.pv.Wf) ∧ (s.hu.Wf → t.hu.Wf) ∧
    (s.mu.Wf → t.mu.Wf) ∧ (s.ct.Wf → t.ct.Wf) ∧ (s.bu.Wf → t.bu.Wf) ∧ (s.rp.Wf → t.rp.Wf) ∧
    (s.wmu.Wf → t.wmu.Wf)

/-- Every step keeps a part that RESET holds at its reset values (log entry 10), the fused level that of the
wind table, the cabin table and its cursors those of the sheet, and the mast level one of CALM to STORM. -/
def Obligations.StepKeepsTheTables : Prop :=
  ∀ s t : State, step s = .next t → s.HeldIsReset →
    t.HeldIsReset ∧ (s.WindFused → t.WindFused) ∧ (s.CabinsKnown → t.CabinsKnown) ∧
    (windCode s.wmu.level ≤ 4 → windCode t.wmu.level ≤ 4)

/-- Right after reset every block has its form, the tables are those of the sheet and the mast level is
CALM. -/
def Obligations.ResetHasEveryForm : Prop :=
  let s := State.reset
  s.lu.Wf ∧ s.lc.Wf ∧ s.pv.Wf ∧ s.hu.Wf ∧ s.mu.Wf ∧ s.ct.Wf ∧ s.bu.Wf ∧ s.rp.Wf ∧ s.wmu.Wf ∧
    s.HeldIsReset ∧ s.WindFused ∧ s.CabinsKnown ∧ s.wmu.level = .calm

/-- A telegram that is not malformed is read back from its bytes on the line, every field at every value. -/
def Obligations.TelegramsAreReadBack : Prop :=
  ∀ t : Telegram, telegramOk t = true → telegramOf (telegramBytes t) = some t
end

