-- ==== Sys2Proof/Laws/State.lean ====
section
/-! SUPPORT. What one block update leaves of every block: all true by rfl, so no later proof unfolds a
record update of State. -/

namespace Sys2Proof.Machine

@[simp] theorem onClock_blocks (f : Clock → Clock) (s : State) :
    (s.onClock f).clock = f s.clock ∧ (s.onClock f).pins = s.pins ∧ (s.onClock f).lu = s.lu ∧
    (s.onClock f).lc = s.lc ∧ (s.onClock f).pv = s.pv ∧ (s.onClock f).wmu = s.wmu ∧
    (s.onClock f).wv = s.wv ∧ (s.onClock f).hu = s.hu ∧ (s.onClock f).mu = s.mu ∧
    (s.onClock f).ct = s.ct ∧ (s.onClock f).bu = s.bu ∧ (s.onClock f).rp = s.rp ∧
    (s.onClock f).sl = s.sl ∧ (s.onClock f).pending = s.pending :=
  ⟨rfl, rfl, rfl, rfl, rfl, rfl, rfl, rfl, rfl, rfl, rfl, rfl, rfl, rfl⟩

@[simp] theorem onPins_blocks (f : Pins → Pins) (s : State) :
    (s.onPins f).clock = s.clock ∧ (s.onPins f).pins = f s.pins ∧ (s.onPins f).lu = s.lu ∧
    (s.onPins f).lc = s.lc ∧ (s.onPins f).pv = s.pv ∧ (s.onPins f).wmu = s.wmu ∧
    (s.onPins f).wv = s.wv ∧ (s.onPins f).hu = s.hu ∧ (s.onPins f).mu = s.mu ∧
    (s.onPins f).ct = s.ct ∧ (s.onPins f).bu = s.bu ∧ (s.onPins f).rp = s.rp ∧
    (s.onPins f).sl = s.sl ∧ (s.onPins f).pending = s.pending :=
  ⟨rfl, rfl, rfl, rfl, rfl, rfl, rfl, rfl, rfl, rfl, rfl, rfl, rfl, rfl⟩

@[simp] theorem onLu_blocks (f : LogUnit → LogUnit) (s : State) :
    (s.onLu f).clock = s.clock ∧ (s.onLu f).pins = s.pins ∧ (s.onLu f).lu = f s.lu ∧
    (s.onLu f).lc = s.lc ∧ (s.onLu f).pv = s.pv ∧ (s.onLu f).wmu = s.wmu ∧ (s.onLu f).wv = s.wv ∧
    (s.onLu f).hu = s.hu ∧ (s.onLu f).mu = s.mu ∧ (s.onLu f).ct = s.ct ∧ (s.onLu f).bu = s.bu ∧
    (s.onLu f).rp = s.rp ∧ (s.onLu f).sl = s.sl ∧ (s.onLu f).pending = s.pending :=
  ⟨rfl, rfl, rfl, rfl, rfl, rfl, rfl, rfl, rfl, rfl, rfl, rfl, rfl, rfl⟩

@[simp] theorem onLc_blocks (f : Link → Link) (s : State) :
    (s.onLc f).clock = s.clock ∧ (s.onLc f).pins = s.pins ∧ (s.onLc f).lu = s.lu ∧
    (s.onLc f).lc = f s.lc ∧ (s.onLc f).pv = s.pv ∧ (s.onLc f).wmu = s.wmu ∧ (s.onLc f).wv = s.wv ∧
    (s.onLc f).hu = s.hu ∧ (s.onLc f).mu = s.mu ∧ (s.onLc f).ct = s.ct ∧ (s.onLc f).bu = s.bu ∧
    (s.onLc f).rp = s.rp ∧ (s.onLc f).sl = s.sl ∧ (s.onLc f).pending = s.pending :=
  ⟨rfl, rfl, rfl, rfl, rfl, rfl, rfl, rfl, rfl, rfl, rfl, rfl, rfl, rfl⟩

@[simp] theorem onPv_blocks (f : PeerView → PeerView) (s : State) :
    (s.onPv f).clock = s.clock ∧ (s.onPv f).pins = s.pins ∧ (s.onPv f).lu = s.lu ∧
    (s.onPv f).lc = s.lc ∧ (s.onPv f).pv = f s.pv ∧ (s.onPv f).wmu = s.wmu ∧ (s.onPv f).wv = s.wv ∧
    (s.onPv f).hu = s.hu ∧ (s.onPv f).mu = s.mu ∧ (s.onPv f).ct = s.ct ∧ (s.onPv f).bu = s.bu ∧
    (s.onPv f).rp = s.rp ∧ (s.onPv f).sl = s.sl ∧ (s.onPv f).pending = s.pending :=
  ⟨rfl, rfl, rfl, rfl, rfl, rfl, rfl, rfl, rfl, rfl, rfl, rfl, rfl, rfl⟩

@[simp] theorem onWmu_blocks (f : Wmu → Wmu) (s : State) :
    (s.onWmu f).clock = s.clock ∧ (s.onWmu f).pins = s.pins ∧ (s.onWmu f).lu = s.lu ∧
    (s.onWmu f).lc = s.lc ∧ (s.onWmu f).pv = s.pv ∧ (s.onWmu f).wmu = f s.wmu ∧
    (s.onWmu f).wv = s.wv ∧ (s.onWmu f).hu = s.hu ∧ (s.onWmu f).mu = s.mu ∧ (s.onWmu f).ct = s.ct ∧
    (s.onWmu f).bu = s.bu ∧ (s.onWmu f).rp = s.rp ∧ (s.onWmu f).sl = s.sl ∧
    (s.onWmu f).pending = s.pending :=
  ⟨rfl, rfl, rfl, rfl, rfl, rfl, rfl, rfl, rfl, rfl, rfl, rfl, rfl, rfl⟩

@[simp] theorem onWv_blocks (f : WindView → WindView) (s : State) :
    (s.onWv f).clock = s.clock ∧ (s.onWv f).pins = s.pins ∧ (s.onWv f).lu = s.lu ∧
    (s.onWv f).lc = s.lc ∧ (s.onWv f).pv = s.pv ∧ (s.onWv f).wmu = s.wmu ∧ (s.onWv f).wv = f s.wv ∧
    (s.onWv f).hu = s.hu ∧ (s.onWv f).mu = s.mu ∧ (s.onWv f).ct = s.ct ∧ (s.onWv f).bu = s.bu ∧
    (s.onWv f).rp = s.rp ∧ (s.onWv f).sl = s.sl ∧ (s.onWv f).pending = s.pending :=
  ⟨rfl, rfl, rfl, rfl, rfl, rfl, rfl, rfl, rfl, rfl, rfl, rfl, rfl, rfl⟩

@[simp] theorem onHu_blocks (f : HoldUnit → HoldUnit) (s : State) :
    (s.onHu f).clock = s.clock ∧ (s.onHu f).pins = s.pins ∧ (s.onHu f).lu = s.lu ∧
    (s.onHu f).lc = s.lc ∧ (s.onHu f).pv = s.pv ∧ (s.onHu f).wmu = s.wmu ∧ (s.onHu f).wv = s.wv ∧
    (s.onHu f).hu = f s.hu ∧ (s.onHu f).mu = s.mu ∧ (s.onHu f).ct = s.ct ∧ (s.onHu f).bu = s.bu ∧
    (s.onHu f).rp = s.rp ∧ (s.onHu f).sl = s.sl ∧ (s.onHu f).pending = s.pending :=
  ⟨rfl, rfl, rfl, rfl, rfl, rfl, rfl, rfl, rfl, rfl, rfl, rfl, rfl, rfl⟩

@[simp] theorem onMu_blocks (f : MotionUnit → MotionUnit) (s : State) :
    (s.onMu f).clock = s.clock ∧ (s.onMu f).pins = s.pins ∧ (s.onMu f).lu = s.lu ∧
    (s.onMu f).lc = s.lc ∧ (s.onMu f).pv = s.pv ∧ (s.onMu f).wmu = s.wmu ∧ (s.onMu f).wv = s.wv ∧
    (s.onMu f).hu = s.hu ∧ (s.onMu f).mu = f s.mu ∧ (s.onMu f).ct = s.ct ∧ (s.onMu f).bu = s.bu ∧
    (s.onMu f).rp = s.rp ∧ (s.onMu f).sl = s.sl ∧ (s.onMu f).pending = s.pending :=
  ⟨rfl, rfl, rfl, rfl, rfl, rfl, rfl, rfl, rfl, rfl, rfl, rfl, rfl, rfl⟩

@[simp] theorem onCt_blocks (f : CabinTable → CabinTable) (s : State) :
    (s.onCt f).clock = s.clock ∧ (s.onCt f).pins = s.pins ∧ (s.onCt f).lu = s.lu ∧
    (s.onCt f).lc = s.lc ∧ (s.onCt f).pv = s.pv ∧ (s.onCt f).wmu = s.wmu ∧ (s.onCt f).wv = s.wv ∧
    (s.onCt f).hu = s.hu ∧ (s.onCt f).mu = s.mu ∧ (s.onCt f).ct = f s.ct ∧ (s.onCt f).bu = s.bu ∧
    (s.onCt f).rp = s.rp ∧ (s.onCt f).sl = s.sl ∧ (s.onCt f).pending = s.pending :=
  ⟨rfl, rfl, rfl, rfl, rfl, rfl, rfl, rfl, rfl, rfl, rfl, rfl, rfl, rfl⟩

@[simp] theorem onBu_blocks (f : BayUnit → BayUnit) (s : State) :
    (s.onBu f).clock = s.clock ∧ (s.onBu f).pins = s.pins ∧ (s.onBu f).lu = s.lu ∧
    (s.onBu f).lc = s.lc ∧ (s.onBu f).pv = s.pv ∧ (s.onBu f).wmu = s.wmu ∧ (s.onBu f).wv = s.wv ∧
    (s.onBu f).hu = s.hu ∧ (s.onBu f).mu = s.mu ∧ (s.onBu f).ct = s.ct ∧ (s.onBu f).bu = f s.bu ∧
    (s.onBu f).rp = s.rp ∧ (s.onBu f).sl = s.sl ∧ (s.onBu f).pending = s.pending :=
  ⟨rfl, rfl, rfl, rfl, rfl, rfl, rfl, rfl, rfl, rfl, rfl, rfl, rfl, rfl⟩

@[simp] theorem onRp_blocks (f : Port → Port) (s : State) :
    (s.onRp f).clock = s.clock ∧ (s.onRp f).pins = s.pins ∧ (s.onRp f).lu = s.lu ∧
    (s.onRp f).lc = s.lc ∧ (s.onRp f).pv = s.pv ∧ (s.onRp f).wmu = s.wmu ∧ (s.onRp f).wv = s.wv ∧
    (s.onRp f).hu = s.hu ∧ (s.onRp f).mu = s.mu ∧ (s.onRp f).ct = s.ct ∧ (s.onRp f).bu = s.bu ∧
    (s.onRp f).rp = f s.rp ∧ (s.onRp f).sl = s.sl ∧ (s.onRp f).pending = s.pending :=
  ⟨rfl, rfl, rfl, rfl, rfl, rfl, rfl, rfl, rfl, rfl, rfl, rfl, rfl, rfl⟩

@[simp] theorem onSl_blocks (f : Loader → Loader) (s : State) :
    (s.onSl f).clock = s.clock ∧ (s.onSl f).pins = s.pins ∧ (s.onSl f).lu = s.lu ∧
    (s.onSl f).lc = s.lc ∧ (s.onSl f).pv = s.pv ∧ (s.onSl f).wmu = s.wmu ∧ (s.onSl f).wv = s.wv ∧
    (s.onSl f).hu = s.hu ∧ (s.onSl f).mu = s.mu ∧ (s.onSl f).ct = s.ct ∧ (s.onSl f).bu = s.bu ∧
    (s.onSl f).rp = s.rp ∧ (s.onSl f).sl = f s.sl ∧ (s.onSl f).pending = s.pending :=
  ⟨rfl, rfl, rfl, rfl, rfl, rfl, rfl, rfl, rfl, rfl, rfl, rfl, rfl, rfl⟩

@[simp] theorem onPending_blocks (f : List Instr → List Instr) (s : State) :
    (s.onPending f).clock = s.clock ∧ (s.onPending f).pins = s.pins ∧ (s.onPending f).lu = s.lu ∧
    (s.onPending f).lc = s.lc ∧ (s.onPending f).pv = s.pv ∧ (s.onPending f).wmu = s.wmu ∧
    (s.onPending f).wv = s.wv ∧ (s.onPending f).hu = s.hu ∧ (s.onPending f).mu = s.mu ∧
    (s.onPending f).ct = s.ct ∧ (s.onPending f).bu = s.bu ∧ (s.onPending f).rp = s.rp ∧
    (s.onPending f).sl = s.sl ∧ (s.onPending f).pending = f s.pending :=
  ⟨rfl, rfl, rfl, rfl, rfl, rfl, rfl, rfl, rfl, rfl, rfl, rfl, rfl, rfl⟩

/-! A block of a choice of states. -/

@[simp] theorem ite_clock (c : Prop) [Decidable c] (a b : State) :
    (if c then a else b).clock = if c then a.clock else b.clock := apply_ite State.clock c a b

@[simp] theorem ite_pins (c : Prop) [Decidable c] (a b : State) :
    (if c then a else b).pins = if c then a.pins else b.pins := apply_ite State.pins c a b

@[simp] theorem ite_lu (c : Prop) [Decidable c] (a b : State) :
    (if c then a else b).lu = if c then a.lu else b.lu := apply_ite State.lu c a b

@[simp] theorem ite_lc (c : Prop) [Decidable c] (a b : State) :
    (if c then a else b).lc = if c then a.lc else b.lc := apply_ite State.lc c a b

@[simp] theorem ite_pv (c : Prop) [Decidable c] (a b : State) :
    (if c then a else b).pv = if c then a.pv else b.pv := apply_ite State.pv c a b

@[simp] theorem ite_wmu (c : Prop) [Decidable c] (a b : State) :
    (if c then a else b).wmu = if c then a.wmu else b.wmu := apply_ite State.wmu c a b

@[simp] theorem ite_wv (c : Prop) [Decidable c] (a b : State) :
    (if c then a else b).wv = if c then a.wv else b.wv := apply_ite State.wv c a b

@[simp] theorem ite_hu (c : Prop) [Decidable c] (a b : State) :
    (if c then a else b).hu = if c then a.hu else b.hu := apply_ite State.hu c a b

@[simp] theorem ite_mu (c : Prop) [Decidable c] (a b : State) :
    (if c then a else b).mu = if c then a.mu else b.mu := apply_ite State.mu c a b

@[simp] theorem ite_ct (c : Prop) [Decidable c] (a b : State) :
    (if c then a else b).ct = if c then a.ct else b.ct := apply_ite State.ct c a b

@[simp] theorem ite_bu (c : Prop) [Decidable c] (a b : State) :
    (if c then a else b).bu = if c then a.bu else b.bu := apply_ite State.bu c a b

@[simp] theorem ite_rp (c : Prop) [Decidable c] (a b : State) :
    (if c then a else b).rp = if c then a.rp else b.rp := apply_ite State.rp c a b

@[simp] theorem ite_sl (c : Prop) [Decidable c] (a b : State) :
    (if c then a else b).sl = if c then a.sl else b.sl := apply_ite State.sl c a b

@[simp] theorem ite_pending (c : Prop) [Decidable c] (a b : State) :
    (if c then a else b).pending = if c then a.pending else b.pending := apply_ite State.pending c a b

end Sys2Proof.Machine
end

