-- ==== Sys2Proof/Laws/Frame.lean ====
section
/-! SUPPORT. Frames: for every operation, the blocks of State that it leaves as they were. -/

namespace Sys2Proof.Machine

/-- A fold over states keeps what each of its steps keeps. -/
theorem foldl_keeps {α β : Type} (p : State → β) {f : State → α → State} (h : ∀ s a, p (f s a) = p s)
    (l : List α) (s : State) : p (l.foldl f s) = p s := by
  induction l generalizing s with
  | nil => rfl
  | cons a l ih => rw [List.foldl_cons, ih, h]

@[simp] theorem setPeer_spares (n : Nat) (p : Peer) (s : State) :
    (s.setPeer n p).clock = s.clock ∧ (s.setPeer n p).pins = s.pins ∧ (s.setPeer n p).lu = s.lu ∧
    (s.setPeer n p).lc = s.lc ∧ (s.setPeer n p).wmu = s.wmu ∧ (s.setPeer n p).wv = s.wv ∧
    (s.setPeer n p).hu = s.hu ∧ (s.setPeer n p).mu = s.mu ∧ (s.setPeer n p).ct = s.ct ∧
    (s.setPeer n p).bu = s.bu ∧ (s.setPeer n p).rp = s.rp ∧ (s.setPeer n p).sl = s.sl ∧
    (s.setPeer n p).pending = s.pending := by
  unfold State.setPeer
  (repeat' split) <;> simp

@[simp] theorem onPeer_spares (n : Nat) (f : Peer → Peer) (s : State) :
    (s.onPeer n f).clock = s.clock ∧ (s.onPeer n f).pins = s.pins ∧ (s.onPeer n f).lu = s.lu ∧
    (s.onPeer n f).lc = s.lc ∧ (s.onPeer n f).wmu = s.wmu ∧ (s.onPeer n f).wv = s.wv ∧
    (s.onPeer n f).hu = s.hu ∧ (s.onPeer n f).mu = s.mu ∧ (s.onPeer n f).ct = s.ct ∧
    (s.onPeer n f).bu = s.bu ∧ (s.onPeer n f).rp = s.rp ∧ (s.onPeer n f).sl = s.sl ∧
    (s.onPeer n f).pending = s.pending := by
  unfold State.onPeer
  (repeat' split) <;> simp

@[simp] theorem raise_spares (c : EventCode) (p : Nat) (s : State) :
    (raise c p s).clock = s.clock ∧ (raise c p s).pins = s.pins ∧ (raise c p s).lc = s.lc ∧
    (raise c p s).pv = s.pv ∧ (raise c p s).wmu = s.wmu ∧ (raise c p s).wv = s.wv ∧
    (raise c p s).hu = s.hu ∧ (raise c p s).mu = s.mu ∧ (raise c p s).ct = s.ct ∧
    (raise c p s).bu = s.bu ∧ (raise c p s).rp = s.rp ∧ (raise c p s).sl = s.sl ∧
    (raise c p s).pending = s.pending := by
  unfold raise
  (repeat' split) <;> simp

@[simp] theorem writeEntry_spares (n : Nat) (k : LogKind) (o : LogOutcome) (b : List Byte) (s : State) :
    (writeEntry n k o b s).clock = s.clock ∧ (writeEntry n k o b s).pins = s.pins ∧
    (writeEntry n k o b s).lc = s.lc ∧ (writeEntry n k o b s).pv = s.pv ∧
    (writeEntry n k o b s).wmu = s.wmu ∧ (writeEntry n k o b s).wv = s.wv ∧
    (writeEntry n k o b s).hu = s.hu ∧ (writeEntry n k o b s).mu = s.mu ∧
    (writeEntry n k o b s).ct = s.ct ∧ (writeEntry n k o b s).bu = s.bu ∧
    (writeEntry n k o b s).rp = s.rp ∧ (writeEntry n k o b s).sl = s.sl ∧
    (writeEntry n k o b s).pending = s.pending := by
  unfold writeEntry
  (repeat' split) <;> simp

@[simp] theorem logLocal_spares (k : LogKind) (a : Nat) (b : List Byte) (s : State) :
    (logLocal k a b s).clock = s.clock ∧ (logLocal k a b s).pins = s.pins ∧
    (logLocal k a b s).lc = s.lc ∧ (logLocal k a b s).pv = s.pv ∧ (logLocal k a b s).wmu = s.wmu ∧
    (logLocal k a b s).wv = s.wv ∧ (logLocal k a b s).hu = s.hu ∧ (logLocal k a b s).mu = s.mu ∧
    (logLocal k a b s).ct = s.ct ∧ (logLocal k a b s).bu = s.bu ∧ (logLocal k a b s).rp = s.rp ∧
    (logLocal k a b s).sl = s.sl ∧ (logLocal k a b s).pending = s.pending := by
  unfold logLocal
  (repeat' split) <;> simp

@[simp] theorem logTelegram_spares (r : Role) (t : Telegram) (o : LogOutcome) (s : State) :
    (logTelegram r t o s).clock = s.clock ∧ (logTelegram r t o s).pins = s.pins ∧
    (logTelegram r t o s).lc = s.lc ∧ (logTelegram r t o s).pv = s.pv ∧
    (logTelegram r t o s).wmu = s.wmu ∧ (logTelegram r t o s).wv = s.wv ∧
    (logTelegram r t o s).hu = s.hu ∧ (logTelegram r t o s).mu = s.mu ∧
    (logTelegram r t o s).ct = s.ct ∧ (logTelegram r t o s).bu = s.bu ∧
    (logTelegram r t o s).rp = s.rp ∧ (logTelegram r t o s).sl = s.sl ∧
    (logTelegram r t o s).pending = s.pending := by
  unfold logTelegram
  (repeat' split) <;> simp

@[simp] theorem overflow_spares (a : Nat) (p : Payload) (s : State) :
    (overflow a p s).clock = s.clock ∧ (overflow a p s).pins = s.pins ∧
    (overflow a p s).lc = s.lc ∧ (overflow a p s).pv = s.pv ∧ (overflow a p s).wmu = s.wmu ∧
    (overflow a p s).wv = s.wv ∧ (overflow a p s).hu = s.hu ∧ (overflow a p s).mu = s.mu ∧
    (overflow a p s).ct = s.ct ∧ (overflow a p s).bu = s.bu ∧ (overflow a p s).rp = s.rp ∧
    (overflow a p s).sl = s.sl ∧ (overflow a p s).pending = s.pending := by
  unfold overflow
  (repeat' split) <;> simp

@[simp] theorem addTelegram_spares (p : Payload) (r : Bool) (s : State) :
    (addTelegram p r s).clock = s.clock ∧ (addTelegram p r s).pins = s.pins ∧
    (addTelegram p r s).pv = s.pv ∧ (addTelegram p r s).wmu = s.wmu ∧
    (addTelegram p r s).wv = s.wv ∧ (addTelegram p r s).hu = s.hu ∧ (addTelegram p r s).mu = s.mu ∧
    (addTelegram p r s).ct = s.ct ∧ (addTelegram p r s).bu = s.bu ∧ (addTelegram p r s).rp = s.rp ∧
    (addTelegram p r s).sl = s.sl ∧ (addTelegram p r s).pending = s.pending := by
  unfold addTelegram
  (repeat' split) <;> simp

@[simp] theorem handOver_spares (p : Payload) (r : Bool) (s : State) :
    (handOver p r s).clock = s.clock ∧ (handOver p r s).pins = s.pins ∧
    (handOver p r s).pv = s.pv ∧ (handOver p r s).wmu = s.wmu ∧ (handOver p r s).wv = s.wv ∧
    (handOver p r s).hu = s.hu ∧ (handOver p r s).mu = s.mu ∧ (handOver p r s).ct = s.ct ∧
    (handOver p r s).bu = s.bu ∧ (handOver p r s).rp = s.rp ∧ (handOver p r s).sl = s.sl ∧
    (handOver p r s).pending = s.pending := by
  unfold handOver
  dsimp only
  (repeat' split) <;> simp [apply_ite Prod.fst]

@[simp] theorem refreshLamp_spares (s : State) :
    (refreshLamp s).clock = s.clock ∧ (refreshLamp s).pins = s.pins ∧ (refreshLamp s).lu = s.lu ∧
    (refreshLamp s).lc = s.lc ∧ (refreshLamp s).pv = s.pv ∧ (refreshLamp s).wmu = s.wmu ∧
    (refreshLamp s).wv = s.wv ∧ (refreshLamp s).hu = s.hu ∧ (refreshLamp s).mu = s.mu ∧
    (refreshLamp s).ct = s.ct ∧ (refreshLamp s).rp = s.rp ∧ (refreshLamp s).sl = s.sl ∧
    (refreshLamp s).pending = s.pending := by
  unfold refreshLamp
  (repeat' split) <;> simp

@[simp] theorem logBay_spares (a : Nat) (b : List Byte) (s : State) :
    (logBay a b s).clock = s.clock ∧ (logBay a b s).pins = s.pins ∧ (logBay a b s).lc = s.lc ∧
    (logBay a b s).pv = s.pv ∧ (logBay a b s).wmu = s.wmu ∧ (logBay a b s).wv = s.wv ∧
    (logBay a b s).hu = s.hu ∧ (logBay a b s).mu = s.mu ∧ (logBay a b s).ct = s.ct ∧
    (logBay a b s).bu = s.bu ∧ (logBay a b s).rp = s.rp ∧ (logBay a b s).sl = s.sl ∧
    (logBay a b s).pending = s.pending := by
  unfold logBay
  (repeat' split) <;> simp

@[simp] theorem returnParties_spares (s : State) :
    (returnParties s).clock = s.clock ∧ (returnParties s).pins = s.pins ∧
    (returnParties s).lc = s.lc ∧ (returnParties s).pv = s.pv ∧ (returnParties s).wmu = s.wmu ∧
    (returnParties s).wv = s.wv ∧ (returnParties s).hu = s.hu ∧ (returnParties s).mu = s.mu ∧
    (returnParties s).ct = s.ct ∧ (returnParties s).rp = s.rp ∧ (returnParties s).sl = s.sl ∧
    (returnParties s).pending = s.pending := by
  unfold returnParties
  (repeat' split) <;> simp

@[simp] theorem closeInWindow_spares (s : State) :
    (closeInWindow s).clock = s.clock ∧ (closeInWindow s).pins = s.pins ∧
    (closeInWindow s).lc = s.lc ∧ (closeInWindow s).pv = s.pv ∧ (closeInWindow s).wmu = s.wmu ∧
    (closeInWindow s).wv = s.wv ∧ (closeInWindow s).hu = s.hu ∧ (closeInWindow s).mu = s.mu ∧
    (closeInWindow s).ct = s.ct ∧ (closeInWindow s).rp = s.rp ∧ (closeInWindow s).sl = s.sl ∧
    (closeInWindow s).pending = s.pending := by
  unfold closeInWindow
  (repeat' split) <;> simp

@[simp] theorem formBoarding_spares (s : State) :
    (formBoarding s).clock = s.clock ∧ (formBoarding s).pins = s.pins ∧
    (formBoarding s).lc = s.lc ∧ (formBoarding s).pv = s.pv ∧ (formBoarding s).wmu = s.wmu ∧
    (formBoarding s).wv = s.wv ∧ (formBoarding s).hu = s.hu ∧ (formBoarding s).mu = s.mu ∧
    (formBoarding s).ct = s.ct ∧ (formBoarding s).rp = s.rp ∧ (formBoarding s).sl = s.sl ∧
    (formBoarding s).pending = s.pending := by
  unfold formBoarding
  (repeat' split) <;> simp

@[simp] theorem cancelParties_spares (ps : List Party) (s : State) :
    (cancelParties ps s).clock = s.clock ∧ (cancelParties ps s).pins = s.pins ∧
    (cancelParties ps s).lc = s.lc ∧ (cancelParties ps s).pv = s.pv ∧
    (cancelParties ps s).wmu = s.wmu ∧ (cancelParties ps s).wv = s.wv ∧
    (cancelParties ps s).hu = s.hu ∧ (cancelParties ps s).mu = s.mu ∧
    (cancelParties ps s).ct = s.ct ∧ (cancelParties ps s).bu = s.bu ∧
    (cancelParties ps s).rp = s.rp ∧ (cancelParties ps s).sl = s.sl ∧
    (cancelParties ps s).pending = s.pending := by
  induction ps generalizing s with
  | nil => simp [cancelParties]
  | cons p ps ih => simp [cancelParties, ih]

@[simp] theorem flushQueue_spares (s : State) :
    (flushQueue s).clock = s.clock ∧ (flushQueue s).pins = s.pins ∧ (flushQueue s).lc = s.lc ∧
    (flushQueue s).pv = s.pv ∧ (flushQueue s).wmu = s.wmu ∧ (flushQueue s).wv = s.wv ∧
    (flushQueue s).hu = s.hu ∧ (flushQueue s).mu = s.mu ∧ (flushQueue s).ct = s.ct ∧
    (flushQueue s).rp = s.rp ∧ (flushQueue s).sl = s.sl ∧ (flushQueue s).pending = s.pending := by
  unfold flushQueue
  (repeat' split) <;> simp

@[simp] theorem latchHalt_spares (c : Nat) (s : State) :
    (latchHalt c s).clock = s.clock ∧ (latchHalt c s).pins = s.pins ∧ (latchHalt c s).lc = s.lc ∧
    (latchHalt c s).pv = s.pv ∧ (latchHalt c s).wmu = s.wmu ∧ (latchHalt c s).wv = s.wv ∧
    (latchHalt c s).hu = s.hu ∧ (latchHalt c s).ct = s.ct ∧ (latchHalt c s).rp = s.rp ∧
    (latchHalt c s).sl = s.sl ∧ (latchHalt c s).pending = s.pending := by
  unfold latchHalt
  (repeat' split) <;> simp

@[simp] theorem endWatch_spares (n : Nat) (ns : List Nat) (s : State) :
    (endWatch n ns s).clock = s.clock ∧ (endWatch n ns s).pins = s.pins ∧
    (endWatch n ns s).lc = s.lc ∧ (endWatch n ns s).pv = s.pv ∧ (endWatch n ns s).wmu = s.wmu ∧
    (endWatch n ns s).wv = s.wv ∧ (endWatch n ns s).mu = s.mu ∧ (endWatch n ns s).ct = s.ct ∧
    (endWatch n ns s).bu = s.bu ∧ (endWatch n ns s).rp = s.rp ∧ (endWatch n ns s).sl = s.sl ∧
    (endWatch n ns s).pending = s.pending := by
  unfold endWatch
  (repeat' split) <;> simp

@[simp] theorem startWatch_spares (s : State) :
    (startWatch s).clock = s.clock ∧ (startWatch s).pins = s.pins ∧ (startWatch s).lc = s.lc ∧
    (startWatch s).pv = s.pv ∧ (startWatch s).wmu = s.wmu ∧ (startWatch s).wv = s.wv ∧
    (startWatch s).mu = s.mu ∧ (startWatch s).ct = s.ct ∧ (startWatch s).bu = s.bu ∧
    (startWatch s).rp = s.rp ∧ (startWatch s).sl = s.sl ∧ (startWatch s).pending = s.pending := by
  unfold startWatch
  (repeat' split) <;> simp

@[simp] theorem completeEmptyDown_spares (t : Bool) (s : State) :
    (completeEmptyDown t s).clock = s.clock ∧ (completeEmptyDown t s).pins = s.pins ∧
    (completeEmptyDown t s).lc = s.lc ∧ (completeEmptyDown t s).pv = s.pv ∧
    (completeEmptyDown t s).wmu = s.wmu ∧ (completeEmptyDown t s).wv = s.wv ∧
    (completeEmptyDown t s).ct = s.ct ∧ (completeEmptyDown t s).rp = s.rp ∧
    (completeEmptyDown t s).sl = s.sl ∧ (completeEmptyDown t s).pending = s.pending := by
  unfold completeEmptyDown
  (repeat' split) <;> simp

@[simp] theorem testEmptyDown_spares (s : State) :
    (testEmptyDown s).clock = s.clock ∧ (testEmptyDown s).pins = s.pins ∧
    (testEmptyDown s).lc = s.lc ∧ (testEmptyDown s).pv = s.pv ∧ (testEmptyDown s).wmu = s.wmu ∧
    (testEmptyDown s).wv = s.wv ∧ (testEmptyDown s).ct = s.ct ∧ (testEmptyDown s).rp = s.rp ∧
    (testEmptyDown s).sl = s.sl ∧ (testEmptyDown s).pending = s.pending := by
  unfold testEmptyDown
  (repeat' split) <;> simp

@[simp] theorem emptyDownOnEffect_spares (a b : Effect) (s : State) :
    (emptyDownOnEffect a b s).clock = s.clock ∧ (emptyDownOnEffect a b s).pins = s.pins ∧
    (emptyDownOnEffect a b s).lc = s.lc ∧ (emptyDownOnEffect a b s).pv = s.pv ∧
    (emptyDownOnEffect a b s).wmu = s.wmu ∧ (emptyDownOnEffect a b s).wv = s.wv ∧
    (emptyDownOnEffect a b s).ct = s.ct ∧ (emptyDownOnEffect a b s).rp = s.rp ∧
    (emptyDownOnEffect a b s).sl = s.sl ∧ (emptyDownOnEffect a b s).pending = s.pending := by
  unfold emptyDownOnEffect
  (repeat' split) <;> simp

@[simp] theorem handOnEffect_spares (a b : Effect) (s : State) :
    (handOnEffect a b s).clock = s.clock ∧ (handOnEffect a b s).pins = s.pins ∧
    (handOnEffect a b s).lc = s.lc ∧ (handOnEffect a b s).pv = s.pv ∧
    (handOnEffect a b s).wmu = s.wmu ∧ (handOnEffect a b s).wv = s.wv ∧
    (handOnEffect a b s).ct = s.ct ∧ (handOnEffect a b s).rp = s.rp ∧
    (handOnEffect a b s).sl = s.sl ∧ (handOnEffect a b s).pending = s.pending := by
  unfold handOnEffect
  (repeat' split) <;> simp

@[simp] theorem formEffect_spares (s : State) :
    (formEffect s).clock = s.clock ∧ (formEffect s).pins = s.pins ∧ (formEffect s).lc = s.lc ∧
    (formEffect s).pv = s.pv ∧ (formEffect s).wmu = s.wmu ∧ (formEffect s).wv = s.wv ∧
    (formEffect s).ct = s.ct ∧ (formEffect s).rp = s.rp ∧ (formEffect s).sl = s.sl ∧
    (formEffect s).pending = s.pending := by
  unfold formEffect
  (repeat' split) <;> simp

@[simp] theorem refreshHoldLamp_spares (s : State) :
    (refreshHoldLamp s).clock = s.clock ∧ (refreshHoldLamp s).pins = s.pins ∧
    (refreshHoldLamp s).lu = s.lu ∧ (refreshHoldLamp s).lc = s.lc ∧ (refreshHoldLamp s).pv = s.pv ∧
    (refreshHoldLamp s).wmu = s.wmu ∧ (refreshHoldLamp s).wv = s.wv ∧
    (refreshHoldLamp s).mu = s.mu ∧ (refreshHoldLamp s).ct = s.ct ∧ (refreshHoldLamp s).bu = s.bu ∧
    (refreshHoldLamp s).rp = s.rp ∧ (refreshHoldLamp s).sl = s.sl ∧
    (refreshHoldLamp s).pending = s.pending := by
  unfold refreshHoldLamp
  (repeat' split) <;> simp

@[simp] theorem afterRecords_spares (s : State) :
    (afterRecords s).clock = s.clock ∧ (afterRecords s).pins = s.pins ∧
    (afterRecords s).lc = s.lc ∧ (afterRecords s).pv = s.pv ∧ (afterRecords s).wmu = s.wmu ∧
    (afterRecords s).wv = s.wv ∧ (afterRecords s).ct = s.ct ∧ (afterRecords s).rp = s.rp ∧
    (afterRecords s).sl = s.sl ∧ (afterRecords s).pending = s.pending := by
  unfold afterRecords
  (repeat' split) <;> simp

@[simp] theorem refreshMismatch_spares (s : State) :
    (refreshMismatch s).clock = s.clock ∧ (refreshMismatch s).pins = s.pins ∧
    (refreshMismatch s).lu = s.lu ∧ (refreshMismatch s).lc = s.lc ∧ (refreshMismatch s).pv = s.pv ∧
    (refreshMismatch s).wmu = s.wmu ∧ (refreshMismatch s).wv = s.wv ∧
    (refreshMismatch s).hu = s.hu ∧ (refreshMismatch s).ct = s.ct ∧ (refreshMismatch s).bu = s.bu ∧
    (refreshMismatch s).rp = s.rp ∧ (refreshMismatch s).sl = s.sl ∧
    (refreshMismatch s).pending = s.pending := by
  unfold refreshMismatch
  (repeat' split) <;> simp

@[simp] theorem setMotion_spares (m : MotionState) (s : State) :
    (setMotion m s).clock = s.clock ∧ (setMotion m s).pins = s.pins ∧ (setMotion m s).lc = s.lc ∧
    (setMotion m s).pv = s.pv ∧ (setMotion m s).wmu = s.wmu ∧ (setMotion m s).wv = s.wv ∧
    (setMotion m s).hu = s.hu ∧ (setMotion m s).ct = s.ct ∧ (setMotion m s).bu = s.bu ∧
    (setMotion m s).rp = s.rp ∧ (setMotion m s).sl = s.sl ∧ (setMotion m s).pending = s.pending := by
  unfold setMotion
  (repeat' split) <;> simp

@[simp] theorem goFault_spares (s : State) :
    (goFault s).clock = s.clock ∧ (goFault s).pins = s.pins ∧ (goFault s).lc = s.lc ∧
    (goFault s).pv = s.pv ∧ (goFault s).wmu = s.wmu ∧ (goFault s).wv = s.wv ∧
    (goFault s).hu = s.hu ∧ (goFault s).ct = s.ct ∧ (goFault s).bu = s.bu ∧ (goFault s).rp = s.rp ∧
    (goFault s).sl = s.sl ∧ (goFault s).pending = s.pending := by
  unfold goFault
  (repeat' split) <;> simp

@[simp] theorem dragStop_spares (s : State) :
    (dragStop s).clock = s.clock ∧ (dragStop s).pins = s.pins ∧ (dragStop s).lc = s.lc ∧
    (dragStop s).pv = s.pv ∧ (dragStop s).wmu = s.wmu ∧ (dragStop s).wv = s.wv ∧
    (dragStop s).hu = s.hu ∧ (dragStop s).ct = s.ct ∧ (dragStop s).bu = s.bu ∧
    (dragStop s).rp = s.rp ∧ (dragStop s).sl = s.sl ∧ (dragStop s).pending = s.pending := by
  unfold dragStop
  (repeat' split) <;> simp

@[simp] theorem listenFault_spares (s : State) :
    (listenFault s).clock = s.clock ∧ (listenFault s).pins = s.pins ∧ (listenFault s).lc = s.lc ∧
    (listenFault s).pv = s.pv ∧ (listenFault s).wmu = s.wmu ∧ (listenFault s).wv = s.wv ∧
    (listenFault s).hu = s.hu ∧ (listenFault s).ct = s.ct ∧ (listenFault s).bu = s.bu ∧
    (listenFault s).rp = s.rp ∧ (listenFault s).sl = s.sl ∧ (listenFault s).pending = s.pending := by
  unfold listenFault
  (repeat' split) <;> simp

@[simp] theorem enterInverter_spares (n : Nat) (s : State) :
    (enterInverter n s).clock = s.clock ∧ (enterInverter n s).pins = s.pins ∧
    (enterInverter n s).lc = s.lc ∧ (enterInverter n s).pv = s.pv ∧
    (enterInverter n s).wmu = s.wmu ∧ (enterInverter n s).wv = s.wv ∧
    (enterInverter n s).hu = s.hu ∧ (enterInverter n s).ct = s.ct ∧ (enterInverter n s).bu = s.bu ∧
    (enterInverter n s).rp = s.rp ∧ (enterInverter n s).sl = s.sl ∧
    (enterInverter n s).pending = s.pending := by
  unfold enterInverter
  (repeat' split) <;> simp

@[simp] theorem clearInverter_spares (s : State) :
    (clearInverter s).clock = s.clock ∧ (clearInverter s).pins = s.pins ∧
    (clearInverter s).lc = s.lc ∧ (clearInverter s).pv = s.pv ∧ (clearInverter s).wmu = s.wmu ∧
    (clearInverter s).wv = s.wv ∧ (clearInverter s).hu = s.hu ∧ (clearInverter s).ct = s.ct ∧
    (clearInverter s).bu = s.bu ∧ (clearInverter s).rp = s.rp ∧ (clearInverter s).sl = s.sl ∧
    (clearInverter s).pending = s.pending := by
  unfold clearInverter
  (repeat' split) <;> simp

@[simp] theorem inverterStage_spares (j : Judgement) (s : State) :
    (inverterStage j s).clock = s.clock ∧ (inverterStage j s).pins = s.pins ∧
    (inverterStage j s).lc = s.lc ∧ (inverterStage j s).pv = s.pv ∧
    (inverterStage j s).wmu = s.wmu ∧ (inverterStage j s).wv = s.wv ∧
    (inverterStage j s).hu = s.hu ∧ (inverterStage j s).ct = s.ct ∧ (inverterStage j s).bu = s.bu ∧
    (inverterStage j s).rp = s.rp ∧ (inverterStage j s).sl = s.sl ∧
    (inverterStage j s).pending = s.pending := by
  unfold inverterStage
  (repeat' split) <;> simp

@[simp] theorem rampStage_spares (s : State) :
    (rampStage s).clock = s.clock ∧ (rampStage s).pins = s.pins ∧ (rampStage s).lc = s.lc ∧
    (rampStage s).pv = s.pv ∧ (rampStage s).wmu = s.wmu ∧ (rampStage s).wv = s.wv ∧
    (rampStage s).hu = s.hu ∧ (rampStage s).ct = s.ct ∧ (rampStage s).bu = s.bu ∧
    (rampStage s).rp = s.rp ∧ (rampStage s).sl = s.sl ∧ (rampStage s).pending = s.pending := by
  unfold rampStage
  (repeat' split) <;> simp

@[simp] theorem loadStage_spares (s : State) :
    (loadStage s).clock = s.clock ∧ (loadStage s).pins = s.pins ∧ (loadStage s).lu = s.lu ∧
    (loadStage s).lc = s.lc ∧ (loadStage s).pv = s.pv ∧ (loadStage s).wmu = s.wmu ∧
    (loadStage s).wv = s.wv ∧ (loadStage s).hu = s.hu ∧ (loadStage s).ct = s.ct ∧
    (loadStage s).bu = s.bu ∧ (loadStage s).rp = s.rp ∧ (loadStage s).sl = s.sl ∧
    (loadStage s).pending = s.pending := by
  unfold loadStage
  (repeat' split) <;> simp

@[simp] theorem reportStage_spares (s : State) :
    (reportStage s).clock = s.clock ∧ (reportStage s).pins = s.pins ∧ (reportStage s).pv = s.pv ∧
    (reportStage s).wmu = s.wmu ∧ (reportStage s).wv = s.wv ∧ (reportStage s).hu = s.hu ∧
    (reportStage s).ct = s.ct ∧ (reportStage s).bu = s.bu ∧ (reportStage s).rp = s.rp ∧
    (reportStage s).sl = s.sl ∧ (reportStage s).pending = s.pending := by
  unfold reportStage
  (repeat' split) <;> simp

@[simp] theorem motionUpdate_spares (s : State) :
    (motionUpdate s).clock = s.clock ∧ (motionUpdate s).pins = s.pins ∧
    (motionUpdate s).pv = s.pv ∧ (motionUpdate s).wmu = s.wmu ∧ (motionUpdate s).wv = s.wv ∧
    (motionUpdate s).hu = s.hu ∧ (motionUpdate s).ct = s.ct ∧ (motionUpdate s).bu = s.bu ∧
    (motionUpdate s).rp = s.rp ∧ (motionUpdate s).sl = s.sl ∧
    (motionUpdate s).pending = s.pending := by
  unfold motionUpdate
  (repeat' split) <;> simp

@[simp] theorem brakeFaultNow_spares (s : State) :
    (brakeFaultNow s).clock = s.clock ∧ (brakeFaultNow s).pins = s.pins ∧
    (brakeFaultNow s).lc = s.lc ∧ (brakeFaultNow s).pv = s.pv ∧ (brakeFaultNow s).wmu = s.wmu ∧
    (brakeFaultNow s).wv = s.wv ∧ (brakeFaultNow s).hu = s.hu ∧ (brakeFaultNow s).ct = s.ct ∧
    (brakeFaultNow s).bu = s.bu ∧ (brakeFaultNow s).rp = s.rp ∧ (brakeFaultNow s).sl = s.sl ∧
    (brakeFaultNow s).pending = s.pending := by
  unfold brakeFaultNow
  (repeat' split) <;> simp

@[simp] theorem handOrder_spares (s : State) :
    (handOrder s).clock = s.clock ∧ (handOrder s).pins = s.pins ∧ (handOrder s).pv = s.pv ∧
    (handOrder s).wmu = s.wmu ∧ (handOrder s).wv = s.wv ∧ (handOrder s).hu = s.hu ∧
    (handOrder s).ct = s.ct ∧ (handOrder s).bu = s.bu ∧ (handOrder s).rp = s.rp ∧
    (handOrder s).sl = s.sl ∧ (handOrder s).pending = s.pending := by
  unfold handOrder
  (repeat' split) <;> simp

@[simp] theorem takeOrder_spares (n : Nat) (p : OrderPayload) (s : State) :
    (takeOrder n p s).1.clock = s.clock ∧ (takeOrder n p s).1.pins = s.pins ∧
    (takeOrder n p s).1.lc = s.lc ∧ (takeOrder n p s).1.pv = s.pv ∧
    (takeOrder n p s).1.wmu = s.wmu ∧ (takeOrder n p s).1.wv = s.wv ∧
    (takeOrder n p s).1.hu = s.hu ∧ (takeOrder n p s).1.ct = s.ct ∧ (takeOrder n p s).1.rp = s.rp ∧
    (takeOrder n p s).1.sl = s.sl ∧ (takeOrder n p s).1.pending = s.pending := by
  unfold takeOrder
  dsimp only
  (repeat' split) <;> simp [apply_ite Prod.fst]

@[simp] theorem removeRecord_spares (k : HoldKind) (d : Nat) (s : State) :
    (removeRecord k d s).clock = s.clock ∧ (removeRecord k d s).pins = s.pins ∧
    (removeRecord k d s).lc = s.lc ∧ (removeRecord k d s).pv = s.pv ∧
    (removeRecord k d s).wmu = s.wmu ∧ (removeRecord k d s).wv = s.wv ∧
    (removeRecord k d s).ct = s.ct ∧ (removeRecord k d s).rp = s.rp ∧
    (removeRecord k d s).sl = s.sl ∧ (removeRecord k d s).pending = s.pending := by
  unfold removeRecord
  (repeat' split) <;> simp

@[simp] theorem insertRecord_spares (r : HoldRec) (s : State) :
    (insertRecord r s).clock = s.clock ∧ (insertRecord r s).pins = s.pins ∧
    (insertRecord r s).lc = s.lc ∧ (insertRecord r s).pv = s.pv ∧ (insertRecord r s).wmu = s.wmu ∧
    (insertRecord r s).wv = s.wv ∧ (insertRecord r s).ct = s.ct ∧ (insertRecord r s).rp = s.rp ∧
    (insertRecord r s).sl = s.sl ∧ (insertRecord r s).pending = s.pending := by
  unfold insertRecord
  (repeat' split) <;> simp

@[simp] theorem updateRecord_spares (k : HoldKind) (d : Nat) (f : HoldRec → HoldRec) (s : State) :
    (updateRecord k d f s).clock = s.clock ∧ (updateRecord k d f s).pins = s.pins ∧
    (updateRecord k d f s).lc = s.lc ∧ (updateRecord k d f s).pv = s.pv ∧
    (updateRecord k d f s).wmu = s.wmu ∧ (updateRecord k d f s).wv = s.wv ∧
    (updateRecord k d f s).ct = s.ct ∧ (updateRecord k d f s).rp = s.rp ∧
    (updateRecord k d f s).sl = s.sl ∧ (updateRecord k d f s).pending = s.pending := by
  unfold updateRecord
  (repeat' split) <;> simp

@[simp] theorem admitHold_spares (r : HoldRec) (s : State) :
    (admitHold r s).clock = s.clock ∧ (admitHold r s).pins = s.pins ∧ (admitHold r s).lc = s.lc ∧
    (admitHold r s).pv = s.pv ∧ (admitHold r s).wmu = s.wmu ∧ (admitHold r s).wv = s.wv ∧
    (admitHold r s).ct = s.ct ∧ (admitHold r s).rp = s.rp ∧ (admitHold r s).sl = s.sl ∧
    (admitHold r s).pending = s.pending := by
  unfold admitHold
  (repeat' split) <;> simp

@[simp] theorem sendOwn_spares (k : HoldKind) (r : Bool) (s : State) :
    (sendOwn k r s).clock = s.clock ∧ (sendOwn k r s).pins = s.pins ∧ (sendOwn k r s).pv = s.pv ∧
    (sendOwn k r s).wmu = s.wmu ∧ (sendOwn k r s).wv = s.wv ∧ (sendOwn k r s).mu = s.mu ∧
    (sendOwn k r s).ct = s.ct ∧ (sendOwn k r s).bu = s.bu ∧ (sendOwn k r s).rp = s.rp ∧
    (sendOwn k r s).sl = s.sl ∧ (sendOwn k r s).pending = s.pending := by
  unfold sendOwn
  (repeat' split) <;> simp

@[simp] theorem placeOwn_spares (k : HoldKind) (s : State) :
    (placeOwn k s).clock = s.clock ∧ (placeOwn k s).pins = s.pins ∧ (placeOwn k s).lc = s.lc ∧
    (placeOwn k s).pv = s.pv ∧ (placeOwn k s).wmu = s.wmu ∧ (placeOwn k s).wv = s.wv ∧
    (placeOwn k s).ct = s.ct ∧ (placeOwn k s).rp = s.rp ∧ (placeOwn k s).sl = s.sl ∧
    (placeOwn k s).pending = s.pending := by
  unfold placeOwn
  (repeat' split) <;> simp

@[simp] theorem newOwn_spares (k : HoldKind) (e : Effect) (c : Cause) (s : State) :
    (newOwn k e c s).clock = s.clock ∧ (newOwn k e c s).pins = s.pins ∧
    (newOwn k e c s).lc = s.lc ∧ (newOwn k e c s).pv = s.pv ∧ (newOwn k e c s).wmu = s.wmu ∧
    (newOwn k e c s).wv = s.wv ∧ (newOwn k e c s).mu = s.mu ∧ (newOwn k e c s).ct = s.ct ∧
    (newOwn k e c s).bu = s.bu ∧ (newOwn k e c s).rp = s.rp ∧ (newOwn k e c s).sl = s.sl ∧
    (newOwn k e c s).pending = s.pending := by
  unfold newOwn
  (repeat' split) <;> simp

@[simp] theorem changeOwn_spares (k : HoldKind) (e : Effect) (c : Cause) (s : State) :
    (changeOwn k e c s).clock = s.clock ∧ (changeOwn k e c s).pins = s.pins ∧
    (changeOwn k e c s).lc = s.lc ∧ (changeOwn k e c s).pv = s.pv ∧
    (changeOwn k e c s).wmu = s.wmu ∧ (changeOwn k e c s).wv = s.wv ∧
    (changeOwn k e c s).mu = s.mu ∧ (changeOwn k e c s).ct = s.ct ∧ (changeOwn k e c s).bu = s.bu ∧
    (changeOwn k e c s).rp = s.rp ∧ (changeOwn k e c s).sl = s.sl ∧
    (changeOwn k e c s).pending = s.pending := by
  unfold changeOwn
  (repeat' split) <;> simp

@[simp] theorem declareHold_spares (k : HoldKind) (e : Effect) (c : Cause) (s : State) :
    (declareHold k e c s).clock = s.clock ∧ (declareHold k e c s).pins = s.pins ∧
    (declareHold k e c s).pv = s.pv ∧ (declareHold k e c s).wmu = s.wmu ∧
    (declareHold k e c s).wv = s.wv ∧ (declareHold k e c s).ct = s.ct ∧
    (declareHold k e c s).rp = s.rp ∧ (declareHold k e c s).sl = s.sl ∧
    (declareHold k e c s).pending = s.pending := by
  unfold declareHold
  (repeat' split) <;> simp

@[simp] theorem releaseOwn_spares (k : HoldKind) (s : State) :
    (releaseOwn k s).clock = s.clock ∧ (releaseOwn k s).pins = s.pins ∧
    (releaseOwn k s).pv = s.pv ∧ (releaseOwn k s).wmu = s.wmu ∧ (releaseOwn k s).wv = s.wv ∧
    (releaseOwn k s).ct = s.ct ∧ (releaseOwn k s).rp = s.rp ∧ (releaseOwn k s).sl = s.sl ∧
    (releaseOwn k s).pending = s.pending := by
  unfold releaseOwn
  (repeat' split) <;> simp

@[simp] theorem declareLink_spares (e : Effect) (c : Cause) (s : State) :
    (declareLink e c s).clock = s.clock ∧ (declareLink e c s).pins = s.pins ∧
    (declareLink e c s).pv = s.pv ∧ (declareLink e c s).wmu = s.wmu ∧
    (declareLink e c s).wv = s.wv ∧ (declareLink e c s).ct = s.ct ∧ (declareLink e c s).rp = s.rp ∧
    (declareLink e c s).sl = s.sl ∧ (declareLink e c s).pending = s.pending := by
  unfold declareLink
  (repeat' split) <;> simp

@[simp] theorem linkAct_spares (s : State) :
    (linkAct s).clock = s.clock ∧ (linkAct s).pins = s.pins ∧ (linkAct s).pv = s.pv ∧
    (linkAct s).wmu = s.wmu ∧ (linkAct s).wv = s.wv ∧ (linkAct s).ct = s.ct ∧
    (linkAct s).rp = s.rp ∧ (linkAct s).sl = s.sl ∧ (linkAct s).pending = s.pending := by
  unfold linkAct
  (repeat' split) <;> simp

@[simp] theorem setCond_spares (c : LinkCond) (v : Bool) (s : State) :
    (setCond c v s).clock = s.clock ∧ (setCond c v s).pins = s.pins ∧ (setCond c v s).pv = s.pv ∧
    (setCond c v s).wmu = s.wmu ∧ (setCond c v s).wv = s.wv ∧ (setCond c v s).ct = s.ct ∧
    (setCond c v s).rp = s.rp ∧ (setCond c v s).sl = s.sl ∧ (setCond c v s).pending = s.pending := by
  unfold setCond
  (repeat' split) <;> simp

@[simp] theorem recheckDrives_spares (s : State) :
    (recheckDrives s).clock = s.clock ∧ (recheckDrives s).pins = s.pins ∧
    (recheckDrives s).pv = s.pv ∧ (recheckDrives s).wmu = s.wmu ∧ (recheckDrives s).wv = s.wv ∧
    (recheckDrives s).ct = s.ct ∧ (recheckDrives s).rp = s.rp ∧ (recheckDrives s).sl = s.sl ∧
    (recheckDrives s).pending = s.pending := by
  unfold recheckDrives
  (repeat' split) <;> simp

@[simp] theorem recheckBays_spares (s : State) :
    (recheckBays s).clock = s.clock ∧ (recheckBays s).pins = s.pins ∧ (recheckBays s).pv = s.pv ∧
    (recheckBays s).wmu = s.wmu ∧ (recheckBays s).wv = s.wv ∧ (recheckBays s).ct = s.ct ∧
    (recheckBays s).rp = s.rp ∧ (recheckBays s).sl = s.sl ∧ (recheckBays s).pending = s.pending := by
  unfold recheckBays
  (repeat' split) <;> simp

@[simp] theorem handDriveRestart_spares (s : State) :
    (handDriveRestart s).clock = s.clock ∧ (handDriveRestart s).pins = s.pins ∧
    (handDriveRestart s).pv = s.pv ∧ (handDriveRestart s).wmu = s.wmu ∧
    (handDriveRestart s).wv = s.wv ∧ (handDriveRestart s).ct = s.ct ∧
    (handDriveRestart s).rp = s.rp ∧ (handDriveRestart s).sl = s.sl ∧
    (handDriveRestart s).pending = s.pending := by
  unfold handDriveRestart
  (repeat' split) <;> simp

@[simp] theorem overrideLink_spares (s : State) :
    (overrideLink s).clock = s.clock ∧ (overrideLink s).pins = s.pins ∧
    (overrideLink s).lc = s.lc ∧ (overrideLink s).pv = s.pv ∧ (overrideLink s).wmu = s.wmu ∧
    (overrideLink s).wv = s.wv ∧ (overrideLink s).mu = s.mu ∧ (overrideLink s).ct = s.ct ∧
    (overrideLink s).bu = s.bu ∧ (overrideLink s).rp = s.rp ∧ (overrideLink s).sl = s.sl ∧
    (overrideLink s).pending = s.pending := by
  unfold overrideLink
  (repeat' split) <;> simp

@[simp] theorem stopIn_spares (s : State) :
    (stopIn s).clock = s.clock ∧ (stopIn s).pins = s.pins ∧ (stopIn s).pv = s.pv ∧
    (stopIn s).wmu = s.wmu ∧ (stopIn s).wv = s.wv ∧ (stopIn s).ct = s.ct ∧ (stopIn s).rp = s.rp ∧
    (stopIn s).sl = s.sl ∧ (stopIn s).pending = s.pending := by
  unfold stopIn
  (repeat' split) <;> simp

@[simp] theorem takeHold_spares (n : Nat) (p : HoldPayload) (s : State) :
    (takeHold n p s).1.clock = s.clock ∧ (takeHold n p s).1.pins = s.pins ∧
    (takeHold n p s).1.lc = s.lc ∧ (takeHold n p s).1.pv = s.pv ∧ (takeHold n p s).1.wmu = s.wmu ∧
    (takeHold n p s).1.wv = s.wv ∧ (takeHold n p s).1.ct = s.ct ∧ (takeHold n p s).1.rp = s.rp ∧
    (takeHold n p s).1.sl = s.sl ∧ (takeHold n p s).1.pending = s.pending := by
  unfold takeHold
  (repeat' split) <;> simp

@[simp] theorem takeRelease_spares (n : Nat) (p : ReleasePayload) (s : State) :
    (takeRelease n p s).1.clock = s.clock ∧ (takeRelease n p s).1.pins = s.pins ∧
    (takeRelease n p s).1.lc = s.lc ∧ (takeRelease n p s).1.pv = s.pv ∧
    (takeRelease n p s).1.wmu = s.wmu ∧ (takeRelease n p s).1.wv = s.wv ∧
    (takeRelease n p s).1.ct = s.ct ∧ (takeRelease n p s).1.rp = s.rp ∧
    (takeRelease n p s).1.sl = s.sl ∧ (takeRelease n p s).1.pending = s.pending := by
  unfold takeRelease
  (repeat' split) <;> simp

@[simp] theorem overrideOwn_spares (k : HoldKind) (s : State) :
    (overrideOwn k s).clock = s.clock ∧ (overrideOwn k s).pins = s.pins ∧
    (overrideOwn k s).lc = s.lc ∧ (overrideOwn k s).pv = s.pv ∧ (overrideOwn k s).wmu = s.wmu ∧
    (overrideOwn k s).wv = s.wv ∧ (overrideOwn k s).ct = s.ct ∧ (overrideOwn k s).rp = s.rp ∧
    (overrideOwn k s).sl = s.sl ∧ (overrideOwn k s).pending = s.pending := by
  unfold overrideOwn
  (repeat' split) <;> simp

@[simp] theorem takeOverride_spares (p : ReleasePayload) (s : State) :
    (takeOverride p s).1.clock = s.clock ∧ (takeOverride p s).1.pins = s.pins ∧
    (takeOverride p s).1.lc = s.lc ∧ (takeOverride p s).1.pv = s.pv ∧
    (takeOverride p s).1.wmu = s.wmu ∧ (takeOverride p s).1.wv = s.wv ∧
    (takeOverride p s).1.ct = s.ct ∧ (takeOverride p s).1.rp = s.rp ∧
    (takeOverride p s).1.sl = s.sl ∧ (takeOverride p s).1.pending = s.pending := by
  unfold takeOverride
  dsimp only
  (repeat' split) <;> simp [apply_ite Prod.fst]

@[simp] theorem orphan_spares (k : HoldKind) (d : Nat) (s : State) :
    (orphan k d s).clock = s.clock ∧ (orphan k d s).pins = s.pins ∧ (orphan k d s).lc = s.lc ∧
    (orphan k d s).pv = s.pv ∧ (orphan k d s).wmu = s.wmu ∧ (orphan k d s).wv = s.wv ∧
    (orphan k d s).ct = s.ct ∧ (orphan k d s).rp = s.rp ∧ (orphan k d s).sl = s.sl ∧
    (orphan k d s).pending = s.pending := by
  unfold orphan
  (repeat' split) <;> simp

@[simp] theorem lapse_spares (k : HoldKind) (d : Nat) (s : State) :
    (lapse k d s).clock = s.clock ∧ (lapse k d s).pins = s.pins ∧ (lapse k d s).lc = s.lc ∧
    (lapse k d s).pv = s.pv ∧ (lapse k d s).wmu = s.wmu ∧ (lapse k d s).wv = s.wv ∧
    (lapse k d s).ct = s.ct ∧ (lapse k d s).rp = s.rp ∧ (lapse k d s).sl = s.sl ∧
    (lapse k d s).pending = s.pending := by
  unfold lapse
  (repeat' split) <;> simp

@[simp] theorem lapseOne_spares (r : HoldRec) (s : State) :
    (lapseOne s r).clock = s.clock ∧ (lapseOne s r).pins = s.pins ∧ (lapseOne s r).lc = s.lc ∧
    (lapseOne s r).pv = s.pv ∧ (lapseOne s r).wmu = s.wmu ∧ (lapseOne s r).wv = s.wv ∧
    (lapseOne s r).ct = s.ct ∧ (lapseOne s r).rp = s.rp ∧ (lapseOne s r).sl = s.sl ∧
    (lapseOne s r).pending = s.pending := by
  unfold lapseOne
  (repeat' split) <;> simp

@[simp] theorem lapseAll_spares (s : State) :
    (lapseAll s).clock = s.clock ∧ (lapseAll s).pins = s.pins ∧ (lapseAll s).lc = s.lc ∧
    (lapseAll s).pv = s.pv ∧ (lapseAll s).wmu = s.wmu ∧ (lapseAll s).wv = s.wv ∧
    (lapseAll s).ct = s.ct ∧ (lapseAll s).rp = s.rp ∧ (lapseAll s).sl = s.sl ∧
    (lapseAll s).pending = s.pending := by
  unfold lapseAll
  exact ⟨(foldl_keeps State.clock (by simp) _ _).trans (by simp), (foldl_keeps State.pins (by simp) _ _).trans (by simp), (foldl_keeps State.lc (by simp) _ _).trans (by simp), (foldl_keeps State.pv (by simp) _ _).trans (by simp), (foldl_keeps State.wmu (by simp) _ _).trans (by simp), (foldl_keeps State.wv (by simp) _ _).trans (by simp), (foldl_keeps State.ct (by simp) _ _).trans (by simp), (foldl_keeps State.rp (by simp) _ _).trans (by simp), (foldl_keeps State.sl (by simp) _ _).trans (by simp), (foldl_keeps State.pending (by simp) _ _).trans (by simp)⟩

@[simp] theorem orphanDeclarer_spares (n : Nat) (s : State) :
    (orphanDeclarer n s).clock = s.clock ∧ (orphanDeclarer n s).pins = s.pins ∧
    (orphanDeclarer n s).lc = s.lc ∧ (orphanDeclarer n s).pv = s.pv ∧
    (orphanDeclarer n s).wmu = s.wmu ∧ (orphanDeclarer n s).wv = s.wv ∧
    (orphanDeclarer n s).ct = s.ct ∧ (orphanDeclarer n s).rp = s.rp ∧
    (orphanDeclarer n s).sl = s.sl ∧ (orphanDeclarer n s).pending = s.pending := by
  unfold orphanDeclarer
  exact ⟨(foldl_keeps State.clock (by intros; split <;> simp) _ _).trans (by simp), (foldl_keeps State.pins (by intros; split <;> simp) _ _).trans (by simp), (foldl_keeps State.lc (by intros; split <;> simp) _ _).trans (by simp), (foldl_keeps State.pv (by intros; split <;> simp) _ _).trans (by simp), (foldl_keeps State.wmu (by intros; split <;> simp) _ _).trans (by simp), (foldl_keeps State.wv (by intros; split <;> simp) _ _).trans (by simp), (foldl_keeps State.ct (by intros; split <;> simp) _ _).trans (by simp), (foldl_keeps State.rp (by intros; split <;> simp) _ _).trans (by simp), (foldl_keeps State.sl (by intros; split <;> simp) _ _).trans (by simp), (foldl_keeps State.pending (by intros; split <;> simp) _ _).trans (by simp)⟩

@[simp] theorem watchMotion_spares (n c : Nat) (s : State) :
    (watchMotion n c s).clock = s.clock ∧ (watchMotion n c s).pins = s.pins ∧
    (watchMotion n c s).lc = s.lc ∧ (watchMotion n c s).pv = s.pv ∧
    (watchMotion n c s).wmu = s.wmu ∧ (watchMotion n c s).wv = s.wv ∧
    (watchMotion n c s).mu = s.mu ∧ (watchMotion n c s).ct = s.ct ∧ (watchMotion n c s).bu = s.bu ∧
    (watchMotion n c s).rp = s.rp ∧ (watchMotion n c s).sl = s.sl ∧
    (watchMotion n c s).pending = s.pending := by
  unfold watchMotion
  (repeat' split) <;> simp

@[simp] theorem countUnanswered_spares (n : Nat) (s : State) :
    (countUnanswered s n).clock = s.clock ∧ (countUnanswered s n).pins = s.pins ∧
    (countUnanswered s n).lc = s.lc ∧ (countUnanswered s n).wmu = s.wmu ∧
    (countUnanswered s n).wv = s.wv ∧ (countUnanswered s n).mu = s.mu ∧
    (countUnanswered s n).ct = s.ct ∧ (countUnanswered s n).bu = s.bu ∧
    (countUnanswered s n).rp = s.rp ∧ (countUnanswered s n).sl = s.sl ∧
    (countUnanswered s n).pending = s.pending := by
  unfold countUnanswered
  (repeat' split) <;> simp

@[simp] theorem endAckWindow_spares (w : Watch) (s : State) :
    (endAckWindow w s).clock = s.clock ∧ (endAckWindow w s).pins = s.pins ∧
    (endAckWindow w s).lc = s.lc ∧ (endAckWindow w s).wmu = s.wmu ∧ (endAckWindow w s).wv = s.wv ∧
    (endAckWindow w s).ct = s.ct ∧ (endAckWindow w s).bu = s.bu ∧ (endAckWindow w s).rp = s.rp ∧
    (endAckWindow w s).sl = s.sl ∧ (endAckWindow w s).pending = s.pending := by
  unfold endAckWindow
  dsimp only
  refine ⟨?_, ?_, ?_, ?_, ?_, ?_, ?_, ?_, ?_, ?_⟩
  · split <;> simp [foldl_keeps State.clock (f := countUnanswered) (by simp)]
  · split <;> simp [foldl_keeps State.pins (f := countUnanswered) (by simp)]
  · split <;> simp [foldl_keeps State.lc (f := countUnanswered) (by simp)]
  · split <;> simp [foldl_keeps State.wmu (f := countUnanswered) (by simp)]
  · split <;> simp [foldl_keeps State.wv (f := countUnanswered) (by simp)]
  · split <;> simp [foldl_keeps State.ct (f := countUnanswered) (by simp)]
  · split <;> simp [foldl_keeps State.bu (f := countUnanswered) (by simp)]
  · split <;> simp [foldl_keeps State.rp (f := countUnanswered) (by simp)]
  · split <;> simp [foldl_keeps State.sl (f := countUnanswered) (by simp)]
  · split <;> simp [foldl_keeps State.pending (f := countUnanswered) (by simp)]


@[simp] theorem ackWindowExpiry_spares (s : State) :
    (ackWindowExpiry s).clock = s.clock ∧ (ackWindowExpiry s).pins = s.pins ∧
    (ackWindowExpiry s).lc = s.lc ∧ (ackWindowExpiry s).wmu = s.wmu ∧
    (ackWindowExpiry s).wv = s.wv ∧ (ackWindowExpiry s).ct = s.ct ∧ (ackWindowExpiry s).bu = s.bu ∧
    (ackWindowExpiry s).rp = s.rp ∧ (ackWindowExpiry s).sl = s.sl ∧
    (ackWindowExpiry s).pending = s.pending := by
  unfold ackWindowExpiry
  (repeat' split) <;> simp

@[simp] theorem brakedLimitExpiry_spares (s : State) :
    (brakedLimitExpiry s).clock = s.clock ∧ (brakedLimitExpiry s).pins = s.pins ∧
    (brakedLimitExpiry s).lc = s.lc ∧ (brakedLimitExpiry s).pv = s.pv ∧
    (brakedLimitExpiry s).wmu = s.wmu ∧ (brakedLimitExpiry s).wv = s.wv ∧
    (brakedLimitExpiry s).mu = s.mu ∧ (brakedLimitExpiry s).ct = s.ct ∧
    (brakedLimitExpiry s).bu = s.bu ∧ (brakedLimitExpiry s).rp = s.rp ∧
    (brakedLimitExpiry s).sl = s.sl ∧ (brakedLimitExpiry s).pending = s.pending := by
  unfold brakedLimitExpiry
  (repeat' split) <;> simp

@[simp] theorem formFused_spares (s : State) :
    (formFused s).clock = s.clock ∧ (formFused s).pins = s.pins ∧ (formFused s).pv = s.pv ∧
    (formFused s).wmu = s.wmu ∧ (formFused s).ct = s.ct ∧ (formFused s).rp = s.rp ∧
    (formFused s).sl = s.sl ∧ (formFused s).pending = s.pending := by
  unfold formFused
  (repeat' split) <;> simp

@[simp] theorem takeWind_spares (n : Nat) (q : Byte) (p : WindPayload) (s : State) :
    (takeWind n q p s).1.clock = s.clock ∧ (takeWind n q p s).1.pins = s.pins ∧
    (takeWind n q p s).1.pv = s.pv ∧ (takeWind n q p s).1.wmu = s.wmu ∧
    (takeWind n q p s).1.ct = s.ct ∧ (takeWind n q p s).1.rp = s.rp ∧
    (takeWind n q p s).1.sl = s.sl ∧ (takeWind n q p s).1.pending = s.pending := by
  unfold takeWind
  (repeat' split) <;> simp

@[simp] theorem onCabin_spares (c : Nat) (f : Cabin → Cabin) (s : State) :
    (s.onCabin c f).clock = s.clock ∧ (s.onCabin c f).pins = s.pins ∧ (s.onCabin c f).lu = s.lu ∧
    (s.onCabin c f).lc = s.lc ∧ (s.onCabin c f).pv = s.pv ∧ (s.onCabin c f).wmu = s.wmu ∧
    (s.onCabin c f).wv = s.wv ∧ (s.onCabin c f).hu = s.hu ∧ (s.onCabin c f).mu = s.mu ∧
    (s.onCabin c f).bu = s.bu ∧ (s.onCabin c f).rp = s.rp ∧ (s.onCabin c f).sl = s.sl ∧
    (s.onCabin c f).pending = s.pending := by
  unfold State.onCabin
  (repeat' split) <;> simp

@[simp] theorem gapStage_spares (b : BayId) (n c : Nat) (s : State) :
    (gapStage b n c s).clock = s.clock ∧ (gapStage b n c s).pins = s.pins ∧
    (gapStage b n c s).lc = s.lc ∧ (gapStage b n c s).pv = s.pv ∧ (gapStage b n c s).wmu = s.wmu ∧
    (gapStage b n c s).wv = s.wv ∧ (gapStage b n c s).hu = s.hu ∧ (gapStage b n c s).mu = s.mu ∧
    (gapStage b n c s).bu = s.bu ∧ (gapStage b n c s).rp = s.rp ∧ (gapStage b n c s).sl = s.sl ∧
    (gapStage b n c s).pending = s.pending := by
  unfold gapStage
  split
  · simp
  · dsimp only
    split
    · simp
    · refine ⟨?_, ?_, ?_, ?_, ?_, ?_, ?_, ?_, ?_, ?_, ?_, ?_⟩
      · simp only [logLocal_spares, raise_spares]
        exact foldl_keeps State.clock (by simp) _ _
      · simp only [logLocal_spares, raise_spares]
        exact foldl_keeps State.pins (by simp) _ _
      · simp only [logLocal_spares, raise_spares]
        exact foldl_keeps State.lc (by simp) _ _
      · simp only [logLocal_spares, raise_spares]
        exact foldl_keeps State.pv (by simp) _ _
      · simp only [logLocal_spares, raise_spares]
        exact foldl_keeps State.wmu (by simp) _ _
      · simp only [logLocal_spares, raise_spares]
        exact foldl_keeps State.wv (by simp) _ _
      · simp only [logLocal_spares, raise_spares]
        exact foldl_keeps State.hu (by simp) _ _
      · simp only [logLocal_spares, raise_spares]
        exact foldl_keeps State.mu (by simp) _ _
      · simp only [logLocal_spares, raise_spares]
        exact foldl_keeps State.bu (by simp) _ _
      · simp only [logLocal_spares, raise_spares]
        exact foldl_keeps State.rp (by simp) _ _
      · simp only [logLocal_spares, raise_spares]
        exact foldl_keeps State.sl (by simp) _ _
      · simp only [logLocal_spares, raise_spares]
        exact foldl_keeps State.pending (by simp) _ _


@[simp] theorem resultStage_spares (b : BayId) (r : PassResult) (p : Passage) (s : State) :
    (resultStage b r p s).clock = s.clock ∧ (resultStage b r p s).pins = s.pins ∧
    (resultStage b r p s).lu = s.lu ∧ (resultStage b r p s).lc = s.lc ∧
    (resultStage b r p s).pv = s.pv ∧ (resultStage b r p s).wmu = s.wmu ∧
    (resultStage b r p s).wv = s.wv ∧ (resultStage b r p s).hu = s.hu ∧
    (resultStage b r p s).mu = s.mu ∧ (resultStage b r p s).bu = s.bu ∧
    (resultStage b r p s).rp = s.rp ∧ (resultStage b r p s).sl = s.sl ∧
    (resultStage b r p s).pending = s.pending := by
  unfold resultStage
  (repeat' split) <;> simp

@[simp] theorem cursorStage_spares (b : BayId) (p : Passage) (s : State) :
    (cursorStage b p s).clock = s.clock ∧ (cursorStage b p s).pins = s.pins ∧
    (cursorStage b p s).lu = s.lu ∧ (cursorStage b p s).lc = s.lc ∧ (cursorStage b p s).pv = s.pv ∧
    (cursorStage b p s).wmu = s.wmu ∧ (cursorStage b p s).wv = s.wv ∧
    (cursorStage b p s).hu = s.hu ∧ (cursorStage b p s).mu = s.mu ∧ (cursorStage b p s).bu = s.bu ∧
    (cursorStage b p s).rp = s.rp ∧ (cursorStage b p s).sl = s.sl ∧
    (cursorStage b p s).pending = s.pending := by
  unfold cursorStage
  (repeat' split) <;> simp

@[simp] theorem countStage_spares (s : State) :
    (countStage s).clock = s.clock ∧ (countStage s).pins = s.pins ∧ (countStage s).lc = s.lc ∧
    (countStage s).pv = s.pv ∧ (countStage s).wmu = s.wmu ∧ (countStage s).wv = s.wv ∧
    (countStage s).rp = s.rp ∧ (countStage s).sl = s.sl ∧ (countStage s).pending = s.pending := by
  unfold countStage
  (repeat' split) <;> simp

@[simp] theorem supplyTags_spares (b : BayId) (p : Passage) (s : State) :
    (supplyTags b p s).clock = s.clock ∧ (supplyTags b p s).pins = s.pins ∧
    (supplyTags b p s).lu = s.lu ∧ (supplyTags b p s).lc = s.lc ∧ (supplyTags b p s).pv = s.pv ∧
    (supplyTags b p s).wmu = s.wmu ∧ (supplyTags b p s).wv = s.wv ∧ (supplyTags b p s).hu = s.hu ∧
    (supplyTags b p s).mu = s.mu ∧ (supplyTags b p s).bu = s.bu ∧ (supplyTags b p s).rp = s.rp ∧
    (supplyTags b p s).sl = s.sl ∧ (supplyTags b p s).pending = s.pending := by
  unfold supplyTags
  (repeat' split) <;> simp

@[simp] theorem applyPassage_spares (b : BayId) (n : Nat) (p : Passage) (s : State) :
    (applyPassage b n p s).1.clock = s.clock ∧ (applyPassage b n p s).1.pins = s.pins ∧
    (applyPassage b n p s).1.lc = s.lc ∧ (applyPassage b n p s).1.pv = s.pv ∧
    (applyPassage b n p s).1.wmu = s.wmu ∧ (applyPassage b n p s).1.wv = s.wv ∧
    (applyPassage b n p s).1.rp = s.rp ∧ (applyPassage b n p s).1.sl = s.sl ∧
    (applyPassage b n p s).1.pending = s.pending := by
  unfold applyPassage
  (repeat' split) <;> simp

@[simp] theorem takePassage_spares (r : Role) (n : Nat) (p : PassagePayload) (s : State) :
    (takePassage r n p s).1.clock = s.clock ∧ (takePassage r n p s).1.pins = s.pins ∧
    (takePassage r n p s).1.lc = s.lc ∧ (takePassage r n p s).1.pv = s.pv ∧
    (takePassage r n p s).1.wmu = s.wmu ∧ (takePassage r n p s).1.wv = s.wv ∧
    (takePassage r n p s).1.rp = s.rp ∧ (takePassage r n p s).1.sl = s.sl ∧
    (takePassage r n p s).1.pending = s.pending := by
  unfold takePassage
  (repeat' split) <;> simp

@[simp] theorem takeSummary_spares (r : Role) (n : Nat) (p : BayPayload) (s : State) :
    (takeSummary r n p s).1.clock = s.clock ∧ (takeSummary r n p s).1.pins = s.pins ∧
    (takeSummary r n p s).1.lc = s.lc ∧ (takeSummary r n p s).1.pv = s.pv ∧
    (takeSummary r n p s).1.wmu = s.wmu ∧ (takeSummary r n p s).1.wv = s.wv ∧
    (takeSummary r n p s).1.rp = s.rp ∧ (takeSummary r n p s).1.sl = s.sl ∧
    (takeSummary r n p s).1.pending = s.pending := by
  unfold takeSummary
  (repeat' split) <;> simp

@[simp] theorem takeService_spares (n : Nat) (p : ServicePayload) (s : State) :
    (takeService n p s).1.clock = s.clock ∧ (takeService n p s).1.pins = s.pins ∧
    (takeService n p s).1.lu = s.lu ∧ (takeService n p s).1.lc = s.lc ∧
    (takeService n p s).1.pv = s.pv ∧ (takeService n p s).1.wmu = s.wmu ∧
    (takeService n p s).1.wv = s.wv ∧ (takeService n p s).1.hu = s.hu ∧
    (takeService n p s).1.mu = s.mu ∧ (takeService n p s).1.bu = s.bu ∧
    (takeService n p s).1.rp = s.rp ∧ (takeService n p s).1.sl = s.sl ∧
    (takeService n p s).1.pending = s.pending := by
  unfold takeService
  (repeat' split) <;> simp

@[simp] theorem handService_spares (s : State) :
    (handService s).clock = s.clock ∧ (handService s).pins = s.pins ∧ (handService s).pv = s.pv ∧
    (handService s).wmu = s.wmu ∧ (handService s).wv = s.wv ∧ (handService s).hu = s.hu ∧
    (handService s).mu = s.mu ∧ (handService s).bu = s.bu ∧ (handService s).rp = s.rp ∧
    (handService s).sl = s.sl ∧ (handService s).pending = s.pending := by
  unfold handService
  (repeat' split) <;> simp

@[simp] theorem setPeerState_spares (n : Nat) (p : PeerState) (s : State) :
    (setPeerState n p s).clock = s.clock ∧ (setPeerState n p s).pins = s.pins ∧
    (setPeerState n p s).lc = s.lc ∧ (setPeerState n p s).wmu = s.wmu ∧
    (setPeerState n p s).wv = s.wv ∧ (setPeerState n p s).hu = s.hu ∧
    (setPeerState n p s).mu = s.mu ∧ (setPeerState n p s).ct = s.ct ∧
    (setPeerState n p s).bu = s.bu ∧ (setPeerState n p s).rp = s.rp ∧
    (setPeerState n p s).sl = s.sl ∧ (setPeerState n p s).pending = s.pending := by
  unfold setPeerState
  (repeat' split) <;> simp

@[simp] theorem handleRestart_spares (n : Nat) (s : State) :
    (handleRestart n s).clock = s.clock ∧ (handleRestart n s).pins = s.pins ∧
    (handleRestart n s).pv = s.pv ∧ (handleRestart n s).wmu = s.wmu ∧
    (handleRestart n s).wv = s.wv ∧ (handleRestart n s).ct = s.ct ∧ (handleRestart n s).rp = s.rp ∧
    (handleRestart n s).sl = s.sl ∧ (handleRestart n s).pending = s.pending := by
  unfold handleRestart
  (repeat' split) <;> simp

@[simp] theorem restartTest_spares (n : Nat) (q : PresencePayload) (s : State) :
    (restartTest n q s).clock = s.clock ∧ (restartTest n q s).pins = s.pins ∧
    (restartTest n q s).wmu = s.wmu ∧ (restartTest n q s).wv = s.wv ∧
    (restartTest n q s).ct = s.ct ∧ (restartTest n q s).rp = s.rp ∧ (restartTest n q s).sl = s.sl ∧
    (restartTest n q s).pending = s.pending := by
  unfold restartTest
  (repeat' split) <;> simp

@[simp] theorem afterParts_spares (n : Nat) (c : Payload) (a b : Bool) (s : State) :
    (afterParts n c a b s).clock = s.clock ∧ (afterParts n c a b s).pins = s.pins ∧
    (afterParts n c a b s).pv = s.pv ∧ (afterParts n c a b s).wmu = s.wmu ∧
    (afterParts n c a b s).wv = s.wv ∧ (afterParts n c a b s).ct = s.ct ∧
    (afterParts n c a b s).rp = s.rp ∧ (afterParts n c a b s).sl = s.sl ∧
    (afterParts n c a b s).pending = s.pending := by
  unfold afterParts
  (repeat' split) <;> simp

@[simp] theorem pvTakeOther_spares (t : Telegram) (a : Bool) (s : State) :
    (pvTakeOther t a s).clock = s.clock ∧ (pvTakeOther t a s).pins = s.pins ∧
    (pvTakeOther t a s).wmu = s.wmu ∧ (pvTakeOther t a s).wv = s.wv ∧
    (pvTakeOther t a s).ct = s.ct ∧ (pvTakeOther t a s).rp = s.rp ∧ (pvTakeOther t a s).sl = s.sl ∧
    (pvTakeOther t a s).pending = s.pending := by
  unfold pvTakeOther
  (repeat' split) <;> simp

@[simp] theorem pvTakeOwn_spares (t : Telegram) (a : Bool) (s : State) :
    (pvTakeOwn t a s).clock = s.clock ∧ (pvTakeOwn t a s).pins = s.pins ∧
    (pvTakeOwn t a s).wmu = s.wmu ∧ (pvTakeOwn t a s).wv = s.wv ∧ (pvTakeOwn t a s).ct = s.ct ∧
    (pvTakeOwn t a s).rp = s.rp ∧ (pvTakeOwn t a s).sl = s.sl ∧
    (pvTakeOwn t a s).pending = s.pending := by
  unfold pvTakeOwn
  (repeat' split) <;> simp

@[simp] theorem pvTake_spares (t : Telegram) (a : Bool) (s : State) :
    (pvTake t a s).clock = s.clock ∧ (pvTake t a s).pins = s.pins ∧ (pvTake t a s).wmu = s.wmu ∧
    (pvTake t a s).wv = s.wv ∧ (pvTake t a s).ct = s.ct ∧ (pvTake t a s).rp = s.rp ∧
    (pvTake t a s).sl = s.sl ∧ (pvTake t a s).pending = s.pending := by
  unfold pvTake
  (repeat' split) <;> simp

@[simp] theorem takeMark_spares (n : Nat) (p : MarkPayload) (s : State) :
    (takeMark n p s).1.pins = s.pins ∧ (takeMark n p s).1.lu = s.lu ∧
    (takeMark n p s).1.lc = s.lc ∧ (takeMark n p s).1.pv = s.pv ∧ (takeMark n p s).1.wmu = s.wmu ∧
    (takeMark n p s).1.wv = s.wv ∧ (takeMark n p s).1.hu = s.hu ∧ (takeMark n p s).1.mu = s.mu ∧
    (takeMark n p s).1.ct = s.ct ∧ (takeMark n p s).1.bu = s.bu ∧ (takeMark n p s).1.rp = s.rp ∧
    (takeMark n p s).1.sl = s.sl ∧ (takeMark n p s).1.pending = s.pending := by
  unfold takeMark
  (repeat' split) <;> simp

@[simp] theorem handPresence_spares (s : State) :
    (handPresence s).clock = s.clock ∧ (handPresence s).pins = s.pins ∧
    (handPresence s).wmu = s.wmu ∧ (handPresence s).wv = s.wv ∧ (handPresence s).hu = s.hu ∧
    (handPresence s).mu = s.mu ∧ (handPresence s).ct = s.ct ∧ (handPresence s).bu = s.bu ∧
    (handPresence s).rp = s.rp ∧ (handPresence s).sl = s.sl ∧
    (handPresence s).pending = s.pending := by
  unfold handPresence
  (repeat' split) <;> simp

@[simp] theorem handMark_spares (s : State) :
    (handMark s).clock = s.clock ∧ (handMark s).pins = s.pins ∧ (handMark s).wmu = s.wmu ∧
    (handMark s).wv = s.wv ∧ (handMark s).hu = s.hu ∧ (handMark s).mu = s.mu ∧
    (handMark s).ct = s.ct ∧ (handMark s).bu = s.bu ∧ (handMark s).rp = s.rp ∧
    (handMark s).sl = s.sl ∧ (handMark s).pending = s.pending := by
  unfold handMark
  (repeat' split) <;> simp

@[simp] theorem recheckIfDrive_spares (n : Nat) (s : State) :
    (recheckIfDrive n s).clock = s.clock ∧ (recheckIfDrive n s).pins = s.pins ∧
    (recheckIfDrive n s).pv = s.pv ∧ (recheckIfDrive n s).wmu = s.wmu ∧
    (recheckIfDrive n s).wv = s.wv ∧ (recheckIfDrive n s).ct = s.ct ∧
    (recheckIfDrive n s).rp = s.rp ∧ (recheckIfDrive n s).sl = s.sl ∧
    (recheckIfDrive n s).pending = s.pending := by
  unfold recheckIfDrive
  (repeat' split) <;> simp

@[simp] theorem handBay_spares (s : State) :
    (handBay s).clock = s.clock ∧ (handBay s).pins = s.pins ∧ (handBay s).pv = s.pv ∧
    (handBay s).wmu = s.wmu ∧ (handBay s).wv = s.wv ∧ (handBay s).hu = s.hu ∧
    (handBay s).mu = s.mu ∧ (handBay s).ct = s.ct ∧ (handBay s).rp = s.rp ∧ (handBay s).sl = s.sl ∧
    (handBay s).pending = s.pending := by
  unfold handBay
  (repeat' split) <;> simp

@[simp] theorem keepTag_spares (f : List Byte) (s : State) :
    (keepTag f s).clock = s.clock ∧ (keepTag f s).pins = s.pins ∧ (keepTag f s).lu = s.lu ∧
    (keepTag f s).lc = s.lc ∧ (keepTag f s).pv = s.pv ∧ (keepTag f s).wmu = s.wmu ∧
    (keepTag f s).wv = s.wv ∧ (keepTag f s).hu = s.hu ∧ (keepTag f s).mu = s.mu ∧
    (keepTag f s).ct = s.ct ∧ (keepTag f s).rp = s.rp ∧ (keepTag f s).sl = s.sl ∧
    (keepTag f s).pending = s.pending := by
  unfold keepTag
  (repeat' split) <;> simp

@[simp] theorem raiseUnread_spares (s : State) :
    (raiseUnread s).clock = s.clock ∧ (raiseUnread s).pins = s.pins ∧ (raiseUnread s).lc = s.lc ∧
    (raiseUnread s).pv = s.pv ∧ (raiseUnread s).wmu = s.wmu ∧ (raiseUnread s).wv = s.wv ∧
    (raiseUnread s).hu = s.hu ∧ (raiseUnread s).mu = s.mu ∧ (raiseUnread s).ct = s.ct ∧
    (raiseUnread s).bu = s.bu ∧ (raiseUnread s).rp = s.rp ∧ (raiseUnread s).sl = s.sl ∧
    (raiseUnread s).pending = s.pending := by
  unfold raiseUnread
  (repeat' split) <;> simp

@[simp] theorem outOfSequence_spares (l : TrackLine) (s : State) :
    (outOfSequence l s).clock = s.clock ∧ (outOfSequence l s).pins = s.pins ∧
    (outOfSequence l s).lc = s.lc ∧ (outOfSequence l s).pv = s.pv ∧
    (outOfSequence l s).wmu = s.wmu ∧ (outOfSequence l s).wv = s.wv ∧
    (outOfSequence l s).hu = s.hu ∧ (outOfSequence l s).mu = s.mu ∧ (outOfSequence l s).ct = s.ct ∧
    (outOfSequence l s).bu = s.bu ∧ (outOfSequence l s).rp = s.rp ∧ (outOfSequence l s).sl = s.sl ∧
    (outOfSequence l s).pending = s.pending := by
  unfold outOfSequence
  (repeat' split) <;> simp

@[simp] theorem onWindow_spares (f : Window → Window) (s : State) :
    (s.onWindow f).clock = s.clock ∧ (s.onWindow f).pins = s.pins ∧ (s.onWindow f).lu = s.lu ∧
    (s.onWindow f).lc = s.lc ∧ (s.onWindow f).pv = s.pv ∧ (s.onWindow f).wmu = s.wmu ∧
    (s.onWindow f).wv = s.wv ∧ (s.onWindow f).hu = s.hu ∧ (s.onWindow f).mu = s.mu ∧
    (s.onWindow f).ct = s.ct ∧ (s.onWindow f).rp = s.rp ∧ (s.onWindow f).sl = s.sl ∧
    (s.onWindow f).pending = s.pending := by
  unfold State.onWindow
  (repeat' split) <;> simp

@[simp] theorem releaseDoors_spares (s : State) :
    (releaseDoors s).clock = s.clock ∧ (releaseDoors s).pins = s.pins ∧
    (releaseDoors s).pv = s.pv ∧ (releaseDoors s).wmu = s.wmu ∧ (releaseDoors s).wv = s.wv ∧
    (releaseDoors s).hu = s.hu ∧ (releaseDoors s).mu = s.mu ∧ (releaseDoors s).ct = s.ct ∧
    (releaseDoors s).rp = s.rp ∧ (releaseDoors s).sl = s.sl ∧
    (releaseDoors s).pending = s.pending := by
  unfold releaseDoors
  (repeat' split) <;> simp

@[simp] theorem shutDoors_spares (s : State) :
    (shutDoors s).clock = s.clock ∧ (shutDoors s).pins = s.pins ∧ (shutDoors s).pv = s.pv ∧
    (shutDoors s).wmu = s.wmu ∧ (shutDoors s).wv = s.wv ∧ (shutDoors s).hu = s.hu ∧
    (shutDoors s).mu = s.mu ∧ (shutDoors s).ct = s.ct ∧ (shutDoors s).rp = s.rp ∧
    (shutDoors s).sl = s.sl ∧ (shutDoors s).pending = s.pending := by
  unfold shutDoors
  (repeat' split) <;> simp

@[simp] theorem closeWindow_spares (c : Nat) (s : State) :
    (closeWindow c s).clock = s.clock ∧ (closeWindow c s).pins = s.pins ∧
    (closeWindow c s).pv = s.pv ∧ (closeWindow c s).wmu = s.wmu ∧ (closeWindow c s).wv = s.wv ∧
    (closeWindow c s).hu = s.hu ∧ (closeWindow c s).mu = s.mu ∧ (closeWindow c s).ct = s.ct ∧
    (closeWindow c s).rp = s.rp ∧ (closeWindow c s).sl = s.sl ∧
    (closeWindow c s).pending = s.pending := by
  unfold closeWindow
  (repeat' split) <;> simp

@[simp] theorem matchParties_spares (c : Cabin) (s : State) :
    (matchParties c s).clock = s.clock ∧ (matchParties c s).pins = s.pins ∧
    (matchParties c s).lu = s.lu ∧ (matchParties c s).lc = s.lc ∧ (matchParties c s).pv = s.pv ∧
    (matchParties c s).wmu = s.wmu ∧ (matchParties c s).wv = s.wv ∧ (matchParties c s).hu = s.hu ∧
    (matchParties c s).mu = s.mu ∧ (matchParties c s).ct = s.ct ∧ (matchParties c s).rp = s.rp ∧
    (matchParties c s).sl = s.sl ∧ (matchParties c s).pending = s.pending := by
  unfold matchParties
  (repeat' split) <;> simp

@[simp] theorem beginGrace_spares (c : Cabin) (s : State) :
    (beginGrace c s).clock = s.clock ∧ (beginGrace c s).pins = s.pins ∧
    (beginGrace c s).lc = s.lc ∧ (beginGrace c s).pv = s.pv ∧ (beginGrace c s).wmu = s.wmu ∧
    (beginGrace c s).wv = s.wv ∧ (beginGrace c s).hu = s.hu ∧ (beginGrace c s).mu = s.mu ∧
    (beginGrace c s).ct = s.ct ∧ (beginGrace c s).rp = s.rp ∧ (beginGrace c s).sl = s.sl ∧
    (beginGrace c s).pending = s.pending := by
  unfold beginGrace
  (repeat' split) <;> simp

@[simp] theorem endGrace_spares (s : State) :
    (endGrace s).clock = s.clock ∧ (endGrace s).pins = s.pins ∧ (endGrace s).lu = s.lu ∧
    (endGrace s).lc = s.lc ∧ (endGrace s).pv = s.pv ∧ (endGrace s).wmu = s.wmu ∧
    (endGrace s).wv = s.wv ∧ (endGrace s).hu = s.hu ∧ (endGrace s).mu = s.mu ∧
    (endGrace s).ct = s.ct ∧ (endGrace s).rp = s.rp ∧ (endGrace s).sl = s.sl ∧
    (endGrace s).pending = s.pending := by
  unfold endGrace
  (repeat' split) <;> simp

@[simp] theorem openEntry_spares (s : State) :
    (openEntry s).clock = s.clock ∧ (openEntry s).pins = s.pins ∧ (openEntry s).lc = s.lc ∧
    (openEntry s).pv = s.pv ∧ (openEntry s).wmu = s.wmu ∧ (openEntry s).wv = s.wv ∧
    (openEntry s).hu = s.hu ∧ (openEntry s).mu = s.mu ∧ (openEntry s).ct = s.ct ∧
    (openEntry s).rp = s.rp ∧ (openEntry s).sl = s.sl ∧ (openEntry s).pending = s.pending := by
  unfold openEntry
  dsimp only
  (repeat' split) <;> simp [apply_ite Prod.fst]

@[simp] theorem departureTests_spares (s : State) :
    (departureTests s).clock = s.clock ∧ (departureTests s).pins = s.pins ∧
    (departureTests s).pv = s.pv ∧ (departureTests s).wmu = s.wmu ∧ (departureTests s).wv = s.wv ∧
    (departureTests s).ct = s.ct ∧ (departureTests s).rp = s.rp ∧ (departureTests s).sl = s.sl ∧
    (departureTests s).pending = s.pending := by
  unfold departureTests
  (repeat' split) <;> simp

@[simp] theorem makePassage_spares (c : Nat) (r : PassResult) (n : Option Nat) (ts : List Half) (s : State) :
    (makePassage c r n ts s).clock = s.clock ∧ (makePassage c r n ts s).pins = s.pins ∧
    (makePassage c r n ts s).pv = s.pv ∧ (makePassage c r n ts s).wmu = s.wmu ∧
    (makePassage c r n ts s).wv = s.wv ∧ (makePassage c r n ts s).rp = s.rp ∧
    (makePassage c r n ts s).sl = s.sl ∧ (makePassage c r n ts s).pending = s.pending := by
  unfold makePassage
  (repeat' split) <;> simp

@[simp] theorem boardParties_spares (ps : List Party) (s : State) :
    (boardParties ps s).clock = s.clock ∧ (boardParties ps s).pins = s.pins ∧
    (boardParties ps s).lc = s.lc ∧ (boardParties ps s).pv = s.pv ∧
    (boardParties ps s).wmu = s.wmu ∧ (boardParties ps s).wv = s.wv ∧
    (boardParties ps s).hu = s.hu ∧ (boardParties ps s).mu = s.mu ∧ (boardParties ps s).ct = s.ct ∧
    (boardParties ps s).bu = s.bu ∧ (boardParties ps s).rp = s.rp ∧ (boardParties ps s).sl = s.sl ∧
    (boardParties ps s).pending = s.pending := by
  induction ps generalizing s with
  | nil => simp [boardParties]
  | cons p ps ih => simp [boardParties, ih]

@[simp] theorem endWindow_spares (s : State) :
    (endWindow s).clock = s.clock ∧ (endWindow s).pins = s.pins ∧ (endWindow s).lu = s.lu ∧
    (endWindow s).lc = s.lc ∧ (endWindow s).pv = s.pv ∧ (endWindow s).wmu = s.wmu ∧
    (endWindow s).wv = s.wv ∧ (endWindow s).hu = s.hu ∧ (endWindow s).mu = s.mu ∧
    (endWindow s).ct = s.ct ∧ (endWindow s).rp = s.rp ∧ (endWindow s).sl = s.sl ∧
    (endWindow s).pending = s.pending := by
  unfold endWindow
  (repeat' split) <;> simp

@[simp] theorem departEntry_spares (s : State) :
    (departEntry s).clock = s.clock ∧ (departEntry s).pins = s.pins ∧ (departEntry s).pv = s.pv ∧
    (departEntry s).wmu = s.wmu ∧ (departEntry s).wv = s.wv ∧ (departEntry s).rp = s.rp ∧
    (departEntry s).sl = s.sl ∧ (departEntry s).pending = s.pending := by
  unfold departEntry
  dsimp only
  (repeat' split) <;> simp [apply_ite Prod.fst]

@[simp] theorem arriveEntry_spares (s : State) :
    (arriveEntry s).clock = s.clock ∧ (arriveEntry s).pins = s.pins ∧ (arriveEntry s).pv = s.pv ∧
    (arriveEntry s).wmu = s.wmu ∧ (arriveEntry s).wv = s.wv ∧ (arriveEntry s).rp = s.rp ∧
    (arriveEntry s).sl = s.sl ∧ (arriveEntry s).pending = s.pending := by
  unfold arriveEntry
  (repeat' split) <;> simp

@[simp] theorem alignEntry_spares (s : State) :
    (alignEntry s).clock = s.clock ∧ (alignEntry s).pins = s.pins ∧ (alignEntry s).pv = s.pv ∧
    (alignEntry s).wmu = s.wmu ∧ (alignEntry s).wv = s.wv ∧ (alignEntry s).hu = s.hu ∧
    (alignEntry s).mu = s.mu ∧ (alignEntry s).ct = s.ct ∧ (alignEntry s).rp = s.rp ∧
    (alignEntry s).sl = s.sl ∧ (alignEntry s).pending = s.pending := by
  unfold alignEntry
  (repeat' split) <;> simp

@[simp] theorem closeMarkEntry_spares (s : State) :
    (closeMarkEntry s).clock = s.clock ∧ (closeMarkEntry s).pins = s.pins ∧
    (closeMarkEntry s).pv = s.pv ∧ (closeMarkEntry s).wmu = s.wmu ∧ (closeMarkEntry s).wv = s.wv ∧
    (closeMarkEntry s).hu = s.hu ∧ (closeMarkEntry s).mu = s.mu ∧ (closeMarkEntry s).ct = s.ct ∧
    (closeMarkEntry s).rp = s.rp ∧ (closeMarkEntry s).sl = s.sl ∧
    (closeMarkEntry s).pending = s.pending := by
  unfold closeMarkEntry
  (repeat' split) <;> simp

@[simp] theorem departLimitEntry_spares (s : State) :
    (departLimitEntry s).clock = s.clock ∧ (departLimitEntry s).pins = s.pins ∧
    (departLimitEntry s).pv = s.pv ∧ (departLimitEntry s).wmu = s.wmu ∧
    (departLimitEntry s).wv = s.wv ∧ (departLimitEntry s).rp = s.rp ∧
    (departLimitEntry s).sl = s.sl ∧ (departLimitEntry s).pending = s.pending := by
  unfold departLimitEntry
  (repeat' split) <;> simp

@[simp] theorem openExit_spares (s : State) :
    (openExit s).clock = s.clock ∧ (openExit s).pins = s.pins ∧ (openExit s).lc = s.lc ∧
    (openExit s).pv = s.pv ∧ (openExit s).wmu = s.wmu ∧ (openExit s).wv = s.wv ∧
    (openExit s).hu = s.hu ∧ (openExit s).mu = s.mu ∧ (openExit s).ct = s.ct ∧
    (openExit s).rp = s.rp ∧ (openExit s).sl = s.sl ∧ (openExit s).pending = s.pending := by
  unfold openExit
  (repeat' split) <;> simp

@[simp] theorem decideExit_spares (e : Bool) (s : State) :
    (decideExit e s).clock = s.clock ∧ (decideExit e s).pins = s.pins ∧
    (decideExit e s).lc = s.lc ∧ (decideExit e s).pv = s.pv ∧ (decideExit e s).wmu = s.wmu ∧
    (decideExit e s).wv = s.wv ∧ (decideExit e s).hu = s.hu ∧ (decideExit e s).mu = s.mu ∧
    (decideExit e s).ct = s.ct ∧ (decideExit e s).rp = s.rp ∧ (decideExit e s).sl = s.sl ∧
    (decideExit e s).pending = s.pending := by
  unfold decideExit
  (repeat' split) <;> simp

@[simp] theorem carriedRound_spares (c : Nat) (s : State) :
    (carriedRound c s).clock = s.clock ∧ (carriedRound c s).pins = s.pins ∧
    (carriedRound c s).pv = s.pv ∧ (carriedRound c s).wmu = s.wmu ∧ (carriedRound c s).wv = s.wv ∧
    (carriedRound c s).ct = s.ct ∧ (carriedRound c s).rp = s.rp ∧ (carriedRound c s).sl = s.sl ∧
    (carriedRound c s).pending = s.pending := by
  unfold carriedRound
  (repeat' split) <;> simp

@[simp] theorem afterExitPassage_spares (c : Nat) (r : PassResult) (s : State) :
    (afterExitPassage c r s).clock = s.clock ∧ (afterExitPassage c r s).pins = s.pins ∧
    (afterExitPassage c r s).pv = s.pv ∧ (afterExitPassage c r s).wmu = s.wmu ∧
    (afterExitPassage c r s).wv = s.wv ∧ (afterExitPassage c r s).ct = s.ct ∧
    (afterExitPassage c r s).rp = s.rp ∧ (afterExitPassage c r s).sl = s.sl ∧
    (afterExitPassage c r s).pending = s.pending := by
  unfold afterExitPassage
  (repeat' split) <;> simp

@[simp] theorem departExit_spares (e : Bool) (s : State) :
    (departExit e s).clock = s.clock ∧ (departExit e s).pins = s.pins ∧
    (departExit e s).pv = s.pv ∧ (departExit e s).wmu = s.wmu ∧ (departExit e s).wv = s.wv ∧
    (departExit e s).rp = s.rp ∧ (departExit e s).sl = s.sl ∧
    (departExit e s).pending = s.pending := by
  unfold departExit
  dsimp only
  (repeat' split) <;> simp [apply_ite Prod.fst]

@[simp] theorem arriveExit_spares (e : Bool) (s : State) :
    (arriveExit e s).clock = s.clock ∧ (arriveExit e s).pins = s.pins ∧
    (arriveExit e s).pv = s.pv ∧ (arriveExit e s).wmu = s.wmu ∧ (arriveExit e s).wv = s.wv ∧
    (arriveExit e s).rp = s.rp ∧ (arriveExit e s).sl = s.sl ∧
    (arriveExit e s).pending = s.pending := by
  unfold arriveExit
  (repeat' split) <;> simp

@[simp] theorem alignExit_spares (s : State) :
    (alignExit s).clock = s.clock ∧ (alignExit s).pins = s.pins ∧ (alignExit s).pv = s.pv ∧
    (alignExit s).wmu = s.wmu ∧ (alignExit s).wv = s.wv ∧ (alignExit s).hu = s.hu ∧
    (alignExit s).mu = s.mu ∧ (alignExit s).ct = s.ct ∧ (alignExit s).rp = s.rp ∧
    (alignExit s).sl = s.sl ∧ (alignExit s).pending = s.pending := by
  unfold alignExit
  (repeat' split) <;> simp

@[simp] theorem closeMarkExit_spares (e : Bool) (s : State) :
    (closeMarkExit e s).clock = s.clock ∧ (closeMarkExit e s).pins = s.pins ∧
    (closeMarkExit e s).pv = s.pv ∧ (closeMarkExit e s).wmu = s.wmu ∧
    (closeMarkExit e s).wv = s.wv ∧ (closeMarkExit e s).hu = s.hu ∧ (closeMarkExit e s).mu = s.mu ∧
    (closeMarkExit e s).ct = s.ct ∧ (closeMarkExit e s).rp = s.rp ∧ (closeMarkExit e s).sl = s.sl ∧
    (closeMarkExit e s).pending = s.pending := by
  unfold closeMarkExit
  (repeat' split) <;> simp

@[simp] theorem departLimitExit_spares (e : Bool) (s : State) :
    (departLimitExit e s).clock = s.clock ∧ (departLimitExit e s).pins = s.pins ∧
    (departLimitExit e s).pv = s.pv ∧ (departLimitExit e s).wmu = s.wmu ∧
    (departLimitExit e s).wv = s.wv ∧ (departLimitExit e s).rp = s.rp ∧
    (departLimitExit e s).sl = s.sl ∧ (departLimitExit e s).pending = s.pending := by
  unfold departLimitExit
  (repeat' split) <;> simp

@[simp] theorem joinQueue_spares (p : Party) (s : State) :
    (joinQueue p s).1.clock = s.clock ∧ (joinQueue p s).1.pins = s.pins ∧
    (joinQueue p s).1.lu = s.lu ∧ (joinQueue p s).1.lc = s.lc ∧ (joinQueue p s).1.pv = s.pv ∧
    (joinQueue p s).1.wmu = s.wmu ∧ (joinQueue p s).1.wv = s.wv ∧ (joinQueue p s).1.hu = s.hu ∧
    (joinQueue p s).1.mu = s.mu ∧ (joinQueue p s).1.ct = s.ct ∧ (joinQueue p s).1.rp = s.rp ∧
    (joinQueue p s).1.sl = s.sl ∧ (joinQueue p s).1.pending = s.pending := by
  unfold joinQueue
  dsimp only
  (repeat' split) <;> simp [apply_ite Prod.fst]

@[simp] theorem submitJudged_spares (t : Half) (n : Nat) (x : Need) (s : State) :
    (submitJudged t n x s).1.clock = s.clock ∧ (submitJudged t n x s).1.pins = s.pins ∧
    (submitJudged t n x s).1.lu = s.lu ∧ (submitJudged t n x s).1.lc = s.lc ∧
    (submitJudged t n x s).1.pv = s.pv ∧ (submitJudged t n x s).1.wmu = s.wmu ∧
    (submitJudged t n x s).1.wv = s.wv ∧ (submitJudged t n x s).1.hu = s.hu ∧
    (submitJudged t n x s).1.mu = s.mu ∧ (submitJudged t n x s).1.ct = s.ct ∧
    (submitJudged t n x s).1.rp = s.rp ∧ (submitJudged t n x s).1.sl = s.sl ∧
    (submitJudged t n x s).1.pending = s.pending := by
  unfold submitJudged
  (repeat' split) <;> simp

@[simp] theorem submitParty_spares (t : Half) (n x : Byte) (s : State) :
    (submitParty t n x s).1.clock = s.clock ∧ (submitParty t n x s).1.pins = s.pins ∧
    (submitParty t n x s).1.lu = s.lu ∧ (submitParty t n x s).1.lc = s.lc ∧
    (submitParty t n x s).1.pv = s.pv ∧ (submitParty t n x s).1.wmu = s.wmu ∧
    (submitParty t n x s).1.wv = s.wv ∧ (submitParty t n x s).1.hu = s.hu ∧
    (submitParty t n x s).1.mu = s.mu ∧ (submitParty t n x s).1.ct = s.ct ∧
    (submitParty t n x s).1.rp = s.rp ∧ (submitParty t n x s).1.sl = s.sl ∧
    (submitParty t n x s).1.pending = s.pending := by
  unfold submitParty
  (repeat' split) <;> simp

@[simp] theorem withdrawParty_spares (t : Half) (s : State) :
    (withdrawParty t s).1.clock = s.clock ∧ (withdrawParty t s).1.pins = s.pins ∧
    (withdrawParty t s).1.lc = s.lc ∧ (withdrawParty t s).1.pv = s.pv ∧
    (withdrawParty t s).1.wmu = s.wmu ∧ (withdrawParty t s).1.wv = s.wv ∧
    (withdrawParty t s).1.hu = s.hu ∧ (withdrawParty t s).1.mu = s.mu ∧
    (withdrawParty t s).1.ct = s.ct ∧ (withdrawParty t s).1.rp = s.rp ∧
    (withdrawParty t s).1.sl = s.sl ∧ (withdrawParty t s).1.pending = s.pending := by
  unfold withdrawParty
  (repeat' split) <;> simp

@[simp] theorem takeCount_spares (n : Nat) (s : State) :
    (takeCount n s).1.clock = s.clock ∧ (takeCount n s).1.pins = s.pins ∧
    (takeCount n s).1.pv = s.pv ∧ (takeCount n s).1.wmu = s.wmu ∧ (takeCount n s).1.wv = s.wv ∧
    (takeCount n s).1.ct = s.ct ∧ (takeCount n s).1.rp = s.rp ∧ (takeCount n s).1.sl = s.sl ∧
    (takeCount n s).1.pending = s.pending := by
  unfold takeCount
  dsimp only
  (repeat' split) <;> simp [apply_ite Prod.fst]

@[simp] theorem reportCount_spares (n : Byte) (s : State) :
    (reportCount n s).1.clock = s.clock ∧ (reportCount n s).1.pins = s.pins ∧
    (reportCount n s).1.pv = s.pv ∧ (reportCount n s).1.wmu = s.wmu ∧
    (reportCount n s).1.wv = s.wv ∧ (reportCount n s).1.ct = s.ct ∧ (reportCount n s).1.rp = s.rp ∧
    (reportCount n s).1.sl = s.sl ∧ (reportCount n s).1.pending = s.pending := by
  unfold reportCount
  (repeat' split) <;> simp

@[simp] theorem closeDoors_spares (s : State) :
    (closeDoors s).1.clock = s.clock ∧ (closeDoors s).1.pins = s.pins ∧
    (closeDoors s).1.pv = s.pv ∧ (closeDoors s).1.wmu = s.wmu ∧ (closeDoors s).1.wv = s.wv ∧
    (closeDoors s).1.hu = s.hu ∧ (closeDoors s).1.mu = s.mu ∧ (closeDoors s).1.ct = s.ct ∧
    (closeDoors s).1.rp = s.rp ∧ (closeDoors s).1.sl = s.sl ∧
    (closeDoors s).1.pending = s.pending := by
  unfold closeDoors
  (repeat' split) <;> simp

@[simp] theorem lineFault_spares (n : Nat) (s : State) :
    (lineFault n s).clock = s.clock ∧ (lineFault n s).pins = s.pins ∧ (lineFault n s).pv = s.pv ∧
    (lineFault n s).wmu = s.wmu ∧ (lineFault n s).wv = s.wv ∧ (lineFault n s).hu = s.hu ∧
    (lineFault n s).mu = s.mu ∧ (lineFault n s).ct = s.ct ∧ (lineFault n s).bu = s.bu ∧
    (lineFault n s).rp = s.rp ∧ (lineFault n s).sl = s.sl ∧ (lineFault n s).pending = s.pending := by
  unfold lineFault
  (repeat' split) <;> simp

@[simp] theorem endTransmission_spares (i : Bool) (x : Sending) (s : State) :
    (endTransmission i x s).clock = s.clock ∧ (endTransmission i x s).pins = s.pins ∧
    (endTransmission i x s).pv = s.pv ∧ (endTransmission i x s).wmu = s.wmu ∧
    (endTransmission i x s).wv = s.wv ∧ (endTransmission i x s).hu = s.hu ∧
    (endTransmission i x s).mu = s.mu ∧ (endTransmission i x s).ct = s.ct ∧
    (endTransmission i x s).bu = s.bu ∧ (endTransmission i x s).rp = s.rp ∧
    (endTransmission i x s).sl = s.sl ∧ (endTransmission i x s).pending = s.pending := by
  unfold endTransmission
  (repeat' split) <;> simp

@[simp] theorem setStart_spares (x : StartState) (s : State) :
    (setStart x s).clock = s.clock ∧ (setStart x s).pins = s.pins ∧ (setStart x s).lc = s.lc ∧
    (setStart x s).pv = s.pv ∧ (setStart x s).wmu = s.wmu ∧ (setStart x s).wv = s.wv ∧
    (setStart x s).hu = s.hu ∧ (setStart x s).mu = s.mu ∧ (setStart x s).ct = s.ct ∧
    (setStart x s).bu = s.bu ∧ (setStart x s).rp = s.rp ∧ (setStart x s).pending = s.pending := by
  unfold setStart
  (repeat' split) <;> simp

@[simp] theorem enterListenOnly_spares (s : State) :
    (enterListenOnly s).clock = s.clock ∧ (enterListenOnly s).pins = s.pins ∧
    (enterListenOnly s).pv = s.pv ∧ (enterListenOnly s).wmu = s.wmu ∧
    (enterListenOnly s).wv = s.wv ∧ (enterListenOnly s).hu = s.hu ∧ (enterListenOnly s).ct = s.ct ∧
    (enterListenOnly s).rp = s.rp ∧ (enterListenOnly s).pending = s.pending := by
  unfold enterListenOnly
  (repeat' split) <;> simp

@[simp] theorem foundDuplicate_spares (s : State) :
    (foundDuplicate s).clock = s.clock ∧ (foundDuplicate s).pins = s.pins ∧
    (foundDuplicate s).pv = s.pv ∧ (foundDuplicate s).wmu = s.wmu ∧ (foundDuplicate s).wv = s.wv ∧
    (foundDuplicate s).hu = s.hu ∧ (foundDuplicate s).ct = s.ct ∧ (foundDuplicate s).rp = s.rp ∧
    (foundDuplicate s).pending = s.pending := by
  unfold foundDuplicate
  (repeat' split) <;> simp

@[simp] theorem receiveDuplicate_spares (t : Telegram) (s : State) :
    (receiveDuplicate t s).clock = s.clock ∧ (receiveDuplicate t s).pins = s.pins ∧
    (receiveDuplicate t s).pv = s.pv ∧ (receiveDuplicate t s).wmu = s.wmu ∧
    (receiveDuplicate t s).wv = s.wv ∧ (receiveDuplicate t s).hu = s.hu ∧
    (receiveDuplicate t s).ct = s.ct ∧ (receiveDuplicate t s).rp = s.rp ∧
    (receiveDuplicate t s).pending = s.pending := by
  unfold receiveDuplicate
  (repeat' split) <;> simp

@[simp] theorem giveOwner_spares (t : Telegram) (s : State) :
    (giveOwner t s).1.pins = s.pins ∧ (giveOwner t s).1.pv = s.pv ∧ (giveOwner t s).1.wmu = s.wmu ∧
    (giveOwner t s).1.rp = s.rp ∧ (giveOwner t s).1.sl = s.sl ∧
    (giveOwner t s).1.pending = s.pending := by
  unfold giveOwner
  (repeat' split) <;> simp

@[simp] theorem refuseTelegram_spares (t : Telegram) (b : Bool) (s : State) :
    (refuseTelegram t b s).clock = s.clock ∧ (refuseTelegram t b s).pins = s.pins ∧
    (refuseTelegram t b s).lc = s.lc ∧ (refuseTelegram t b s).wmu = s.wmu ∧
    (refuseTelegram t b s).wv = s.wv ∧ (refuseTelegram t b s).hu = s.hu ∧
    (refuseTelegram t b s).mu = s.mu ∧ (refuseTelegram t b s).ct = s.ct ∧
    (refuseTelegram t b s).bu = s.bu ∧ (refuseTelegram t b s).rp = s.rp ∧
    (refuseTelegram t b s).sl = s.sl ∧ (refuseTelegram t b s).pending = s.pending := by
  unfold refuseTelegram
  (repeat' split) <;> simp

@[simp] theorem acceptTelegram_spares (t : Telegram) (s : State) :
    (acceptTelegram t s).pins = s.pins ∧ (acceptTelegram t s).wmu = s.wmu ∧
    (acceptTelegram t s).rp = s.rp ∧ (acceptTelegram t s).sl = s.sl ∧
    (acceptTelegram t s).pending = s.pending := by
  unfold acceptTelegram
  (repeat' split) <;> simp

@[simp] theorem ignoreTelegram_spares (t : Telegram) (s : State) :
    (ignoreTelegram t s).clock = s.clock ∧ (ignoreTelegram t s).pins = s.pins ∧
    (ignoreTelegram t s).wmu = s.wmu ∧ (ignoreTelegram t s).wv = s.wv ∧
    (ignoreTelegram t s).ct = s.ct ∧ (ignoreTelegram t s).rp = s.rp ∧
    (ignoreTelegram t s).sl = s.sl ∧ (ignoreTelegram t s).pending = s.pending := by
  unfold ignoreTelegram
  (repeat' split) <;> simp

@[simp] theorem judgeTelegram_spares (t : Telegram) (s : State) :
    (judgeTelegram t s).pins = s.pins ∧ (judgeTelegram t s).wmu = s.wmu ∧
    (judgeTelegram t s).rp = s.rp ∧ (judgeTelegram t s).sl = s.sl ∧
    (judgeTelegram t s).pending = s.pending := by
  unfold judgeTelegram
  (repeat' split) <;> simp

@[simp] theorem receive_spares (t : Telegram) (s : State) :
    (receive t s).pins = s.pins ∧ (receive t s).wmu = s.wmu ∧ (receive t s).rp = s.rp ∧
    (receive t s).pending = s.pending := by
  unfold receive
  (repeat' split) <;> simp

@[simp] theorem reportFault_spares (i g c : Nat) (s : State) :
    (reportFault i g s c).clock = s.clock ∧ (reportFault i g s c).pins = s.pins ∧
    (reportFault i g s c).lc = s.lc ∧ (reportFault i g s c).pv = s.pv ∧
    (reportFault i g s c).wmu = s.wmu ∧ (reportFault i g s c).wv = s.wv ∧
    (reportFault i g s c).hu = s.hu ∧ (reportFault i g s c).mu = s.mu ∧
    (reportFault i g s c).ct = s.ct ∧ (reportFault i g s c).bu = s.bu ∧
    (reportFault i g s c).rp = s.rp ∧ (reportFault i g s c).sl = s.sl ∧
    (reportFault i g s c).pending = s.pending := by
  unfold reportFault
  (repeat' split) <;> simp

@[simp] theorem reportFaults_spares (i : Nat) (os ns : List Channel) (s : State) :
    (reportFaults i os ns s).clock = s.clock ∧ (reportFaults i os ns s).pins = s.pins ∧
    (reportFaults i os ns s).lc = s.lc ∧ (reportFaults i os ns s).pv = s.pv ∧
    (reportFaults i os ns s).wmu = s.wmu ∧ (reportFaults i os ns s).wv = s.wv ∧
    (reportFaults i os ns s).hu = s.hu ∧ (reportFaults i os ns s).mu = s.mu ∧
    (reportFaults i os ns s).ct = s.ct ∧ (reportFaults i os ns s).bu = s.bu ∧
    (reportFaults i os ns s).rp = s.rp ∧ (reportFaults i os ns s).sl = s.sl ∧
    (reportFaults i os ns s).pending = s.pending := by
  induction os generalizing i ns s with
  | nil => simp [reportFaults]
  | cons o os ih =>
    cases ns with
    | nil => simp [reportFaults]
    | cons n ns =>
      simp only [reportFaults]
      refine ⟨?_, ?_, ?_, ?_, ?_, ?_, ?_, ?_, ?_, ?_, ?_, ?_, ?_⟩
      · exact ((ih _ _ _).1).trans (foldl_keeps State.clock (by simp) _ _)
      · exact ((ih _ _ _).2.1).trans (foldl_keeps State.pins (by simp) _ _)
      · exact ((ih _ _ _).2.2.1).trans (foldl_keeps State.lc (by simp) _ _)
      · exact ((ih _ _ _).2.2.2.1).trans (foldl_keeps State.pv (by simp) _ _)
      · exact ((ih _ _ _).2.2.2.2.1).trans (foldl_keeps State.wmu (by simp) _ _)
      · exact ((ih _ _ _).2.2.2.2.2.1).trans (foldl_keeps State.wv (by simp) _ _)
      · exact ((ih _ _ _).2.2.2.2.2.2.1).trans (foldl_keeps State.hu (by simp) _ _)
      · exact ((ih _ _ _).2.2.2.2.2.2.2.1).trans (foldl_keeps State.mu (by simp) _ _)
      · exact ((ih _ _ _).2.2.2.2.2.2.2.2.1).trans (foldl_keeps State.ct (by simp) _ _)
      · exact ((ih _ _ _).2.2.2.2.2.2.2.2.2.1).trans (foldl_keeps State.bu (by simp) _ _)
      · exact ((ih _ _ _).2.2.2.2.2.2.2.2.2.2.1).trans (foldl_keeps State.rp (by simp) _ _)
      · exact ((ih _ _ _).2.2.2.2.2.2.2.2.2.2.2.1).trans (foldl_keeps State.sl (by simp) _ _)
      · exact ((ih _ _ _).2.2.2.2.2.2.2.2.2.2.2.2).trans (foldl_keeps State.pending (by simp) _ _)


@[simp] theorem logLevel_spares (a b : Wmu) (s : State) :
    (logLevel a b s).clock = s.clock ∧ (logLevel a b s).pins = s.pins ∧
    (logLevel a b s).lc = s.lc ∧ (logLevel a b s).pv = s.pv ∧ (logLevel a b s).wmu = s.wmu ∧
    (logLevel a b s).wv = s.wv ∧ (logLevel a b s).hu = s.hu ∧ (logLevel a b s).mu = s.mu ∧
    (logLevel a b s).ct = s.ct ∧ (logLevel a b s).bu = s.bu ∧ (logLevel a b s).rp = s.rp ∧
    (logLevel a b s).sl = s.sl ∧ (logLevel a b s).pending = s.pending := by
  unfold logLevel
  (repeat' split) <;> simp

@[simp] theorem handLevelHolds_spares (a b : WindLevel) (s : State) :
    (handLevelHolds a b s).clock = s.clock ∧ (handLevelHolds a b s).pins = s.pins ∧
    (handLevelHolds a b s).pv = s.pv ∧ (handLevelHolds a b s).wmu = s.wmu ∧
    (handLevelHolds a b s).wv = s.wv ∧ (handLevelHolds a b s).ct = s.ct ∧
    (handLevelHolds a b s).rp = s.rp ∧ (handLevelHolds a b s).sl = s.sl ∧
    (handLevelHolds a b s).pending = s.pending := by
  unfold handLevelHolds
  (repeat' split) <;> simp

@[simp] theorem sendWind_spares (s : State) :
    (sendWind s).clock = s.clock ∧ (sendWind s).pins = s.pins ∧ (sendWind s).pv = s.pv ∧
    (sendWind s).wv = s.wv ∧ (sendWind s).hu = s.hu ∧ (sendWind s).mu = s.mu ∧
    (sendWind s).ct = s.ct ∧ (sendWind s).bu = s.bu ∧ (sendWind s).rp = s.rp ∧
    (sendWind s).sl = s.sl ∧ (sendWind s).pending = s.pending := by
  unfold sendWind
  (repeat' split) <;> simp

@[simp] theorem reportWind_spares (f : Bool) (s : State) :
    (reportWind f s).clock = s.clock ∧ (reportWind f s).pins = s.pins ∧
    (reportWind f s).pv = s.pv ∧ (reportWind f s).wv = s.wv ∧ (reportWind f s).hu = s.hu ∧
    (reportWind f s).mu = s.mu ∧ (reportWind f s).ct = s.ct ∧ (reportWind f s).bu = s.bu ∧
    (reportWind f s).rp = s.rp ∧ (reportWind f s).sl = s.sl ∧
    (reportWind f s).pending = s.pending := by
  unfold reportWind
  (repeat' split) <;> simp

@[simp] theorem levelAndReport_spares (o : Wmu) (s : State) :
    (levelAndReport o s).clock = s.clock ∧ (levelAndReport o s).pins = s.pins ∧
    (levelAndReport o s).pv = s.pv ∧ (levelAndReport o s).wv = s.wv ∧
    (levelAndReport o s).ct = s.ct ∧ (levelAndReport o s).rp = s.rp ∧
    (levelAndReport o s).sl = s.sl ∧ (levelAndReport o s).pending = s.pending := by
  unfold levelAndReport
  (repeat' split) <;> simp

@[simp] theorem windowClose_spares (v : BitVec 4) (s : State) :
    (windowClose v s).clock = s.clock ∧ (windowClose v s).pins = s.pins ∧
    (windowClose v s).pv = s.pv ∧ (windowClose v s).wv = s.wv ∧ (windowClose v s).ct = s.ct ∧
    (windowClose v s).rp = s.rp ∧ (windowClose v s).sl = s.sl ∧
    (windowClose v s).pending = s.pending := by
  unfold windowClose
  (repeat' split) <;> simp

@[simp] theorem takePeerFault_spares (n : Nat) (s : State) :
    (takePeerFault n s).1.clock = s.clock ∧ (takePeerFault n s).1.pins = s.pins ∧
    (takePeerFault n s).1.lu = s.lu ∧ (takePeerFault n s).1.lc = s.lc ∧
    (takePeerFault n s).1.wmu = s.wmu ∧ (takePeerFault n s).1.wv = s.wv ∧
    (takePeerFault n s).1.hu = s.hu ∧ (takePeerFault n s).1.mu = s.mu ∧
    (takePeerFault n s).1.ct = s.ct ∧ (takePeerFault n s).1.bu = s.bu ∧
    (takePeerFault n s).1.rp = s.rp ∧ (takePeerFault n s).1.sl = s.sl ∧
    (takePeerFault n s).1.pending = s.pending := by
  unfold takePeerFault
  (repeat' split) <;> simp

@[simp] theorem takeEvent_spares (s : State) :
    (takeEvent s).1.clock = s.clock ∧ (takeEvent s).1.pins = s.pins ∧ (takeEvent s).1.lc = s.lc ∧
    (takeEvent s).1.pv = s.pv ∧ (takeEvent s).1.wmu = s.wmu ∧ (takeEvent s).1.wv = s.wv ∧
    (takeEvent s).1.hu = s.hu ∧ (takeEvent s).1.mu = s.mu ∧ (takeEvent s).1.ct = s.ct ∧
    (takeEvent s).1.bu = s.bu ∧ (takeEvent s).1.rp = s.rp ∧ (takeEvent s).1.sl = s.sl ∧
    (takeEvent s).1.pending = s.pending := by
  unfold takeEvent
  (repeat' split) <;> simp

@[simp] theorem hostDeclare_spares (e c : Byte) (s : State) :
    (hostDeclare e c s).1.clock = s.clock ∧ (hostDeclare e c s).1.pins = s.pins ∧
    (hostDeclare e c s).1.pv = s.pv ∧ (hostDeclare e c s).1.wmu = s.wmu ∧
    (hostDeclare e c s).1.wv = s.wv ∧ (hostDeclare e c s).1.ct = s.ct ∧
    (hostDeclare e c s).1.rp = s.rp ∧ (hostDeclare e c s).1.sl = s.sl ∧
    (hostDeclare e c s).1.pending = s.pending := by
  unfold hostDeclare
  (repeat' split) <;> simp

@[simp] theorem releaseKey_spares (k : HoldKind) (d : Nat) (s : State) :
    (releaseKey k d s).clock = s.clock ∧ (releaseKey k d s).pins = s.pins ∧
    (releaseKey k d s).pv = s.pv ∧ (releaseKey k d s).wmu = s.wmu ∧ (releaseKey k d s).wv = s.wv ∧
    (releaseKey k d s).ct = s.ct ∧ (releaseKey k d s).rp = s.rp ∧ (releaseKey k d s).sl = s.sl ∧
    (releaseKey k d s).pending = s.pending := by
  unfold releaseKey
  (repeat' split) <;> simp

@[simp] theorem hostRelease_spares (k d : Byte) (s : State) :
    (hostRelease k d s).1.clock = s.clock ∧ (hostRelease k d s).1.pins = s.pins ∧
    (hostRelease k d s).1.pv = s.pv ∧ (hostRelease k d s).1.wmu = s.wmu ∧
    (hostRelease k d s).1.wv = s.wv ∧ (hostRelease k d s).1.ct = s.ct ∧
    (hostRelease k d s).1.rp = s.rp ∧ (hostRelease k d s).1.sl = s.sl ∧
    (hostRelease k d s).1.pending = s.pending := by
  unfold hostRelease
  dsimp only
  (repeat' split) <;> simp [apply_ite Prod.fst]

@[simp] theorem orderRide_spares (m : Byte) (s : State) :
    (orderRide m s).1.clock = s.clock ∧ (orderRide m s).1.pins = s.pins ∧
    (orderRide m s).1.pv = s.pv ∧ (orderRide m s).1.wmu = s.wmu ∧ (orderRide m s).1.wv = s.wv ∧
    (orderRide m s).1.hu = s.hu ∧ (orderRide m s).1.ct = s.ct ∧ (orderRide m s).1.bu = s.bu ∧
    (orderRide m s).1.rp = s.rp ∧ (orderRide m s).1.sl = s.sl ∧
    (orderRide m s).1.pending = s.pending := by
  unfold orderRide
  (repeat' split) <;> simp

@[simp] theorem setService_spares (c v : Byte) (s : State) :
    (setService c v s).1.clock = s.clock ∧ (setService c v s).1.pins = s.pins ∧
    (setService c v s).1.pv = s.pv ∧ (setService c v s).1.wmu = s.wmu ∧
    (setService c v s).1.wv = s.wv ∧ (setService c v s).1.hu = s.hu ∧
    (setService c v s).1.mu = s.mu ∧ (setService c v s).1.bu = s.bu ∧
    (setService c v s).1.rp = s.rp ∧ (setService c v s).1.sl = s.sl ∧
    (setService c v s).1.pending = s.pending := by
  unfold setService
  (repeat' split) <;> simp

@[simp] theorem serve_spares (r : Request) (s : State) :
    (serve r s).1.clock = s.clock ∧ (serve r s).1.pins = s.pins ∧ (serve r s).1.wmu = s.wmu ∧
    (serve r s).1.wv = s.wv ∧ (serve r s).1.rp = s.rp ∧ (serve r s).1.sl = s.sl ∧
    (serve r s).1.pending = s.pending := by
  unfold serve
  (repeat' split) <;> simp

@[simp] theorem placeAnswer_spares (c n : Byte) (v : Verdict) (s : State) :
    (placeAnswer c n v s).clock = s.clock ∧ (placeAnswer c n v s).pins = s.pins ∧
    (placeAnswer c n v s).lu = s.lu ∧ (placeAnswer c n v s).lc = s.lc ∧
    (placeAnswer c n v s).pv = s.pv ∧ (placeAnswer c n v s).wmu = s.wmu ∧
    (placeAnswer c n v s).wv = s.wv ∧ (placeAnswer c n v s).hu = s.hu ∧
    (placeAnswer c n v s).mu = s.mu ∧ (placeAnswer c n v s).ct = s.ct ∧
    (placeAnswer c n v s).bu = s.bu ∧ (placeAnswer c n v s).sl = s.sl ∧
    (placeAnswer c n v s).pending = s.pending := by
  unfold placeAnswer
  (repeat' split) <;> simp

@[simp] theorem carryOut_spares (n : Byte) (r : Request) (s : State) :
    (carryOut n r s).clock = s.clock ∧ (carryOut n r s).pins = s.pins ∧
    (carryOut n r s).wmu = s.wmu ∧ (carryOut n r s).wv = s.wv ∧ (carryOut n r s).sl = s.sl ∧
    (carryOut n r s).pending = s.pending := by
  unfold carryOut
  (repeat' split) <;> simp

@[simp] theorem putRequest_spares (n : Byte) (r : Request) (s : State) :
    (putRequest n r s).clock = s.clock ∧ (putRequest n r s).pins = s.pins ∧
    (putRequest n r s).wmu = s.wmu ∧ (putRequest n r s).wv = s.wv ∧ (putRequest n r s).sl = s.sl ∧
    (putRequest n r s).pending = s.pending := by
  unfold putRequest
  (repeat' split) <;> simp

@[simp] theorem enterSheetFault_spares (s : State) :
    (enterSheetFault s).clock = s.clock ∧ (enterSheetFault s).pins = s.pins ∧
    (enterSheetFault s).wmu = s.wmu ∧ (enterSheetFault s).wv = s.wv ∧
    (enterSheetFault s).hu = s.hu ∧ (enterSheetFault s).mu = s.mu ∧ (enterSheetFault s).ct = s.ct ∧
    (enterSheetFault s).bu = s.bu ∧ (enterSheetFault s).rp = s.rp ∧
    (enterSheetFault s).pending = s.pending := by
  unfold enterSheetFault
  (repeat' split) <;> simp

@[simp] theorem startPeers_spares (s : State) :
    (startPeers s).clock = s.clock ∧ (startPeers s).pins = s.pins ∧ (startPeers s).lu = s.lu ∧
    (startPeers s).lc = s.lc ∧ (startPeers s).wmu = s.wmu ∧ (startPeers s).wv = s.wv ∧
    (startPeers s).hu = s.hu ∧ (startPeers s).mu = s.mu ∧ (startPeers s).ct = s.ct ∧
    (startPeers s).bu = s.bu ∧ (startPeers s).rp = s.rp ∧ (startPeers s).sl = s.sl ∧
    (startPeers s).pending = s.pending := by
  unfold startPeers
  (repeat' split) <;> simp

@[simp] theorem startTables_spares (s : State) :
    (startTables s).clock = s.clock ∧ (startTables s).pins = s.pins ∧ (startTables s).lu = s.lu ∧
    (startTables s).lc = s.lc ∧ (startTables s).pv = s.pv ∧ (startTables s).wmu = s.wmu ∧
    (startTables s).wv = s.wv ∧ (startTables s).hu = s.hu ∧ (startTables s).mu = s.mu ∧
    (startTables s).rp = s.rp ∧ (startTables s).sl = s.sl ∧ (startTables s).pending = s.pending := by
  unfold startTables
  (repeat' split) <;> simp

@[simp] theorem startTimers_spares (s : State) :
    (startTimers s).clock = s.clock ∧ (startTimers s).pins = s.pins ∧ (startTimers s).lu = s.lu ∧
    (startTimers s).lc = s.lc ∧ (startTimers s).pv = s.pv ∧ (startTimers s).wv = s.wv ∧
    (startTimers s).mu = s.mu ∧ (startTimers s).ct = s.ct ∧ (startTimers s).bu = s.bu ∧
    (startTimers s).rp = s.rp ∧ (startTimers s).sl = s.sl ∧ (startTimers s).pending = s.pending := by
  unfold startTimers
  (repeat' split) <;> simp

@[simp] theorem startConditions_spares (s : State) :
    (startConditions s).clock = s.clock ∧ (startConditions s).pins = s.pins ∧
    (startConditions s).pv = s.pv ∧ (startConditions s).wmu = s.wmu ∧
    (startConditions s).ct = s.ct ∧ (startConditions s).rp = s.rp ∧ (startConditions s).sl = s.sl ∧
    (startConditions s).pending = s.pending := by
  unfold startConditions
  (repeat' split) <;> simp

@[simp] theorem enterJoining_spares (sh : Sheet) (s : State) :
    (enterJoining sh s).clock = s.clock ∧ (enterJoining sh s).pins = s.pins ∧
    (enterJoining sh s).rp = s.rp ∧ (enterJoining sh s).pending = s.pending := by
  unfold enterJoining
  (repeat' split) <;> simp

@[simp] theorem serveDeferred_spares (s : State) :
    (serveDeferred s).clock = s.clock ∧ (serveDeferred s).pins = s.pins ∧
    (serveDeferred s).wmu = s.wmu ∧ (serveDeferred s).wv = s.wv ∧ (serveDeferred s).sl = s.sl ∧
    (serveDeferred s).pending = s.pending := by
  unfold serveDeferred
  (repeat' split) <;> simp

@[simp] theorem endLoading_spares (i : Option (List Byte)) (s : State) :
    (endLoading i s).clock = s.clock ∧ (endLoading i s).pins = s.pins ∧
    (endLoading i s).pending = s.pending := by
  unfold endLoading
  dsimp only
  (repeat' split) <;> simp [apply_ite Prod.fst]

@[simp] theorem enterRunning_spares (s : State) :
    (enterRunning s).clock = s.clock ∧ (enterRunning s).pins = s.pins ∧
    (enterRunning s).wmu = s.wmu ∧ (enterRunning s).wv = s.wv ∧ (enterRunning s).hu = s.hu ∧
    (enterRunning s).bu = s.bu ∧ (enterRunning s).rp = s.rp ∧
    (enterRunning s).pending = s.pending := by
  unfold enterRunning
  (repeat' split) <;> simp

@[simp] theorem endSettling_spares (s : State) :
    (endSettling s).clock = s.clock ∧ (endSettling s).pins = s.pins ∧ (endSettling s).pv = s.pv ∧
    (endSettling s).wmu = s.wmu ∧ (endSettling s).wv = s.wv ∧ (endSettling s).ct = s.ct ∧
    (endSettling s).rp = s.rp ∧ (endSettling s).pending = s.pending := by
  unfold endSettling
  (repeat' split) <;> simp

end Sys2Proof.Machine
end

