-- ==== Sys2Proof/Laws/Units.lean ====
section
/-! SUPPORT. The log unit and the transmit queue by themselves: what each of their operations does and that
it keeps their form. -/

namespace Sys2Proof.Machine

/-! ### The log unit -/

theorem LogUnit.place_wf (e : EventEntry) {u : LogUnit} (h : u.Wf) : (u.place e).Wf := by
  obtain ⟨h1, h2, h3, h4, h5, h6, h7⟩ := h
  unfold LogUnit.place
  split
  · refine ⟨h1, h2, h3, ?_, h5, h6, ?_⟩
    · simp; omega
    · simp
  · refine ⟨h1, h2, h3, ?_, ?_, ?_, ?_⟩
    · simp; omega
    · simp
    · simp
    · simp

theorem LogUnit.write_wf (time : Stamp) (source : Nat) (k : LogKind) (o : LogOutcome) (b : List Byte)
    {u : LogUnit} (h : u.Wf) : (u.write time source k o b).Wf := by
  obtain ⟨h1, h2, h3, h4⟩ := h
  unfold LogUnit.write
  refine ⟨by simpa using h1, ?_, ?_, h4⟩
  · show (u.writePos + 1) % 256 < 256
    omega
  · intro i e he
    simp only [List.getElem?_set] at he
    split at he
    · next hi =>
      split at he
      · simp only [Option.some.injEq] at he
        subst he
        subst hi
        exact ⟨rfl, by simp [List.length_take]⟩
      · simp at he
    · exact h3 i e he

theorem LogUnit.pop_wf {u : LogUnit} (h : u.Wf) {e : EventEntry} {rest : List EventEntry}
    (hq : u.queue = e :: rest) : LogUnit.Wf { u with queue := rest, overrun := false, lost := 0 } := by
  obtain ⟨h1, h2, h3, h4, h5, h6, h7⟩ := h
  refine ⟨h1, h2, h3, ?_, by simp, by simp, by simp⟩
  rw [hq] at h4
  simp at h4
  show rest.length ≤ 32
  omega

/-! ### The transmit queue -/

theorem mem_insertEntry (e x : QEntry) (l : List QEntry) : x ∈ insertEntry e l ↔ x = e ∨ x ∈ l := by
  induction l with
  | nil => simp [insertEntry]
  | cons y ys ih =>
    unfold insertEntry
    split
    · simp
    · simp only [List.mem_cons, ih]
      tauto

theorem insertEntry_perm (e : QEntry) (l : List QEntry) : (insertEntry e l).Perm (e :: l) := by
  induction l with
  | nil => exact List.Perm.refl _
  | cons y ys ih =>
    unfold insertEntry
    split
    · exact List.Perm.refl _
    · exact (ih.cons y).trans (List.Perm.swap e y ys)

theorem before_trans {a b c : QEntry} (h : a.before b = true) (k : b.before c = true) :
    a.before c = true := by
  simp only [QEntry.before, Bool.or_eq_true, Bool.and_eq_true, decide_eq_true_eq, beq_iff_eq] at *
  omega

theorem before_total {a b : QEntry} (hn : a.no ≠ b.no) (h : a.before b = false) : b.before a = true := by
  simp only [QEntry.before, Bool.or_eq_false_iff, Bool.and_eq_false_iff, decide_eq_false_iff_not,
    Bool.or_eq_true, Bool.and_eq_true, decide_eq_true_eq, beq_iff_eq, beq_eq_false_iff_ne] at *
  omega

theorem insertEntry_sorted (e : QEntry) {l : List QEntry} (hn : ∀ x ∈ l, x.no ≠ e.no)
    (h : l.Pairwise (fun a b => a.before b = true)) :
    (insertEntry e l).Pairwise (fun a b => a.before b = true) := by
  induction l with
  | nil => simp [insertEntry]
  | cons y ys ih =>
    obtain ⟨hy, hys⟩ := List.pairwise_cons.mp h
    unfold insertEntry
    split
    · next hb =>
      refine List.pairwise_cons.mpr ⟨?_, h⟩
      intro z hz
      rcases List.mem_cons.mp hz with rfl | hz
      · exact hb
      · exact before_trans hb (hy z hz)
    · next hb =>
      refine List.pairwise_cons.mpr ⟨?_, ih (fun x hx => hn x (List.mem_cons_of_mem _ hx)) hys⟩
      intro z hz
      rcases (mem_insertEntry e z ys).mp hz with rfl | hz
      · exact before_total (Ne.symm (hn y (List.mem_cons_self ..))) (by simpa using hb)
      · exact hy z hz

theorem Link.push_wf (p : Payload) (r : Bool) {l : Link} (h : l.Wf) (hl : l.queue.length < 8) :
    (l.push p r).Wf := by
  obtain ⟨h1, h2, h3, h4, h5, h6⟩ := h
  have hperm := insertEntry_perm { no := l.nextEntry, payload := p, refresh := r } l.queue
  unfold Link.push
  refine ⟨?_, insertEntry_sorted _ (fun x hx => Nat.ne_of_lt (h4 x hx)) h2, ?_, ?_, ?_, h6⟩
  · show (insertEntry _ _).length ≤ 8
    rw [hperm.length_eq]
    simp; omega
  · refine ((hperm.map QEntry.no).nodup_iff).mpr ?_
    simp only [List.map_cons, List.nodup_cons]
    refine ⟨?_, h3⟩
    intro hm
    obtain ⟨x, hx, hxn⟩ := List.mem_map.mp hm
    exact absurd hxn (Nat.ne_of_lt (h4 x hx))
  · intro x hx
    show x.no < l.nextEntry + 1
    rcases (mem_insertEntry _ x l.queue).mp hx with rfl | hx
    · exact Nat.lt_succ_self _
    · exact Nat.lt_succ_of_lt (h4 x hx)
  · intro x hx
    obtain ⟨e, he, hn⟩ := h5 x hx
    exact ⟨e, (mem_insertEntry _ e l.queue).mpr (Or.inr he), hn⟩

/-- Entries may leave the queue as long as the one being transmitted stays. -/
theorem Link.filter_wf (f : QEntry → Bool) {l : Link} (h : l.Wf)
    (hs : ∀ x, l.sending = some x → ∀ e ∈ l.queue, e.no = x.no → f e = true) :
    Link.Wf { l with queue := l.queue.filter f } := by
  obtain ⟨h1, h2, h3, h4, h5, h6⟩ := h
  refine ⟨(List.length_filter_le _ _).trans h1, h2.filter _,
    h3.sublist (List.filter_sublist.map _), ?_, ?_, h6⟩
  · intro e he
    exact h4 e (List.mem_of_mem_filter he)
  · intro x hx
    obtain ⟨e, he, hn⟩ := h5 x hx
    exact ⟨e, List.mem_filter.mpr ⟨he, hs x hx e he hn⟩, hn⟩

theorem waiting_not_sending {l : Link} {e : QEntry} (he : e ∈ l.waiting) {x : Sending}
    (hx : l.sending = some x) : e.no ≠ x.no := by
  have := (List.mem_filter.mp he).2
  simpa [Link.isWaiting, hx] using this

theorem Link.dropWaiting_wf {l : Link} (h : l.Wf) {e : QEntry} (he : e ∈ l.waiting) :
    (l.dropEntry e.no).Wf := by
  refine Link.filter_wf _ h ?_
  intro x hx d _ hn
  have := waiting_not_sending he hx
  simp only [bne_iff_ne, ne_eq, hn]
  exact fun hd => this hd.symm

theorem Link.dropEntry_length {l : Link} {e : QEntry} (he : e ∈ l.queue) :
    (l.dropEntry e.no).queue.length < l.queue.length := by
  unfold Link.dropEntry
  refine List.length_filter_lt_length_iff_exists.mpr ⟨e, he, by simp⟩

theorem Link.dropRefreshes_wf (k : Byte) {l : Link} (h : l.Wf) : (l.dropRefreshes k).Wf := by
  refine Link.filter_wf _ h ?_
  intro x hx e _ hn
  have : l.isWaiting e = false := by simp [Link.isWaiting, hx, hn]
  simp [this]

theorem Link.beforeJoin_wf (p : Payload) {l : Link} (h : l.Wf) : (l.beforeJoin p).Wf := by
  unfold Link.beforeJoin
  split
  · split
    · exact Link.dropRefreshes_wf _ h
    · exact h
  · exact h

/-- A telegram supersedes one of its own kind only. -/
theorem supersedes_kind {p : Payload} {r : Bool} {e : QEntry} (h : supersedes p r e = true) :
    payloadKind p = payloadKind e.payload := by
  unfold supersedes at h
  split at h
  · next a b hb => simp [hb, payloadKind]
  · simp only [Bool.and_eq_true, beq_iff_eq] at h
    exact h.2

theorem Link.replace_wf (p : Payload) (r : Bool) {l : Link} (h : l.Wf) {old : QEntry}
    (ho : old ∈ l.queue) (hs : supersedes p r old = true) : (l.replace old.no p r).Wf := by
  obtain ⟨h1, h2, h3, h4, h5, h6⟩ := h
  have hold : ∀ e ∈ l.queue, e.no = old.no → e = old := fun e he hn =>
    List.inj_on_of_nodup_map h3 he ho hn
  have key : ∀ e ∈ l.queue, ∀ e', (if e.no == old.no then some { e with payload := p }
      else if l.isWaiting e && supersedes p r e then none else some e) = some e' →
      e'.no = e.no ∧ e'.cls = e.cls := by
    intro e he e' hh
    split at hh
    · next hn =>
      have := hold e he (by simpa using hn)
      subst this
      simp only [Option.some.injEq] at hh
      subst hh
      exact ⟨rfl, by simp [QEntry.cls, supersedes_kind hs]⟩
    · split at hh
      · simp at hh
      · simp only [Option.some.injEq] at hh
        subst hh
        exact ⟨rfl, rfl⟩
  unfold Link.replace
  refine ⟨(List.length_filterMap_le _ _).trans h1, ?_, ?_, ?_, ?_, h6⟩
  · refine List.pairwise_filterMap.mpr ?_
    refine h2.imp_of_mem ?_
    intro a b ha hb hab a' ha' b' hb'
    obtain ⟨na, ca⟩ := key a ha a' ha'
    obtain ⟨nb, cb⟩ := key b hb b' hb'
    simpa [QEntry.before, na, ca, nb, cb] using hab
  · rw [List.Nodup, List.pairwise_map, List.pairwise_filterMap]
    rw [List.Nodup, List.pairwise_map] at h3
    refine h3.imp_of_mem ?_
    intro a b ha hb hab a' ha' b' hb'
    rw [(key a ha a' ha').1, (key b hb b' hb').1]
    exact hab
  · intro e' he'
    obtain ⟨e, he, hh⟩ := List.mem_filterMap.mp he'
    rw [(key e he e' hh).1]
    exact h4 e he
  · intro x hx
    obtain ⟨e, he, hn⟩ := h5 x hx
    by_cases hen : e.no = old.no
    · exact ⟨{ e with payload := p }, List.mem_filterMap.mpr ⟨e, he, by simp [hen]⟩, hn⟩
    · refine ⟨e, List.mem_filterMap.mpr ⟨e, he, ?_⟩, hn⟩
      have hs : l.sending = some x := hx
      have hw : l.isWaiting e = false := by simp [Link.isWaiting, hs, hn]
      simp [hen, hw]

theorem Link.countError_wf {l : Link} (h : l.Wf) : l.countError.Wf := by
  obtain ⟨h1, h2, h3, h4, h5, h6⟩ := h
  exact ⟨h1, h2, h3, h4, h5, Nat.min_le_left _ _⟩

/-- Ending a transmission leaves the form. -/
theorem Link.idle_wf {l : Link} (h : l.Wf) : Link.Wf { l with sending := none } := by
  obtain ⟨h1, h2, h3, h4, h5, h6⟩ := h
  exact ⟨h1, h2, h3, h4, by simp, h6⟩

theorem Link.echoIntact_wf (x : Sending) {l : Link} (h : l.Wf) : (l.echoIntact x).Wf := by
  obtain ⟨h1, h2, h3, h4, h5, h6⟩ := Link.filter_wf (fun e => e.no != x.no) (Link.idle_wf h) (by simp)
  exact ⟨h1, h2, h3, h4, by simp [Link.echoIntact], h6⟩

theorem Link.echoFailed_wf (x : Sending) {l : Link} (h : l.Wf) : (l.echoFailed x).Wf := by
  unfold Link.echoFailed
  dsimp only
  obtain ⟨h1, h2, h3, h4, h5, h6⟩ := Link.filter_wf (fun e => e.no != x.no) (Link.idle_wf h) (by simp)
  obtain ⟨g1, g2, g3, g4, g5, g6⟩ := h
  split
  · exact ⟨h1, h2, h3, h4, by simp, Nat.min_le_left _ _⟩
  · exact ⟨g1, g2, g3, g4, by simp, Nat.min_le_left _ _⟩

end Sys2Proof.Machine
end

