-- ==== Sys2Proof/Laws/HoldSet.lean ====
section
/-! SUPPORT. The hold set (section 5.2): what each operation on records leaves of the records, the own-hold
list and the effective effect. -/

namespace Sys2Proof.Machine

/-! ### Operations that only use the set -/

@[simp] theorem endWatch_set (n : Nat) (ns : List Nat) (s : State) :
    (endWatch n ns s).hu.records = s.hu.records ∧ (endWatch n ns s).hu.own = s.hu.own ∧
    (endWatch n ns s).hu.effect = s.hu.effect := by
  unfold endWatch
  simp

@[simp] theorem startWatch_set (s : State) :
    (startWatch s).hu.records = s.hu.records ∧ (startWatch s).hu.own = s.hu.own ∧
    (startWatch s).hu.effect = s.hu.effect := by
  unfold startWatch
  dsimp only
  split <;> simp

@[simp] theorem completeEmptyDown_set (t : Bool) (s : State) :
    (completeEmptyDown t s).hu.records = s.hu.records ∧ (completeEmptyDown t s).hu.own = s.hu.own ∧
    (completeEmptyDown t s).hu.effect = s.hu.effect := by
  unfold completeEmptyDown
  dsimp only
  cases t <;> simp

@[simp] theorem testEmptyDown_set (s : State) :
    (testEmptyDown s).hu.records = s.hu.records ∧ (testEmptyDown s).hu.own = s.hu.own ∧
    (testEmptyDown s).hu.effect = s.hu.effect := by
  unfold testEmptyDown
  split <;> simp

@[simp] theorem emptyDownOnEffect_set (a b : Effect) (s : State) :
    (emptyDownOnEffect a b s).hu.records = s.hu.records ∧
    (emptyDownOnEffect a b s).hu.own = s.hu.own ∧
    (emptyDownOnEffect a b s).hu.effect = s.hu.effect := by
  unfold emptyDownOnEffect
  (repeat' split) <;> simp

@[simp] theorem handOnEffect_set (a b : Effect) (s : State) :
    (handOnEffect a b s).hu.records = s.hu.records ∧ (handOnEffect a b s).hu.own = s.hu.own ∧
    (handOnEffect a b s).hu.effect = s.hu.effect := by
  unfold handOnEffect
  (repeat' split) <;> simp

@[simp] theorem refreshHoldLamp_set (s : State) :
    (refreshHoldLamp s).hu.records = s.hu.records ∧ (refreshHoldLamp s).hu.own = s.hu.own ∧
    (refreshHoldLamp s).hu.effect = s.hu.effect := by
  unfold refreshHoldLamp
  split <;> simp

/-! ### Operations on records -/

@[simp] theorem formEffect_set (s : State) :
    (formEffect s).hu.records = s.hu.records ∧ (formEffect s).hu.own = s.hu.own ∧
    (formEffect s).hu.effect = severest s.hu.records := by
  unfold formEffect
  dsimp only
  split
  · next h => exact ⟨rfl, rfl, h.symm⟩
  · simp

@[simp] theorem afterRecords_set (s : State) :
    (afterRecords s).hu.records = s.hu.records ∧ (afterRecords s).hu.own = s.hu.own ∧
    (afterRecords s).hu.effect = severest s.hu.records := by
  unfold afterRecords
  simp

theorem removeRecord_set (k : HoldKind) (d : Nat) (s : State) :
    (removeRecord k d s).hu.records = s.hu.records.filter (fun r => !r.hasKey k d) ∧
    (removeRecord k d s).hu.own = s.hu.own ∧
    (removeRecord k d s).hu.effect = severest (s.hu.records.filter (fun r => !r.hasKey k d)) := by
  unfold removeRecord
  simp

theorem insertRecord_set (r : HoldRec) (s : State) :
    (insertRecord r s).hu.records = s.hu.records ++ [r] ∧ (insertRecord r s).hu.own = s.hu.own ∧
    (insertRecord r s).hu.effect = severest (s.hu.records ++ [r]) := by
  unfold insertRecord
  simp

theorem updateRecord_set (k : HoldKind) (d : Nat) (f : HoldRec → HoldRec) (s : State) :
    (updateRecord k d f s).hu.records = s.hu.records.map (fun r => if r.hasKey k d then f r else r) ∧
    (updateRecord k d f s).hu.own = s.hu.own ∧
    (updateRecord k d f s).hu.effect
      = severest (s.hu.records.map (fun r => if r.hasKey k d then f r else r)) := by
  unfold updateRecord
  simp

/-- Admission (R77): the record is appended; or the mildest record gives way to it; or it is dropped. -/
theorem admitHold_set (r : HoldRec) (s : State) :
    (admitHold r s).hu.own = s.hu.own ∧
    ((s.hu.records.length < 16 ∧ (admitHold r s).hu.records = s.hu.records ++ [r] ∧
        (admitHold r s).hu.effect = severest (s.hu.records ++ [r])) ∨
      (16 ≤ s.hu.records.length ∧ ∃ m, mildest s.hu.records = some m ∧
        effectCode m.effect < effectCode r.effect ∧
        (admitHold r s).hu.records
          = s.hu.records.filter (fun x => !x.hasKey m.kind m.declarer) ++ [r] ∧
        (admitHold r s).hu.effect
          = severest (s.hu.records.filter (fun x => !x.hasKey m.kind m.declarer) ++ [r])) ∨
      (16 ≤ s.hu.records.length ∧ (∀ m, mildest s.hu.records = some m →
          effectCode r.effect ≤ effectCode m.effect) ∧
        (admitHold r s).hu.records = s.hu.records ∧ (admitHold r s).hu.effect = s.hu.effect)) := by
  unfold admitHold
  split
  · next h => simp [h, insertRecord_set]
  · next h =>
    have h16 : 16 ≤ s.hu.records.length := Nat.le_of_not_lt h
    split
    · next m hm =>
      split
      · next hlt =>
        refine ⟨by simp [insertRecord_set, removeRecord_set], Or.inr (Or.inl ⟨h16, m, hm, hlt,
          by simp [insertRecord_set, removeRecord_set], by simp [insertRecord_set, removeRecord_set]⟩)⟩
      · next hlt =>
        refine ⟨by simp, Or.inr (Or.inr ⟨h16, ?_, by simp, by simp⟩)⟩
        intro m' hm'
        rw [hm] at hm'
        cases hm'
        exact Nat.le_of_not_lt hlt
    · next hm =>
      refine ⟨rfl, Or.inr (Or.inr ⟨h16, ?_, rfl, rfl⟩)⟩
      intro m' hm'
      rw [hm] at hm'
      cases hm'

theorem mildest_mem {l : List HoldRec} {m : HoldRec} (h : mildest l = some m) : m ∈ l := by
  induction l generalizing m with
  | nil => simp [mildest] at h
  | cons r rs ih =>
    unfold mildest at h
    split at h
    · simp at h
      simp [h]
    · next x hx =>
      split at h <;> simp only [Option.some.injEq] at h <;> subst h
      · exact List.mem_cons_of_mem _ (ih hx)
      · exact List.mem_cons_self ..

/-! ### The form of the set -/

theorem hasKey_iff (k : HoldKind) (d : Nat) (r : HoldRec) :
    r.hasKey k d = true ↔ (r.kind, r.declarer) = (k, d) := by
  simp [HoldRec.hasKey]

theorem find_none_iff (k : HoldKind) (d : Nat) (u : HoldUnit) :
    (u.find? k d).isNone ↔ (k, d) ∉ u.records.map (fun r => (r.kind, r.declarer)) := by
  simp only [HoldUnit.find?, Option.isNone_iff_eq_none, List.find?_eq_none, hasKey_iff, List.mem_map,
    not_exists, not_and]

theorem own_none_iff (k : HoldKind) (u : HoldUnit) :
    (u.own? k).isNone ↔ k ∉ u.own.map OwnHold.kind := by
  simp [HoldUnit.own?]

/-- The form depends on the records, the own list and the effect alone. -/
theorem HoldUnit.wf_of {u v : HoldUnit} (h : u.Wf) (h1 : v.records = u.records) (h2 : v.own = u.own)
    (h3 : v.effect = u.effect) : v.Wf := by
  unfold HoldUnit.Wf at *
  rw [h1, h2, h3]
  exact h

theorem removeRecord_hold (k : HoldKind) (d : Nat) {s : State} (h : s.hu.Wf) :
    (removeRecord k d s).hu.Wf := by
  obtain ⟨h1, h2, h3, h4⟩ := h
  refine ⟨?_, ?_, ?_, ?_⟩
  · simp only [removeRecord_set]
    exact (List.length_filter_le _ _).trans h1
  · simp only [removeRecord_set]
    exact h2.sublist (List.filter_sublist.map _)
  · simp only [removeRecord_set]
  · simpa only [removeRecord_set] using h4

theorem updateRecord_hold (k : HoldKind) (d : Nat) (f : HoldRec → HoldRec) {s : State} (h : s.hu.Wf)
    (hf : ∀ r, (f r).kind = r.kind ∧ (f r).declarer = r.declarer) : (updateRecord k d f s).hu.Wf := by
  obtain ⟨h1, h2, h3, h4⟩ := h
  refine ⟨?_, ?_, ?_, ?_⟩
  · simpa [updateRecord_set] using h1
  · simp only [updateRecord_set, List.map_map]
    have : ((fun r : HoldRec => (r.kind, r.declarer)) ∘ fun r => if r.hasKey k d then f r else r)
        = fun r => (r.kind, r.declarer) := by
      funext r
      simp only [Function.comp]
      split
      · rw [(hf r).1, (hf r).2]
      · rfl
    rw [this]
    exact h2
  · simp only [updateRecord_set]
  · simpa only [updateRecord_set] using h4

theorem admitHold_hold {r : HoldRec} {s : State} (h : s.hu.Wf) (hk : s.hu.find? r.kind r.declarer = none) :
    (admitHold r s).hu.Wf := by
  obtain ⟨h1, h2, h3, h4⟩ := h
  have hnot := (find_none_iff r.kind r.declarer s.hu).mp (by simp [hk])
  obtain ⟨ho, ⟨hl, hr, he⟩ | ⟨hl, m, hm, _, hr, he⟩ | ⟨_, _, hr, he⟩⟩ := admitHold_set r s
  · refine ⟨by rw [hr]; simp; omega, ?_, by rw [hr, he], by rw [ho]; exact h4⟩
    rw [hr, List.map_append, List.nodup_append]
    exact ⟨h2, by simp, by intro a ha b hb; simp at hb; subst hb; rintro rfl; exact hnot ha⟩
  · have hlt : (s.hu.records.filter (fun x => !x.hasKey m.kind m.declarer)).length
        < s.hu.records.length :=
      List.length_filter_lt_length_iff_exists.mpr ⟨m, mildest_mem hm, by simp [HoldRec.hasKey]⟩
    refine ⟨by rw [hr]; simp; omega, ?_, by rw [hr, he], by rw [ho]; exact h4⟩
    rw [hr, List.map_append, List.nodup_append]
    refine ⟨h2.sublist (List.filter_sublist.map _), by simp, ?_⟩
    intro a ha b hb
    simp at hb
    subst hb
    rintro rfl
    exact hnot ((List.filter_sublist.map _).subset ha)
  · exact ⟨by rw [hr]; exact h1, by rw [hr]; exact h2, by rw [hr, he]; exact h3, by rw [ho]; exact h4⟩

end Sys2Proof.Machine
end

