-- ==== Sys2Proof/Laws/Forms.lean ====
section
/-! SUPPORT. The invariants of Safety.lean as properties of the fields that they speak of, so that an
update of any other field drops out by rewriting. -/

namespace Sys2Proof.Machine

/-- HoldUnit.Wf by fields. -/
def HoldForm (records : List HoldRec) (effect : Effect) (own : List OwnHold) : Prop :=
  records.length ≤ 16 ∧ (records.map (fun r => (r.kind, r.declarer))).Nodup
    ∧ effect = severest records ∧ (own.map OwnHold.kind).Nodup

theorem holdForm_iff (u : HoldUnit) : u.Wf ↔ HoldForm u.records u.effect u.own := Iff.rfl

/-- DRIVING or STOPPING. -/
def movingState (m : MotionState) : Bool := m == .driving || m == .stopping

/-- MotionUnit.Wf by fields. -/
def MotionForm (motion : MotionState) (inv brake listen : Bool) (reference missed still : Nat) : Prop :=
  (motion = .fault ↔ (inv || brake || listen) = true) ∧ (movingState motion = false → reference = 0)
    ∧ missed ≤ 3 ∧ still ≤ 10

theorem motionForm_iff (m : MotionUnit) :
    m.Wf ↔ MotionForm m.motion m.invCause m.brakeCause m.listenCause m.reference m.missed m.still := Iff.rfl

/-- BayUnit.Wf by fields. -/
def PartyForm (queue : List Party) (state : WindowState) (matched : List Party) (grace : Bool) : Prop :=
  queue.length + (if state = .arriving then matched.length else 0) ≤ 16
    ∧ matched.length ≤ 4 ∧ (grace = true → matched = []) ∧ ((queue ++ matched).map Party.tag).Nodup

theorem partyForm_iff (b : BayUnit) :
    b.Wf ↔ PartyForm b.queue b.window.state b.window.matched b.window.grace := Iff.rfl

/-- One cabin record's part of CabinTable.Wf. -/
def CabinOk (c : Cabin) : Prop := c.laps ≤ 3 ∧ ∀ n, c.riders = some n → n ≤ c.capacity

/-- Every cabin record's part. -/
def CabinsOk (cabins : List Cabin) : Prop := ∀ c ∈ cabins, CabinOk c

/-- CabinTable.Wf by fields. -/
def CabinForm (occupied : Nat) (cabins : List Cabin) : Prop :=
  occupied = occupiedOf cabins ∧ CabinsOk cabins

theorem cabinForm_iff (t : CabinTable) : t.Wf ↔ CabinForm t.occupied t.cabins := Iff.rfl

/-- PeerView.Wf by fields. -/
def PeerForm (table : List Peer) : Prop :=
  table.length = 24 ∧ ∀ p ∈ table, p.gaps ≤ 255 ∧ p.unanswered ≤ 15

theorem peerForm_iff (v : PeerView) : v.Wf ↔ PeerForm v.table := Iff.rfl

/-- Link.Wf by fields. -/
def LinkForm (queue : List QEntry) (nextEntry : Nat) (sending : Option Sending) (rxErrors : Nat) : Prop :=
  queue.length ≤ 8 ∧ queue.Pairwise (fun a b => a.before b = true) ∧ (queue.map QEntry.no).Nodup
    ∧ (∀ e ∈ queue, e.no < nextEntry) ∧ (∀ x, sending = some x → ∃ e ∈ queue, e.no = x.no)
    ∧ rxErrors ≤ 65535

theorem linkForm_iff (l : Link) : l.Wf ↔ LinkForm l.queue l.nextEntry l.sending l.rxErrors := Iff.rfl

/-- Wmu.Wf by fields. -/
def WmuForm (channels : List Channel) (windows : Nat) : Prop :=
  channels.length = 4 ∧ (∀ c ∈ channels, c.Wf) ∧ windows ≤ 12

theorem wmuForm_iff (w : Wmu) : w.Wf ↔ WmuForm w.channels w.windows := Iff.rfl

/-! ### The cabin table's records -/

theorem occupiedOf_modify (cs : List Cabin) (i : Nat) (f : Cabin → Cabin) (hf : ∀ c, (f c).state = c.state) :
    occupiedOf (cs.modify i f) = occupiedOf cs := by
  unfold occupiedOf
  induction cs generalizing i with
  | nil => cases i <;> rfl
  | cons c cs ih =>
    cases i with
    | zero => simp [List.countP_cons, hf]
    | succ i => simp [List.countP_cons, ih]

theorem CabinsOk.modify {cs : List Cabin} (h : CabinsOk cs) (i : Nat) (f : Cabin → Cabin)
    (hf : ∀ c, CabinOk c → CabinOk (f c)) : CabinsOk (cs.modify i f) := by
  induction cs generalizing i with
  | nil => cases i <;> exact h
  | cons c cs ih =>
    have hc := h c (List.mem_cons_self ..)
    have hs : CabinsOk cs := fun d hd => h d (List.mem_cons_of_mem _ hd)
    intro d hd
    cases i with
    | zero =>
      rcases List.mem_cons.mp (by simpa using hd) with rfl | hd
      · exact hf c hc
      · exact hs d hd
    | succ i =>
      rcases List.mem_cons.mp (by simpa using hd) with rfl | hd
      · exact hc
      · exact ih hs i d hd

theorem CabinOk.applyResult {c : Cabin} (h : CabinOk c) (r : PassResult) (p : Passage) (now : Stamp) :
    CabinOk (c.applyResult r p now) := by
  obtain ⟨h1, h2⟩ := h
  cases r <;> simp only [Cabin.applyResult]
  case cleared => exact ⟨Nat.zero_le _, by simp [Cabin.cleared]⟩
  case passedEmpty => exact ⟨Nat.zero_le _, by simp [Cabin.cleared]⟩
  case heldOver => exact ⟨Nat.min_le_left _ _, h2⟩
  case loadedFound => exact ⟨by simp, by simp⟩
  case passed => exact ⟨h1, h2⟩
  case boarded =>
    split
    · refine ⟨Nat.zero_le _, ?_⟩
      intro n hn
      simp only [clampRiders, Option.map_eq_some_iff] at hn
      obtain ⟨m, _, rfl⟩ := hn
      exact Nat.min_le_right _ _
    · exact ⟨h1, by simp⟩
    · exact ⟨h1, by simp⟩
    · exact ⟨h1, h2⟩

/-! ### The parties -/

/-- A window that is no longer ARRIVING keeps its parties outside the count. -/
theorem PartyForm.leave {q m : List Party} {st : WindowState} {g : Bool} (h : PartyForm q st m g)
    {st' : WindowState} (hs : st' ≠ .arriving) : PartyForm q st' m g := by
  obtain ⟨h1, h2, h3, h4⟩ := h
  refine ⟨?_, h2, h3, h4⟩
  rw [if_neg hs]
  omega

/-- A window without parties. -/
theorem PartyForm.bare {q m : List Party} {st : WindowState} {g : Bool} (h : PartyForm q st m g)
    (st' : WindowState) (g' : Bool) : PartyForm q st' [] g' := by
  obtain ⟨h1, h2, h3, h4⟩ := h
  refine ⟨?_, Nat.zero_le _, fun _ => rfl, ?_⟩
  · simp only [List.length_nil, ite_self]
    omega
  · rw [List.map_append, List.nodup_append] at h4
    simpa using h4.1

/-- The grace ends. -/
theorem PartyForm.calm {q m : List Party} {st : WindowState} {g : Bool} (h : PartyForm q st m g) :
    PartyForm q st m false := ⟨h.1, h.2.1, by simp, h.2.2.2⟩

/-- The walk shares the parties out: what stays queued and what is matched are together what was there. -/
theorem matchWalk_perm (cls : CabinClass) (sharing : Bool) (limit left : Nat) (matched ps : List Party) :
    (((matchWalk cls sharing limit left matched ps).1 ++
        (matchWalk cls sharing limit left matched ps).2.1).map Party.tag).Perm
      ((ps ++ matched).map Party.tag) := by
  induction ps generalizing left matched with
  | nil => simp [matchWalk]
  | cons p ps ih =>
    have hsk : (p.skip limit).tag = p.tag := rfl
    unfold matchWalk
    split
    · split
      · rw [List.perm_iff_count]
        intro a
        simp only [List.map_append, List.map_cons, List.map_nil, List.cons_append, List.count_append,
          List.count_cons, List.count_nil]
        omega
      · refine (ih _ _).trans ?_
        rw [List.perm_iff_count]
        intro a
        simp only [List.map_append, List.map_cons, List.map_nil, List.cons_append, List.count_append,
          List.count_cons, List.count_nil]
        omega
    · split
      · exact List.Perm.refl _
      · split
        · split
          · simp [hsk]
          · simpa [hsk] using ih left matched
        · simpa using ih left matched

/-- At most four parties are matched. -/
theorem matchWalk_four (cls : CabinClass) (sharing : Bool) (limit left : Nat) (matched ps : List Party)
    (h : matched.length ≤ 3) : (matchWalk cls sharing limit left matched ps).2.1.length ≤ 4 := by
  induction ps generalizing left matched with
  | nil => simp [matchWalk]; omega
  | cons p ps ih =>
    unfold matchWalk
    split
    · split
      · simp; omega
      · next hw =>
        refine ih _ _ ?_
        have : (matched ++ [p]).length ≠ 4 := by
          intro h4
          exact hw (by simp [walkStops, h4])
        simp at this ⊢
        omega
    · split
      · simp; omega
      · split
        · split
          · simp; omega
          · exact ih _ _ h
        · exact ih _ _ h

/-! ### The operations on records, by fields -/

@[simp] theorem removeRecord_form (k : HoldKind) (d : Nat) (s : State)
    (h : HoldForm s.hu.records s.hu.effect s.hu.own) :
    HoldForm (removeRecord k d s).hu.records (removeRecord k d s).hu.effect
      (removeRecord k d s).hu.own := removeRecord_hold k d h

@[simp] theorem updateRecord_form (k : HoldKind) (d : Nat) (f : HoldRec → HoldRec) (s : State)
    (h : HoldForm s.hu.records s.hu.effect s.hu.own)
    (hf : ∀ r, (f r).kind = r.kind ∧ (f r).declarer = r.declarer) :
    HoldForm (updateRecord k d f s).hu.records (updateRecord k d f s).hu.effect
      (updateRecord k d f s).hu.own := updateRecord_hold k d f h hf

@[simp] theorem admitHold_form (r : HoldRec) (s : State) (h : HoldForm s.hu.records s.hu.effect s.hu.own)
    (hk : s.hu.find? r.kind r.declarer = none) :
    HoldForm (admitHold r s).hu.records (admitHold r s).hu.effect (admitHold r s).hu.own := admitHold_hold h hk

/-- A fold over states keeps a property that each of its steps keeps. -/
theorem foldl_inv {α : Type} {P : State → Prop} {f : State → α → State} (h : ∀ s a, P s → P (f s a))
    (l : List α) {s : State} (hs : P s) : P (l.foldl f s) := by
  induction l generalizing s with
  | nil => exact hs
  | cons a l ih => exact ih (h s a hs)

end Sys2Proof.Machine
end

