-- ==== Sys2Proof/Laws/Keep.lean ====
section
/-! SUPPORT. Every operation of the model keeps the bounds and forms of Safety.lean: one lemma for each operation,
which the lemmas about exec and step cite. -/

namespace Sys2Proof.Machine

/-- The record of a station number meets the bounds. -/
theorem peer_form {s : State} (h : PeerForm s.pv.table) (n : Nat) :
    (s.peer n).gaps ≤ 255 ∧ (s.peer n).unanswered ≤ 15 := by
  unfold State.peer
  by_cases hn : n < s.pv.table.length
  · rw [List.getD_eq_getElem _ _ hn]
    exact h.2 _ (List.getElem_mem hn)
  · rw [List.getD_eq_default _ _ (Nat.le_of_not_lt hn)]
    exact ⟨Nat.zero_le _, Nat.zero_le _⟩

@[simp] theorem setPeer_keeps (n : Nat) (p : Peer) (s : State) (hp : p.gaps ≤ 255 ∧ p.unanswered ≤ 15)
    (h : PeerForm s.pv.table) : PeerForm (s.setPeer n p).pv.table := by
  unfold State.setPeer
  simp only [onPv_blocks]
  refine ⟨by simpa using h.1, ?_⟩
  intro q hq
  rcases List.mem_or_eq_of_mem_set hq with hq | rfl
  · exact h.2 q hq
  · exact hp

@[simp] theorem onPeer_keeps (n : Nat) (f : Peer → Peer) (s : State)
    (hf : ∀ p : Peer, p.gaps ≤ 255 ∧ p.unanswered ≤ 15 → (f p).gaps ≤ 255 ∧ (f p).unanswered ≤ 15)
    (h : PeerForm s.pv.table) : PeerForm (s.onPeer n f).pv.table :=
  setPeer_keeps n _ s (hf _ (peer_form h n)) h

@[simp] theorem raise_keeps (c : EventCode) (p : Nat) (s : State) :
    s.lu.Wf → (raise c p s).lu.Wf := by
  intro h
  unfold raise
  split
  · exact h
  · exact LogUnit.place_wf _ h

@[simp] theorem writeEntry_keeps (n : Nat) (k : LogKind) (o : LogOutcome) (b : List Byte) (s : State) :
    s.lu.Wf → (writeEntry n k o b s).lu.Wf := by
  intro h
  have hw := LogUnit.write_wf s.time n k o b h
  unfold writeEntry
  dsimp only
  (repeat' split) <;> simp [hw]

@[simp] theorem logLocal_keeps (k : LogKind) (a : Nat) (b : List Byte) (s : State) :
    s.lu.Wf → (logLocal k a b s).lu.Wf := by
  intro h; unfold logLocal; try dsimp only
  (repeat' split) <;> first | with_reducible exact h | simp (maxDischargeDepth := 30) [h]

@[simp] theorem logTelegram_keeps (r : Role) (t : Telegram) (o : LogOutcome) (s : State) :
    s.lu.Wf → (logTelegram r t o s).lu.Wf := by
  intro h; unfold logTelegram; try dsimp only
  (repeat' split) <;> first | with_reducible exact h | simp (maxDischargeDepth := 30) [h]

@[simp] theorem overflow_keeps (a : Nat) (p : Payload) (s : State) :
    s.lu.Wf → (overflow a p s).lu.Wf := by
  intro h; unfold overflow; try dsimp only
  (repeat' split) <;> first | with_reducible exact h | simp (maxDischargeDepth := 30) [h]

@[simp] theorem addTelegram_keeps (p : Payload) (r : Bool) (s : State) :
    (s.lu.Wf → (addTelegram p r s).lu.Wf) ∧
    (LinkForm s.lc.queue s.lc.nextEntry s.lc.sending s.lc.rxErrors →
      LinkForm (addTelegram p r s).lc.queue (addTelegram p r s).lc.nextEntry
        (addTelegram p r s).lc.sending (addTelegram p r s).lc.rxErrors) := by
  refine ⟨?_, ?_⟩
  · intro h; unfold addTelegram; try dsimp only
    (repeat' split) <;> first | with_reducible exact h | simp (maxDischargeDepth := 30) [h]
  · intro h
    unfold addTelegram
    split
    · next hl => exact Link.push_wf _ _ h hl
    · next hl =>
      split
      · split
        · next e he =>
          split
          · simpa using h
          · have hw := List.mem_of_getLast? he
            have hm := List.mem_of_mem_filter hw
            have hd := Link.dropEntry_length hm
            simp only [overflow_spares, onLc_blocks]
            exact Link.push_wf _ _ (Link.dropWaiting_wf h hw) (by have := h.1; omega)
        · simpa using h
      · simpa using h

@[simp] theorem handOver_keeps (p : Payload) (r : Bool) (s : State) :
    (s.lu.Wf → (handOver p r s).lu.Wf) ∧
    (LinkForm s.lc.queue s.lc.nextEntry s.lc.sending s.lc.rxErrors →
      LinkForm (handOver p r s).lc.queue (handOver p r s).lc.nextEntry (handOver p r s).lc.sending
        (handOver p r s).lc.rxErrors) := by
  refine ⟨?_, ?_⟩
  · intro h; unfold handOver; try dsimp only
    (repeat' split) <;> first | with_reducible exact h | simp (maxDischargeDepth := 30) [h]
  · intro h
    unfold handOver
    split
    · exact h
    · have hb := Link.beforeJoin_wf p h
      dsimp only
      split
      · next old ho =>
        exact Link.replace_wf _ _ hb (List.mem_of_mem_filter (List.mem_of_find?_eq_some ho))
          (List.find?_some ho)
      · exact (addTelegram_keeps _ _ _).2 hb

@[simp] theorem refreshLamp_keeps (s : State) :
    PartyForm s.bu.queue s.bu.window.state s.bu.window.matched s.bu.window.grace →
      PartyForm (refreshLamp s).bu.queue (refreshLamp s).bu.window.state
        (refreshLamp s).bu.window.matched (refreshLamp s).bu.window.grace := by
  intro h; unfold refreshLamp; try dsimp only
  (repeat' split) <;> first | with_reducible exact h | simp (maxDischargeDepth := 30) [h]

@[simp] theorem logBay_keeps (a : Nat) (b : List Byte) (s : State) :
    s.lu.Wf → (logBay a b s).lu.Wf := by
  intro h; unfold logBay; try dsimp only
  (repeat' split) <;> first | with_reducible exact h | simp (maxDischargeDepth := 30) [h]

/-- The parties of an ARRIVING window join the queue again. -/
theorem PartyForm.back {queue matched : List Party} {grace : Bool}
    (h : PartyForm queue .arriving matched grace) (st : WindowState) :
    PartyForm (matched ++ queue) st [] grace := by
  obtain ⟨h1, h2, h3, h4⟩ := h
  refine ⟨?_, Nat.zero_le _, fun _ => rfl, ?_⟩
  · simp only [↓reduceIte] at h1
    simp only [List.length_append, List.length_nil, ite_self]
    omega
  · rw [List.append_nil]
    exact ((List.perm_append_comm.map Party.tag).nodup_iff).mp h4

@[simp] theorem returnParties_keeps (s : State) :
    (s.lu.Wf → (returnParties s).lu.Wf) ∧
    (s.bu.window.state = .arriving →
      PartyForm s.bu.queue s.bu.window.state s.bu.window.matched s.bu.window.grace →
      PartyForm (returnParties s).bu.queue (returnParties s).bu.window.state
        (returnParties s).bu.window.matched (returnParties s).bu.window.grace) := by
  refine ⟨?_, ?_⟩
  · intro h; unfold returnParties; dsimp only
    split <;> simp (maxDischargeDepth := 30) [h]
  · intro ha h
    rw [ha] at h
    have := h.back s.bu.window.state
    unfold returnParties
    dsimp only
    split <;> simpa using this

@[simp] theorem closeInWindow_keeps (s : State) :
    (s.lu.Wf → (closeInWindow s).lu.Wf) ∧
    (PartyForm s.bu.queue s.bu.window.state s.bu.window.matched s.bu.window.grace →
      PartyForm (closeInWindow s).bu.queue (closeInWindow s).bu.window.state
        (closeInWindow s).bu.window.matched (closeInWindow s).bu.window.grace) := by
  refine ⟨?_, ?_⟩
  · intro h; unfold closeInWindow; try dsimp only
    (repeat' split) <;> first | with_reducible exact h | simp (maxDischargeDepth := 30) [h]
  · intro h
    unfold closeInWindow
    split
    · next ha =>
      refine (returnParties_keeps _).2 ha ?_
      obtain ⟨h1, h2, h3, h4⟩ := h
      exact ⟨h1, h2, by simp, h4⟩
    all_goals exact h

@[simp] theorem formBoarding_keeps (s : State) :
    (s.lu.Wf → (formBoarding s).lu.Wf) ∧
    (PartyForm s.bu.queue s.bu.window.state s.bu.window.matched s.bu.window.grace →
      PartyForm (formBoarding s).bu.queue (formBoarding s).bu.window.state
        (formBoarding s).bu.window.matched (formBoarding s).bu.window.grace) := by
  refine ⟨?_, ?_⟩
  · intro h; unfold formBoarding; try dsimp only
    (repeat' split) <;> first | with_reducible exact h | simp (maxDischargeDepth := 30) [h]
  · intro h; unfold formBoarding; try dsimp only
    (repeat' split) <;> first | with_reducible exact h | simp (maxDischargeDepth := 30) [h]

@[simp] theorem cancelParties_keeps (ps : List Party) (s : State) :
    s.lu.Wf → (cancelParties ps s).lu.Wf := by
  induction ps generalizing s with
  | nil => exact id
  | cons p ps ih => exact fun h => ih _ ((raise_keeps _ _ _) h)

@[simp] theorem flushQueue_keeps (s : State) :
    (s.lu.Wf → (flushQueue s).lu.Wf) ∧
    (PartyForm s.bu.queue s.bu.window.state s.bu.window.matched s.bu.window.grace →
      PartyForm (flushQueue s).bu.queue (flushQueue s).bu.window.state (flushQueue s).bu.window.matched
        (flushQueue s).bu.window.grace) := by
  refine ⟨?_, ?_⟩
  · intro h; unfold flushQueue; try dsimp only
    (repeat' split) <;> first | with_reducible exact h | simp (maxDischargeDepth := 30) [h]
  · intro h
    obtain ⟨h1, h2, h3, h4⟩ := h
    unfold flushQueue
    simp only [logBay_spares, cancelParties_spares, onBu_blocks]
    refine ⟨?_, h2, h3, ?_⟩
    · simp only [List.length_nil]
      omega
    · rw [List.map_append] at h4
      exact (List.nodup_append.mp h4).2.1

@[simp] theorem latchHalt_keeps (c : Nat) (s : State) :
    (s.lu.Wf → (latchHalt c s).lu.Wf) ∧
    (MotionForm s.mu.motion s.mu.invCause s.mu.brakeCause s.mu.listenCause s.mu.reference s.mu.missed s.mu.still →
      MotionForm (latchHalt c s).mu.motion (latchHalt c s).mu.invCause (latchHalt c s).mu.brakeCause
        (latchHalt c s).mu.listenCause (latchHalt c s).mu.reference (latchHalt c s).mu.missed
        (latchHalt c s).mu.still) ∧
    (PartyForm s.bu.queue s.bu.window.state s.bu.window.matched s.bu.window.grace →
      PartyForm (latchHalt c s).bu.queue (latchHalt c s).bu.window.state
        (latchHalt c s).bu.window.matched (latchHalt c s).bu.window.grace) := by
  refine ⟨?_, ?_, ?_⟩
  · intro h; unfold latchHalt; try dsimp only
    (repeat' split) <;> first | with_reducible exact h | simp (maxDischargeDepth := 30) [h]
  · intro h; unfold latchHalt; try dsimp only
    (repeat' split) <;> first | with_reducible exact h | simp (maxDischargeDepth := 30) [h]
  · intro h; unfold latchHalt; try dsimp only
    (repeat' split) <;> first | with_reducible exact h | simp (maxDischargeDepth := 30) [h]

@[simp] theorem endWatch_keeps (n : Nat) (ns : List Nat) (s : State) :
    s.lu.Wf → (endWatch n ns s).lu.Wf := by
  intro h; unfold endWatch; try dsimp only
  (repeat' split) <;> first | with_reducible exact h | simp (maxDischargeDepth := 30) [h]

@[simp] theorem startWatch_keeps (s : State) :
    s.lu.Wf → (startWatch s).lu.Wf := by
  intro h; unfold startWatch; try dsimp only
  (repeat' split) <;> first | with_reducible exact h | simp (maxDischargeDepth := 30) [h]

@[simp] theorem completeEmptyDown_keeps (t : Bool) (s : State) :
    (s.lu.Wf → (completeEmptyDown t s).lu.Wf) ∧
    (MotionForm s.mu.motion s.mu.invCause s.mu.brakeCause s.mu.listenCause s.mu.reference s.mu.missed s.mu.still →
      MotionForm (completeEmptyDown t s).mu.motion (completeEmptyDown t s).mu.invCause
        (completeEmptyDown t s).mu.brakeCause (completeEmptyDown t s).mu.listenCause
        (completeEmptyDown t s).mu.reference (completeEmptyDown t s).mu.missed
        (completeEmptyDown t s).mu.still) ∧
    (PartyForm s.bu.queue s.bu.window.state s.bu.window.matched s.bu.window.grace →
      PartyForm (completeEmptyDown t s).bu.queue (completeEmptyDown t s).bu.window.state
        (completeEmptyDown t s).bu.window.matched (completeEmptyDown t s).bu.window.grace) := by
  refine ⟨?_, ?_, ?_⟩
  · intro h; unfold completeEmptyDown; try dsimp only
    (repeat' split) <;> first | with_reducible exact h | simp (maxDischargeDepth := 30) [h]
  · intro h; unfold completeEmptyDown; try dsimp only
    (repeat' split) <;> first | with_reducible exact h | simp (maxDischargeDepth := 30) [h]
  · intro h; unfold completeEmptyDown; try dsimp only
    (repeat' split) <;> first | with_reducible exact h | simp (maxDischargeDepth := 30) [h]

@[simp] theorem testEmptyDown_keeps (s : State) :
    (s.lu.Wf → (testEmptyDown s).lu.Wf) ∧
    (MotionForm s.mu.motion s.mu.invCause s.mu.brakeCause s.mu.listenCause s.mu.reference s.mu.missed s.mu.still →
      MotionForm (testEmptyDown s).mu.motion (testEmptyDown s).mu.invCause
        (testEmptyDown s).mu.brakeCause (testEmptyDown s).mu.listenCause (testEmptyDown s).mu.reference
        (testEmptyDown s).mu.missed (testEmptyDown s).mu.still) ∧
    (PartyForm s.bu.queue s.bu.window.state s.bu.window.matched s.bu.window.grace →
      PartyForm (testEmptyDown s).bu.queue (testEmptyDown s).bu.window.state
        (testEmptyDown s).bu.window.matched (testEmptyDown s).bu.window.grace) := by
  refine ⟨?_, ?_, ?_⟩
  · intro h; unfold testEmptyDown; try dsimp only
    (repeat' split) <;> first | with_reducible exact h | simp (maxDischargeDepth := 30) [h]
  · intro h; unfold testEmptyDown; try dsimp only
    (repeat' split) <;> first | with_reducible exact h | simp (maxDischargeDepth := 30) [h]
  · intro h; unfold testEmptyDown; try dsimp only
    (repeat' split) <;> first | with_reducible exact h | simp (maxDischargeDepth := 30) [h]

@[simp] theorem emptyDownOnEffect_keeps (a b : Effect) (s : State) :
    (s.lu.Wf → (emptyDownOnEffect a b s).lu.Wf) ∧
    (MotionForm s.mu.motion s.mu.invCause s.mu.brakeCause s.mu.listenCause s.mu.reference s.mu.missed s.mu.still →
      MotionForm (emptyDownOnEffect a b s).mu.motion (emptyDownOnEffect a b s).mu.invCause
        (emptyDownOnEffect a b s).mu.brakeCause (emptyDownOnEffect a b s).mu.listenCause
        (emptyDownOnEffect a b s).mu.reference (emptyDownOnEffect a b s).mu.missed
        (emptyDownOnEffect a b s).mu.still) ∧
    (PartyForm s.bu.queue s.bu.window.state s.bu.window.matched s.bu.window.grace →
      PartyForm (emptyDownOnEffect a b s).bu.queue (emptyDownOnEffect a b s).bu.window.state
        (emptyDownOnEffect a b s).bu.window.matched (emptyDownOnEffect a b s).bu.window.grace) := by
  refine ⟨?_, ?_, ?_⟩
  · intro h; unfold emptyDownOnEffect; try dsimp only
    (repeat' split) <;> first | with_reducible exact h | simp (maxDischargeDepth := 30) [h]
  · intro h; unfold emptyDownOnEffect; try dsimp only
    (repeat' split) <;> first | with_reducible exact h | simp (maxDischargeDepth := 30) [h]
  · intro h; unfold emptyDownOnEffect; try dsimp only
    (repeat' split) <;> first | with_reducible exact h | simp (maxDischargeDepth := 30) [h]

@[simp] theorem handOnEffect_keeps (a b : Effect) (s : State) :
    (s.lu.Wf → (handOnEffect a b s).lu.Wf) ∧
    (MotionForm s.mu.motion s.mu.invCause s.mu.brakeCause s.mu.listenCause s.mu.reference s.mu.missed s.mu.still →
      MotionForm (handOnEffect a b s).mu.motion (handOnEffect a b s).mu.invCause
        (handOnEffect a b s).mu.brakeCause (handOnEffect a b s).mu.listenCause
        (handOnEffect a b s).mu.reference (handOnEffect a b s).mu.missed (handOnEffect a b s).mu.still) ∧
    (PartyForm s.bu.queue s.bu.window.state s.bu.window.matched s.bu.window.grace →
      PartyForm (handOnEffect a b s).bu.queue (handOnEffect a b s).bu.window.state
        (handOnEffect a b s).bu.window.matched (handOnEffect a b s).bu.window.grace) := by
  refine ⟨?_, ?_, ?_⟩
  · intro h; unfold handOnEffect; try dsimp only
    (repeat' split) <;> first | with_reducible exact h | simp (maxDischargeDepth := 30) [h]
  · intro h; unfold handOnEffect; try dsimp only
    (repeat' split) <;> first | with_reducible exact h | simp (maxDischargeDepth := 30) [h]
  · intro h; unfold handOnEffect; try dsimp only
    (repeat' split) <;> first | with_reducible exact h | simp (maxDischargeDepth := 30) [h]

@[simp] theorem formEffect_keeps (s : State) :
    (s.lu.Wf → (formEffect s).lu.Wf) ∧
    (MotionForm s.mu.motion s.mu.invCause s.mu.brakeCause s.mu.listenCause s.mu.reference s.mu.missed s.mu.still →
      MotionForm (formEffect s).mu.motion (formEffect s).mu.invCause (formEffect s).mu.brakeCause
        (formEffect s).mu.listenCause (formEffect s).mu.reference (formEffect s).mu.missed
        (formEffect s).mu.still) ∧
    (PartyForm s.bu.queue s.bu.window.state s.bu.window.matched s.bu.window.grace →
      PartyForm (formEffect s).bu.queue (formEffect s).bu.window.state (formEffect s).bu.window.matched
        (formEffect s).bu.window.grace) := by
  refine ⟨?_, ?_, ?_⟩
  · intro h; unfold formEffect; try dsimp only
    (repeat' split) <;> first | with_reducible exact h | simp (maxDischargeDepth := 30) [h]
  · intro h; unfold formEffect; try dsimp only
    (repeat' split) <;> first | with_reducible exact h | simp (maxDischargeDepth := 30) [h]
  · intro h; unfold formEffect; try dsimp only
    (repeat' split) <;> first | with_reducible exact h | simp (maxDischargeDepth := 30) [h]

@[simp] theorem afterRecords_keeps (s : State) :
    (s.lu.Wf → (afterRecords s).lu.Wf) ∧
    (MotionForm s.mu.motion s.mu.invCause s.mu.brakeCause s.mu.listenCause s.mu.reference s.mu.missed s.mu.still →
      MotionForm (afterRecords s).mu.motion (afterRecords s).mu.invCause (afterRecords s).mu.brakeCause
        (afterRecords s).mu.listenCause (afterRecords s).mu.reference (afterRecords s).mu.missed
        (afterRecords s).mu.still) ∧
    (PartyForm s.bu.queue s.bu.window.state s.bu.window.matched s.bu.window.grace →
      PartyForm (afterRecords s).bu.queue (afterRecords s).bu.window.state
        (afterRecords s).bu.window.matched (afterRecords s).bu.window.grace) := by
  refine ⟨?_, ?_, ?_⟩
  · intro h; unfold afterRecords; try dsimp only
    (repeat' split) <;> first | with_reducible exact h | simp (maxDischargeDepth := 30) [h]
  · intro h; unfold afterRecords; try dsimp only
    (repeat' split) <;> first | with_reducible exact h | simp (maxDischargeDepth := 30) [h]
  · intro h; unfold afterRecords; try dsimp only
    (repeat' split) <;> first | with_reducible exact h | simp (maxDischargeDepth := 30) [h]

@[simp] theorem refreshMismatch_mu (s : State) :
    (refreshMismatch s).mu.motion = s.mu.motion ∧ (refreshMismatch s).mu.invCause = s.mu.invCause ∧
    (refreshMismatch s).mu.brakeCause = s.mu.brakeCause ∧
    (refreshMismatch s).mu.listenCause = s.mu.listenCause ∧
    (refreshMismatch s).mu.reference = s.mu.reference ∧ (refreshMismatch s).mu.missed = s.mu.missed ∧
    (refreshMismatch s).mu.still = s.mu.still ∧ (refreshMismatch s).mu.command = s.mu.command ∧
    (refreshMismatch s).mu.target = s.mu.target := by
  unfold refreshMismatch
  (repeat' split) <;> simp

/-- A change of motion state sets the state and, of the other fields, the mismatch timer alone. -/
@[simp] theorem setMotion_mu (m : MotionState) (s : State) :
    (setMotion m s).mu.motion = m ∧ (setMotion m s).mu.invCause = s.mu.invCause ∧
    (setMotion m s).mu.brakeCause = s.mu.brakeCause ∧
    (setMotion m s).mu.listenCause = s.mu.listenCause ∧
    (setMotion m s).mu.reference = s.mu.reference ∧ (setMotion m s).mu.missed = s.mu.missed ∧
    (setMotion m s).mu.still = s.mu.still ∧ (setMotion m s).mu.command = s.mu.command ∧
    (setMotion m s).mu.target = s.mu.target := by
  unfold setMotion
  split
  · next h => simp [h]
  · simp

@[simp] theorem setMotion_keeps (m : MotionState) (s : State) :
    s.lu.Wf → (setMotion m s).lu.Wf := by
  intro h; unfold setMotion; try dsimp only
  split <;> simp (maxDischargeDepth := 30) [h]

/-- FAULT keeps the causes and takes the reference and the command to 0. -/
@[simp] theorem goFault_mu (s : State) :
    (goFault s).mu.motion = .fault ∧ (goFault s).mu.invCause = s.mu.invCause ∧
    (goFault s).mu.brakeCause = s.mu.brakeCause ∧ (goFault s).mu.listenCause = s.mu.listenCause ∧
    (goFault s).mu.missed = s.mu.missed ∧ (goFault s).mu.still = s.mu.still ∧
    (goFault s).mu.target = s.mu.target := by
  unfold goFault
  split
  · next h => simp [h]
  · simp [MotionUnit.still0]

@[simp] theorem goFault_keeps (s : State) : s.lu.Wf → (goFault s).lu.Wf := by
  intro h; unfold goFault; try dsimp only
  split <;> simp (maxDischargeDepth := 30) [h]

theorem goFault_reference (s : State) (h : s.mu.motion = .fault → s.mu.reference = 0) :
    (goFault s).mu.reference = 0 := by
  unfold goFault
  split
  · next hf => exact h hf
  · simp [MotionUnit.still0]

/-- FAULT with a cause standing meets the form. -/
theorem MotionForm.fault {m : MotionState} {i b l : Bool} {r missed still : Nat}
    (h : MotionForm m i b l r missed still) {i' b' l' : Bool} (hc : (i' || b' || l') = true)
    {missed' still' : Nat} (hm : missed' ≤ 3) (hs : still' ≤ 10) :
    MotionForm .fault i' b' l' 0 missed' still' :=
  ⟨by simp only [true_iff]; exact hc, fun _ => rfl, hm, hs⟩

theorem MotionForm.reference {m : MotionState} {i b l : Bool} {r missed still : Nat}
    (h : MotionForm m i b l r missed still) (hm : m = .fault) : r = 0 := h.2.1 (by rw [hm]; rfl)

@[simp] theorem dragStop_keeps (s : State) :
    (s.lu.Wf → (dragStop s).lu.Wf) ∧
    (MotionForm s.mu.motion s.mu.invCause s.mu.brakeCause s.mu.listenCause s.mu.reference s.mu.missed s.mu.still →
      MotionForm (dragStop s).mu.motion (dragStop s).mu.invCause (dragStop s).mu.brakeCause
        (dragStop s).mu.listenCause (dragStop s).mu.reference (dragStop s).mu.missed
        (dragStop s).mu.still) := by
  refine ⟨?_, ?_⟩
  · intro h; unfold dragStop; try dsimp only
    (repeat' split) <;> first | with_reducible exact h | simp (maxDischargeDepth := 30) [h]
  · intro h
    obtain ⟨h1, h2, h3, h4⟩ := h
    unfold dragStop
    split
    all_goals first | exact ⟨h1, h2, h3, h4⟩ | skip
    all_goals
      next hm =>
      simp only [logLocal_spares, setMotion_mu, onMu_blocks, MotionUnit.still0]
      refine ⟨?_, fun _ => rfl, h3, Nat.zero_le _⟩
      rw [← h1, hm]
      simp

@[simp] theorem listenFault_keeps (s : State) :
    (s.lu.Wf → (listenFault s).lu.Wf) ∧
    (MotionForm s.mu.motion s.mu.invCause s.mu.brakeCause s.mu.listenCause s.mu.reference s.mu.missed s.mu.still →
      MotionForm (listenFault s).mu.motion (listenFault s).mu.invCause (listenFault s).mu.brakeCause
        (listenFault s).mu.listenCause (listenFault s).mu.reference (listenFault s).mu.missed
        (listenFault s).mu.still) := by
  refine ⟨?_, ?_⟩
  · intro h; unfold listenFault; try dsimp only
    (repeat' split) <;> first | with_reducible exact h | simp (maxDischargeDepth := 30) [h]
  · intro h
    unfold listenFault
    split
    · have hr := goFault_reference (s.onMu (fun m => { m with listenCause := true })) h.reference
      simp only [goFault_mu, onMu_blocks, hr]
      exact h.fault (by simp) h.2.2.1 h.2.2.2
    · exact h

@[simp] theorem enterInverter_keeps (n : Nat) (s : State) :
    (s.lu.Wf → (enterInverter n s).lu.Wf) ∧
    (MotionForm s.mu.motion s.mu.invCause s.mu.brakeCause s.mu.listenCause s.mu.reference s.mu.missed s.mu.still →
      MotionForm (enterInverter n s).mu.motion (enterInverter n s).mu.invCause
        (enterInverter n s).mu.brakeCause (enterInverter n s).mu.listenCause
        (enterInverter n s).mu.reference (enterInverter n s).mu.missed (enterInverter n s).mu.still) := by
  refine ⟨?_, ?_⟩
  · intro h; unfold enterInverter; try dsimp only
    (repeat' split) <;> first | with_reducible exact h | simp (maxDischargeDepth := 30) [h]
  · intro h
    unfold enterInverter
    have hr := goFault_reference (s.onMu (fun m => { m with invCause := true, clear := 0 })) h.reference
    simp only [logLocal_spares, raise_spares, goFault_mu, onMu_blocks, hr]
    exact h.fault (by simp) h.2.2.1 h.2.2.2

@[simp] theorem clearInverter_keeps (s : State) :
    (s.lu.Wf → (clearInverter s).lu.Wf) ∧
    (s.mu.invCause = true →
      MotionForm s.mu.motion s.mu.invCause s.mu.brakeCause s.mu.listenCause s.mu.reference s.mu.missed
        s.mu.still →
      MotionForm (clearInverter s).mu.motion (clearInverter s).mu.invCause
        (clearInverter s).mu.brakeCause (clearInverter s).mu.listenCause (clearInverter s).mu.reference
        (clearInverter s).mu.missed (clearInverter s).mu.still) := by
  refine ⟨?_, ?_⟩
  · intro h; unfold clearInverter; dsimp only
    split <;> simp (maxDischargeDepth := 30) [h]
  · intro hinv h
    obtain ⟨h1, h2, h3, h4⟩ := h
    have hf : s.mu.motion = .fault := h1.mpr (by simp [hinv])
    have hr : s.mu.reference = 0 := h2 (by rw [hf]; rfl)
    unfold clearInverter
    dsimp only
    split
    · next hc =>
      simp only [logLocal_spares, onMu_blocks] at hc ⊢
      exact ⟨by simpa [hf] using hc, h2, h3, h4⟩
    · next hc =>
      simp only [setMotion_mu, logLocal_spares, onMu_blocks] at hc ⊢
      refine ⟨?_, fun _ => hr, h3, h4⟩
      simpa using hc

@[simp] theorem inverterStage_keeps (j : Judgement) (s : State) :
    (s.lu.Wf → (inverterStage j s).lu.Wf) ∧
    (MotionForm s.mu.motion s.mu.invCause s.mu.brakeCause s.mu.listenCause s.mu.reference s.mu.missed s.mu.still →
      MotionForm (inverterStage j s).mu.motion (inverterStage j s).mu.invCause
        (inverterStage j s).mu.brakeCause (inverterStage j s).mu.listenCause
        (inverterStage j s).mu.reference (inverterStage j s).mu.missed (inverterStage j s).mu.still) := by
  refine ⟨?_, ?_⟩
  · intro h; unfold inverterStage; try dsimp only
    (repeat' split) <;> first | with_reducible exact h | simp (maxDischargeDepth := 30) [h]
  · intro h
    unfold inverterStage
    split
    · next hi =>
      dsimp only
      generalize (if quietAnswer j s.mu.measured = true then s.mu.clear + 1 else 0) = c
      split
      · exact (clearInverter_keeps _).2 hi h
      · exact h
    · split
      · exact (enterInverter_keeps _ _).2 h
      · split
        · exact (enterInverter_keeps _ _).2 h
        · exact h

@[simp] theorem rampStage_keeps (s : State) :
    (s.lu.Wf → (rampStage s).lu.Wf) ∧
    (MotionForm s.mu.motion s.mu.invCause s.mu.brakeCause s.mu.listenCause s.mu.reference s.mu.missed s.mu.still →
      MotionForm (rampStage s).mu.motion (rampStage s).mu.invCause (rampStage s).mu.brakeCause
        (rampStage s).mu.listenCause (rampStage s).mu.reference (rampStage s).mu.missed
        (rampStage s).mu.still) := by
  refine ⟨?_, ?_⟩
  · intro h; unfold rampStage; try dsimp only
    (repeat' split) <;> first | with_reducible exact h | simp (maxDischargeDepth := 30) [h]
  · intro h
    obtain ⟨h1, h2, h3, h4⟩ := h
    unfold rampStage
    split
    · next hm =>
      simp only [onMu_blocks]
      exact ⟨h1, fun hx => absurd hx (by simp [hm, movingState]), h3, h4⟩
    · next hm =>
      dsimp only
      split
      · next hr =>
        simp only [setMotion_mu, onMu_blocks, hr]
        exact ⟨by rw [← h1, hm]; simp, fun _ => rfl, h3, Nat.zero_le _⟩
      · simp only [onMu_blocks]
        exact ⟨h1, fun hx => absurd hx (by simp [hm, movingState]), h3, h4⟩
    all_goals
      simp only [onMu_blocks]
      exact ⟨h1, fun _ => rfl, h3, h4⟩

@[simp] theorem loadStage_keeps (s : State) :
    MotionForm s.mu.motion s.mu.invCause s.mu.brakeCause s.mu.listenCause s.mu.reference s.mu.missed s.mu.still →
      MotionForm (loadStage s).mu.motion (loadStage s).mu.invCause (loadStage s).mu.brakeCause
        (loadStage s).mu.listenCause (loadStage s).mu.reference (loadStage s).mu.missed
        (loadStage s).mu.still := by
  intro h; unfold loadStage; try dsimp only
  (repeat' split) <;> first | with_reducible exact h | simp (maxDischargeDepth := 30) [h]

@[simp] theorem reportStage_keeps (s : State) :
    (s.lu.Wf → (reportStage s).lu.Wf) ∧
    (LinkForm s.lc.queue s.lc.nextEntry s.lc.sending s.lc.rxErrors →
      LinkForm (reportStage s).lc.queue (reportStage s).lc.nextEntry (reportStage s).lc.sending
        (reportStage s).lc.rxErrors) ∧
    (MotionForm s.mu.motion s.mu.invCause s.mu.brakeCause s.mu.listenCause s.mu.reference s.mu.missed s.mu.still →
      MotionForm (reportStage s).mu.motion (reportStage s).mu.invCause (reportStage s).mu.brakeCause
        (reportStage s).mu.listenCause (reportStage s).mu.reference (reportStage s).mu.missed
        (reportStage s).mu.still) := by
  refine ⟨?_, ?_, ?_⟩
  · intro h; unfold reportStage; try dsimp only
    (repeat' split) <;> first | with_reducible exact h | simp (maxDischargeDepth := 30) [h]
  · intro h; unfold reportStage; try dsimp only
    (repeat' split) <;> first | with_reducible exact h | simp (maxDischargeDepth := 30) [h]
  · intro h; unfold reportStage; try dsimp only
    (repeat' split) <;> first | with_reducible exact h | simp (maxDischargeDepth := 30) [h]

/-- Stage 4 keeps FAULT apart, and leaves DRIVING and STOPPING for one another alone. -/
theorem nextMotion_form (s : State) :
    (s.nextMotion = .fault ↔ s.mu.motion = .fault) ∧
    (movingState s.nextMotion = false → movingState s.mu.motion = false) := by
  unfold State.nextMotion
  split <;> (repeat' split) <;> simp_all [movingState]

theorem takeAnswer_form {m : MotionUnit} (h : m.Wf) : (takeAnswer m).Wf := by
  obtain ⟨h1, h2, h3, h4⟩ := h
  unfold takeAnswer
  refine ⟨h1, h2, ?_, ?_⟩
  · show missedAfter _ _ ≤ 3
    unfold missedAfter
    split <;> omega
  · show (if _ then _ else _) ≤ 10
    split
    · exact Nat.min_le_left _ _
    · exact Nat.zero_le _

@[simp] theorem motionUpdate_keeps (s : State) :
    (s.lu.Wf → (motionUpdate s).lu.Wf) ∧ (LinkForm s.lc.queue s.lc.nextEntry s.lc.sending s.lc.rxErrors →
      LinkForm (motionUpdate s).lc.queue (motionUpdate s).lc.nextEntry (motionUpdate s).lc.sending
        (motionUpdate s).lc.rxErrors) ∧
    (MotionForm s.mu.motion s.mu.invCause s.mu.brakeCause s.mu.listenCause s.mu.reference s.mu.missed
        s.mu.still →
      MotionForm (motionUpdate s).mu.motion (motionUpdate s).mu.invCause (motionUpdate s).mu.brakeCause
        (motionUpdate s).mu.listenCause (motionUpdate s).mu.reference (motionUpdate s).mu.missed
        (motionUpdate s).mu.still) := by
  refine ⟨?_, ?_, ?_⟩
  · intro h; unfold motionUpdate; simp (maxDischargeDepth := 30) [h]
  · intro h; unfold motionUpdate; simp (maxDischargeDepth := 30) [h]
  · intro h
    unfold motionUpdate
    dsimp only
    refine (reportStage_keeps _).2.2 ((loadStage_keeps _) ((rampStage_keeps _).2 ?_))
    have h1 := (inverterStage_keeps s.mu.judge.1 (s.onMu takeAnswer)).2 (takeAnswer_form h)
    generalize hs : inverterStage s.mu.judge.1 (s.onMu takeAnswer) = t at h1 ⊢
    obtain ⟨k1, k2, k3, k4⟩ := h1
    simp only [setMotion_mu, onMu_blocks]
    obtain ⟨n1, n2⟩ := nextMotion_form (t.onMu (fun m => { m with target := t.targetNow }))
    exact ⟨by rw [n1]; exact k1, fun hx => k2 (n2 hx), k3, k4⟩

@[simp] theorem brakeFaultNow_keeps (s : State) :
    (s.lu.Wf → (brakeFaultNow s).lu.Wf) ∧
    (MotionForm s.mu.motion s.mu.invCause s.mu.brakeCause s.mu.listenCause s.mu.reference s.mu.missed s.mu.still →
      MotionForm (brakeFaultNow s).mu.motion (brakeFaultNow s).mu.invCause
        (brakeFaultNow s).mu.brakeCause (brakeFaultNow s).mu.listenCause (brakeFaultNow s).mu.reference
        (brakeFaultNow s).mu.missed (brakeFaultNow s).mu.still) := by
  refine ⟨?_, ?_⟩
  · intro h; unfold brakeFaultNow; try dsimp only
    (repeat' split) <;> first | with_reducible exact h | simp (maxDischargeDepth := 30) [h]
  · intro h
    unfold brakeFaultNow
    have hr := goFault_reference (s.onMu (fun m => { m with brakeCause := true })) h.reference
    simp only [logLocal_spares, raise_spares, goFault_mu, onMu_blocks, hr]
    exact h.fault (by simp) h.2.2.1 h.2.2.2

@[simp] theorem handOrder_keeps (s : State) :
    (s.lu.Wf → (handOrder s).lu.Wf) ∧
    (LinkForm s.lc.queue s.lc.nextEntry s.lc.sending s.lc.rxErrors →
      LinkForm (handOrder s).lc.queue (handOrder s).lc.nextEntry (handOrder s).lc.sending
        (handOrder s).lc.rxErrors) ∧
    (MotionForm s.mu.motion s.mu.invCause s.mu.brakeCause s.mu.listenCause s.mu.reference s.mu.missed s.mu.still →
      MotionForm (handOrder s).mu.motion (handOrder s).mu.invCause (handOrder s).mu.brakeCause
        (handOrder s).mu.listenCause (handOrder s).mu.reference (handOrder s).mu.missed
        (handOrder s).mu.still) := by
  refine ⟨?_, ?_, ?_⟩
  · intro h; unfold handOrder; try dsimp only
    (repeat' split) <;> first | with_reducible exact h | simp (maxDischargeDepth := 30) [h]
  · intro h; unfold handOrder; try dsimp only
    (repeat' split) <;> first | with_reducible exact h | simp (maxDischargeDepth := 30) [h]
  · intro h; unfold handOrder; try dsimp only
    (repeat' split) <;> first | with_reducible exact h | simp (maxDischargeDepth := 30) [h]

@[simp] theorem takeOrder_keeps (n : Nat) (p : OrderPayload) (s : State) :
    (s.lu.Wf → (takeOrder n p s).1.lu.Wf) ∧
    (MotionForm s.mu.motion s.mu.invCause s.mu.brakeCause s.mu.listenCause s.mu.reference s.mu.missed s.mu.still →
      MotionForm (takeOrder n p s).1.mu.motion (takeOrder n p s).1.mu.invCause
        (takeOrder n p s).1.mu.brakeCause (takeOrder n p s).1.mu.listenCause
        (takeOrder n p s).1.mu.reference (takeOrder n p s).1.mu.missed (takeOrder n p s).1.mu.still) ∧
    (PartyForm s.bu.queue s.bu.window.state s.bu.window.matched s.bu.window.grace →
      PartyForm (takeOrder n p s).1.bu.queue (takeOrder n p s).1.bu.window.state
        (takeOrder n p s).1.bu.window.matched (takeOrder n p s).1.bu.window.grace) := by
  refine ⟨?_, ?_, ?_⟩
  · intro h; unfold takeOrder; try dsimp only
    (repeat' split) <;> first | with_reducible exact h | simp (maxDischargeDepth := 30) [h]
  · intro h; unfold takeOrder; try dsimp only
    (repeat' split) <;> first | with_reducible exact h | simp (maxDischargeDepth := 30) [h]
  · intro h; unfold takeOrder; try dsimp only
    (repeat' split) <;> first | with_reducible exact h | simp (maxDischargeDepth := 30) [h]

@[simp] theorem removeRecord_keeps (k : HoldKind) (d : Nat) (s : State) :
    (s.lu.Wf → (removeRecord k d s).lu.Wf) ∧
    (MotionForm s.mu.motion s.mu.invCause s.mu.brakeCause s.mu.listenCause s.mu.reference s.mu.missed s.mu.still →
      MotionForm (removeRecord k d s).mu.motion (removeRecord k d s).mu.invCause
        (removeRecord k d s).mu.brakeCause (removeRecord k d s).mu.listenCause
        (removeRecord k d s).mu.reference (removeRecord k d s).mu.missed (removeRecord k d s).mu.still) ∧
    (PartyForm s.bu.queue s.bu.window.state s.bu.window.matched s.bu.window.grace →
      PartyForm (removeRecord k d s).bu.queue (removeRecord k d s).bu.window.state
        (removeRecord k d s).bu.window.matched (removeRecord k d s).bu.window.grace) := by
  refine ⟨?_, ?_, ?_⟩
  · intro h; unfold removeRecord; try dsimp only
    (repeat' split) <;> first | with_reducible exact h | simp (maxDischargeDepth := 30) [h]
  · intro h; unfold removeRecord; try dsimp only
    (repeat' split) <;> first | with_reducible exact h | simp (maxDischargeDepth := 30) [h]
  · intro h; unfold removeRecord; try dsimp only
    (repeat' split) <;> first | with_reducible exact h | simp (maxDischargeDepth := 30) [h]

@[simp] theorem insertRecord_keeps (r : HoldRec) (s : State) :
    (s.lu.Wf → (insertRecord r s).lu.Wf) ∧
    (MotionForm s.mu.motion s.mu.invCause s.mu.brakeCause s.mu.listenCause s.mu.reference s.mu.missed s.mu.still →
      MotionForm (insertRecord r s).mu.motion (insertRecord r s).mu.invCause
        (insertRecord r s).mu.brakeCause (insertRecord r s).mu.listenCause
        (insertRecord r s).mu.reference (insertRecord r s).mu.missed (insertRecord r s).mu.still) ∧
    (PartyForm s.bu.queue s.bu.window.state s.bu.window.matched s.bu.window.grace →
      PartyForm (insertRecord r s).bu.queue (insertRecord r s).bu.window.state
        (insertRecord r s).bu.window.matched (insertRecord r s).bu.window.grace) := by
  refine ⟨?_, ?_, ?_⟩
  · intro h; unfold insertRecord; try dsimp only
    (repeat' split) <;> first | with_reducible exact h | simp (maxDischargeDepth := 30) [h]
  · intro h; unfold insertRecord; try dsimp only
    (repeat' split) <;> first | with_reducible exact h | simp (maxDischargeDepth := 30) [h]
  · intro h; unfold insertRecord; try dsimp only
    (repeat' split) <;> first | with_reducible exact h | simp (maxDischargeDepth := 30) [h]

@[simp] theorem updateRecord_keeps (k : HoldKind) (d : Nat) (f : HoldRec → HoldRec) (s : State) :
    (s.lu.Wf → (updateRecord k d f s).lu.Wf) ∧
    (MotionForm s.mu.motion s.mu.invCause s.mu.brakeCause s.mu.listenCause s.mu.reference s.mu.missed s.mu.still →
      MotionForm (updateRecord k d f s).mu.motion (updateRecord k d f s).mu.invCause
        (updateRecord k d f s).mu.brakeCause (updateRecord k d f s).mu.listenCause
        (updateRecord k d f s).mu.reference (updateRecord k d f s).mu.missed
        (updateRecord k d f s).mu.still) ∧
    (PartyForm s.bu.queue s.bu.window.state s.bu.window.matched s.bu.window.grace →
      PartyForm (updateRecord k d f s).bu.queue (updateRecord k d f s).bu.window.state
        (updateRecord k d f s).bu.window.matched (updateRecord k d f s).bu.window.grace) := by
  refine ⟨?_, ?_, ?_⟩
  · intro h; unfold updateRecord; try dsimp only
    (repeat' split) <;> first | with_reducible exact h | simp (maxDischargeDepth := 30) [h]
  · intro h; unfold updateRecord; try dsimp only
    (repeat' split) <;> first | with_reducible exact h | simp (maxDischargeDepth := 30) [h]
  · intro h; unfold updateRecord; try dsimp only
    (repeat' split) <;> first | with_reducible exact h | simp (maxDischargeDepth := 30) [h]

@[simp] theorem admitHold_keeps (r : HoldRec) (s : State) :
    (s.lu.Wf → (admitHold r s).lu.Wf) ∧
    (MotionForm s.mu.motion s.mu.invCause s.mu.brakeCause s.mu.listenCause s.mu.reference s.mu.missed s.mu.still →
      MotionForm (admitHold r s).mu.motion (admitHold r s).mu.invCause (admitHold r s).mu.brakeCause
        (admitHold r s).mu.listenCause (admitHold r s).mu.reference (admitHold r s).mu.missed (admitHold r s).mu.still) ∧
    (PartyForm s.bu.queue s.bu.window.state s.bu.window.matched s.bu.window.grace →
      PartyForm (admitHold r s).bu.queue (admitHold r s).bu.window.state (admitHold r s).bu.window.matched
        (admitHold r s).bu.window.grace) := by
  refine ⟨?_, ?_, ?_⟩
  · intro h; unfold admitHold; try dsimp only
    (repeat' split) <;> first | with_reducible exact h | simp (maxDischargeDepth := 30) [h]
  · intro h; unfold admitHold; try dsimp only
    (repeat' split) <;> first | with_reducible exact h | simp (maxDischargeDepth := 30) [h]
  · intro h; unfold admitHold; try dsimp only
    (repeat' split) <;> first | with_reducible exact h | simp (maxDischargeDepth := 30) [h]

/-- A change of list entries that keeps their kinds keeps the form. -/
theorem setOwn_kinds (k : HoldKind) (f : OwnHold → OwnHold) (hf : ∀ o, (f o).kind = o.kind)
    (u : HoldUnit) : (u.setOwn k f).own.map OwnHold.kind = u.own.map OwnHold.kind := by
  simp only [HoldUnit.setOwn, List.map_map]
  refine List.map_congr_left ?_
  intro o _
  simp only [Function.comp]
  split
  · exact hf o
  · rfl

theorem HoldForm.own {r : List HoldRec} {e : Effect} {o o' : List OwnHold} (h : HoldForm r e o)
    (ho : (o'.map OwnHold.kind).Nodup) : HoldForm r e o' := ⟨h.1, h.2.1, h.2.2.1, ho⟩

@[simp] theorem setOwn_set (k : HoldKind) (f : OwnHold → OwnHold) (u : HoldUnit) :
    (u.setOwn k f).records = u.records ∧ (u.setOwn k f).effect = u.effect := ⟨rfl, rfl⟩

@[simp] theorem sendOwn_keeps (k : HoldKind) (r : Bool) (s : State) :
    (s.lu.Wf → (sendOwn k r s).lu.Wf) ∧ (LinkForm s.lc.queue s.lc.nextEntry s.lc.sending s.lc.rxErrors →
      LinkForm (sendOwn k r s).lc.queue (sendOwn k r s).lc.nextEntry (sendOwn k r s).lc.sending
        (sendOwn k r s).lc.rxErrors) ∧
    (HoldForm s.hu.records s.hu.effect s.hu.own →
      HoldForm (sendOwn k r s).hu.records (sendOwn k r s).hu.effect (sendOwn k r s).hu.own) := by
  refine ⟨?_, ?_, ?_⟩
  · intro h; unfold sendOwn
    split <;> simp (maxDischargeDepth := 30) [h]
  · intro h; unfold sendOwn
    split <;> simp (maxDischargeDepth := 30) [h]
  · intro h; unfold sendOwn
    split
    · simp only [handOver_spares, onHu_blocks, setOwn_set]
      exact h.own (by rw [setOwn_kinds _ _ (fun _ => by rfl)]; exact h.2.2.2)
    · exact h

@[simp] theorem placeOwn_keeps (k : HoldKind) (s : State) :
    (s.lu.Wf → (placeOwn k s).lu.Wf) ∧
    (HoldForm s.hu.records s.hu.effect s.hu.own →
      HoldForm (placeOwn k s).hu.records (placeOwn k s).hu.effect (placeOwn k s).hu.own) ∧
    (MotionForm s.mu.motion s.mu.invCause s.mu.brakeCause s.mu.listenCause s.mu.reference s.mu.missed s.mu.still →
      MotionForm (placeOwn k s).mu.motion (placeOwn k s).mu.invCause (placeOwn k s).mu.brakeCause
        (placeOwn k s).mu.listenCause (placeOwn k s).mu.reference (placeOwn k s).mu.missed
        (placeOwn k s).mu.still) ∧
    (PartyForm s.bu.queue s.bu.window.state s.bu.window.matched s.bu.window.grace →
      PartyForm (placeOwn k s).bu.queue (placeOwn k s).bu.window.state (placeOwn k s).bu.window.matched
        (placeOwn k s).bu.window.grace) := by
  refine ⟨?_, ?_, ?_, ?_⟩
  · intro h; unfold placeOwn; try dsimp only
    (repeat' split) <;> first | with_reducible exact h | simp (maxDischargeDepth := 30) [h]
  · intro h
    unfold placeOwn
    split
    · split
      · exact updateRecord_form _ _ _ _ h (fun _ => ⟨rfl, rfl⟩)
      · next hf =>
        refine admitHold_form _ _ h ?_
        cases hx : s.hu.find? k s.own
        · rfl
        · exact absurd (by rw [hx]; rfl) hf
    · exact h
  · intro h; unfold placeOwn; try dsimp only
    (repeat' split) <;> first | with_reducible exact h | simp (maxDischargeDepth := 30) [h]
  · intro h; unfold placeOwn; try dsimp only
    (repeat' split) <;> first | with_reducible exact h | simp (maxDischargeDepth := 30) [h]

@[simp] theorem newOwn_keeps (k : HoldKind) (e : Effect) (c : Cause) (s : State) :
    (s.lu.Wf → (newOwn k e c s).lu.Wf) ∧
    (s.hu.own? k = none → HoldForm s.hu.records s.hu.effect s.hu.own →
      HoldForm (newOwn k e c s).hu.records (newOwn k e c s).hu.effect (newOwn k e c s).hu.own) := by
  refine ⟨?_, ?_⟩
  · intro h; unfold newOwn; simp (maxDischargeDepth := 30) [h]
  · intro hn h
    have hk := (own_none_iff k s.hu).mp (by rw [hn]; rfl)
    unfold newOwn
    simp only [logLocal_spares, onHu_blocks]
    refine h.own ?_
    rw [List.map_append, List.nodup_append]
    exact ⟨h.2.2.2, by simp, by intro a ha b hb; simp at hb; subst hb; rintro rfl; exact hk ha⟩

@[simp] theorem changeOwn_keeps (k : HoldKind) (e : Effect) (c : Cause) (s : State) :
    (s.lu.Wf → (changeOwn k e c s).lu.Wf) ∧
    (HoldForm s.hu.records s.hu.effect s.hu.own →
      HoldForm (changeOwn k e c s).hu.records (changeOwn k e c s).hu.effect (changeOwn k e c s).hu.own) := by
  refine ⟨?_, ?_⟩
  · intro h; unfold changeOwn; try dsimp only
    (repeat' split) <;> first | with_reducible exact h | simp (maxDischargeDepth := 30) [h]
  · intro h
    unfold changeOwn
    simp only [logLocal_spares, onHu_blocks, setOwn_set]
    exact h.own (by rw [setOwn_kinds _ _ (fun _ => by rfl)]; exact h.2.2.2)

@[simp] theorem declareHold_keeps (k : HoldKind) (e : Effect) (c : Cause) (s : State) :
    (s.lu.Wf → (declareHold k e c s).lu.Wf) ∧
    (LinkForm s.lc.queue s.lc.nextEntry s.lc.sending s.lc.rxErrors →
      LinkForm (declareHold k e c s).lc.queue (declareHold k e c s).lc.nextEntry
        (declareHold k e c s).lc.sending (declareHold k e c s).lc.rxErrors) ∧
    (HoldForm s.hu.records s.hu.effect s.hu.own →
      HoldForm (declareHold k e c s).hu.records (declareHold k e c s).hu.effect
        (declareHold k e c s).hu.own) ∧
    (MotionForm s.mu.motion s.mu.invCause s.mu.brakeCause s.mu.listenCause s.mu.reference s.mu.missed s.mu.still →
      MotionForm (declareHold k e c s).mu.motion (declareHold k e c s).mu.invCause
        (declareHold k e c s).mu.brakeCause (declareHold k e c s).mu.listenCause
        (declareHold k e c s).mu.reference (declareHold k e c s).mu.missed
        (declareHold k e c s).mu.still) ∧
    (PartyForm s.bu.queue s.bu.window.state s.bu.window.matched s.bu.window.grace →
      PartyForm (declareHold k e c s).bu.queue (declareHold k e c s).bu.window.state
        (declareHold k e c s).bu.window.matched (declareHold k e c s).bu.window.grace) := by
  refine ⟨?_, ?_, ?_, ?_, ?_⟩
  · intro h; unfold declareHold; try dsimp only
    (repeat' split) <;> first | with_reducible exact h | simp (maxDischargeDepth := 30) [h]
  · intro h; unfold declareHold; try dsimp only
    (repeat' split) <;> first | with_reducible exact h | simp (maxDischargeDepth := 30) [h]
  · intro h
    unfold declareHold
    split
    · next hn => exact (sendOwn_keeps _ _ _).2.2 ((placeOwn_keeps _ _).2.1 ((newOwn_keeps _ _ _ _).2 hn h))
    · split
      · exact (sendOwn_keeps _ _ _).2.2 ((placeOwn_keeps _ _).2.1 ((changeOwn_keeps _ _ _ _).2 h))
      · split
        · refine (placeOwn_keeps _ _).2.1 ?_
          split
          · exact h
          · exact (changeOwn_keeps _ _ _ _).2 h
        · exact (placeOwn_keeps _ _).2.1 h
  · intro h; unfold declareHold; try dsimp only
    (repeat' split) <;> first | with_reducible exact h | simp (maxDischargeDepth := 30) [h]
  · intro h; unfold declareHold; try dsimp only
    (repeat' split) <;> first | with_reducible exact h | simp (maxDischargeDepth := 30) [h]

@[simp] theorem releaseOwn_keeps (k : HoldKind) (s : State) :
    (s.lu.Wf → (releaseOwn k s).lu.Wf) ∧
    (LinkForm s.lc.queue s.lc.nextEntry s.lc.sending s.lc.rxErrors →
      LinkForm (releaseOwn k s).lc.queue (releaseOwn k s).lc.nextEntry (releaseOwn k s).lc.sending
        (releaseOwn k s).lc.rxErrors) ∧
    (HoldForm s.hu.records s.hu.effect s.hu.own →
      HoldForm (releaseOwn k s).hu.records (releaseOwn k s).hu.effect (releaseOwn k s).hu.own) ∧
    (MotionForm s.mu.motion s.mu.invCause s.mu.brakeCause s.mu.listenCause s.mu.reference s.mu.missed s.mu.still →
      MotionForm (releaseOwn k s).mu.motion (releaseOwn k s).mu.invCause (releaseOwn k s).mu.brakeCause
        (releaseOwn k s).mu.listenCause (releaseOwn k s).mu.reference (releaseOwn k s).mu.missed
        (releaseOwn k s).mu.still) ∧
    (PartyForm s.bu.queue s.bu.window.state s.bu.window.matched s.bu.window.grace →
      PartyForm (releaseOwn k s).bu.queue (releaseOwn k s).bu.window.state
        (releaseOwn k s).bu.window.matched (releaseOwn k s).bu.window.grace) := by
  refine ⟨?_, ?_, ?_, ?_, ?_⟩
  · intro h; unfold releaseOwn; try dsimp only
    (repeat' split) <;> first | with_reducible exact h | simp (maxDischargeDepth := 30) [h]
  · intro h; unfold releaseOwn; try dsimp only
    (repeat' split) <;> first | with_reducible exact h | simp (maxDischargeDepth := 30) [h]
  · intro h
    have h' := h.own (h.2.2.2.sublist
      ((List.filter_sublist (p := fun o : OwnHold => o.kind != k) (l := s.hu.own)).map OwnHold.kind))
    unfold releaseOwn
    split
    · exact h
    · dsimp only
      split <;> simp [h']
  · intro h; unfold releaseOwn; try dsimp only
    (repeat' split) <;> first | with_reducible exact h | simp (maxDischargeDepth := 30) [h]
  · intro h; unfold releaseOwn; try dsimp only
    (repeat' split) <;> first | with_reducible exact h | simp (maxDischargeDepth := 30) [h]

@[simp] theorem declareLink_keeps (e : Effect) (c : Cause) (s : State) :
    (s.lu.Wf → (declareLink e c s).lu.Wf) ∧
    (LinkForm s.lc.queue s.lc.nextEntry s.lc.sending s.lc.rxErrors →
      LinkForm (declareLink e c s).lc.queue (declareLink e c s).lc.nextEntry
        (declareLink e c s).lc.sending (declareLink e c s).lc.rxErrors) ∧
    (HoldForm s.hu.records s.hu.effect s.hu.own →
      HoldForm (declareLink e c s).hu.records (declareLink e c s).hu.effect (declareLink e c s).hu.own) ∧
    (MotionForm s.mu.motion s.mu.invCause s.mu.brakeCause s.mu.listenCause s.mu.reference s.mu.missed s.mu.still →
      MotionForm (declareLink e c s).mu.motion (declareLink e c s).mu.invCause
        (declareLink e c s).mu.brakeCause (declareLink e c s).mu.listenCause
        (declareLink e c s).mu.reference (declareLink e c s).mu.missed (declareLink e c s).mu.still) ∧
    (PartyForm s.bu.queue s.bu.window.state s.bu.window.matched s.bu.window.grace →
      PartyForm (declareLink e c s).bu.queue (declareLink e c s).bu.window.state
        (declareLink e c s).bu.window.matched (declareLink e c s).bu.window.grace) := by
  refine ⟨?_, ?_, ?_, ?_, ?_⟩
  · intro h; unfold declareLink; try dsimp only
    (repeat' split) <;> first | with_reducible exact h | simp (maxDischargeDepth := 30) [h]
  · intro h; unfold declareLink; try dsimp only
    (repeat' split) <;> first | with_reducible exact h | simp (maxDischargeDepth := 30) [h]
  · intro h
    unfold declareLink
    split
    · next hn => exact (sendOwn_keeps _ _ _).2.2 ((placeOwn_keeps _ _).2.1 ((newOwn_keeps _ _ _ _).2 hn h))
    · split
      · split
        · exact h
        · exact (changeOwn_keeps _ _ _ _).2 h
      · exact (sendOwn_keeps _ _ _).2.2 ((placeOwn_keeps _ _).2.1 ((changeOwn_keeps _ _ _ _).2 h))
  · intro h; unfold declareLink; try dsimp only
    (repeat' split) <;> first | with_reducible exact h | simp (maxDischargeDepth := 30) [h]
  · intro h; unfold declareLink; try dsimp only
    (repeat' split) <;> first | with_reducible exact h | simp (maxDischargeDepth := 30) [h]

@[simp] theorem linkAct_keeps (s : State) :
    (s.lu.Wf → (linkAct s).lu.Wf) ∧
    (LinkForm s.lc.queue s.lc.nextEntry s.lc.sending s.lc.rxErrors →
      LinkForm (linkAct s).lc.queue (linkAct s).lc.nextEntry (linkAct s).lc.sending
        (linkAct s).lc.rxErrors) ∧
    (HoldForm s.hu.records s.hu.effect s.hu.own →
      HoldForm (linkAct s).hu.records (linkAct s).hu.effect (linkAct s).hu.own) ∧
    (MotionForm s.mu.motion s.mu.invCause s.mu.brakeCause s.mu.listenCause s.mu.reference s.mu.missed s.mu.still →
      MotionForm (linkAct s).mu.motion (linkAct s).mu.invCause (linkAct s).mu.brakeCause
        (linkAct s).mu.listenCause (linkAct s).mu.reference (linkAct s).mu.missed (linkAct s).mu.still) ∧
    (PartyForm s.bu.queue s.bu.window.state s.bu.window.matched s.bu.window.grace →
      PartyForm (linkAct s).bu.queue (linkAct s).bu.window.state (linkAct s).bu.window.matched
        (linkAct s).bu.window.grace) := by
  refine ⟨?_, ?_, ?_, ?_, ?_⟩
  · intro h; unfold linkAct; try dsimp only
    (repeat' split) <;> first | with_reducible exact h | simp (maxDischargeDepth := 30) [h]
  · intro h; unfold linkAct; try dsimp only
    (repeat' split) <;> first | with_reducible exact h | simp (maxDischargeDepth := 30) [h]
  · intro h; unfold linkAct; try dsimp only
    (repeat' split) <;> first | with_reducible exact h | simp (maxDischargeDepth := 30) [h]
  · intro h; unfold linkAct; try dsimp only
    (repeat' split) <;> first | with_reducible exact h | simp (maxDischargeDepth := 30) [h]
  · intro h; unfold linkAct; try dsimp only
    (repeat' split) <;> first | with_reducible exact h | simp (maxDischargeDepth := 30) [h]

@[simp] theorem setCond_keeps (c : LinkCond) (v : Bool) (s : State) :
    (s.lu.Wf → (setCond c v s).lu.Wf) ∧
    (LinkForm s.lc.queue s.lc.nextEntry s.lc.sending s.lc.rxErrors →
      LinkForm (setCond c v s).lc.queue (setCond c v s).lc.nextEntry (setCond c v s).lc.sending
        (setCond c v s).lc.rxErrors) ∧
    (HoldForm s.hu.records s.hu.effect s.hu.own →
      HoldForm (setCond c v s).hu.records (setCond c v s).hu.effect (setCond c v s).hu.own) ∧
    (MotionForm s.mu.motion s.mu.invCause s.mu.brakeCause s.mu.listenCause s.mu.reference s.mu.missed s.mu.still →
      MotionForm (setCond c v s).mu.motion (setCond c v s).mu.invCause (setCond c v s).mu.brakeCause
        (setCond c v s).mu.listenCause (setCond c v s).mu.reference (setCond c v s).mu.missed
        (setCond c v s).mu.still) ∧
    (PartyForm s.bu.queue s.bu.window.state s.bu.window.matched s.bu.window.grace →
      PartyForm (setCond c v s).bu.queue (setCond c v s).bu.window.state
        (setCond c v s).bu.window.matched (setCond c v s).bu.window.grace) := by
  refine ⟨?_, ?_, ?_, ?_, ?_⟩
  · intro h; unfold setCond; try dsimp only
    (repeat' split) <;> first | with_reducible exact h | simp (maxDischargeDepth := 30) [h]
  · intro h; unfold setCond; try dsimp only
    (repeat' split) <;> first | with_reducible exact h | simp (maxDischargeDepth := 30) [h]
  · intro h; unfold setCond; try dsimp only
    (repeat' split) <;> first | with_reducible exact h | simp (maxDischargeDepth := 30) [h]
  · intro h; unfold setCond; try dsimp only
    (repeat' split) <;> first | with_reducible exact h | simp (maxDischargeDepth := 30) [h]
  · intro h; unfold setCond; try dsimp only
    (repeat' split) <;> first | with_reducible exact h | simp (maxDischargeDepth := 30) [h]

@[simp] theorem recheckDrives_keeps (s : State) :
    (s.lu.Wf → (recheckDrives s).lu.Wf) ∧
    (LinkForm s.lc.queue s.lc.nextEntry s.lc.sending s.lc.rxErrors →
      LinkForm (recheckDrives s).lc.queue (recheckDrives s).lc.nextEntry (recheckDrives s).lc.sending
        (recheckDrives s).lc.rxErrors) ∧
    (HoldForm s.hu.records s.hu.effect s.hu.own →
      HoldForm (recheckDrives s).hu.records (recheckDrives s).hu.effect (recheckDrives s).hu.own) ∧
    (MotionForm s.mu.motion s.mu.invCause s.mu.brakeCause s.mu.listenCause s.mu.reference s.mu.missed s.mu.still →
      MotionForm (recheckDrives s).mu.motion (recheckDrives s).mu.invCause
        (recheckDrives s).mu.brakeCause (recheckDrives s).mu.listenCause (recheckDrives s).mu.reference
        (recheckDrives s).mu.missed (recheckDrives s).mu.still) ∧
    (PartyForm s.bu.queue s.bu.window.state s.bu.window.matched s.bu.window.grace →
      PartyForm (recheckDrives s).bu.queue (recheckDrives s).bu.window.state
        (recheckDrives s).bu.window.matched (recheckDrives s).bu.window.grace) := by
  refine ⟨?_, ?_, ?_, ?_, ?_⟩
  · intro h; unfold recheckDrives; try dsimp only
    (repeat' split) <;> first | with_reducible exact h | simp (maxDischargeDepth := 30) [h]
  · intro h; unfold recheckDrives; try dsimp only
    (repeat' split) <;> first | with_reducible exact h | simp (maxDischargeDepth := 30) [h]
  · intro h; unfold recheckDrives; try dsimp only
    (repeat' split) <;> first | with_reducible exact h | simp (maxDischargeDepth := 30) [h]
  · intro h; unfold recheckDrives; try dsimp only
    (repeat' split) <;> first | with_reducible exact h | simp (maxDischargeDepth := 30) [h]
  · intro h; unfold recheckDrives; try dsimp only
    (repeat' split) <;> first | with_reducible exact h | simp (maxDischargeDepth := 30) [h]

@[simp] theorem recheckBays_keeps (s : State) :
    (s.lu.Wf → (recheckBays s).lu.Wf) ∧
    (LinkForm s.lc.queue s.lc.nextEntry s.lc.sending s.lc.rxErrors →
      LinkForm (recheckBays s).lc.queue (recheckBays s).lc.nextEntry (recheckBays s).lc.sending
        (recheckBays s).lc.rxErrors) ∧
    (HoldForm s.hu.records s.hu.effect s.hu.own →
      HoldForm (recheckBays s).hu.records (recheckBays s).hu.effect (recheckBays s).hu.own) ∧
    (MotionForm s.mu.motion s.mu.invCause s.mu.brakeCause s.mu.listenCause s.mu.reference s.mu.missed s.mu.still →
      MotionForm (recheckBays s).mu.motion (recheckBays s).mu.invCause (recheckBays s).mu.brakeCause
        (recheckBays s).mu.listenCause (recheckBays s).mu.reference (recheckBays s).mu.missed
        (recheckBays s).mu.still) ∧
    (PartyForm s.bu.queue s.bu.window.state s.bu.window.matched s.bu.window.grace →
      PartyForm (recheckBays s).bu.queue (recheckBays s).bu.window.state
        (recheckBays s).bu.window.matched (recheckBays s).bu.window.grace) := by
  refine ⟨?_, ?_, ?_, ?_, ?_⟩
  · intro h; unfold recheckBays; try dsimp only
    (repeat' split) <;> first | with_reducible exact h | simp (maxDischargeDepth := 30) [h]
  · intro h; unfold recheckBays; try dsimp only
    (repeat' split) <;> first | with_reducible exact h | simp (maxDischargeDepth := 30) [h]
  · intro h; unfold recheckBays; try dsimp only
    (repeat' split) <;> first | with_reducible exact h | simp (maxDischargeDepth := 30) [h]
  · intro h; unfold recheckBays; try dsimp only
    (repeat' split) <;> first | with_reducible exact h | simp (maxDischargeDepth := 30) [h]
  · intro h; unfold recheckBays; try dsimp only
    (repeat' split) <;> first | with_reducible exact h | simp (maxDischargeDepth := 30) [h]

@[simp] theorem handDriveRestart_keeps (s : State) :
    (s.lu.Wf → (handDriveRestart s).lu.Wf) ∧
    (LinkForm s.lc.queue s.lc.nextEntry s.lc.sending s.lc.rxErrors →
      LinkForm (handDriveRestart s).lc.queue (handDriveRestart s).lc.nextEntry
        (handDriveRestart s).lc.sending (handDriveRestart s).lc.rxErrors) ∧
    (HoldForm s.hu.records s.hu.effect s.hu.own →
      HoldForm (handDriveRestart s).hu.records (handDriveRestart s).hu.effect
        (handDriveRestart s).hu.own) ∧
    (MotionForm s.mu.motion s.mu.invCause s.mu.brakeCause s.mu.listenCause s.mu.reference s.mu.missed s.mu.still →
      MotionForm (handDriveRestart s).mu.motion (handDriveRestart s).mu.invCause
        (handDriveRestart s).mu.brakeCause (handDriveRestart s).mu.listenCause
        (handDriveRestart s).mu.reference (handDriveRestart s).mu.missed (handDriveRestart s).mu.still) ∧
    (PartyForm s.bu.queue s.bu.window.state s.bu.window.matched s.bu.window.grace →
      PartyForm (handDriveRestart s).bu.queue (handDriveRestart s).bu.window.state
        (handDriveRestart s).bu.window.matched (handDriveRestart s).bu.window.grace) := by
  refine ⟨?_, ?_, ?_, ?_, ?_⟩
  · intro h; unfold handDriveRestart; try dsimp only
    (repeat' split) <;> first | with_reducible exact h | simp (maxDischargeDepth := 30) [h]
  · intro h; unfold handDriveRestart; try dsimp only
    (repeat' split) <;> first | with_reducible exact h | simp (maxDischargeDepth := 30) [h]
  · intro h; unfold handDriveRestart; try dsimp only
    (repeat' split) <;> first | with_reducible exact h | simp (maxDischargeDepth := 30) [h]
  · intro h; unfold handDriveRestart; try dsimp only
    (repeat' split) <;> first | with_reducible exact h | simp (maxDischargeDepth := 30) [h]
  · intro h; unfold handDriveRestart; try dsimp only
    (repeat' split) <;> first | with_reducible exact h | simp (maxDischargeDepth := 30) [h]

@[simp] theorem overrideLink_keeps (s : State) :
    (s.lu.Wf → (overrideLink s).lu.Wf) ∧
    (HoldForm s.hu.records s.hu.effect s.hu.own →
      HoldForm (overrideLink s).hu.records (overrideLink s).hu.effect (overrideLink s).hu.own) := by
  refine ⟨?_, ?_⟩
  · intro h; unfold overrideLink; try dsimp only
    (repeat' split) <;> first | with_reducible exact h | simp (maxDischargeDepth := 30) [h]
  · intro h; unfold overrideLink; try dsimp only
    (repeat' split) <;> first | with_reducible exact h | simp (maxDischargeDepth := 30) [h]

@[simp] theorem stopIn_keeps (s : State) :
    (s.lu.Wf → (stopIn s).lu.Wf) ∧
    (LinkForm s.lc.queue s.lc.nextEntry s.lc.sending s.lc.rxErrors →
      LinkForm (stopIn s).lc.queue (stopIn s).lc.nextEntry (stopIn s).lc.sending (stopIn s).lc.rxErrors) ∧
    (HoldForm s.hu.records s.hu.effect s.hu.own →
      HoldForm (stopIn s).hu.records (stopIn s).hu.effect (stopIn s).hu.own) ∧
    (MotionForm s.mu.motion s.mu.invCause s.mu.brakeCause s.mu.listenCause s.mu.reference s.mu.missed s.mu.still →
      MotionForm (stopIn s).mu.motion (stopIn s).mu.invCause (stopIn s).mu.brakeCause
        (stopIn s).mu.listenCause (stopIn s).mu.reference (stopIn s).mu.missed (stopIn s).mu.still) ∧
    (PartyForm s.bu.queue s.bu.window.state s.bu.window.matched s.bu.window.grace →
      PartyForm (stopIn s).bu.queue (stopIn s).bu.window.state (stopIn s).bu.window.matched
        (stopIn s).bu.window.grace) := by
  refine ⟨?_, ?_, ?_, ?_, ?_⟩
  · intro h; unfold stopIn; try dsimp only
    (repeat' split) <;> first | with_reducible exact h | simp (maxDischargeDepth := 30) [h]
  · intro h; unfold stopIn; try dsimp only
    (repeat' split) <;> first | with_reducible exact h | simp (maxDischargeDepth := 30) [h]
  · intro h; unfold stopIn; try dsimp only
    (repeat' split) <;> first | with_reducible exact h | simp (maxDischargeDepth := 30) [h]
  · intro h; unfold stopIn; try dsimp only
    (repeat' split) <;> first | with_reducible exact h | simp (maxDischargeDepth := 30) [h]
  · intro h; unfold stopIn; try dsimp only
    (repeat' split) <;> first | with_reducible exact h | simp (maxDischargeDepth := 30) [h]

@[simp] theorem takeHold_keeps (n : Nat) (p : HoldPayload) (s : State) :
    (s.lu.Wf → (takeHold n p s).1.lu.Wf) ∧
    (HoldForm s.hu.records s.hu.effect s.hu.own →
      HoldForm (takeHold n p s).1.hu.records (takeHold n p s).1.hu.effect (takeHold n p s).1.hu.own) ∧
    (MotionForm s.mu.motion s.mu.invCause s.mu.brakeCause s.mu.listenCause s.mu.reference s.mu.missed s.mu.still →
      MotionForm (takeHold n p s).1.mu.motion (takeHold n p s).1.mu.invCause
        (takeHold n p s).1.mu.brakeCause (takeHold n p s).1.mu.listenCause
        (takeHold n p s).1.mu.reference (takeHold n p s).1.mu.missed (takeHold n p s).1.mu.still) ∧
    (PartyForm s.bu.queue s.bu.window.state s.bu.window.matched s.bu.window.grace →
      PartyForm (takeHold n p s).1.bu.queue (takeHold n p s).1.bu.window.state
        (takeHold n p s).1.bu.window.matched (takeHold n p s).1.bu.window.grace) := by
  refine ⟨?_, ?_, ?_, ?_⟩
  · intro h; unfold takeHold; try dsimp only
    (repeat' split) <;> first | with_reducible exact h | simp (maxDischargeDepth := 30) [h]
  · intro h
    unfold takeHold
    split
    · exact h
    · split
      · split
        · split
          · dsimp only
            split <;> simp [h]
          · next hn => exact admitHold_form _ _ h hn
        · exact h
      · exact h
  · intro h; unfold takeHold; try dsimp only
    (repeat' split) <;> first | with_reducible exact h | simp (maxDischargeDepth := 30) [h]
  · intro h; unfold takeHold; try dsimp only
    (repeat' split) <;> first | with_reducible exact h | simp (maxDischargeDepth := 30) [h]

@[simp] theorem takeRelease_keeps (n : Nat) (p : ReleasePayload) (s : State) :
    (s.lu.Wf → (takeRelease n p s).1.lu.Wf) ∧
    (HoldForm s.hu.records s.hu.effect s.hu.own →
      HoldForm (takeRelease n p s).1.hu.records (takeRelease n p s).1.hu.effect
        (takeRelease n p s).1.hu.own) ∧
    (MotionForm s.mu.motion s.mu.invCause s.mu.brakeCause s.mu.listenCause s.mu.reference s.mu.missed s.mu.still →
      MotionForm (takeRelease n p s).1.mu.motion (takeRelease n p s).1.mu.invCause
        (takeRelease n p s).1.mu.brakeCause (takeRelease n p s).1.mu.listenCause
        (takeRelease n p s).1.mu.reference (takeRelease n p s).1.mu.missed
        (takeRelease n p s).1.mu.still) ∧
    (PartyForm s.bu.queue s.bu.window.state s.bu.window.matched s.bu.window.grace →
      PartyForm (takeRelease n p s).1.bu.queue (takeRelease n p s).1.bu.window.state
        (takeRelease n p s).1.bu.window.matched (takeRelease n p s).1.bu.window.grace) := by
  refine ⟨?_, ?_, ?_, ?_⟩
  · intro h; unfold takeRelease; try dsimp only
    (repeat' split) <;> first | with_reducible exact h | simp (maxDischargeDepth := 30) [h]
  · intro h; unfold takeRelease; try dsimp only
    (repeat' split) <;> first | with_reducible exact h | simp (maxDischargeDepth := 30) [h]
  · intro h; unfold takeRelease; try dsimp only
    (repeat' split) <;> first | with_reducible exact h | simp (maxDischargeDepth := 30) [h]
  · intro h; unfold takeRelease; try dsimp only
    (repeat' split) <;> first | with_reducible exact h | simp (maxDischargeDepth := 30) [h]

@[simp] theorem overrideOwn_keeps (k : HoldKind) (s : State) :
    (s.lu.Wf → (overrideOwn k s).lu.Wf) ∧
    (HoldForm s.hu.records s.hu.effect s.hu.own →
      HoldForm (overrideOwn k s).hu.records (overrideOwn k s).hu.effect (overrideOwn k s).hu.own) ∧
    (MotionForm s.mu.motion s.mu.invCause s.mu.brakeCause s.mu.listenCause s.mu.reference s.mu.missed s.mu.still →
      MotionForm (overrideOwn k s).mu.motion (overrideOwn k s).mu.invCause
        (overrideOwn k s).mu.brakeCause (overrideOwn k s).mu.listenCause (overrideOwn k s).mu.reference
        (overrideOwn k s).mu.missed (overrideOwn k s).mu.still) ∧
    (PartyForm s.bu.queue s.bu.window.state s.bu.window.matched s.bu.window.grace →
      PartyForm (overrideOwn k s).bu.queue (overrideOwn k s).bu.window.state
        (overrideOwn k s).bu.window.matched (overrideOwn k s).bu.window.grace) := by
  refine ⟨?_, ?_, ?_, ?_⟩
  · intro h; unfold overrideOwn; try dsimp only
    (repeat' split) <;> first | with_reducible exact h | simp (maxDischargeDepth := 30) [h]
  · intro h
    have h' := h.own (h.2.2.2.sublist
      ((List.filter_sublist (p := fun o : OwnHold => o.kind != k) (l := s.hu.own)).map OwnHold.kind))
    unfold overrideOwn
    dsimp only
    (repeat' split) <;> simp [h']
  · intro h; unfold overrideOwn; try dsimp only
    (repeat' split) <;> first | with_reducible exact h | simp (maxDischargeDepth := 30) [h]
  · intro h; unfold overrideOwn; try dsimp only
    (repeat' split) <;> first | with_reducible exact h | simp (maxDischargeDepth := 30) [h]

@[simp] theorem takeOverride_keeps (p : ReleasePayload) (s : State) :
    (s.lu.Wf → (takeOverride p s).1.lu.Wf) ∧
    (HoldForm s.hu.records s.hu.effect s.hu.own →
      HoldForm (takeOverride p s).1.hu.records (takeOverride p s).1.hu.effect
        (takeOverride p s).1.hu.own) ∧
    (MotionForm s.mu.motion s.mu.invCause s.mu.brakeCause s.mu.listenCause s.mu.reference s.mu.missed s.mu.still →
      MotionForm (takeOverride p s).1.mu.motion (takeOverride p s).1.mu.invCause
        (takeOverride p s).1.mu.brakeCause (takeOverride p s).1.mu.listenCause
        (takeOverride p s).1.mu.reference (takeOverride p s).1.mu.missed (takeOverride p s).1.mu.still) ∧
    (PartyForm s.bu.queue s.bu.window.state s.bu.window.matched s.bu.window.grace →
      PartyForm (takeOverride p s).1.bu.queue (takeOverride p s).1.bu.window.state
        (takeOverride p s).1.bu.window.matched (takeOverride p s).1.bu.window.grace) := by
  refine ⟨?_, ?_, ?_, ?_⟩
  · intro h; unfold takeOverride; try dsimp only
    (repeat' split) <;> first | with_reducible exact h | simp (maxDischargeDepth := 30) [h]
  · intro h; unfold takeOverride; try dsimp only
    (repeat' split) <;> first | with_reducible exact h | simp (maxDischargeDepth := 30) [h]
  · intro h; unfold takeOverride; try dsimp only
    (repeat' split) <;> first | with_reducible exact h | simp (maxDischargeDepth := 30) [h]
  · intro h; unfold takeOverride; try dsimp only
    (repeat' split) <;> first | with_reducible exact h | simp (maxDischargeDepth := 30) [h]

@[simp] theorem orphan_keeps (k : HoldKind) (d : Nat) (s : State) :
    (s.lu.Wf → (orphan k d s).lu.Wf) ∧
    (HoldForm s.hu.records s.hu.effect s.hu.own →
      HoldForm (orphan k d s).hu.records (orphan k d s).hu.effect (orphan k d s).hu.own) ∧
    (MotionForm s.mu.motion s.mu.invCause s.mu.brakeCause s.mu.listenCause s.mu.reference s.mu.missed s.mu.still →
      MotionForm (orphan k d s).mu.motion (orphan k d s).mu.invCause (orphan k d s).mu.brakeCause
        (orphan k d s).mu.listenCause (orphan k d s).mu.reference (orphan k d s).mu.missed
        (orphan k d s).mu.still) ∧
    (PartyForm s.bu.queue s.bu.window.state s.bu.window.matched s.bu.window.grace →
      PartyForm (orphan k d s).bu.queue (orphan k d s).bu.window.state (orphan k d s).bu.window.matched
        (orphan k d s).bu.window.grace) := by
  refine ⟨?_, ?_, ?_, ?_⟩
  · intro h; unfold orphan; try dsimp only
    (repeat' split) <;> first | with_reducible exact h | simp (maxDischargeDepth := 30) [h]
  · intro h; unfold orphan; try dsimp only
    (repeat' split) <;> first | with_reducible exact h | simp (maxDischargeDepth := 30) [h]
  · intro h; unfold orphan; try dsimp only
    (repeat' split) <;> first | with_reducible exact h | simp (maxDischargeDepth := 30) [h]
  · intro h; unfold orphan; try dsimp only
    (repeat' split) <;> first | with_reducible exact h | simp (maxDischargeDepth := 30) [h]

@[simp] theorem lapse_keeps (k : HoldKind) (d : Nat) (s : State) :
    (s.lu.Wf → (lapse k d s).lu.Wf) ∧
    (HoldForm s.hu.records s.hu.effect s.hu.own →
      HoldForm (lapse k d s).hu.records (lapse k d s).hu.effect (lapse k d s).hu.own) ∧
    (MotionForm s.mu.motion s.mu.invCause s.mu.brakeCause s.mu.listenCause s.mu.reference s.mu.missed s.mu.still →
      MotionForm (lapse k d s).mu.motion (lapse k d s).mu.invCause (lapse k d s).mu.brakeCause
        (lapse k d s).mu.listenCause (lapse k d s).mu.reference (lapse k d s).mu.missed
        (lapse k d s).mu.still) ∧
    (PartyForm s.bu.queue s.bu.window.state s.bu.window.matched s.bu.window.grace →
      PartyForm (lapse k d s).bu.queue (lapse k d s).bu.window.state (lapse k d s).bu.window.matched
        (lapse k d s).bu.window.grace) := by
  refine ⟨?_, ?_, ?_, ?_⟩
  · intro h; unfold lapse; try dsimp only
    (repeat' split) <;> first | with_reducible exact h | simp (maxDischargeDepth := 30) [h]
  · intro h; unfold lapse; try dsimp only
    (repeat' split) <;> first | with_reducible exact h | simp (maxDischargeDepth := 30) [h]
  · intro h; unfold lapse; try dsimp only
    (repeat' split) <;> first | with_reducible exact h | simp (maxDischargeDepth := 30) [h]
  · intro h; unfold lapse; try dsimp only
    (repeat' split) <;> first | with_reducible exact h | simp (maxDischargeDepth := 30) [h]

@[simp] theorem lapseOne_keeps (r : HoldRec) (s : State) :
    (s.lu.Wf → (lapseOne s r).lu.Wf) ∧
    (HoldForm s.hu.records s.hu.effect s.hu.own →
      HoldForm (lapseOne s r).hu.records (lapseOne s r).hu.effect (lapseOne s r).hu.own) ∧
    (MotionForm s.mu.motion s.mu.invCause s.mu.brakeCause s.mu.listenCause s.mu.reference s.mu.missed s.mu.still →
      MotionForm (lapseOne s r).mu.motion (lapseOne s r).mu.invCause (lapseOne s r).mu.brakeCause
        (lapseOne s r).mu.listenCause (lapseOne s r).mu.reference (lapseOne s r).mu.missed
        (lapseOne s r).mu.still) ∧
    (PartyForm s.bu.queue s.bu.window.state s.bu.window.matched s.bu.window.grace →
      PartyForm (lapseOne s r).bu.queue (lapseOne s r).bu.window.state (lapseOne s r).bu.window.matched
        (lapseOne s r).bu.window.grace) := by
  refine ⟨?_, ?_, ?_, ?_⟩
  · intro h; unfold lapseOne; try dsimp only
    (repeat' split) <;> first | with_reducible exact h | simp (maxDischargeDepth := 30) [h]
  · intro h; unfold lapseOne; try dsimp only
    (repeat' split) <;> first | with_reducible exact h | simp (maxDischargeDepth := 30) [h]
  · intro h; unfold lapseOne; try dsimp only
    (repeat' split) <;> first | with_reducible exact h | simp (maxDischargeDepth := 30) [h]
  · intro h; unfold lapseOne; try dsimp only
    (repeat' split) <;> first | with_reducible exact h | simp (maxDischargeDepth := 30) [h]

@[simp] theorem lapseAll_keeps (s : State) :
    (s.lu.Wf → (lapseAll s).lu.Wf) ∧
    (HoldForm s.hu.records s.hu.effect s.hu.own →
      HoldForm (lapseAll s).hu.records (lapseAll s).hu.effect (lapseAll s).hu.own) ∧
    (MotionForm s.mu.motion s.mu.invCause s.mu.brakeCause s.mu.listenCause s.mu.reference s.mu.missed s.mu.still →
      MotionForm (lapseAll s).mu.motion (lapseAll s).mu.invCause (lapseAll s).mu.brakeCause
        (lapseAll s).mu.listenCause (lapseAll s).mu.reference (lapseAll s).mu.missed
        (lapseAll s).mu.still) ∧
    (PartyForm s.bu.queue s.bu.window.state s.bu.window.matched s.bu.window.grace →
      PartyForm (lapseAll s).bu.queue (lapseAll s).bu.window.state (lapseAll s).bu.window.matched
        (lapseAll s).bu.window.grace) := by
  refine ⟨?_, ?_, ?_, ?_⟩
  · intro h
    unfold lapseAll
    refine foldl_inv (P := fun t => t.lu.Wf) (fun t r ht => ?_) _ (by simpa using h)
    exact (lapseOne_keeps r t).1 ht
  · intro h
    unfold lapseAll
    refine foldl_inv (P := fun t => HoldForm t.hu.records t.hu.effect t.hu.own) (fun t r ht => ?_) _ (by simpa using h)
    exact (lapseOne_keeps r t).2.1 ht
  · intro h
    unfold lapseAll
    refine foldl_inv (P := fun t => MotionForm t.mu.motion t.mu.invCause t.mu.brakeCause t.mu.listenCause t.mu.reference t.mu.missed t.mu.still) (fun t r ht => ?_) _ (by simpa using h)
    exact (lapseOne_keeps r t).2.2.1 ht
  · intro h
    unfold lapseAll
    refine foldl_inv (P := fun t => PartyForm t.bu.queue t.bu.window.state t.bu.window.matched t.bu.window.grace) (fun t r ht => ?_) _ (by simpa using h)
    exact (lapseOne_keeps r t).2.2.2 ht

@[simp] theorem orphanDeclarer_keeps (n : Nat) (s : State) :
    (s.lu.Wf → (orphanDeclarer n s).lu.Wf) ∧
    (HoldForm s.hu.records s.hu.effect s.hu.own →
      HoldForm (orphanDeclarer n s).hu.records (orphanDeclarer n s).hu.effect
        (orphanDeclarer n s).hu.own) ∧
    (MotionForm s.mu.motion s.mu.invCause s.mu.brakeCause s.mu.listenCause s.mu.reference s.mu.missed s.mu.still →
      MotionForm (orphanDeclarer n s).mu.motion (orphanDeclarer n s).mu.invCause
        (orphanDeclarer n s).mu.brakeCause (orphanDeclarer n s).mu.listenCause
        (orphanDeclarer n s).mu.reference (orphanDeclarer n s).mu.missed (orphanDeclarer n s).mu.still) ∧
    (PartyForm s.bu.queue s.bu.window.state s.bu.window.matched s.bu.window.grace →
      PartyForm (orphanDeclarer n s).bu.queue (orphanDeclarer n s).bu.window.state
        (orphanDeclarer n s).bu.window.matched (orphanDeclarer n s).bu.window.grace) := by
  refine ⟨?_, ?_, ?_, ?_⟩
  · intro h
    unfold orphanDeclarer
    refine foldl_inv (P := fun t => t.lu.Wf) (fun t r ht => ?_) _ h
    split
    · exact (orphan_keeps _ _ t).1 ht
    · exact ht
  · intro h
    unfold orphanDeclarer
    refine foldl_inv (P := fun t => HoldForm t.hu.records t.hu.effect t.hu.own) (fun t r ht => ?_) _ h
    split
    · exact (orphan_keeps _ _ t).2.1 ht
    · exact ht
  · intro h
    unfold orphanDeclarer
    refine foldl_inv (P := fun t => MotionForm t.mu.motion t.mu.invCause t.mu.brakeCause t.mu.listenCause t.mu.reference t.mu.missed t.mu.still) (fun t r ht => ?_) _ h
    split
    · exact (orphan_keeps _ _ t).2.2.1 ht
    · exact ht
  · intro h
    unfold orphanDeclarer
    refine foldl_inv (P := fun t => PartyForm t.bu.queue t.bu.window.state t.bu.window.matched t.bu.window.grace) (fun t r ht => ?_) _ h
    split
    · exact (orphan_keeps _ _ t).2.2.2 ht
    · exact ht

@[simp] theorem watchMotion_keeps (n c : Nat) (s : State) :
    (s.lu.Wf → (watchMotion n c s).lu.Wf) ∧
    (HoldForm s.hu.records s.hu.effect s.hu.own →
      HoldForm (watchMotion n c s).hu.records (watchMotion n c s).hu.effect (watchMotion n c s).hu.own) := by
  refine ⟨?_, ?_⟩
  · intro h; unfold watchMotion; try dsimp only
    (repeat' split) <;> first | with_reducible exact h | simp (maxDischargeDepth := 30) [h]
  · intro h; unfold watchMotion; try dsimp only
    (repeat' split) <;> first | with_reducible exact h | simp (maxDischargeDepth := 30) [h]

@[simp] theorem countUnanswered_keeps (n : Nat) (s : State) :
    (s.lu.Wf → (countUnanswered s n).lu.Wf) ∧
    (HoldForm s.hu.records s.hu.effect s.hu.own →
      HoldForm (countUnanswered s n).hu.records (countUnanswered s n).hu.effect
        (countUnanswered s n).hu.own) ∧
    (PeerForm s.pv.table → PeerForm (countUnanswered s n).pv.table) := by
  refine ⟨?_, ?_, ?_⟩
  · intro h; unfold countUnanswered; try dsimp only
    (repeat' split) <;> first | with_reducible exact h | simp (maxDischargeDepth := 30) [h]
  · intro h; unfold countUnanswered; try dsimp only
    (repeat' split) <;> first | with_reducible exact h | simp (maxDischargeDepth := 30) [h]
  · intro h
    have hp := peer_form h n
    unfold countUnanswered
    split
    · exact h
    · split
      · exact h
      · simp only [raise_spares, onHu_blocks]
        exact setPeer_keeps _ _ _ ⟨hp.1, Nat.min_le_left _ _⟩ h

@[simp] theorem endAckWindow_keeps (w : Watch) (s : State) :
    (s.lu.Wf → (endAckWindow w s).lu.Wf) ∧
    (HoldForm s.hu.records s.hu.effect s.hu.own →
      HoldForm (endAckWindow w s).hu.records (endAckWindow w s).hu.effect (endAckWindow w s).hu.own) ∧
    (MotionForm s.mu.motion s.mu.invCause s.mu.brakeCause s.mu.listenCause s.mu.reference s.mu.missed s.mu.still →
      MotionForm (endAckWindow w s).mu.motion (endAckWindow w s).mu.invCause
        (endAckWindow w s).mu.brakeCause (endAckWindow w s).mu.listenCause
        (endAckWindow w s).mu.reference (endAckWindow w s).mu.missed (endAckWindow w s).mu.still) ∧
    (PeerForm s.pv.table → PeerForm (endAckWindow w s).pv.table) := by
  refine ⟨?_, ?_, ?_, ?_⟩
  · intro h
    unfold endAckWindow
    dsimp only
    have hf := foldl_inv (P := fun t => t.lu.Wf) (f := countUnanswered) (fun t n ht => by
        exact (countUnanswered_keeps n t).1 ht)
      (w.list.filter (fun n => !(w.acked.contains n)))
      (s := s.onHu (fun h => { h with watch := some { w with ackUntil := none } })) (by simpa using h)
    split
    · exact (dragStop_keeps _).1 hf
    · exact hf
  · intro h
    unfold endAckWindow
    dsimp only
    have hf := foldl_inv (P := fun t => HoldForm t.hu.records t.hu.effect t.hu.own) (f := countUnanswered) (fun t n ht => by
        exact (countUnanswered_keeps n t).2.1 ht)
      (w.list.filter (fun n => !(w.acked.contains n)))
      (s := s.onHu (fun h => { h with watch := some { w with ackUntil := none } })) (by simpa using h)
    split
    · exact by simpa using hf
    · exact hf
  · intro h
    unfold endAckWindow
    dsimp only
    have hf := foldl_inv (P := fun t => MotionForm t.mu.motion t.mu.invCause t.mu.brakeCause t.mu.listenCause t.mu.reference t.mu.missed t.mu.still) (f := countUnanswered) (fun t n ht => by
        simpa using ht)
      (w.list.filter (fun n => !(w.acked.contains n)))
      (s := s.onHu (fun h => { h with watch := some { w with ackUntil := none } })) (by simpa using h)
    split
    · exact (dragStop_keeps _).2 hf
    · exact hf
  · intro h
    unfold endAckWindow
    dsimp only
    have hf := foldl_inv (P := fun t => PeerForm t.pv.table) (f := countUnanswered) (fun t n ht => by
        exact (countUnanswered_keeps n t).2.2 ht)
      (w.list.filter (fun n => !(w.acked.contains n)))
      (s := s.onHu (fun h => { h with watch := some { w with ackUntil := none } })) (by simpa using h)
    split
    · exact by simpa using hf
    · exact hf

@[simp] theorem ackWindowExpiry_keeps (s : State) :
    (s.lu.Wf → (ackWindowExpiry s).lu.Wf) ∧
    (HoldForm s.hu.records s.hu.effect s.hu.own →
      HoldForm (ackWindowExpiry s).hu.records (ackWindowExpiry s).hu.effect (ackWindowExpiry s).hu.own) ∧
    (MotionForm s.mu.motion s.mu.invCause s.mu.brakeCause s.mu.listenCause s.mu.reference s.mu.missed s.mu.still →
      MotionForm (ackWindowExpiry s).mu.motion (ackWindowExpiry s).mu.invCause
        (ackWindowExpiry s).mu.brakeCause (ackWindowExpiry s).mu.listenCause
        (ackWindowExpiry s).mu.reference (ackWindowExpiry s).mu.missed (ackWindowExpiry s).mu.still) ∧
    (PeerForm s.pv.table → PeerForm (ackWindowExpiry s).pv.table) := by
  refine ⟨?_, ?_, ?_, ?_⟩
  · intro h; unfold ackWindowExpiry; try dsimp only
    (repeat' split) <;> first | with_reducible exact h | simp (maxDischargeDepth := 30) [h]
  · intro h; unfold ackWindowExpiry; try dsimp only
    (repeat' split) <;> first | with_reducible exact h | simp (maxDischargeDepth := 30) [h]
  · intro h; unfold ackWindowExpiry; try dsimp only
    (repeat' split) <;> first | with_reducible exact h | simp (maxDischargeDepth := 30) [h]
  · intro h; unfold ackWindowExpiry; try dsimp only
    (repeat' split) <;> first | with_reducible exact h | simp (maxDischargeDepth := 30) [h]

@[simp] theorem brakedLimitExpiry_keeps (s : State) :
    (s.lu.Wf → (brakedLimitExpiry s).lu.Wf) ∧
    (HoldForm s.hu.records s.hu.effect s.hu.own →
      HoldForm (brakedLimitExpiry s).hu.records (brakedLimitExpiry s).hu.effect
        (brakedLimitExpiry s).hu.own) := by
  refine ⟨?_, ?_⟩
  · intro h; unfold brakedLimitExpiry; try dsimp only
    (repeat' split) <;> first | with_reducible exact h | simp (maxDischargeDepth := 30) [h]
  · intro h; unfold brakedLimitExpiry; try dsimp only
    (repeat' split) <;> first | with_reducible exact h | simp (maxDischargeDepth := 30) [h]

@[simp] theorem formFused_keeps (s : State) :
    (s.lu.Wf → (formFused s).lu.Wf) ∧
    (LinkForm s.lc.queue s.lc.nextEntry s.lc.sending s.lc.rxErrors →
      LinkForm (formFused s).lc.queue (formFused s).lc.nextEntry (formFused s).lc.sending
        (formFused s).lc.rxErrors) ∧
    (HoldForm s.hu.records s.hu.effect s.hu.own →
      HoldForm (formFused s).hu.records (formFused s).hu.effect (formFused s).hu.own) ∧
    (MotionForm s.mu.motion s.mu.invCause s.mu.brakeCause s.mu.listenCause s.mu.reference s.mu.missed s.mu.still →
      MotionForm (formFused s).mu.motion (formFused s).mu.invCause (formFused s).mu.brakeCause
        (formFused s).mu.listenCause (formFused s).mu.reference (formFused s).mu.missed
        (formFused s).mu.still) ∧
    (PartyForm s.bu.queue s.bu.window.state s.bu.window.matched s.bu.window.grace →
      PartyForm (formFused s).bu.queue (formFused s).bu.window.state (formFused s).bu.window.matched
        (formFused s).bu.window.grace) := by
  refine ⟨?_, ?_, ?_, ?_, ?_⟩
  · intro h; unfold formFused; try dsimp only
    (repeat' split) <;> first | with_reducible exact h | simp (maxDischargeDepth := 30) [h]
  · intro h; unfold formFused; try dsimp only
    (repeat' split) <;> first | with_reducible exact h | simp (maxDischargeDepth := 30) [h]
  · intro h; unfold formFused; try dsimp only
    (repeat' split) <;> first | with_reducible exact h | simp (maxDischargeDepth := 30) [h]
  · intro h; unfold formFused; try dsimp only
    (repeat' split) <;> first | with_reducible exact h | simp (maxDischargeDepth := 30) [h]
  · intro h; unfold formFused; try dsimp only
    (repeat' split) <;> first | with_reducible exact h | simp (maxDischargeDepth := 30) [h]

@[simp] theorem takeWind_keeps (n : Nat) (q : Byte) (p : WindPayload) (s : State) :
    (s.lu.Wf → (takeWind n q p s).1.lu.Wf) ∧
    (LinkForm s.lc.queue s.lc.nextEntry s.lc.sending s.lc.rxErrors →
      LinkForm (takeWind n q p s).1.lc.queue (takeWind n q p s).1.lc.nextEntry
        (takeWind n q p s).1.lc.sending (takeWind n q p s).1.lc.rxErrors) ∧
    (HoldForm s.hu.records s.hu.effect s.hu.own →
      HoldForm (takeWind n q p s).1.hu.records (takeWind n q p s).1.hu.effect
        (takeWind n q p s).1.hu.own) ∧
    (MotionForm s.mu.motion s.mu.invCause s.mu.brakeCause s.mu.listenCause s.mu.reference s.mu.missed s.mu.still →
      MotionForm (takeWind n q p s).1.mu.motion (takeWind n q p s).1.mu.invCause
        (takeWind n q p s).1.mu.brakeCause (takeWind n q p s).1.mu.listenCause
        (takeWind n q p s).1.mu.reference (takeWind n q p s).1.mu.missed (takeWind n q p s).1.mu.still) ∧
    (PartyForm s.bu.queue s.bu.window.state s.bu.window.matched s.bu.window.grace →
      PartyForm (takeWind n q p s).1.bu.queue (takeWind n q p s).1.bu.window.state
        (takeWind n q p s).1.bu.window.matched (takeWind n q p s).1.bu.window.grace) := by
  refine ⟨?_, ?_, ?_, ?_, ?_⟩
  · intro h; unfold takeWind; try dsimp only
    (repeat' split) <;> first | with_reducible exact h | simp (maxDischargeDepth := 30) [h]
  · intro h; unfold takeWind; try dsimp only
    (repeat' split) <;> first | with_reducible exact h | simp (maxDischargeDepth := 30) [h]
  · intro h; unfold takeWind; try dsimp only
    (repeat' split) <;> first | with_reducible exact h | simp (maxDischargeDepth := 30) [h]
  · intro h; unfold takeWind; try dsimp only
    (repeat' split) <;> first | with_reducible exact h | simp (maxDischargeDepth := 30) [h]
  · intro h; unfold takeWind; try dsimp only
    (repeat' split) <;> first | with_reducible exact h | simp (maxDischargeDepth := 30) [h]

@[simp] theorem onCabin_ct (c : Nat) (f : Cabin → Cabin) (s : State) :
    (s.onCabin c f).ct.cabins = s.ct.cabins.modify (c - 1) f ∧
    (s.onCabin c f).ct.occupied = s.ct.occupied := ⟨rfl, rfl⟩

@[simp] theorem setCursor_ct (b : BayId) (c : Cursor) (t : CabinTable) :
    (t.setCursor b c).cabins = t.cabins ∧ (t.setCursor b c).occupied = t.occupied := by
  cases b <;> exact ⟨rfl, rfl⟩

theorem gapStage_cabins (b : BayId) (n c : Nat) (s : State) (h : CabinsOk s.ct.cabins) :
    CabinsOk (gapStage b n c s).ct.cabins := by
  unfold gapStage
  split
  · exact h
  · dsimp only
    split
    · exact h
    · simp only [logLocal_spares, raise_spares]
      refine foldl_inv (P := fun t => CabinsOk t.ct.cabins) (fun t d ht => ?_) _ h
      simp only [onCabin_ct]
      exact ht.modify _ _ (fun x hx => ⟨hx.1, by simp [Cabin.doubted]⟩)

@[simp] theorem gapStage_keeps (b : BayId) (n c : Nat) (s : State) :
    s.lu.Wf → (gapStage b n c s).lu.Wf := by
  intro h
  unfold gapStage
  split
  · exact h
  · dsimp only
    split
    · exact h
    · refine logLocal_keeps _ _ _ _ (raise_keeps _ _ _ ?_)
      exact foldl_inv (P := fun t => t.lu.Wf) (fun t d ht => by simpa using ht) _ h

theorem resultStage_cabins (b : BayId) (r : PassResult) (p : Passage) (s : State)
    (h : CabinsOk s.ct.cabins) : CabinsOk (resultStage b r p s).ct.cabins := by
  unfold resultStage
  simp only [onCabin_ct]
  exact h.modify _ _ (fun x hx => hx.applyResult r p s.time)

@[simp] theorem cursorStage_keeps (b : BayId) (p : Passage) (s : State) :
    CabinForm s.ct.occupied s.ct.cabins →
      CabinForm (cursorStage b p s).ct.occupied (cursorStage b p s).ct.cabins := by
  intro h
  unfold cursorStage
  simpa using h

theorem countStage_form (s : State) (h : CabinsOk s.ct.cabins) :
    CabinForm (countStage s).ct.occupied (countStage s).ct.cabins := by
  unfold countStage
  dsimp only
  split
  · next hc => exact ⟨hc.symm, h⟩
  · simp only [testEmptyDown_spares, onCt_blocks]
    exact ⟨rfl, h⟩

@[simp] theorem countStage_keeps (s : State) :
    (s.lu.Wf → (countStage s).lu.Wf) ∧
    (HoldForm s.hu.records s.hu.effect s.hu.own →
      HoldForm (countStage s).hu.records (countStage s).hu.effect (countStage s).hu.own) ∧
    (MotionForm s.mu.motion s.mu.invCause s.mu.brakeCause s.mu.listenCause s.mu.reference s.mu.missed s.mu.still →
      MotionForm (countStage s).mu.motion (countStage s).mu.invCause (countStage s).mu.brakeCause
        (countStage s).mu.listenCause (countStage s).mu.reference (countStage s).mu.missed
        (countStage s).mu.still) ∧
    (PartyForm s.bu.queue s.bu.window.state s.bu.window.matched s.bu.window.grace →
      PartyForm (countStage s).bu.queue (countStage s).bu.window.state (countStage s).bu.window.matched
        (countStage s).bu.window.grace) := by
  refine ⟨?_, ?_, ?_, ?_⟩
  · intro h; unfold countStage; try dsimp only
    (repeat' split) <;> first | with_reducible exact h | simp (maxDischargeDepth := 30) [h]
  · intro h; unfold countStage; try dsimp only
    (repeat' split) <;> first | with_reducible exact h | simp (maxDischargeDepth := 30) [h]
  · intro h; unfold countStage; try dsimp only
    (repeat' split) <;> first | with_reducible exact h | simp (maxDischargeDepth := 30) [h]
  · intro h; unfold countStage; try dsimp only
    (repeat' split) <;> first | with_reducible exact h | simp (maxDischargeDepth := 30) [h]

@[simp] theorem supplyTags_keeps (b : BayId) (p : Passage) (s : State) :
    CabinForm s.ct.occupied s.ct.cabins →
      CabinForm (supplyTags b p s).ct.occupied (supplyTags b p s).ct.cabins := by
  intro h
  unfold supplyTags
  split
  · simp only [onCt_blocks, setCursor_ct, onCabin_ct]
    exact ⟨h.1.trans (occupiedOf_modify _ _ _ (fun c => by rfl)).symm, h.2.modify _ _ (fun x hx => hx)⟩
  · exact h

@[simp] theorem applyPassage_keeps (b : BayId) (n : Nat) (p : Passage) (s : State) :
    (s.lu.Wf → (applyPassage b n p s).1.lu.Wf) ∧
    (HoldForm s.hu.records s.hu.effect s.hu.own →
      HoldForm (applyPassage b n p s).1.hu.records (applyPassage b n p s).1.hu.effect
        (applyPassage b n p s).1.hu.own) ∧
    (MotionForm s.mu.motion s.mu.invCause s.mu.brakeCause s.mu.listenCause s.mu.reference s.mu.missed s.mu.still →
      MotionForm (applyPassage b n p s).1.mu.motion (applyPassage b n p s).1.mu.invCause
        (applyPassage b n p s).1.mu.brakeCause (applyPassage b n p s).1.mu.listenCause
        (applyPassage b n p s).1.mu.reference (applyPassage b n p s).1.mu.missed
        (applyPassage b n p s).1.mu.still) ∧
    (PartyForm s.bu.queue s.bu.window.state s.bu.window.matched s.bu.window.grace →
      PartyForm (applyPassage b n p s).1.bu.queue (applyPassage b n p s).1.bu.window.state
        (applyPassage b n p s).1.bu.window.matched (applyPassage b n p s).1.bu.window.grace) ∧
    (CabinForm s.ct.occupied s.ct.cabins →
      CabinForm (applyPassage b n p s).1.ct.occupied (applyPassage b n p s).1.ct.cabins) := by
  refine ⟨?_, ?_, ?_, ?_, ?_⟩
  · intro h; unfold applyPassage; try dsimp only
    (repeat' split) <;> first | with_reducible exact h | simp (maxDischargeDepth := 30) [h]
  · intro h; unfold applyPassage; try dsimp only
    (repeat' split) <;> first | with_reducible exact h | simp (maxDischargeDepth := 30) [h]
  · intro h; unfold applyPassage; try dsimp only
    (repeat' split) <;> first | with_reducible exact h | simp (maxDischargeDepth := 30) [h]
  · intro h; unfold applyPassage; try dsimp only
    (repeat' split) <;> first | with_reducible exact h | simp (maxDischargeDepth := 30) [h]
  · intro h
    unfold applyPassage
    split
    · exact h
    · split
      · exact h
      · split
        · exact supplyTags_keeps _ _ _ h
        · refine countStage_form _ ?_
          unfold cursorStage
          simp only [onCt_blocks, setCursor_ct]
          exact resultStage_cabins _ _ _ _ (gapStage_cabins _ _ _ _ h.2)

@[simp] theorem takePassage_keeps (r : Role) (n : Nat) (p : PassagePayload) (s : State) :
    (s.lu.Wf → (takePassage r n p s).1.lu.Wf) ∧
    (HoldForm s.hu.records s.hu.effect s.hu.own →
      HoldForm (takePassage r n p s).1.hu.records (takePassage r n p s).1.hu.effect
        (takePassage r n p s).1.hu.own) ∧
    (MotionForm s.mu.motion s.mu.invCause s.mu.brakeCause s.mu.listenCause s.mu.reference s.mu.missed s.mu.still →
      MotionForm (takePassage r n p s).1.mu.motion (takePassage r n p s).1.mu.invCause
        (takePassage r n p s).1.mu.brakeCause (takePassage r n p s).1.mu.listenCause
        (takePassage r n p s).1.mu.reference (takePassage r n p s).1.mu.missed
        (takePassage r n p s).1.mu.still) ∧
    (PartyForm s.bu.queue s.bu.window.state s.bu.window.matched s.bu.window.grace →
      PartyForm (takePassage r n p s).1.bu.queue (takePassage r n p s).1.bu.window.state
        (takePassage r n p s).1.bu.window.matched (takePassage r n p s).1.bu.window.grace) ∧
    (CabinForm s.ct.occupied s.ct.cabins →
      CabinForm (takePassage r n p s).1.ct.occupied (takePassage r n p s).1.ct.cabins) := by
  refine ⟨?_, ?_, ?_, ?_, ?_⟩
  · intro h; unfold takePassage; try dsimp only
    (repeat' split) <;> first | with_reducible exact h | simp (maxDischargeDepth := 30) [h]
  · intro h; unfold takePassage; try dsimp only
    (repeat' split) <;> first | with_reducible exact h | simp (maxDischargeDepth := 30) [h]
  · intro h; unfold takePassage; try dsimp only
    (repeat' split) <;> first | with_reducible exact h | simp (maxDischargeDepth := 30) [h]
  · intro h; unfold takePassage; try dsimp only
    (repeat' split) <;> first | with_reducible exact h | simp (maxDischargeDepth := 30) [h]
  · intro h; unfold takePassage; try dsimp only
    (repeat' split) <;> first | with_reducible exact h | simp (maxDischargeDepth := 30) [h]

@[simp] theorem takeSummary_keeps (r : Role) (n : Nat) (p : BayPayload) (s : State) :
    (s.lu.Wf → (takeSummary r n p s).1.lu.Wf) ∧
    (HoldForm s.hu.records s.hu.effect s.hu.own →
      HoldForm (takeSummary r n p s).1.hu.records (takeSummary r n p s).1.hu.effect
        (takeSummary r n p s).1.hu.own) ∧
    (MotionForm s.mu.motion s.mu.invCause s.mu.brakeCause s.mu.listenCause s.mu.reference s.mu.missed s.mu.still →
      MotionForm (takeSummary r n p s).1.mu.motion (takeSummary r n p s).1.mu.invCause
        (takeSummary r n p s).1.mu.brakeCause (takeSummary r n p s).1.mu.listenCause
        (takeSummary r n p s).1.mu.reference (takeSummary r n p s).1.mu.missed
        (takeSummary r n p s).1.mu.still) ∧
    (PartyForm s.bu.queue s.bu.window.state s.bu.window.matched s.bu.window.grace →
      PartyForm (takeSummary r n p s).1.bu.queue (takeSummary r n p s).1.bu.window.state
        (takeSummary r n p s).1.bu.window.matched (takeSummary r n p s).1.bu.window.grace) ∧
    (CabinForm s.ct.occupied s.ct.cabins →
      CabinForm (takeSummary r n p s).1.ct.occupied (takeSummary r n p s).1.ct.cabins) := by
  refine ⟨?_, ?_, ?_, ?_, ?_⟩
  · intro h; unfold takeSummary; try dsimp only
    (repeat' split) <;> first | with_reducible exact h | simp (maxDischargeDepth := 30) [h]
  · intro h; unfold takeSummary; try dsimp only
    (repeat' split) <;> first | with_reducible exact h | simp (maxDischargeDepth := 30) [h]
  · intro h; unfold takeSummary; try dsimp only
    (repeat' split) <;> first | with_reducible exact h | simp (maxDischargeDepth := 30) [h]
  · intro h; unfold takeSummary; try dsimp only
    (repeat' split) <;> first | with_reducible exact h | simp (maxDischargeDepth := 30) [h]
  · intro h; unfold takeSummary; try dsimp only
    (repeat' split) <;> first | with_reducible exact h | simp (maxDischargeDepth := 30) [h]

theorem serviceFrom_form (m : BitVec 64) {n : Nat} {cs : List Cabin} (h : CabinForm n cs) :
    CabinForm n (serviceFrom m cs) := by
  refine ⟨h.1.trans ?_, ?_⟩
  · unfold occupiedOf serviceFrom
    rw [List.mapIdx_eq_zipIdx_map, List.countP_map]
    have : ∀ (l : List Cabin) (i : Nat), l.countP (fun c => c.state != .empty)
        = (l.zipIdx i).countP ((fun c => c.state != CabinState.empty) ∘ fun x =>
            { x.1 with outOfService := m.getLsbD x.2 }) := by
      intro l
      induction l with
      | nil => intro i; rfl
      | cons c l ih => intro i; simp [List.zipIdx_cons, List.countP_cons, ← ih (i + 1)]
    exact this cs 0
  · intro d hd
    simp only [serviceFrom, List.mem_mapIdx] at hd
    obtain ⟨i, hi, rfl⟩ := hd
    have hc := h.2 _ (List.getElem_mem hi)
    exact ⟨hc.1, hc.2⟩

@[simp] theorem takeService_keeps (n : Nat) (p : ServicePayload) (s : State) :
    CabinForm s.ct.occupied s.ct.cabins →
      CabinForm (takeService n p s).1.ct.occupied (takeService n p s).1.ct.cabins := by
  intro h
  unfold takeService
  split
  · exact h
  · simp only [onCt_blocks]
    exact serviceFrom_form _ h

@[simp] theorem handService_keeps (s : State) :
    (s.lu.Wf → (handService s).lu.Wf) ∧
    (LinkForm s.lc.queue s.lc.nextEntry s.lc.sending s.lc.rxErrors →
      LinkForm (handService s).lc.queue (handService s).lc.nextEntry (handService s).lc.sending
        (handService s).lc.rxErrors) ∧
    (CabinForm s.ct.occupied s.ct.cabins →
      CabinForm (handService s).ct.occupied (handService s).ct.cabins) := by
  refine ⟨?_, ?_, ?_⟩
  · intro h; unfold handService; try dsimp only
    (repeat' split) <;> first | with_reducible exact h | simp (maxDischargeDepth := 30) [h]
  · intro h; unfold handService; try dsimp only
    (repeat' split) <;> first | with_reducible exact h | simp (maxDischargeDepth := 30) [h]
  · intro h; unfold handService; try dsimp only
    (repeat' split) <;> first | with_reducible exact h | simp (maxDischargeDepth := 30) [h]

@[simp] theorem setPeerState_keeps (n : Nat) (p : PeerState) (s : State) :
    (s.lu.Wf → (setPeerState n p s).lu.Wf) ∧
    (PeerForm s.pv.table → PeerForm (setPeerState n p s).pv.table) := by
  refine ⟨?_, ?_⟩
  · intro h; unfold setPeerState; try dsimp only
    (repeat' split) <;> first | with_reducible exact h | simp (maxDischargeDepth := 30) [h]
  · intro h; unfold setPeerState; try dsimp only
    (repeat' split) <;> first | with_reducible exact h | simp (maxDischargeDepth := 30) [h]

@[simp] theorem handleRestart_keeps (n : Nat) (s : State) :
    (s.lu.Wf → (handleRestart n s).lu.Wf) ∧
    (LinkForm s.lc.queue s.lc.nextEntry s.lc.sending s.lc.rxErrors →
      LinkForm (handleRestart n s).lc.queue (handleRestart n s).lc.nextEntry
        (handleRestart n s).lc.sending (handleRestart n s).lc.rxErrors) ∧
    (HoldForm s.hu.records s.hu.effect s.hu.own →
      HoldForm (handleRestart n s).hu.records (handleRestart n s).hu.effect (handleRestart n s).hu.own) ∧
    (MotionForm s.mu.motion s.mu.invCause s.mu.brakeCause s.mu.listenCause s.mu.reference s.mu.missed s.mu.still →
      MotionForm (handleRestart n s).mu.motion (handleRestart n s).mu.invCause
        (handleRestart n s).mu.brakeCause (handleRestart n s).mu.listenCause
        (handleRestart n s).mu.reference (handleRestart n s).mu.missed (handleRestart n s).mu.still) ∧
    (PartyForm s.bu.queue s.bu.window.state s.bu.window.matched s.bu.window.grace →
      PartyForm (handleRestart n s).bu.queue (handleRestart n s).bu.window.state
        (handleRestart n s).bu.window.matched (handleRestart n s).bu.window.grace) := by
  refine ⟨?_, ?_, ?_, ?_, ?_⟩
  · intro h; unfold handleRestart; try dsimp only
    (repeat' split) <;> first | with_reducible exact h | simp (maxDischargeDepth := 30) [h]
  · intro h; unfold handleRestart; try dsimp only
    (repeat' split) <;> first | with_reducible exact h | simp (maxDischargeDepth := 30) [h]
  · intro h; unfold handleRestart; try dsimp only
    (repeat' split) <;> first | with_reducible exact h | simp (maxDischargeDepth := 30) [h]
  · intro h; unfold handleRestart; try dsimp only
    (repeat' split) <;> first | with_reducible exact h | simp (maxDischargeDepth := 30) [h]
  · intro h; unfold handleRestart; try dsimp only
    (repeat' split) <;> first | with_reducible exact h | simp (maxDischargeDepth := 30) [h]

@[simp] theorem restartTest_keeps (n : Nat) (q : PresencePayload) (s : State) :
    (s.lu.Wf → (restartTest n q s).lu.Wf) ∧
    (LinkForm s.lc.queue s.lc.nextEntry s.lc.sending s.lc.rxErrors →
      LinkForm (restartTest n q s).lc.queue (restartTest n q s).lc.nextEntry
        (restartTest n q s).lc.sending (restartTest n q s).lc.rxErrors) ∧
    (HoldForm s.hu.records s.hu.effect s.hu.own →
      HoldForm (restartTest n q s).hu.records (restartTest n q s).hu.effect (restartTest n q s).hu.own) ∧
    (MotionForm s.mu.motion s.mu.invCause s.mu.brakeCause s.mu.listenCause s.mu.reference s.mu.missed s.mu.still →
      MotionForm (restartTest n q s).mu.motion (restartTest n q s).mu.invCause
        (restartTest n q s).mu.brakeCause (restartTest n q s).mu.listenCause
        (restartTest n q s).mu.reference (restartTest n q s).mu.missed (restartTest n q s).mu.still) ∧
    (PartyForm s.bu.queue s.bu.window.state s.bu.window.matched s.bu.window.grace →
      PartyForm (restartTest n q s).bu.queue (restartTest n q s).bu.window.state
        (restartTest n q s).bu.window.matched (restartTest n q s).bu.window.grace) ∧
    (PeerForm s.pv.table → PeerForm (restartTest n q s).pv.table) := by
  refine ⟨?_, ?_, ?_, ?_, ?_, ?_⟩
  · intro h; unfold restartTest; try dsimp only
    (repeat' split) <;> first | with_reducible exact h | simp (maxDischargeDepth := 30) [h]
  · intro h; unfold restartTest; try dsimp only
    (repeat' split) <;> first | with_reducible exact h | simp (maxDischargeDepth := 30) [h]
  · intro h; unfold restartTest; try dsimp only
    (repeat' split) <;> first | with_reducible exact h | simp (maxDischargeDepth := 30) [h]
  · intro h; unfold restartTest; try dsimp only
    (repeat' split) <;> first | with_reducible exact h | simp (maxDischargeDepth := 30) [h]
  · intro h; unfold restartTest; try dsimp only
    (repeat' split) <;> first | with_reducible exact h | simp (maxDischargeDepth := 30) [h]
  · intro h; unfold restartTest; try dsimp only
    (repeat' split) <;> first | with_reducible exact h | simp (maxDischargeDepth := 30) [h]

@[simp] theorem afterParts_keeps (n : Nat) (c : Payload) (a b : Bool) (s : State) :
    (s.lu.Wf → (afterParts n c a b s).lu.Wf) ∧
    (LinkForm s.lc.queue s.lc.nextEntry s.lc.sending s.lc.rxErrors →
      LinkForm (afterParts n c a b s).lc.queue (afterParts n c a b s).lc.nextEntry
        (afterParts n c a b s).lc.sending (afterParts n c a b s).lc.rxErrors) ∧
    (HoldForm s.hu.records s.hu.effect s.hu.own →
      HoldForm (afterParts n c a b s).hu.records (afterParts n c a b s).hu.effect
        (afterParts n c a b s).hu.own) ∧
    (MotionForm s.mu.motion s.mu.invCause s.mu.brakeCause s.mu.listenCause s.mu.reference s.mu.missed s.mu.still →
      MotionForm (afterParts n c a b s).mu.motion (afterParts n c a b s).mu.invCause
        (afterParts n c a b s).mu.brakeCause (afterParts n c a b s).mu.listenCause
        (afterParts n c a b s).mu.reference (afterParts n c a b s).mu.missed
        (afterParts n c a b s).mu.still) ∧
    (PartyForm s.bu.queue s.bu.window.state s.bu.window.matched s.bu.window.grace →
      PartyForm (afterParts n c a b s).bu.queue (afterParts n c a b s).bu.window.state
        (afterParts n c a b s).bu.window.matched (afterParts n c a b s).bu.window.grace) := by
  refine ⟨?_, ?_, ?_, ?_, ?_⟩
  · intro h; unfold afterParts; try dsimp only
    (repeat' split) <;> first | with_reducible exact h | simp (maxDischargeDepth := 30) [h]
  · intro h; unfold afterParts; try dsimp only
    (repeat' split) <;> first | with_reducible exact h | simp (maxDischargeDepth := 30) [h]
  · intro h; unfold afterParts; try dsimp only
    (repeat' split) <;> first | with_reducible exact h | simp (maxDischargeDepth := 30) [h]
  · intro h; unfold afterParts; try dsimp only
    (repeat' split) <;> first | with_reducible exact h | simp (maxDischargeDepth := 30) [h]
  · intro h; unfold afterParts; try dsimp only
    (repeat' split) <;> first | with_reducible exact h | simp (maxDischargeDepth := 30) [h]

theorem judgeSeq_form (q : Byte) (p : Peer) (h : p.gaps ≤ 255 ∧ p.unanswered ≤ 15) :
    (p.judgeSeq q).gaps ≤ 255 ∧ (p.judgeSeq q).unanswered ≤ 15 := by
  unfold Peer.judgeSeq
  (repeat' split)
  · exact h
  · exact h
  · exact h
  · exact ⟨Nat.min_le_left _ _, h.2⟩

theorem takeContent_form (c : Payload) (a : Bool) (now : Nat) (p : Peer)
    (h : p.gaps ≤ 255 ∧ p.unanswered ≤ 15) :
    (p.takeContent c a now).gaps ≤ 255 ∧ (p.takeContent c a now).unanswered ≤ 15 := by
  unfold Peer.takeContent
  (repeat' split) <;> exact h

@[simp] theorem pvTakeOther_keeps (t : Telegram) (a : Bool) (s : State) :
    (s.lu.Wf → (pvTakeOther t a s).lu.Wf) ∧
    (LinkForm s.lc.queue s.lc.nextEntry s.lc.sending s.lc.rxErrors →
      LinkForm (pvTakeOther t a s).lc.queue (pvTakeOther t a s).lc.nextEntry
        (pvTakeOther t a s).lc.sending (pvTakeOther t a s).lc.rxErrors) ∧
    (HoldForm s.hu.records s.hu.effect s.hu.own →
      HoldForm (pvTakeOther t a s).hu.records (pvTakeOther t a s).hu.effect (pvTakeOther t a s).hu.own) ∧
    (MotionForm s.mu.motion s.mu.invCause s.mu.brakeCause s.mu.listenCause s.mu.reference s.mu.missed s.mu.still →
      MotionForm (pvTakeOther t a s).mu.motion (pvTakeOther t a s).mu.invCause
        (pvTakeOther t a s).mu.brakeCause (pvTakeOther t a s).mu.listenCause
        (pvTakeOther t a s).mu.reference (pvTakeOther t a s).mu.missed (pvTakeOther t a s).mu.still) ∧
    (PartyForm s.bu.queue s.bu.window.state s.bu.window.matched s.bu.window.grace →
      PartyForm (pvTakeOther t a s).bu.queue (pvTakeOther t a s).bu.window.state
        (pvTakeOther t a s).bu.window.matched (pvTakeOther t a s).bu.window.grace) ∧
    (PeerForm s.pv.table → PeerForm (pvTakeOther t a s).pv.table) := by
  refine ⟨?_, ?_, ?_, ?_, ?_, ?_⟩
  · intro h; unfold pvTakeOther; try dsimp only
    (repeat' split) <;> first | with_reducible exact h | simp (maxDischargeDepth := 30) [h]
  · intro h; unfold pvTakeOther; try dsimp only
    (repeat' split) <;> first | with_reducible exact h | simp (maxDischargeDepth := 30) [h]
  · intro h; unfold pvTakeOther; try dsimp only
    (repeat' split) <;> first | with_reducible exact h | simp (maxDischargeDepth := 30) [h]
  · intro h; unfold pvTakeOther; try dsimp only
    (repeat' split) <;> first | with_reducible exact h | simp (maxDischargeDepth := 30) [h]
  · intro h; unfold pvTakeOther; try dsimp only
    (repeat' split) <;> first | with_reducible exact h | simp (maxDischargeDepth := 30) [h]
  · intro h
    unfold pvTakeOther
    dsimp only
    simp only [afterParts_spares]
    refine (setPeerState_keeps _ _ _).2 (onPeer_keeps _ _ _ (fun p hp => takeContent_form _ _ _ p hp) ?_)
    have h1 := onPeer_keeps t.sender.toNat (fun x => x.judgeSeq t.seq) s (fun p hp => judgeSeq_form _ p hp) h
    split
    · exact (restartTest_keeps _ _ _).2.2.2.2.2 h1
    · exact h1

@[simp] theorem pvTakeOwn_keeps (t : Telegram) (a : Bool) (s : State) :
    (s.lu.Wf → (pvTakeOwn t a s).lu.Wf) ∧
    (LinkForm s.lc.queue s.lc.nextEntry s.lc.sending s.lc.rxErrors →
      LinkForm (pvTakeOwn t a s).lc.queue (pvTakeOwn t a s).lc.nextEntry (pvTakeOwn t a s).lc.sending
        (pvTakeOwn t a s).lc.rxErrors) ∧
    (HoldForm s.hu.records s.hu.effect s.hu.own →
      HoldForm (pvTakeOwn t a s).hu.records (pvTakeOwn t a s).hu.effect (pvTakeOwn t a s).hu.own) ∧
    (MotionForm s.mu.motion s.mu.invCause s.mu.brakeCause s.mu.listenCause s.mu.reference s.mu.missed s.mu.still →
      MotionForm (pvTakeOwn t a s).mu.motion (pvTakeOwn t a s).mu.invCause
        (pvTakeOwn t a s).mu.brakeCause (pvTakeOwn t a s).mu.listenCause (pvTakeOwn t a s).mu.reference
        (pvTakeOwn t a s).mu.missed (pvTakeOwn t a s).mu.still) ∧
    (PartyForm s.bu.queue s.bu.window.state s.bu.window.matched s.bu.window.grace →
      PartyForm (pvTakeOwn t a s).bu.queue (pvTakeOwn t a s).bu.window.state
        (pvTakeOwn t a s).bu.window.matched (pvTakeOwn t a s).bu.window.grace) ∧
    (PeerForm s.pv.table → PeerForm (pvTakeOwn t a s).pv.table) := by
  refine ⟨?_, ?_, ?_, ?_, ?_, ?_⟩
  · intro h; unfold pvTakeOwn; try dsimp only
    (repeat' split) <;> first | with_reducible exact h | simp (maxDischargeDepth := 30) [h]
  · intro h; unfold pvTakeOwn; try dsimp only
    (repeat' split) <;> first | with_reducible exact h | simp (maxDischargeDepth := 30) [h]
  · intro h; unfold pvTakeOwn; try dsimp only
    (repeat' split) <;> first | with_reducible exact h | simp (maxDischargeDepth := 30) [h]
  · intro h; unfold pvTakeOwn; try dsimp only
    (repeat' split) <;> first | with_reducible exact h | simp (maxDischargeDepth := 30) [h]
  · intro h; unfold pvTakeOwn; try dsimp only
    (repeat' split) <;> first | with_reducible exact h | simp (maxDischargeDepth := 30) [h]
  · intro h
    unfold pvTakeOwn
    dsimp only
    simp only [afterParts_spares]
    exact onPeer_keeps _ _ _ (fun p hp => takeContent_form _ _ _ p hp) h

@[simp] theorem pvTake_keeps (t : Telegram) (a : Bool) (s : State) :
    (s.lu.Wf → (pvTake t a s).lu.Wf) ∧
    (LinkForm s.lc.queue s.lc.nextEntry s.lc.sending s.lc.rxErrors →
      LinkForm (pvTake t a s).lc.queue (pvTake t a s).lc.nextEntry (pvTake t a s).lc.sending
        (pvTake t a s).lc.rxErrors) ∧
    (HoldForm s.hu.records s.hu.effect s.hu.own →
      HoldForm (pvTake t a s).hu.records (pvTake t a s).hu.effect (pvTake t a s).hu.own) ∧
    (MotionForm s.mu.motion s.mu.invCause s.mu.brakeCause s.mu.listenCause s.mu.reference s.mu.missed s.mu.still →
      MotionForm (pvTake t a s).mu.motion (pvTake t a s).mu.invCause (pvTake t a s).mu.brakeCause
        (pvTake t a s).mu.listenCause (pvTake t a s).mu.reference (pvTake t a s).mu.missed
        (pvTake t a s).mu.still) ∧
    (PartyForm s.bu.queue s.bu.window.state s.bu.window.matched s.bu.window.grace →
      PartyForm (pvTake t a s).bu.queue (pvTake t a s).bu.window.state (pvTake t a s).bu.window.matched
        (pvTake t a s).bu.window.grace) ∧
    (PeerForm s.pv.table → PeerForm (pvTake t a s).pv.table) := by
  refine ⟨?_, ?_, ?_, ?_, ?_, ?_⟩
  · intro h; unfold pvTake; try dsimp only
    (repeat' split) <;> first | with_reducible exact h | simp (maxDischargeDepth := 30) [h]
  · intro h; unfold pvTake; try dsimp only
    (repeat' split) <;> first | with_reducible exact h | simp (maxDischargeDepth := 30) [h]
  · intro h; unfold pvTake; try dsimp only
    (repeat' split) <;> first | with_reducible exact h | simp (maxDischargeDepth := 30) [h]
  · intro h; unfold pvTake; try dsimp only
    (repeat' split) <;> first | with_reducible exact h | simp (maxDischargeDepth := 30) [h]
  · intro h; unfold pvTake; try dsimp only
    (repeat' split) <;> first | with_reducible exact h | simp (maxDischargeDepth := 30) [h]
  · intro h; unfold pvTake; try dsimp only
    (repeat' split) <;> first | with_reducible exact h | simp (maxDischargeDepth := 30) [h]

@[simp] theorem handPresence_keeps (s : State) :
    (s.lu.Wf → (handPresence s).lu.Wf) ∧
    (LinkForm s.lc.queue s.lc.nextEntry s.lc.sending s.lc.rxErrors →
      LinkForm (handPresence s).lc.queue (handPresence s).lc.nextEntry (handPresence s).lc.sending
        (handPresence s).lc.rxErrors) ∧
    (PeerForm s.pv.table → PeerForm (handPresence s).pv.table) := by
  refine ⟨?_, ?_, ?_⟩
  · intro h; unfold handPresence; try dsimp only
    (repeat' split) <;> first | with_reducible exact h | simp (maxDischargeDepth := 30) [h]
  · intro h; unfold handPresence; try dsimp only
    (repeat' split) <;> first | with_reducible exact h | simp (maxDischargeDepth := 30) [h]
  · intro h; unfold handPresence; try dsimp only
    (repeat' split) <;> first | with_reducible exact h | simp (maxDischargeDepth := 30) [h]

@[simp] theorem handMark_keeps (s : State) :
    (s.lu.Wf → (handMark s).lu.Wf) ∧
    (LinkForm s.lc.queue s.lc.nextEntry s.lc.sending s.lc.rxErrors →
      LinkForm (handMark s).lc.queue (handMark s).lc.nextEntry (handMark s).lc.sending
        (handMark s).lc.rxErrors) ∧
    (PeerForm s.pv.table → PeerForm (handMark s).pv.table) := by
  refine ⟨?_, ?_, ?_⟩
  · intro h; unfold handMark; try dsimp only
    (repeat' split) <;> first | with_reducible exact h | simp (maxDischargeDepth := 30) [h]
  · intro h; unfold handMark; try dsimp only
    (repeat' split) <;> first | with_reducible exact h | simp (maxDischargeDepth := 30) [h]
  · intro h; unfold handMark; try dsimp only
    (repeat' split) <;> first | with_reducible exact h | simp (maxDischargeDepth := 30) [h]

@[simp] theorem recheckIfDrive_keeps (n : Nat) (s : State) :
    (s.lu.Wf → (recheckIfDrive n s).lu.Wf) ∧
    (LinkForm s.lc.queue s.lc.nextEntry s.lc.sending s.lc.rxErrors →
      LinkForm (recheckIfDrive n s).lc.queue (recheckIfDrive n s).lc.nextEntry
        (recheckIfDrive n s).lc.sending (recheckIfDrive n s).lc.rxErrors) ∧
    (HoldForm s.hu.records s.hu.effect s.hu.own →
      HoldForm (recheckIfDrive n s).hu.records (recheckIfDrive n s).hu.effect
        (recheckIfDrive n s).hu.own) ∧
    (MotionForm s.mu.motion s.mu.invCause s.mu.brakeCause s.mu.listenCause s.mu.reference s.mu.missed s.mu.still →
      MotionForm (recheckIfDrive n s).mu.motion (recheckIfDrive n s).mu.invCause
        (recheckIfDrive n s).mu.brakeCause (recheckIfDrive n s).mu.listenCause
        (recheckIfDrive n s).mu.reference (recheckIfDrive n s).mu.missed (recheckIfDrive n s).mu.still) ∧
    (PartyForm s.bu.queue s.bu.window.state s.bu.window.matched s.bu.window.grace →
      PartyForm (recheckIfDrive n s).bu.queue (recheckIfDrive n s).bu.window.state
        (recheckIfDrive n s).bu.window.matched (recheckIfDrive n s).bu.window.grace) := by
  refine ⟨?_, ?_, ?_, ?_, ?_⟩
  · intro h; unfold recheckIfDrive; try dsimp only
    (repeat' split) <;> first | with_reducible exact h | simp (maxDischargeDepth := 30) [h]
  · intro h; unfold recheckIfDrive; try dsimp only
    (repeat' split) <;> first | with_reducible exact h | simp (maxDischargeDepth := 30) [h]
  · intro h; unfold recheckIfDrive; try dsimp only
    (repeat' split) <;> first | with_reducible exact h | simp (maxDischargeDepth := 30) [h]
  · intro h; unfold recheckIfDrive; try dsimp only
    (repeat' split) <;> first | with_reducible exact h | simp (maxDischargeDepth := 30) [h]
  · intro h; unfold recheckIfDrive; try dsimp only
    (repeat' split) <;> first | with_reducible exact h | simp (maxDischargeDepth := 30) [h]

@[simp] theorem handBay_keeps (s : State) :
    (s.lu.Wf → (handBay s).lu.Wf) ∧
    (LinkForm s.lc.queue s.lc.nextEntry s.lc.sending s.lc.rxErrors →
      LinkForm (handBay s).lc.queue (handBay s).lc.nextEntry (handBay s).lc.sending
        (handBay s).lc.rxErrors) ∧
    (PartyForm s.bu.queue s.bu.window.state s.bu.window.matched s.bu.window.grace →
      PartyForm (handBay s).bu.queue (handBay s).bu.window.state (handBay s).bu.window.matched
        (handBay s).bu.window.grace) := by
  refine ⟨?_, ?_, ?_⟩
  · intro h; unfold handBay; try dsimp only
    (repeat' split) <;> first | with_reducible exact h | simp (maxDischargeDepth := 30) [h]
  · intro h; unfold handBay; try dsimp only
    (repeat' split) <;> first | with_reducible exact h | simp (maxDischargeDepth := 30) [h]
  · intro h; unfold handBay; try dsimp only
    (repeat' split) <;> first | with_reducible exact h | simp (maxDischargeDepth := 30) [h]

@[simp] theorem keepTag_keeps (f : List Byte) (s : State) :
    PartyForm s.bu.queue s.bu.window.state s.bu.window.matched s.bu.window.grace →
      PartyForm (keepTag f s).bu.queue (keepTag f s).bu.window.state (keepTag f s).bu.window.matched
        (keepTag f s).bu.window.grace := by
  intro h; unfold keepTag; try dsimp only
  (repeat' split) <;> first | with_reducible exact h | simp (maxDischargeDepth := 30) [h]

@[simp] theorem raiseUnread_keeps (s : State) :
    s.lu.Wf → (raiseUnread s).lu.Wf := by
  intro h; unfold raiseUnread; try dsimp only
  (repeat' split) <;> first | with_reducible exact h | simp (maxDischargeDepth := 30) [h]

@[simp] theorem outOfSequence_keeps (l : TrackLine) (s : State) :
    s.lu.Wf → (outOfSequence l s).lu.Wf := by
  intro h; unfold outOfSequence; try dsimp only
  (repeat' split) <;> first | with_reducible exact h | simp (maxDischargeDepth := 30) [h]

@[simp] theorem onWindow_bu (f : Window → Window) (s : State) :
    (s.onWindow f).bu.window = f s.bu.window ∧ (s.onWindow f).bu.queue = s.bu.queue := ⟨rfl, rfl⟩

@[simp] theorem releaseDoors_keeps (s : State) :
    (s.lu.Wf → (releaseDoors s).lu.Wf) ∧
    (LinkForm s.lc.queue s.lc.nextEntry s.lc.sending s.lc.rxErrors →
      LinkForm (releaseDoors s).lc.queue (releaseDoors s).lc.nextEntry (releaseDoors s).lc.sending
        (releaseDoors s).lc.rxErrors) ∧
    (PartyForm s.bu.queue s.bu.window.state s.bu.window.matched s.bu.window.grace →
      PartyForm (releaseDoors s).bu.queue (releaseDoors s).bu.window.state
        (releaseDoors s).bu.window.matched (releaseDoors s).bu.window.grace) := by
  refine ⟨?_, ?_, ?_⟩
  · intro h; unfold releaseDoors; try dsimp only
    (repeat' split) <;> first | with_reducible exact h | simp (maxDischargeDepth := 30) [h]
  · intro h; unfold releaseDoors; try dsimp only
    (repeat' split) <;> first | with_reducible exact h | simp (maxDischargeDepth := 30) [h]
  · intro h
    have h' := h.leave (st' := .opened) (by simp)
    unfold releaseDoors
    simp (maxDischargeDepth := 30) [h']

@[simp] theorem shutDoors_keeps (s : State) :
    (s.lu.Wf → (shutDoors s).lu.Wf) ∧
    (LinkForm s.lc.queue s.lc.nextEntry s.lc.sending s.lc.rxErrors →
      LinkForm (shutDoors s).lc.queue (shutDoors s).lc.nextEntry (shutDoors s).lc.sending
        (shutDoors s).lc.rxErrors) ∧
    (PartyForm s.bu.queue s.bu.window.state s.bu.window.matched s.bu.window.grace →
      PartyForm (shutDoors s).bu.queue (shutDoors s).bu.window.state (shutDoors s).bu.window.matched
        (shutDoors s).bu.window.grace) := by
  refine ⟨?_, ?_, ?_⟩
  · intro h; unfold shutDoors; try dsimp only
    (repeat' split) <;> first | with_reducible exact h | simp (maxDischargeDepth := 30) [h]
  · intro h; unfold shutDoors; try dsimp only
    (repeat' split) <;> first | with_reducible exact h | simp (maxDischargeDepth := 30) [h]
  · intro h; unfold shutDoors; try dsimp only
    (repeat' split) <;> first | with_reducible exact h | simp (maxDischargeDepth := 30) [h]

@[simp] theorem closeWindow_keeps (c : Nat) (s : State) :
    (s.lu.Wf → (closeWindow c s).lu.Wf) ∧
    (LinkForm s.lc.queue s.lc.nextEntry s.lc.sending s.lc.rxErrors →
      LinkForm (closeWindow c s).lc.queue (closeWindow c s).lc.nextEntry (closeWindow c s).lc.sending
        (closeWindow c s).lc.rxErrors) ∧
    (PartyForm s.bu.queue s.bu.window.state s.bu.window.matched s.bu.window.grace →
      PartyForm (closeWindow c s).bu.queue (closeWindow c s).bu.window.state
        (closeWindow c s).bu.window.matched (closeWindow c s).bu.window.grace) := by
  refine ⟨?_, ?_, ?_⟩
  · intro h; unfold closeWindow; try dsimp only
    (repeat' split) <;> first | with_reducible exact h | simp (maxDischargeDepth := 30) [h]
  · intro h; unfold closeWindow; try dsimp only
    (repeat' split) <;> first | with_reducible exact h | simp (maxDischargeDepth := 30) [h]
  · intro h
    have h' := h.leave (st' := .closing) (by simp)
    unfold closeWindow
    dsimp only
    split <;> simp (maxDischargeDepth := 30) [h']

/-- The walk of a new window keeps the form. -/
theorem matchParties_form (c : Cabin) (s : State) (hs : s.bu.window.state = .arriving)
    (hm : s.bu.window.matched = []) (hg : s.bu.window.grace = false)
    (h : PartyForm s.bu.queue .idle [] false) :
    PartyForm (matchParties c s).bu.queue (matchParties c s).bu.window.state
      (matchParties c s).bu.window.matched (matchParties c s).bu.window.grace := by
  obtain ⟨h1, _, _, h4⟩ := h
  have hp := matchWalk_perm c.cls s.sl.sheet.sharing s.sl.sheet.skipLimit c.capacity [] s.bu.queue
  have hf := matchWalk_four c.cls s.sl.sheet.sharing s.sl.sheet.skipLimit c.capacity [] s.bu.queue
    (by simp)
  have hl := hp.length_eq
  unfold matchParties
  simp only [onBu_blocks, hs, hg]
  refine ⟨?_, hf, by simp, (hp.nodup_iff).mpr h4⟩
  simp only [List.length_map, List.length_append, List.length_nil] at hl
  simp only [reduceCtorEq, ↓reduceIte] at h1 ⊢
  omega

theorem beginGrace_form (c : Cabin) (s : State) (hm : s.bu.window.matched = [])
    (h : PartyForm s.bu.queue s.bu.window.state s.bu.window.matched s.bu.window.grace) :
    PartyForm (beginGrace c s).bu.queue (beginGrace c s).bu.window.state
      (beginGrace c s).bu.window.matched (beginGrace c s).bu.window.grace := by
  unfold beginGrace
  simp only [raise_spares, onWindow_bu]
  exact ⟨h.1, h.2.1, fun _ => hm, h.2.2.2⟩

@[simp] theorem beginGrace_keeps (c : Cabin) (s : State) :
    s.lu.Wf → (beginGrace c s).lu.Wf := by
  intro h; unfold beginGrace; try dsimp only
  (repeat' split) <;> first | with_reducible exact h | simp (maxDischargeDepth := 30) [h]

@[simp] theorem endGrace_keeps (s : State) :
    PartyForm s.bu.queue s.bu.window.state s.bu.window.matched s.bu.window.grace →
      PartyForm (endGrace s).bu.queue (endGrace s).bu.window.state (endGrace s).bu.window.matched
        (endGrace s).bu.window.grace := by
  intro h
  unfold endGrace
  simp only [onWindow_bu]
  exact h.calm

@[simp] theorem openEntry_keeps (s : State) :
    (s.lu.Wf → (openEntry s).lu.Wf) ∧
    (PartyForm s.bu.queue s.bu.window.state s.bu.window.matched s.bu.window.grace →
      PartyForm (openEntry s).bu.queue (openEntry s).bu.window.state (openEntry s).bu.window.matched
        (openEntry s).bu.window.grace) := by
  refine ⟨?_, ?_⟩
  · intro h; unfold openEntry; try dsimp only
    (repeat' split) <;> first | with_reducible exact h | simp (maxDischargeDepth := 30) [h]
  · intro h
    have h0 := h.bare .arriving false
    have h1 := h.bare .idle false
    unfold openEntry
    dsimp only
    split
    · next c hc =>
      have hm := matchParties_form c ((raiseUnread s).onBu (fun b => { b with
        window := { Window.idle with
          state := .arriving, cabin := s.arrivingCabin, boardable := (s.boardable? s.arrivingCabin).isSome } }))
        rfl rfl rfl (by simpa using h1)
      simp only [logBay_spares]
      refine (refreshLamp_keeps _) ?_
      split
      · next he => exact beginGrace_form _ _ (by simpa using he) hm
      · exact hm
    · simp only [logBay_spares]
      refine (refreshLamp_keeps _) ?_
      simpa [Window.idle] using h0

@[simp] theorem departureTests_keeps (s : State) :
    (s.lu.Wf → (departureTests s).lu.Wf) ∧
    (LinkForm s.lc.queue s.lc.nextEntry s.lc.sending s.lc.rxErrors →
      LinkForm (departureTests s).lc.queue (departureTests s).lc.nextEntry
        (departureTests s).lc.sending (departureTests s).lc.rxErrors) ∧
    (HoldForm s.hu.records s.hu.effect s.hu.own →
      HoldForm (departureTests s).hu.records (departureTests s).hu.effect (departureTests s).hu.own) ∧
    (MotionForm s.mu.motion s.mu.invCause s.mu.brakeCause s.mu.listenCause s.mu.reference s.mu.missed s.mu.still →
      MotionForm (departureTests s).mu.motion (departureTests s).mu.invCause
        (departureTests s).mu.brakeCause (departureTests s).mu.listenCause
        (departureTests s).mu.reference (departureTests s).mu.missed (departureTests s).mu.still) ∧
    (PartyForm s.bu.queue s.bu.window.state s.bu.window.matched s.bu.window.grace →
      PartyForm (departureTests s).bu.queue (departureTests s).bu.window.state
        (departureTests s).bu.window.matched (departureTests s).bu.window.grace) := by
  refine ⟨?_, ?_, ?_, ?_, ?_⟩
  · intro h; unfold departureTests; try dsimp only
    (repeat' split) <;> first | with_reducible exact h | simp (maxDischargeDepth := 30) [h]
  · intro h; unfold departureTests; try dsimp only
    (repeat' split) <;> first | with_reducible exact h | simp (maxDischargeDepth := 30) [h]
  · intro h; unfold departureTests; try dsimp only
    (repeat' split) <;> first | with_reducible exact h | simp (maxDischargeDepth := 30) [h]
  · intro h; unfold departureTests; try dsimp only
    (repeat' split) <;> first | with_reducible exact h | simp (maxDischargeDepth := 30) [h]
  · intro h; unfold departureTests; try dsimp only
    (repeat' split) <;> first | with_reducible exact h | simp (maxDischargeDepth := 30) [h]

@[simp] theorem makePassage_keeps (c : Nat) (r : PassResult) (n : Option Nat) (ts : List Half) (s : State) :
    (s.lu.Wf → (makePassage c r n ts s).lu.Wf) ∧
    (LinkForm s.lc.queue s.lc.nextEntry s.lc.sending s.lc.rxErrors →
      LinkForm (makePassage c r n ts s).lc.queue (makePassage c r n ts s).lc.nextEntry
        (makePassage c r n ts s).lc.sending (makePassage c r n ts s).lc.rxErrors) ∧
    (HoldForm s.hu.records s.hu.effect s.hu.own →
      HoldForm (makePassage c r n ts s).hu.records (makePassage c r n ts s).hu.effect
        (makePassage c r n ts s).hu.own) ∧
    (MotionForm s.mu.motion s.mu.invCause s.mu.brakeCause s.mu.listenCause s.mu.reference s.mu.missed s.mu.still →
      MotionForm (makePassage c r n ts s).mu.motion (makePassage c r n ts s).mu.invCause
        (makePassage c r n ts s).mu.brakeCause (makePassage c r n ts s).mu.listenCause
        (makePassage c r n ts s).mu.reference (makePassage c r n ts s).mu.missed
        (makePassage c r n ts s).mu.still) ∧
    (PartyForm s.bu.queue s.bu.window.state s.bu.window.matched s.bu.window.grace →
      PartyForm (makePassage c r n ts s).bu.queue (makePassage c r n ts s).bu.window.state
        (makePassage c r n ts s).bu.window.matched (makePassage c r n ts s).bu.window.grace) ∧
    (CabinForm s.ct.occupied s.ct.cabins →
      CabinForm (makePassage c r n ts s).ct.occupied (makePassage c r n ts s).ct.cabins) := by
  refine ⟨?_, ?_, ?_, ?_, ?_, ?_⟩
  · intro h; unfold makePassage; try dsimp only
    (repeat' split) <;> first | with_reducible exact h | simp (maxDischargeDepth := 30) [h]
  · intro h; unfold makePassage; try dsimp only
    (repeat' split) <;> first | with_reducible exact h | simp (maxDischargeDepth := 30) [h]
  · intro h; unfold makePassage; try dsimp only
    (repeat' split) <;> first | with_reducible exact h | simp (maxDischargeDepth := 30) [h]
  · intro h; unfold makePassage; try dsimp only
    (repeat' split) <;> first | with_reducible exact h | simp (maxDischargeDepth := 30) [h]
  · intro h; unfold makePassage; try dsimp only
    (repeat' split) <;> first | with_reducible exact h | simp (maxDischargeDepth := 30) [h]
  · intro h; unfold makePassage; try dsimp only
    (repeat' split) <;> first | with_reducible exact h | simp (maxDischargeDepth := 30) [h]

@[simp] theorem boardParties_keeps (ps : List Party) (s : State) :
    s.lu.Wf → (boardParties ps s).lu.Wf := by
  induction ps generalizing s with
  | nil => exact id
  | cons p ps ih => exact fun h => ih _ ((raise_keeps _ _ _) h)

@[simp] theorem endWindow_keeps (s : State) :
    PartyForm s.bu.queue s.bu.window.state s.bu.window.matched s.bu.window.grace →
      PartyForm (endWindow s).bu.queue (endWindow s).bu.window.state (endWindow s).bu.window.matched
        (endWindow s).bu.window.grace := by
  intro h
  unfold endWindow
  refine (refreshLamp_keeps _) ?_
  simpa [Window.idle] using h.bare .idle false

/-- An ARRIVING window's parties return before it departs. -/
theorem returned_form (s : State)
    (h : PartyForm s.bu.queue s.bu.window.state s.bu.window.matched s.bu.window.grace)
    (ha : s.bu.window.state = .arriving) :
    PartyForm (returnParties s).bu.queue (returnParties s).bu.window.state
      (returnParties s).bu.window.matched (returnParties s).bu.window.grace :=
  (returnParties_keeps s).2 ha h

@[simp] theorem departEntry_keeps (s : State) :
    (s.lu.Wf → (departEntry s).lu.Wf) ∧
    (LinkForm s.lc.queue s.lc.nextEntry s.lc.sending s.lc.rxErrors →
      LinkForm (departEntry s).lc.queue (departEntry s).lc.nextEntry (departEntry s).lc.sending
        (departEntry s).lc.rxErrors) ∧
    (HoldForm s.hu.records s.hu.effect s.hu.own →
      HoldForm (departEntry s).hu.records (departEntry s).hu.effect (departEntry s).hu.own) ∧
    (MotionForm s.mu.motion s.mu.invCause s.mu.brakeCause s.mu.listenCause s.mu.reference s.mu.missed s.mu.still →
      MotionForm (departEntry s).mu.motion (departEntry s).mu.invCause (departEntry s).mu.brakeCause
        (departEntry s).mu.listenCause (departEntry s).mu.reference (departEntry s).mu.missed
        (departEntry s).mu.still) ∧
    (PartyForm s.bu.queue s.bu.window.state s.bu.window.matched s.bu.window.grace →
      PartyForm (departEntry s).bu.queue (departEntry s).bu.window.state
        (departEntry s).bu.window.matched (departEntry s).bu.window.grace) ∧
    (CabinForm s.ct.occupied s.ct.cabins →
      CabinForm (departEntry s).ct.occupied (departEntry s).ct.cabins) := by
  refine ⟨?_, ?_, ?_, ?_, ?_, ?_⟩
  · intro h; unfold departEntry; try dsimp only
    (repeat' split) <;> first | with_reducible exact h | simp (maxDischargeDepth := 30) [h]
  · intro h; unfold departEntry; try dsimp only
    (repeat' split) <;> first | with_reducible exact h | simp (maxDischargeDepth := 30) [h]
  · intro h; unfold departEntry; try dsimp only
    (repeat' split) <;> first | with_reducible exact h | simp (maxDischargeDepth := 30) [h]
  · intro h; unfold departEntry; try dsimp only
    (repeat' split) <;> first | with_reducible exact h | simp (maxDischargeDepth := 30) [h]
  · intro h
    unfold departEntry
    dsimp only
    generalize hx : (if s.bu.window.state = .arriving ∧ ¬ s.bu.window.matched.isEmpty then
      outOfSequence .departLimit (returnParties s) else s) = u
    have hu : PartyForm u.bu.queue u.bu.window.state u.bu.window.matched u.bu.window.grace := by
      subst hx
      split
      · next hc => simpa using returned_form s h hc.1
      · exact h
    have hd := (departureTests_keeps u).2.2.2.2 hu
    refine (endWindow_keeps _) ?_
    simp only [onBu_blocks]
    split
    · exact hd
    · split
      · exact (makePassage_keeps _ _ _ _ _).2.2.2.2.1 hd
      · simp only [boardParties_spares, onBu_blocks]
        exact (makePassage_keeps _ _ _ _ _).2.2.2.2.1 hd
  · intro h; unfold departEntry; try dsimp only
    (repeat' split) <;> first | with_reducible exact h | simp (maxDischargeDepth := 30) [h]

@[simp] theorem arriveEntry_keeps (s : State) :
    (s.lu.Wf → (arriveEntry s).lu.Wf) ∧
    (LinkForm s.lc.queue s.lc.nextEntry s.lc.sending s.lc.rxErrors →
      LinkForm (arriveEntry s).lc.queue (arriveEntry s).lc.nextEntry (arriveEntry s).lc.sending
        (arriveEntry s).lc.rxErrors) ∧
    (HoldForm s.hu.records s.hu.effect s.hu.own →
      HoldForm (arriveEntry s).hu.records (arriveEntry s).hu.effect (arriveEntry s).hu.own) ∧
    (MotionForm s.mu.motion s.mu.invCause s.mu.brakeCause s.mu.listenCause s.mu.reference s.mu.missed s.mu.still →
      MotionForm (arriveEntry s).mu.motion (arriveEntry s).mu.invCause (arriveEntry s).mu.brakeCause
        (arriveEntry s).mu.listenCause (arriveEntry s).mu.reference (arriveEntry s).mu.missed
        (arriveEntry s).mu.still) ∧
    (PartyForm s.bu.queue s.bu.window.state s.bu.window.matched s.bu.window.grace →
      PartyForm (arriveEntry s).bu.queue (arriveEntry s).bu.window.state
        (arriveEntry s).bu.window.matched (arriveEntry s).bu.window.grace) ∧
    (CabinForm s.ct.occupied s.ct.cabins →
      CabinForm (arriveEntry s).ct.occupied (arriveEntry s).ct.cabins) := by
  refine ⟨?_, ?_, ?_, ?_, ?_, ?_⟩
  · intro h; unfold arriveEntry; try dsimp only
    (repeat' split) <;> first | with_reducible exact h | simp (maxDischargeDepth := 30) [h]
  · intro h; unfold arriveEntry; try dsimp only
    (repeat' split) <;> first | with_reducible exact h | simp (maxDischargeDepth := 30) [h]
  · intro h; unfold arriveEntry; try dsimp only
    (repeat' split) <;> first | with_reducible exact h | simp (maxDischargeDepth := 30) [h]
  · intro h; unfold arriveEntry; try dsimp only
    (repeat' split) <;> first | with_reducible exact h | simp (maxDischargeDepth := 30) [h]
  · intro h; unfold arriveEntry; try dsimp only
    (repeat' split) <;> first | with_reducible exact h | simp (maxDischargeDepth := 30) [h]
  · intro h; unfold arriveEntry; try dsimp only
    (repeat' split) <;> first | with_reducible exact h | simp (maxDischargeDepth := 30) [h]

@[simp] theorem alignEntry_keeps (s : State) :
    (s.lu.Wf → (alignEntry s).lu.Wf) ∧
    (LinkForm s.lc.queue s.lc.nextEntry s.lc.sending s.lc.rxErrors →
      LinkForm (alignEntry s).lc.queue (alignEntry s).lc.nextEntry (alignEntry s).lc.sending
        (alignEntry s).lc.rxErrors) ∧
    (PartyForm s.bu.queue s.bu.window.state s.bu.window.matched s.bu.window.grace →
      PartyForm (alignEntry s).bu.queue (alignEntry s).bu.window.state (alignEntry s).bu.window.matched
        (alignEntry s).bu.window.grace) := by
  refine ⟨?_, ?_, ?_⟩
  · intro h; unfold alignEntry; try dsimp only
    (repeat' split) <;> first | with_reducible exact h | simp (maxDischargeDepth := 30) [h]
  · intro h; unfold alignEntry; try dsimp only
    (repeat' split) <;> first | with_reducible exact h | simp (maxDischargeDepth := 30) [h]
  · intro h
    unfold alignEntry
    split
    · dsimp only
      split
      · refine (releaseDoors_keeps _).2.2 ?_
        simpa using h.calm
      · simpa using h.calm
    · simpa using h

@[simp] theorem closeMarkEntry_keeps (s : State) :
    (s.lu.Wf → (closeMarkEntry s).lu.Wf) ∧
    (LinkForm s.lc.queue s.lc.nextEntry s.lc.sending s.lc.rxErrors →
      LinkForm (closeMarkEntry s).lc.queue (closeMarkEntry s).lc.nextEntry
        (closeMarkEntry s).lc.sending (closeMarkEntry s).lc.rxErrors) ∧
    (PartyForm s.bu.queue s.bu.window.state s.bu.window.matched s.bu.window.grace →
      PartyForm (closeMarkEntry s).bu.queue (closeMarkEntry s).bu.window.state
        (closeMarkEntry s).bu.window.matched (closeMarkEntry s).bu.window.grace) := by
  refine ⟨?_, ?_, ?_⟩
  · intro h; unfold closeMarkEntry; try dsimp only
    (repeat' split) <;> first | with_reducible exact h | simp (maxDischargeDepth := 30) [h]
  · intro h; unfold closeMarkEntry; try dsimp only
    (repeat' split) <;> first | with_reducible exact h | simp (maxDischargeDepth := 30) [h]
  · intro h
    unfold closeMarkEntry
    split
    · simpa using h
    · next ha =>
      have h' := (endGrace_keeps _) h
      dsimp only
      split
      · exact h'
      · simp only [outOfSequence_spares]
        exact returned_form _ h' ha
    · exact (closeWindow_keeps _ _).2.2 h
    · exact h

@[simp] theorem departLimitEntry_keeps (s : State) :
    (s.lu.Wf → (departLimitEntry s).lu.Wf) ∧
    (LinkForm s.lc.queue s.lc.nextEntry s.lc.sending s.lc.rxErrors →
      LinkForm (departLimitEntry s).lc.queue (departLimitEntry s).lc.nextEntry
        (departLimitEntry s).lc.sending (departLimitEntry s).lc.rxErrors) ∧
    (HoldForm s.hu.records s.hu.effect s.hu.own →
      HoldForm (departLimitEntry s).hu.records (departLimitEntry s).hu.effect
        (departLimitEntry s).hu.own) ∧
    (MotionForm s.mu.motion s.mu.invCause s.mu.brakeCause s.mu.listenCause s.mu.reference s.mu.missed s.mu.still →
      MotionForm (departLimitEntry s).mu.motion (departLimitEntry s).mu.invCause
        (departLimitEntry s).mu.brakeCause (departLimitEntry s).mu.listenCause
        (departLimitEntry s).mu.reference (departLimitEntry s).mu.missed (departLimitEntry s).mu.still) ∧
    (PartyForm s.bu.queue s.bu.window.state s.bu.window.matched s.bu.window.grace →
      PartyForm (departLimitEntry s).bu.queue (departLimitEntry s).bu.window.state
        (departLimitEntry s).bu.window.matched (departLimitEntry s).bu.window.grace) ∧
    (CabinForm s.ct.occupied s.ct.cabins →
      CabinForm (departLimitEntry s).ct.occupied (departLimitEntry s).ct.cabins) := by
  refine ⟨?_, ?_, ?_, ?_, ?_, ?_⟩
  · intro h; unfold departLimitEntry; try dsimp only
    (repeat' split) <;> first | with_reducible exact h | simp (maxDischargeDepth := 30) [h]
  · intro h; unfold departLimitEntry; try dsimp only
    (repeat' split) <;> first | with_reducible exact h | simp (maxDischargeDepth := 30) [h]
  · intro h; unfold departLimitEntry; try dsimp only
    (repeat' split) <;> first | with_reducible exact h | simp (maxDischargeDepth := 30) [h]
  · intro h; unfold departLimitEntry; try dsimp only
    (repeat' split) <;> first | with_reducible exact h | simp (maxDischargeDepth := 30) [h]
  · intro h; unfold departLimitEntry; try dsimp only
    (repeat' split) <;> first | with_reducible exact h | simp (maxDischargeDepth := 30) [h]
  · intro h; unfold departLimitEntry; try dsimp only
    (repeat' split) <;> first | with_reducible exact h | simp (maxDischargeDepth := 30) [h]

@[simp] theorem openExit_keeps (s : State) :
    (s.lu.Wf → (openExit s).lu.Wf) ∧
    (PartyForm s.bu.queue s.bu.window.state s.bu.window.matched s.bu.window.grace →
      PartyForm (openExit s).bu.queue (openExit s).bu.window.state (openExit s).bu.window.matched
        (openExit s).bu.window.grace) := by
  refine ⟨?_, ?_⟩
  · intro h; unfold openExit; try dsimp only
    (repeat' split) <;> first | with_reducible exact h | simp (maxDischargeDepth := 30) [h]
  · intro h
    have h0 := h.bare .arriving false
    unfold openExit
    dsimp only
    simp only [logBay_spares]
    refine (refreshLamp_keeps _) ?_
    simpa [Window.idle] using h0

@[simp] theorem decideExit_keeps (e : Bool) (s : State) :
    (s.lu.Wf → (decideExit e s).lu.Wf) ∧
    (PartyForm s.bu.queue s.bu.window.state s.bu.window.matched s.bu.window.grace →
      PartyForm (decideExit e s).bu.queue (decideExit e s).bu.window.state
        (decideExit e s).bu.window.matched (decideExit e s).bu.window.grace) := by
  refine ⟨?_, ?_⟩
  · intro h; unfold decideExit; try dsimp only
    (repeat' split) <;> first | with_reducible exact h | simp (maxDischargeDepth := 30) [h]
  · intro h; unfold decideExit; try dsimp only
    (repeat' split) <;> first | with_reducible exact h | simp (maxDischargeDepth := 30) [h]

@[simp] theorem carriedRound_keeps (c : Nat) (s : State) :
    (s.lu.Wf → (carriedRound c s).lu.Wf) ∧
    (LinkForm s.lc.queue s.lc.nextEntry s.lc.sending s.lc.rxErrors →
      LinkForm (carriedRound c s).lc.queue (carriedRound c s).lc.nextEntry
        (carriedRound c s).lc.sending (carriedRound c s).lc.rxErrors) ∧
    (HoldForm s.hu.records s.hu.effect s.hu.own →
      HoldForm (carriedRound c s).hu.records (carriedRound c s).hu.effect (carriedRound c s).hu.own) ∧
    (MotionForm s.mu.motion s.mu.invCause s.mu.brakeCause s.mu.listenCause s.mu.reference s.mu.missed s.mu.still →
      MotionForm (carriedRound c s).mu.motion (carriedRound c s).mu.invCause
        (carriedRound c s).mu.brakeCause (carriedRound c s).mu.listenCause
        (carriedRound c s).mu.reference (carriedRound c s).mu.missed (carriedRound c s).mu.still) ∧
    (PartyForm s.bu.queue s.bu.window.state s.bu.window.matched s.bu.window.grace →
      PartyForm (carriedRound c s).bu.queue (carriedRound c s).bu.window.state
        (carriedRound c s).bu.window.matched (carriedRound c s).bu.window.grace) := by
  refine ⟨?_, ?_, ?_, ?_, ?_⟩
  · intro h; unfold carriedRound; try dsimp only
    (repeat' split) <;> first | with_reducible exact h | simp (maxDischargeDepth := 30) [h]
  · intro h; unfold carriedRound; try dsimp only
    (repeat' split) <;> first | with_reducible exact h | simp (maxDischargeDepth := 30) [h]
  · intro h; unfold carriedRound; try dsimp only
    (repeat' split) <;> first | with_reducible exact h | simp (maxDischargeDepth := 30) [h]
  · intro h; unfold carriedRound; try dsimp only
    (repeat' split) <;> first | with_reducible exact h | simp (maxDischargeDepth := 30) [h]
  · intro h; unfold carriedRound; try dsimp only
    (repeat' split) <;> first | with_reducible exact h | simp (maxDischargeDepth := 30) [h]

@[simp] theorem afterExitPassage_keeps (c : Nat) (r : PassResult) (s : State) :
    (s.lu.Wf → (afterExitPassage c r s).lu.Wf) ∧
    (LinkForm s.lc.queue s.lc.nextEntry s.lc.sending s.lc.rxErrors →
      LinkForm (afterExitPassage c r s).lc.queue (afterExitPassage c r s).lc.nextEntry
        (afterExitPassage c r s).lc.sending (afterExitPassage c r s).lc.rxErrors) ∧
    (HoldForm s.hu.records s.hu.effect s.hu.own →
      HoldForm (afterExitPassage c r s).hu.records (afterExitPassage c r s).hu.effect
        (afterExitPassage c r s).hu.own) ∧
    (MotionForm s.mu.motion s.mu.invCause s.mu.brakeCause s.mu.listenCause s.mu.reference s.mu.missed s.mu.still →
      MotionForm (afterExitPassage c r s).mu.motion (afterExitPassage c r s).mu.invCause
        (afterExitPassage c r s).mu.brakeCause (afterExitPassage c r s).mu.listenCause
        (afterExitPassage c r s).mu.reference (afterExitPassage c r s).mu.missed
        (afterExitPassage c r s).mu.still) ∧
    (PartyForm s.bu.queue s.bu.window.state s.bu.window.matched s.bu.window.grace →
      PartyForm (afterExitPassage c r s).bu.queue (afterExitPassage c r s).bu.window.state
        (afterExitPassage c r s).bu.window.matched (afterExitPassage c r s).bu.window.grace) := by
  refine ⟨?_, ?_, ?_, ?_, ?_⟩
  · intro h; unfold afterExitPassage; try dsimp only
    (repeat' split) <;> first | with_reducible exact h | simp (maxDischargeDepth := 30) [h]
  · intro h; unfold afterExitPassage; try dsimp only
    (repeat' split) <;> first | with_reducible exact h | simp (maxDischargeDepth := 30) [h]
  · intro h; unfold afterExitPassage; try dsimp only
    (repeat' split) <;> first | with_reducible exact h | simp (maxDischargeDepth := 30) [h]
  · intro h; unfold afterExitPassage; try dsimp only
    (repeat' split) <;> first | with_reducible exact h | simp (maxDischargeDepth := 30) [h]
  · intro h; unfold afterExitPassage; try dsimp only
    (repeat' split) <;> first | with_reducible exact h | simp (maxDischargeDepth := 30) [h]

@[simp] theorem departExit_keeps (e : Bool) (s : State) :
    (s.lu.Wf → (departExit e s).lu.Wf) ∧
    (LinkForm s.lc.queue s.lc.nextEntry s.lc.sending s.lc.rxErrors →
      LinkForm (departExit e s).lc.queue (departExit e s).lc.nextEntry (departExit e s).lc.sending
        (departExit e s).lc.rxErrors) ∧
    (HoldForm s.hu.records s.hu.effect s.hu.own →
      HoldForm (departExit e s).hu.records (departExit e s).hu.effect (departExit e s).hu.own) ∧
    (MotionForm s.mu.motion s.mu.invCause s.mu.brakeCause s.mu.listenCause s.mu.reference s.mu.missed s.mu.still →
      MotionForm (departExit e s).mu.motion (departExit e s).mu.invCause (departExit e s).mu.brakeCause
        (departExit e s).mu.listenCause (departExit e s).mu.reference (departExit e s).mu.missed
        (departExit e s).mu.still) ∧
    (PartyForm s.bu.queue s.bu.window.state s.bu.window.matched s.bu.window.grace →
      PartyForm (departExit e s).bu.queue (departExit e s).bu.window.state
        (departExit e s).bu.window.matched (departExit e s).bu.window.grace) ∧
    (CabinForm s.ct.occupied s.ct.cabins →
      CabinForm (departExit e s).ct.occupied (departExit e s).ct.cabins) := by
  refine ⟨?_, ?_, ?_, ?_, ?_, ?_⟩
  · intro h; unfold departExit; try dsimp only
    (repeat' split) <;> first | with_reducible exact h | simp (maxDischargeDepth := 30) [h]
  · intro h; unfold departExit; try dsimp only
    (repeat' split) <;> first | with_reducible exact h | simp (maxDischargeDepth := 30) [h]
  · intro h; unfold departExit; try dsimp only
    (repeat' split) <;> first | with_reducible exact h | simp (maxDischargeDepth := 30) [h]
  · intro h; unfold departExit; try dsimp only
    (repeat' split) <;> first | with_reducible exact h | simp (maxDischargeDepth := 30) [h]
  · intro h; unfold departExit; try dsimp only
    (repeat' split) <;> first | with_reducible exact h | simp (maxDischargeDepth := 30) [h]
  · intro h; unfold departExit; try dsimp only
    (repeat' split) <;> first | with_reducible exact h | simp (maxDischargeDepth := 30) [h]

@[simp] theorem arriveExit_keeps (e : Bool) (s : State) :
    (s.lu.Wf → (arriveExit e s).lu.Wf) ∧
    (LinkForm s.lc.queue s.lc.nextEntry s.lc.sending s.lc.rxErrors →
      LinkForm (arriveExit e s).lc.queue (arriveExit e s).lc.nextEntry (arriveExit e s).lc.sending
        (arriveExit e s).lc.rxErrors) ∧
    (HoldForm s.hu.records s.hu.effect s.hu.own →
      HoldForm (arriveExit e s).hu.records (arriveExit e s).hu.effect (arriveExit e s).hu.own) ∧
    (MotionForm s.mu.motion s.mu.invCause s.mu.brakeCause s.mu.listenCause s.mu.reference s.mu.missed s.mu.still →
      MotionForm (arriveExit e s).mu.motion (arriveExit e s).mu.invCause (arriveExit e s).mu.brakeCause
        (arriveExit e s).mu.listenCause (arriveExit e s).mu.reference (arriveExit e s).mu.missed
        (arriveExit e s).mu.still) ∧
    (PartyForm s.bu.queue s.bu.window.state s.bu.window.matched s.bu.window.grace →
      PartyForm (arriveExit e s).bu.queue (arriveExit e s).bu.window.state
        (arriveExit e s).bu.window.matched (arriveExit e s).bu.window.grace) ∧
    (CabinForm s.ct.occupied s.ct.cabins →
      CabinForm (arriveExit e s).ct.occupied (arriveExit e s).ct.cabins) := by
  refine ⟨?_, ?_, ?_, ?_, ?_, ?_⟩
  · intro h; unfold arriveExit; try dsimp only
    (repeat' split) <;> first | with_reducible exact h | simp (maxDischargeDepth := 30) [h]
  · intro h; unfold arriveExit; try dsimp only
    (repeat' split) <;> first | with_reducible exact h | simp (maxDischargeDepth := 30) [h]
  · intro h; unfold arriveExit; try dsimp only
    (repeat' split) <;> first | with_reducible exact h | simp (maxDischargeDepth := 30) [h]
  · intro h; unfold arriveExit; try dsimp only
    (repeat' split) <;> first | with_reducible exact h | simp (maxDischargeDepth := 30) [h]
  · intro h; unfold arriveExit; try dsimp only
    (repeat' split) <;> first | with_reducible exact h | simp (maxDischargeDepth := 30) [h]
  · intro h; unfold arriveExit; try dsimp only
    (repeat' split) <;> first | with_reducible exact h | simp (maxDischargeDepth := 30) [h]

@[simp] theorem alignExit_keeps (s : State) :
    (s.lu.Wf → (alignExit s).lu.Wf) ∧
    (LinkForm s.lc.queue s.lc.nextEntry s.lc.sending s.lc.rxErrors →
      LinkForm (alignExit s).lc.queue (alignExit s).lc.nextEntry (alignExit s).lc.sending
        (alignExit s).lc.rxErrors) ∧
    (PartyForm s.bu.queue s.bu.window.state s.bu.window.matched s.bu.window.grace →
      PartyForm (alignExit s).bu.queue (alignExit s).bu.window.state (alignExit s).bu.window.matched
        (alignExit s).bu.window.grace) := by
  refine ⟨?_, ?_, ?_⟩
  · intro h; unfold alignExit; try dsimp only
    (repeat' split) <;> first | with_reducible exact h | simp (maxDischargeDepth := 30) [h]
  · intro h; unfold alignExit; try dsimp only
    (repeat' split) <;> first | with_reducible exact h | simp (maxDischargeDepth := 30) [h]
  · intro h; unfold alignExit; try dsimp only
    (repeat' split) <;> first | with_reducible exact h | simp (maxDischargeDepth := 30) [h]

@[simp] theorem closeMarkExit_keeps (e : Bool) (s : State) :
    (s.lu.Wf → (closeMarkExit e s).lu.Wf) ∧
    (LinkForm s.lc.queue s.lc.nextEntry s.lc.sending s.lc.rxErrors →
      LinkForm (closeMarkExit e s).lc.queue (closeMarkExit e s).lc.nextEntry
        (closeMarkExit e s).lc.sending (closeMarkExit e s).lc.rxErrors) ∧
    (PartyForm s.bu.queue s.bu.window.state s.bu.window.matched s.bu.window.grace →
      PartyForm (closeMarkExit e s).bu.queue (closeMarkExit e s).bu.window.state
        (closeMarkExit e s).bu.window.matched (closeMarkExit e s).bu.window.grace) := by
  refine ⟨?_, ?_, ?_⟩
  · intro h; unfold closeMarkExit; try dsimp only
    (repeat' split) <;> first | with_reducible exact h | simp (maxDischargeDepth := 30) [h]
  · intro h; unfold closeMarkExit; try dsimp only
    (repeat' split) <;> first | with_reducible exact h | simp (maxDischargeDepth := 30) [h]
  · intro h; unfold closeMarkExit; try dsimp only
    (repeat' split) <;> first | with_reducible exact h | simp (maxDischargeDepth := 30) [h]

@[simp] theorem departLimitExit_keeps (e : Bool) (s : State) :
    (s.lu.Wf → (departLimitExit e s).lu.Wf) ∧
    (LinkForm s.lc.queue s.lc.nextEntry s.lc.sending s.lc.rxErrors →
      LinkForm (departLimitExit e s).lc.queue (departLimitExit e s).lc.nextEntry
        (departLimitExit e s).lc.sending (departLimitExit e s).lc.rxErrors) ∧
    (HoldForm s.hu.records s.hu.effect s.hu.own →
      HoldForm (departLimitExit e s).hu.records (departLimitExit e s).hu.effect
        (departLimitExit e s).hu.own) ∧
    (MotionForm s.mu.motion s.mu.invCause s.mu.brakeCause s.mu.listenCause s.mu.reference s.mu.missed s.mu.still →
      MotionForm (departLimitExit e s).mu.motion (departLimitExit e s).mu.invCause
        (departLimitExit e s).mu.brakeCause (departLimitExit e s).mu.listenCause
        (departLimitExit e s).mu.reference (departLimitExit e s).mu.missed
        (departLimitExit e s).mu.still) ∧
    (PartyForm s.bu.queue s.bu.window.state s.bu.window.matched s.bu.window.grace →
      PartyForm (departLimitExit e s).bu.queue (departLimitExit e s).bu.window.state
        (departLimitExit e s).bu.window.matched (departLimitExit e s).bu.window.grace) ∧
    (CabinForm s.ct.occupied s.ct.cabins →
      CabinForm (departLimitExit e s).ct.occupied (departLimitExit e s).ct.cabins) := by
  refine ⟨?_, ?_, ?_, ?_, ?_, ?_⟩
  · intro h; unfold departLimitExit; try dsimp only
    (repeat' split) <;> first | with_reducible exact h | simp (maxDischargeDepth := 30) [h]
  · intro h; unfold departLimitExit; try dsimp only
    (repeat' split) <;> first | with_reducible exact h | simp (maxDischargeDepth := 30) [h]
  · intro h; unfold departLimitExit; try dsimp only
    (repeat' split) <;> first | with_reducible exact h | simp (maxDischargeDepth := 30) [h]
  · intro h; unfold departLimitExit; try dsimp only
    (repeat' split) <;> first | with_reducible exact h | simp (maxDischargeDepth := 30) [h]
  · intro h; unfold departLimitExit; try dsimp only
    (repeat' split) <;> first | with_reducible exact h | simp (maxDischargeDepth := 30) [h]
  · intro h; unfold departLimitExit; try dsimp only
    (repeat' split) <;> first | with_reducible exact h | simp (maxDischargeDepth := 30) [h]

/-- A party whose tag is not held joins where fewer than 16 places are taken. -/
theorem joinQueue_form (p : Party) (s : State)
    (h : PartyForm s.bu.queue s.bu.window.state s.bu.window.matched s.bu.window.grace)
    (ht : s.bu.tagHeld p.tag = false) (hf : s.bu.placesTaken < 16) :
    PartyForm (joinQueue p s).1.bu.queue (joinQueue p s).1.bu.window.state
      (joinQueue p s).1.bu.window.matched (joinQueue p s).1.bu.window.grace := by
  obtain ⟨h1, h2, h3, h4⟩ := h
  have hn : p.tag ∉ (s.bu.queue ++ s.bu.window.matched).map Party.tag := by
    intro hm
    obtain ⟨x, hx, hxt⟩ := List.mem_map.mp hm
    simp only [BayUnit.tagHeld, Bool.or_eq_false_iff, List.any_eq_false, beq_iff_eq] at ht
    rcases List.mem_append.mp hx with hx | hx
    · exact ht.1 x hx hxt
    · exact ht.2 x hx hxt
  unfold BayUnit.placesTaken at hf
  have hj : ∀ b : Bool, (b = true → s.bu.window.grace = true) → PartyForm
      (if b then s.bu.queue else s.bu.queue ++ [p]) s.bu.window.state
      (if b then s.bu.window.matched ++ [p] else s.bu.window.matched)
      (if b then false else s.bu.window.grace) := by
    intro b hb
    cases b
    · refine ⟨?_, h2, h3, ?_⟩
      · simp only [Bool.false_eq_true, ↓reduceIte, List.length_append, List.length_cons,
          List.length_nil]
        omega
      · simp only [Bool.false_eq_true, ↓reduceIte]
        have hp : ((s.bu.queue ++ [p] ++ s.bu.window.matched).map Party.tag).Perm
            (p.tag :: (s.bu.queue ++ s.bu.window.matched).map Party.tag) := by
          rw [List.perm_iff_count]
          intro a
          simp only [List.map_append, List.map_cons, List.map_nil, List.count_append, List.count_cons,
            List.count_nil]
          omega
        exact hp.nodup_iff.mpr (List.nodup_cons.mpr ⟨hn, h4⟩)
    · have hm := h3 (hb rfl)
      rw [hm] at hn h4 hf ⊢
      refine ⟨?_, by simp, by simp, ?_⟩
      · simp only [↓reduceIte, List.nil_append, List.length_cons, List.length_nil, ite_self,
          Nat.add_zero] at hf ⊢
        split <;> omega
      · simp only [↓reduceIte, List.nil_append]
        have hp : ((s.bu.queue ++ [p]).map Party.tag).Perm
            (p.tag :: (s.bu.queue ++ []).map Party.tag) := by
          rw [List.perm_iff_count]
          intro a
          simp only [List.map_append, List.map_cons, List.map_nil, List.count_append, List.count_cons,
            List.count_nil]
          omega
        exact hp.nodup_iff.mpr (List.nodup_cons.mpr ⟨hn, h4⟩)
  unfold joinQueue
  dsimp only
  split
  · next c hc =>
    have := hj (s.bu.window.grace && !s.bu.queue.any (fun x => x.locked) && needFits p.need c.cls
      && decide (p.size ≤ c.capacity)) (by simp only [Bool.and_eq_true]; exact fun hx => hx.1.1.1)
    split
    · next ht => simpa [ht] using this
    · next ht => simpa [ht] using this
  · have := hj false (by simp)
    simpa using this

@[simp] theorem submitJudged_keeps (t : Half) (n : Nat) (x : Need) (s : State) :
    PartyForm s.bu.queue s.bu.window.state s.bu.window.matched s.bu.window.grace →
      PartyForm (submitJudged t n x s).1.bu.queue (submitJudged t n x s).1.bu.window.state
        (submitJudged t n x s).1.bu.window.matched (submitJudged t n x s).1.bu.window.grace := by
  intro h
  unfold submitJudged
  split
  · exact h
  · split
    · exact h
    · split
      · exact h
      · next ht =>
        split
        · exact h
        · next hp =>
          exact joinQueue_form _ _ h (by simpa using ht) (Nat.lt_of_not_le hp)

@[simp] theorem submitParty_keeps (t : Half) (n x : Byte) (s : State) :
    PartyForm s.bu.queue s.bu.window.state s.bu.window.matched s.bu.window.grace →
      PartyForm (submitParty t n x s).1.bu.queue (submitParty t n x s).1.bu.window.state
        (submitParty t n x s).1.bu.window.matched (submitParty t n x s).1.bu.window.grace := by
  intro h; unfold submitParty; try dsimp only
  (repeat' split) <;> first | with_reducible exact h | simp (maxDischargeDepth := 30) [h]

@[simp] theorem withdrawParty_keeps (t : Half) (s : State) :
    (s.lu.Wf → (withdrawParty t s).1.lu.Wf) ∧
    (PartyForm s.bu.queue s.bu.window.state s.bu.window.matched s.bu.window.grace →
      PartyForm (withdrawParty t s).1.bu.queue (withdrawParty t s).1.bu.window.state
        (withdrawParty t s).1.bu.window.matched (withdrawParty t s).1.bu.window.grace) := by
  refine ⟨?_, ?_⟩
  · intro h; unfold withdrawParty; try dsimp only
    (repeat' split) <;> first | with_reducible exact h | simp (maxDischargeDepth := 30) [h]
  · intro h
    have hs := (List.filter_sublist (p := fun q : Party => q.tag != t) (l := s.bu.queue))
    have h' : PartyForm (s.bu.queue.filter (fun q => q.tag != t)) s.bu.window.state s.bu.window.matched
        s.bu.window.grace := by
      refine ⟨?_, h.2.1, h.2.2.1, h.2.2.2.sublist ((hs.append_right _).map _)⟩
      have := hs.length_le
      have := h.1
      omega
    unfold withdrawParty
    (repeat' split) <;> first | with_reducible exact h | simpa using h'

@[simp] theorem takeCount_keeps (n : Nat) (s : State) :
    (s.lu.Wf → (takeCount n s).1.lu.Wf) ∧
    (LinkForm s.lc.queue s.lc.nextEntry s.lc.sending s.lc.rxErrors →
      LinkForm (takeCount n s).1.lc.queue (takeCount n s).1.lc.nextEntry (takeCount n s).1.lc.sending
        (takeCount n s).1.lc.rxErrors) ∧
    (HoldForm s.hu.records s.hu.effect s.hu.own →
      HoldForm (takeCount n s).1.hu.records (takeCount n s).1.hu.effect (takeCount n s).1.hu.own) ∧
    (MotionForm s.mu.motion s.mu.invCause s.mu.brakeCause s.mu.listenCause s.mu.reference s.mu.missed s.mu.still →
      MotionForm (takeCount n s).1.mu.motion (takeCount n s).1.mu.invCause
        (takeCount n s).1.mu.brakeCause (takeCount n s).1.mu.listenCause (takeCount n s).1.mu.reference
        (takeCount n s).1.mu.missed (takeCount n s).1.mu.still) ∧
    (PartyForm s.bu.queue s.bu.window.state s.bu.window.matched s.bu.window.grace →
      PartyForm (takeCount n s).1.bu.queue (takeCount n s).1.bu.window.state
        (takeCount n s).1.bu.window.matched (takeCount n s).1.bu.window.grace) := by
  refine ⟨?_, ?_, ?_, ?_, ?_⟩
  · intro h; unfold takeCount; try dsimp only
    (repeat' split) <;> first | with_reducible exact h | simp (maxDischargeDepth := 30) [h]
  · intro h; unfold takeCount; try dsimp only
    (repeat' split) <;> first | with_reducible exact h | simp (maxDischargeDepth := 30) [h]
  · intro h; unfold takeCount; try dsimp only
    (repeat' split) <;> first | with_reducible exact h | simp (maxDischargeDepth := 30) [h]
  · intro h; unfold takeCount; try dsimp only
    (repeat' split) <;> first | with_reducible exact h | simp (maxDischargeDepth := 30) [h]
  · intro h; unfold takeCount; try dsimp only
    (repeat' split) <;> first | with_reducible exact h | simp (maxDischargeDepth := 30) [h]

@[simp] theorem reportCount_keeps (n : Byte) (s : State) :
    (s.lu.Wf → (reportCount n s).1.lu.Wf) ∧
    (LinkForm s.lc.queue s.lc.nextEntry s.lc.sending s.lc.rxErrors →
      LinkForm (reportCount n s).1.lc.queue (reportCount n s).1.lc.nextEntry
        (reportCount n s).1.lc.sending (reportCount n s).1.lc.rxErrors) ∧
    (HoldForm s.hu.records s.hu.effect s.hu.own →
      HoldForm (reportCount n s).1.hu.records (reportCount n s).1.hu.effect (reportCount n s).1.hu.own) ∧
    (MotionForm s.mu.motion s.mu.invCause s.mu.brakeCause s.mu.listenCause s.mu.reference s.mu.missed s.mu.still →
      MotionForm (reportCount n s).1.mu.motion (reportCount n s).1.mu.invCause
        (reportCount n s).1.mu.brakeCause (reportCount n s).1.mu.listenCause
        (reportCount n s).1.mu.reference (reportCount n s).1.mu.missed (reportCount n s).1.mu.still) ∧
    (PartyForm s.bu.queue s.bu.window.state s.bu.window.matched s.bu.window.grace →
      PartyForm (reportCount n s).1.bu.queue (reportCount n s).1.bu.window.state
        (reportCount n s).1.bu.window.matched (reportCount n s).1.bu.window.grace) := by
  refine ⟨?_, ?_, ?_, ?_, ?_⟩
  · intro h; unfold reportCount; try dsimp only
    (repeat' split) <;> first | with_reducible exact h | simp (maxDischargeDepth := 30) [h]
  · intro h; unfold reportCount; try dsimp only
    (repeat' split) <;> first | with_reducible exact h | simp (maxDischargeDepth := 30) [h]
  · intro h; unfold reportCount; try dsimp only
    (repeat' split) <;> first | with_reducible exact h | simp (maxDischargeDepth := 30) [h]
  · intro h; unfold reportCount; try dsimp only
    (repeat' split) <;> first | with_reducible exact h | simp (maxDischargeDepth := 30) [h]
  · intro h; unfold reportCount; try dsimp only
    (repeat' split) <;> first | with_reducible exact h | simp (maxDischargeDepth := 30) [h]

@[simp] theorem closeDoors_keeps (s : State) :
    (s.lu.Wf → (closeDoors s).1.lu.Wf) ∧
    (LinkForm s.lc.queue s.lc.nextEntry s.lc.sending s.lc.rxErrors →
      LinkForm (closeDoors s).1.lc.queue (closeDoors s).1.lc.nextEntry (closeDoors s).1.lc.sending
        (closeDoors s).1.lc.rxErrors) ∧
    (PartyForm s.bu.queue s.bu.window.state s.bu.window.matched s.bu.window.grace →
      PartyForm (closeDoors s).1.bu.queue (closeDoors s).1.bu.window.state
        (closeDoors s).1.bu.window.matched (closeDoors s).1.bu.window.grace) := by
  refine ⟨?_, ?_, ?_⟩
  · intro h; unfold closeDoors; try dsimp only
    (repeat' split) <;> first | with_reducible exact h | simp (maxDischargeDepth := 30) [h]
  · intro h; unfold closeDoors; try dsimp only
    (repeat' split) <;> first | with_reducible exact h | simp (maxDischargeDepth := 30) [h]
  · intro h; unfold closeDoors; try dsimp only
    (repeat' split) <;> first | with_reducible exact h | simp (maxDischargeDepth := 30) [h]

@[simp] theorem lineFault_keeps (n : Nat) (s : State) :
    (s.lu.Wf → (lineFault n s).lu.Wf) ∧
    (LinkForm s.lc.queue s.lc.nextEntry s.lc.sending s.lc.rxErrors →
      LinkForm (lineFault n s).lc.queue (lineFault n s).lc.nextEntry (lineFault n s).lc.sending
        (lineFault n s).lc.rxErrors) := by
  refine ⟨?_, ?_⟩
  · intro h; unfold lineFault; try dsimp only
    (repeat' split) <;> first | with_reducible exact h | simp (maxDischargeDepth := 30) [h]
  · intro h; unfold lineFault; try dsimp only
    (repeat' split) <;> first | with_reducible exact h | simp (maxDischargeDepth := 30) [h]

@[simp] theorem endTransmission_keeps (i : Bool) (x : Sending) (s : State) :
    (s.lu.Wf → (endTransmission i x s).lu.Wf) ∧
    (LinkForm s.lc.queue s.lc.nextEntry s.lc.sending s.lc.rxErrors →
      LinkForm (endTransmission i x s).lc.queue (endTransmission i x s).lc.nextEntry
        (endTransmission i x s).lc.sending (endTransmission i x s).lc.rxErrors) := by
  refine ⟨?_, ?_⟩
  · intro h; unfold endTransmission; try dsimp only
    (repeat' split) <;> first | with_reducible exact h | simp (maxDischargeDepth := 30) [h]
  · intro h
    unfold endTransmission
    split
    · exact Link.echoIntact_wf x h
    · dsimp only
      split
      · exact (lineFault_keeps _ _).2 (Link.echoFailed_wf x h)
      · exact Link.echoFailed_wf x h

@[simp] theorem setStart_keeps (x : StartState) (s : State) :
    s.lu.Wf → (setStart x s).lu.Wf := by
  intro h; unfold setStart; try dsimp only
  (repeat' split) <;> first | with_reducible exact h | simp (maxDischargeDepth := 30) [h]

@[simp] theorem enterListenOnly_keeps (s : State) :
    (s.lu.Wf → (enterListenOnly s).lu.Wf) ∧
    (LinkForm s.lc.queue s.lc.nextEntry s.lc.sending s.lc.rxErrors →
      LinkForm (enterListenOnly s).lc.queue (enterListenOnly s).lc.nextEntry
        (enterListenOnly s).lc.sending (enterListenOnly s).lc.rxErrors) ∧
    (MotionForm s.mu.motion s.mu.invCause s.mu.brakeCause s.mu.listenCause s.mu.reference s.mu.missed s.mu.still →
      MotionForm (enterListenOnly s).mu.motion (enterListenOnly s).mu.invCause
        (enterListenOnly s).mu.brakeCause (enterListenOnly s).mu.listenCause
        (enterListenOnly s).mu.reference (enterListenOnly s).mu.missed (enterListenOnly s).mu.still) ∧
    (PartyForm s.bu.queue s.bu.window.state s.bu.window.matched s.bu.window.grace →
      PartyForm (enterListenOnly s).bu.queue (enterListenOnly s).bu.window.state
        (enterListenOnly s).bu.window.matched (enterListenOnly s).bu.window.grace) := by
  refine ⟨?_, ?_, ?_, ?_⟩
  · intro h; unfold enterListenOnly; try dsimp only
    (repeat' split) <;> first | with_reducible exact h | simp (maxDischargeDepth := 30) [h]
  · intro h
    have h' : LinkForm [] s.lc.nextEntry none s.lc.rxErrors :=
      ⟨by simp, by simp, by simp, by simp, by simp, h.2.2.2.2.2⟩
    unfold enterListenOnly
    dsimp only
    split <;> simpa using h'
  · intro h; unfold enterListenOnly; try dsimp only
    (repeat' split) <;> first | with_reducible exact h | simp (maxDischargeDepth := 30) [h]
  · intro h; unfold enterListenOnly; try dsimp only
    (repeat' split) <;> first | with_reducible exact h | simp (maxDischargeDepth := 30) [h]

@[simp] theorem foundDuplicate_keeps (s : State) :
    (s.lu.Wf → (foundDuplicate s).lu.Wf) ∧
    (LinkForm s.lc.queue s.lc.nextEntry s.lc.sending s.lc.rxErrors →
      LinkForm (foundDuplicate s).lc.queue (foundDuplicate s).lc.nextEntry
        (foundDuplicate s).lc.sending (foundDuplicate s).lc.rxErrors) ∧
    (MotionForm s.mu.motion s.mu.invCause s.mu.brakeCause s.mu.listenCause s.mu.reference s.mu.missed s.mu.still →
      MotionForm (foundDuplicate s).mu.motion (foundDuplicate s).mu.invCause
        (foundDuplicate s).mu.brakeCause (foundDuplicate s).mu.listenCause
        (foundDuplicate s).mu.reference (foundDuplicate s).mu.missed (foundDuplicate s).mu.still) ∧
    (PartyForm s.bu.queue s.bu.window.state s.bu.window.matched s.bu.window.grace →
      PartyForm (foundDuplicate s).bu.queue (foundDuplicate s).bu.window.state
        (foundDuplicate s).bu.window.matched (foundDuplicate s).bu.window.grace) := by
  refine ⟨?_, ?_, ?_, ?_⟩
  · intro h; unfold foundDuplicate; try dsimp only
    (repeat' split) <;> first | with_reducible exact h | simp (maxDischargeDepth := 30) [h]
  · intro h; unfold foundDuplicate; try dsimp only
    (repeat' split) <;> first | with_reducible exact h | simp (maxDischargeDepth := 30) [h]
  · intro h; unfold foundDuplicate; try dsimp only
    (repeat' split) <;> first | with_reducible exact h | simp (maxDischargeDepth := 30) [h]
  · intro h; unfold foundDuplicate; try dsimp only
    (repeat' split) <;> first | with_reducible exact h | simp (maxDischargeDepth := 30) [h]

@[simp] theorem receiveDuplicate_keeps (t : Telegram) (s : State) :
    (s.lu.Wf → (receiveDuplicate t s).lu.Wf) ∧
    (LinkForm s.lc.queue s.lc.nextEntry s.lc.sending s.lc.rxErrors →
      LinkForm (receiveDuplicate t s).lc.queue (receiveDuplicate t s).lc.nextEntry
        (receiveDuplicate t s).lc.sending (receiveDuplicate t s).lc.rxErrors) ∧
    (MotionForm s.mu.motion s.mu.invCause s.mu.brakeCause s.mu.listenCause s.mu.reference s.mu.missed s.mu.still →
      MotionForm (receiveDuplicate t s).mu.motion (receiveDuplicate t s).mu.invCause
        (receiveDuplicate t s).mu.brakeCause (receiveDuplicate t s).mu.listenCause
        (receiveDuplicate t s).mu.reference (receiveDuplicate t s).mu.missed
        (receiveDuplicate t s).mu.still) ∧
    (PartyForm s.bu.queue s.bu.window.state s.bu.window.matched s.bu.window.grace →
      PartyForm (receiveDuplicate t s).bu.queue (receiveDuplicate t s).bu.window.state
        (receiveDuplicate t s).bu.window.matched (receiveDuplicate t s).bu.window.grace) := by
  refine ⟨?_, ?_, ?_, ?_⟩
  · intro h; unfold receiveDuplicate; try dsimp only
    (repeat' split) <;> first | with_reducible exact h | simp (maxDischargeDepth := 30) [h]
  · intro h; unfold receiveDuplicate; try dsimp only
    (repeat' split) <;> first | with_reducible exact h | simp (maxDischargeDepth := 30) [h]
  · intro h; unfold receiveDuplicate; try dsimp only
    (repeat' split) <;> first | with_reducible exact h | simp (maxDischargeDepth := 30) [h]
  · intro h; unfold receiveDuplicate; try dsimp only
    (repeat' split) <;> first | with_reducible exact h | simp (maxDischargeDepth := 30) [h]

@[simp] theorem giveOwner_keeps (t : Telegram) (s : State) :
    (s.lu.Wf → (giveOwner t s).1.lu.Wf) ∧
    (LinkForm s.lc.queue s.lc.nextEntry s.lc.sending s.lc.rxErrors →
      LinkForm (giveOwner t s).1.lc.queue (giveOwner t s).1.lc.nextEntry (giveOwner t s).1.lc.sending
        (giveOwner t s).1.lc.rxErrors) ∧
    (HoldForm s.hu.records s.hu.effect s.hu.own →
      HoldForm (giveOwner t s).1.hu.records (giveOwner t s).1.hu.effect (giveOwner t s).1.hu.own) ∧
    (MotionForm s.mu.motion s.mu.invCause s.mu.brakeCause s.mu.listenCause s.mu.reference s.mu.missed s.mu.still →
      MotionForm (giveOwner t s).1.mu.motion (giveOwner t s).1.mu.invCause
        (giveOwner t s).1.mu.brakeCause (giveOwner t s).1.mu.listenCause (giveOwner t s).1.mu.reference
        (giveOwner t s).1.mu.missed (giveOwner t s).1.mu.still) ∧
    (PartyForm s.bu.queue s.bu.window.state s.bu.window.matched s.bu.window.grace →
      PartyForm (giveOwner t s).1.bu.queue (giveOwner t s).1.bu.window.state
        (giveOwner t s).1.bu.window.matched (giveOwner t s).1.bu.window.grace) ∧
    (CabinForm s.ct.occupied s.ct.cabins →
      CabinForm (giveOwner t s).1.ct.occupied (giveOwner t s).1.ct.cabins) := by
  refine ⟨?_, ?_, ?_, ?_, ?_, ?_⟩
  · intro h; unfold giveOwner; try dsimp only
    (repeat' split) <;> first | with_reducible exact h | simp (maxDischargeDepth := 30) [h]
  · intro h; unfold giveOwner; try dsimp only
    (repeat' split) <;> first | with_reducible exact h | simp (maxDischargeDepth := 30) [h]
  · intro h; unfold giveOwner; try dsimp only
    (repeat' split) <;> first | with_reducible exact h | simp (maxDischargeDepth := 30) [h]
  · intro h; unfold giveOwner; try dsimp only
    (repeat' split) <;> first | with_reducible exact h | simp (maxDischargeDepth := 30) [h]
  · intro h; unfold giveOwner; try dsimp only
    (repeat' split) <;> first | with_reducible exact h | simp (maxDischargeDepth := 30) [h]
  · intro h; unfold giveOwner; try dsimp only
    (repeat' split) <;> first | with_reducible exact h | simp (maxDischargeDepth := 30) [h]

@[simp] theorem refuseTelegram_keeps (t : Telegram) (b : Bool) (s : State) :
    (s.lu.Wf → (refuseTelegram t b s).lu.Wf) ∧
    (PeerForm s.pv.table → PeerForm (refuseTelegram t b s).pv.table) := by
  refine ⟨?_, ?_⟩
  · intro h; unfold refuseTelegram; try dsimp only
    (repeat' split) <;> first | with_reducible exact h | simp (maxDischargeDepth := 30) [h]
  · intro h; unfold refuseTelegram; try dsimp only
    (repeat' split) <;> first | with_reducible exact h | simp (maxDischargeDepth := 30) [h]

@[simp] theorem acceptTelegram_keeps (t : Telegram) (s : State) :
    (s.lu.Wf → (acceptTelegram t s).lu.Wf) ∧
    (LinkForm s.lc.queue s.lc.nextEntry s.lc.sending s.lc.rxErrors →
      LinkForm (acceptTelegram t s).lc.queue (acceptTelegram t s).lc.nextEntry
        (acceptTelegram t s).lc.sending (acceptTelegram t s).lc.rxErrors) ∧
    (HoldForm s.hu.records s.hu.effect s.hu.own →
      HoldForm (acceptTelegram t s).hu.records (acceptTelegram t s).hu.effect
        (acceptTelegram t s).hu.own) ∧
    (MotionForm s.mu.motion s.mu.invCause s.mu.brakeCause s.mu.listenCause s.mu.reference s.mu.missed s.mu.still →
      MotionForm (acceptTelegram t s).mu.motion (acceptTelegram t s).mu.invCause
        (acceptTelegram t s).mu.brakeCause (acceptTelegram t s).mu.listenCause
        (acceptTelegram t s).mu.reference (acceptTelegram t s).mu.missed (acceptTelegram t s).mu.still) ∧
    (PartyForm s.bu.queue s.bu.window.state s.bu.window.matched s.bu.window.grace →
      PartyForm (acceptTelegram t s).bu.queue (acceptTelegram t s).bu.window.state
        (acceptTelegram t s).bu.window.matched (acceptTelegram t s).bu.window.grace) ∧
    (CabinForm s.ct.occupied s.ct.cabins →
      CabinForm (acceptTelegram t s).ct.occupied (acceptTelegram t s).ct.cabins) ∧
    (PeerForm s.pv.table → PeerForm (acceptTelegram t s).pv.table) := by
  refine ⟨?_, ?_, ?_, ?_, ?_, ?_, ?_⟩
  · intro h; unfold acceptTelegram; try dsimp only
    (repeat' split) <;> first | with_reducible exact h | simp (maxDischargeDepth := 30) [h]
  · intro h; unfold acceptTelegram; try dsimp only
    (repeat' split) <;> first | with_reducible exact h | simp (maxDischargeDepth := 30) [h]
  · intro h; unfold acceptTelegram; try dsimp only
    (repeat' split) <;> first | with_reducible exact h | simp (maxDischargeDepth := 30) [h]
  · intro h; unfold acceptTelegram; try dsimp only
    (repeat' split) <;> first | with_reducible exact h | simp (maxDischargeDepth := 30) [h]
  · intro h; unfold acceptTelegram; try dsimp only
    (repeat' split) <;> first | with_reducible exact h | simp (maxDischargeDepth := 30) [h]
  · intro h; unfold acceptTelegram; try dsimp only
    (repeat' split) <;> first | with_reducible exact h | simp (maxDischargeDepth := 30) [h]
  · intro h; unfold acceptTelegram; try dsimp only
    (repeat' split) <;> first | with_reducible exact h | simp (maxDischargeDepth := 30) [h]

@[simp] theorem ignoreTelegram_keeps (t : Telegram) (s : State) :
    (s.lu.Wf → (ignoreTelegram t s).lu.Wf) ∧
    (LinkForm s.lc.queue s.lc.nextEntry s.lc.sending s.lc.rxErrors →
      LinkForm (ignoreTelegram t s).lc.queue (ignoreTelegram t s).lc.nextEntry
        (ignoreTelegram t s).lc.sending (ignoreTelegram t s).lc.rxErrors) ∧
    (HoldForm s.hu.records s.hu.effect s.hu.own →
      HoldForm (ignoreTelegram t s).hu.records (ignoreTelegram t s).hu.effect
        (ignoreTelegram t s).hu.own) ∧
    (MotionForm s.mu.motion s.mu.invCause s.mu.brakeCause s.mu.listenCause s.mu.reference s.mu.missed s.mu.still →
      MotionForm (ignoreTelegram t s).mu.motion (ignoreTelegram t s).mu.invCause
        (ignoreTelegram t s).mu.brakeCause (ignoreTelegram t s).mu.listenCause
        (ignoreTelegram t s).mu.reference (ignoreTelegram t s).mu.missed (ignoreTelegram t s).mu.still) ∧
    (PartyForm s.bu.queue s.bu.window.state s.bu.window.matched s.bu.window.grace →
      PartyForm (ignoreTelegram t s).bu.queue (ignoreTelegram t s).bu.window.state
        (ignoreTelegram t s).bu.window.matched (ignoreTelegram t s).bu.window.grace) ∧
    (PeerForm s.pv.table → PeerForm (ignoreTelegram t s).pv.table) := by
  refine ⟨?_, ?_, ?_, ?_, ?_, ?_⟩
  · intro h; unfold ignoreTelegram; try dsimp only
    (repeat' split) <;> first | with_reducible exact h | simp (maxDischargeDepth := 30) [h]
  · intro h; unfold ignoreTelegram; try dsimp only
    (repeat' split) <;> first | with_reducible exact h | simp (maxDischargeDepth := 30) [h]
  · intro h; unfold ignoreTelegram; try dsimp only
    (repeat' split) <;> first | with_reducible exact h | simp (maxDischargeDepth := 30) [h]
  · intro h; unfold ignoreTelegram; try dsimp only
    (repeat' split) <;> first | with_reducible exact h | simp (maxDischargeDepth := 30) [h]
  · intro h; unfold ignoreTelegram; try dsimp only
    (repeat' split) <;> first | with_reducible exact h | simp (maxDischargeDepth := 30) [h]
  · intro h; unfold ignoreTelegram; try dsimp only
    (repeat' split) <;> first | with_reducible exact h | simp (maxDischargeDepth := 30) [h]

@[simp] theorem judgeTelegram_keeps (t : Telegram) (s : State) :
    (s.lu.Wf → (judgeTelegram t s).lu.Wf) ∧
    (LinkForm s.lc.queue s.lc.nextEntry s.lc.sending s.lc.rxErrors →
      LinkForm (judgeTelegram t s).lc.queue (judgeTelegram t s).lc.nextEntry
        (judgeTelegram t s).lc.sending (judgeTelegram t s).lc.rxErrors) ∧
    (HoldForm s.hu.records s.hu.effect s.hu.own →
      HoldForm (judgeTelegram t s).hu.records (judgeTelegram t s).hu.effect (judgeTelegram t s).hu.own) ∧
    (MotionForm s.mu.motion s.mu.invCause s.mu.brakeCause s.mu.listenCause s.mu.reference s.mu.missed s.mu.still →
      MotionForm (judgeTelegram t s).mu.motion (judgeTelegram t s).mu.invCause
        (judgeTelegram t s).mu.brakeCause (judgeTelegram t s).mu.listenCause
        (judgeTelegram t s).mu.reference (judgeTelegram t s).mu.missed (judgeTelegram t s).mu.still) ∧
    (PartyForm s.bu.queue s.bu.window.state s.bu.window.matched s.bu.window.grace →
      PartyForm (judgeTelegram t s).bu.queue (judgeTelegram t s).bu.window.state
        (judgeTelegram t s).bu.window.matched (judgeTelegram t s).bu.window.grace) ∧
    (CabinForm s.ct.occupied s.ct.cabins →
      CabinForm (judgeTelegram t s).ct.occupied (judgeTelegram t s).ct.cabins) ∧
    (PeerForm s.pv.table → PeerForm (judgeTelegram t s).pv.table) := by
  refine ⟨?_, ?_, ?_, ?_, ?_, ?_, ?_⟩
  · intro h; unfold judgeTelegram; try dsimp only
    (repeat' split) <;> first | with_reducible exact h | simp (maxDischargeDepth := 30) [h]
  · intro h; unfold judgeTelegram; try dsimp only
    (repeat' split) <;> first | with_reducible exact h | simp (maxDischargeDepth := 30) [h]
  · intro h; unfold judgeTelegram; try dsimp only
    (repeat' split) <;> first | with_reducible exact h | simp (maxDischargeDepth := 30) [h]
  · intro h; unfold judgeTelegram; try dsimp only
    (repeat' split) <;> first | with_reducible exact h | simp (maxDischargeDepth := 30) [h]
  · intro h; unfold judgeTelegram; try dsimp only
    (repeat' split) <;> first | with_reducible exact h | simp (maxDischargeDepth := 30) [h]
  · intro h; unfold judgeTelegram; try dsimp only
    (repeat' split) <;> first | with_reducible exact h | simp (maxDischargeDepth := 30) [h]
  · intro h; unfold judgeTelegram; try dsimp only
    (repeat' split) <;> first | with_reducible exact h | simp (maxDischargeDepth := 30) [h]

@[simp] theorem receive_keeps (t : Telegram) (s : State) :
    (s.lu.Wf → (receive t s).lu.Wf) ∧
    (LinkForm s.lc.queue s.lc.nextEntry s.lc.sending s.lc.rxErrors →
      LinkForm (receive t s).lc.queue (receive t s).lc.nextEntry (receive t s).lc.sending
        (receive t s).lc.rxErrors) ∧
    (HoldForm s.hu.records s.hu.effect s.hu.own →
      HoldForm (receive t s).hu.records (receive t s).hu.effect (receive t s).hu.own) ∧
    (MotionForm s.mu.motion s.mu.invCause s.mu.brakeCause s.mu.listenCause s.mu.reference s.mu.missed s.mu.still →
      MotionForm (receive t s).mu.motion (receive t s).mu.invCause (receive t s).mu.brakeCause
        (receive t s).mu.listenCause (receive t s).mu.reference (receive t s).mu.missed
        (receive t s).mu.still) ∧
    (PartyForm s.bu.queue s.bu.window.state s.bu.window.matched s.bu.window.grace →
      PartyForm (receive t s).bu.queue (receive t s).bu.window.state (receive t s).bu.window.matched
        (receive t s).bu.window.grace) ∧
    (CabinForm s.ct.occupied s.ct.cabins → CabinForm (receive t s).ct.occupied (receive t s).ct.cabins) ∧
    (PeerForm s.pv.table → PeerForm (receive t s).pv.table) := by
  refine ⟨?_, ?_, ?_, ?_, ?_, ?_, ?_⟩
  · intro h; unfold receive; try dsimp only
    (repeat' split) <;> first | with_reducible exact h | simp (maxDischargeDepth := 30) [h]
  · intro h
    unfold receive
    split
    · exact Link.countError_wf h
    · dsimp only
      split <;> simp (maxDischargeDepth := 30) [h]
  · intro h; unfold receive; try dsimp only
    (repeat' split) <;> first | with_reducible exact h | simp (maxDischargeDepth := 30) [h]
  · intro h; unfold receive; try dsimp only
    (repeat' split) <;> first | with_reducible exact h | simp (maxDischargeDepth := 30) [h]
  · intro h; unfold receive; try dsimp only
    (repeat' split) <;> first | with_reducible exact h | simp (maxDischargeDepth := 30) [h]
  · intro h; unfold receive; try dsimp only
    (repeat' split) <;> first | with_reducible exact h | simp (maxDischargeDepth := 30) [h]
  · intro h; unfold receive; try dsimp only
    (repeat' split) <;> first | with_reducible exact h | simp (maxDischargeDepth := 30) [h]

@[simp] theorem reportFault_keeps (i g c : Nat) (s : State) :
    s.lu.Wf → (reportFault i g s c).lu.Wf := by
  intro h; unfold reportFault; try dsimp only
  (repeat' split) <;> first | with_reducible exact h | simp (maxDischargeDepth := 30) [h]

@[simp] theorem reportFaults_keeps (i : Nat) (os ns : List Channel) (s : State) :
    s.lu.Wf → (reportFaults i os ns s).lu.Wf := by
  induction os generalizing i ns s with
  | nil => simp [reportFaults]
  | cons o os ih =>
    cases ns with
    | nil => simp [reportFaults]
    | cons n ns =>
      intro h
      exact ih _ _ _ (foldl_inv (P := fun t => t.lu.Wf) (fun t c ht => reportFault_keeps _ _ _ _ ht) _ h)

@[simp] theorem logLevel_keeps (a b : Wmu) (s : State) :
    s.lu.Wf → (logLevel a b s).lu.Wf := by
  intro h; unfold logLevel; try dsimp only
  (repeat' split) <;> first | with_reducible exact h | simp (maxDischargeDepth := 30) [h]

@[simp] theorem handLevelHolds_keeps (a b : WindLevel) (s : State) :
    (s.lu.Wf → (handLevelHolds a b s).lu.Wf) ∧
    (LinkForm s.lc.queue s.lc.nextEntry s.lc.sending s.lc.rxErrors →
      LinkForm (handLevelHolds a b s).lc.queue (handLevelHolds a b s).lc.nextEntry
        (handLevelHolds a b s).lc.sending (handLevelHolds a b s).lc.rxErrors) ∧
    (HoldForm s.hu.records s.hu.effect s.hu.own →
      HoldForm (handLevelHolds a b s).hu.records (handLevelHolds a b s).hu.effect
        (handLevelHolds a b s).hu.own) ∧
    (MotionForm s.mu.motion s.mu.invCause s.mu.brakeCause s.mu.listenCause s.mu.reference s.mu.missed s.mu.still →
      MotionForm (handLevelHolds a b s).mu.motion (handLevelHolds a b s).mu.invCause
        (handLevelHolds a b s).mu.brakeCause (handLevelHolds a b s).mu.listenCause
        (handLevelHolds a b s).mu.reference (handLevelHolds a b s).mu.missed
        (handLevelHolds a b s).mu.still) ∧
    (PartyForm s.bu.queue s.bu.window.state s.bu.window.matched s.bu.window.grace →
      PartyForm (handLevelHolds a b s).bu.queue (handLevelHolds a b s).bu.window.state
        (handLevelHolds a b s).bu.window.matched (handLevelHolds a b s).bu.window.grace) := by
  refine ⟨?_, ?_, ?_, ?_, ?_⟩
  · intro h; unfold handLevelHolds; try dsimp only
    (repeat' split) <;> first | with_reducible exact h | simp (maxDischargeDepth := 30) [h]
  · intro h; unfold handLevelHolds; try dsimp only
    (repeat' split) <;> first | with_reducible exact h | simp (maxDischargeDepth := 30) [h]
  · intro h; unfold handLevelHolds; try dsimp only
    (repeat' split) <;> first | with_reducible exact h | simp (maxDischargeDepth := 30) [h]
  · intro h; unfold handLevelHolds; try dsimp only
    (repeat' split) <;> first | with_reducible exact h | simp (maxDischargeDepth := 30) [h]
  · intro h; unfold handLevelHolds; try dsimp only
    (repeat' split) <;> first | with_reducible exact h | simp (maxDischargeDepth := 30) [h]

@[simp] theorem sendWind_keeps (s : State) :
    (s.lu.Wf → (sendWind s).lu.Wf) ∧
    (LinkForm s.lc.queue s.lc.nextEntry s.lc.sending s.lc.rxErrors →
      LinkForm (sendWind s).lc.queue (sendWind s).lc.nextEntry (sendWind s).lc.sending
        (sendWind s).lc.rxErrors) ∧
    (WmuForm s.wmu.channels s.wmu.windows →
      WmuForm (sendWind s).wmu.channels (sendWind s).wmu.windows) := by
  refine ⟨?_, ?_, ?_⟩
  · intro h; unfold sendWind; try dsimp only
    (repeat' split) <;> first | with_reducible exact h | simp (maxDischargeDepth := 30) [h]
  · intro h; unfold sendWind; try dsimp only
    (repeat' split) <;> first | with_reducible exact h | simp (maxDischargeDepth := 30) [h]
  · intro h
    unfold sendWind
    simp only [handOver_spares, onWmu_blocks]
    refine ⟨by simpa using h.1, ?_, h.2.2⟩
    intro c hc
    obtain ⟨d, hd, rfl⟩ := List.mem_map.mp hc
    exact h.2.1 d hd

@[simp] theorem reportWind_keeps (f : Bool) (s : State) :
    (s.lu.Wf → (reportWind f s).lu.Wf) ∧
    (LinkForm s.lc.queue s.lc.nextEntry s.lc.sending s.lc.rxErrors →
      LinkForm (reportWind f s).lc.queue (reportWind f s).lc.nextEntry (reportWind f s).lc.sending
        (reportWind f s).lc.rxErrors) ∧
    (WmuForm s.wmu.channels s.wmu.windows →
      WmuForm (reportWind f s).wmu.channels (reportWind f s).wmu.windows) := by
  refine ⟨?_, ?_, ?_⟩
  · intro h; unfold reportWind; try dsimp only
    (repeat' split) <;> first | with_reducible exact h | simp (maxDischargeDepth := 30) [h]
  · intro h; unfold reportWind; try dsimp only
    (repeat' split) <;> first | with_reducible exact h | simp (maxDischargeDepth := 30) [h]
  · intro h; unfold reportWind; try dsimp only
    (repeat' split) <;> first | with_reducible exact h | simp (maxDischargeDepth := 30) [h]

@[simp] theorem levelStage_wmu (g : SlotCfg) (sh : Sheet) (w : Wmu) :
    (w.levelStage g sh).channels = w.channels ∧ (w.levelStage g sh).windows = w.windows := by
  unfold Wmu.levelStage
  split <;> exact ⟨rfl, rfl⟩

@[simp] theorem levelAndReport_keeps (o : Wmu) (s : State) :
    (s.lu.Wf → (levelAndReport o s).lu.Wf) ∧
    (LinkForm s.lc.queue s.lc.nextEntry s.lc.sending s.lc.rxErrors →
      LinkForm (levelAndReport o s).lc.queue (levelAndReport o s).lc.nextEntry
        (levelAndReport o s).lc.sending (levelAndReport o s).lc.rxErrors) ∧
    (HoldForm s.hu.records s.hu.effect s.hu.own →
      HoldForm (levelAndReport o s).hu.records (levelAndReport o s).hu.effect
        (levelAndReport o s).hu.own) ∧
    (MotionForm s.mu.motion s.mu.invCause s.mu.brakeCause s.mu.listenCause s.mu.reference s.mu.missed s.mu.still →
      MotionForm (levelAndReport o s).mu.motion (levelAndReport o s).mu.invCause
        (levelAndReport o s).mu.brakeCause (levelAndReport o s).mu.listenCause
        (levelAndReport o s).mu.reference (levelAndReport o s).mu.missed (levelAndReport o s).mu.still) ∧
    (PartyForm s.bu.queue s.bu.window.state s.bu.window.matched s.bu.window.grace →
      PartyForm (levelAndReport o s).bu.queue (levelAndReport o s).bu.window.state
        (levelAndReport o s).bu.window.matched (levelAndReport o s).bu.window.grace) ∧
    (WmuForm s.wmu.channels s.wmu.windows →
      WmuForm (levelAndReport o s).wmu.channels (levelAndReport o s).wmu.windows) := by
  refine ⟨?_, ?_, ?_, ?_, ?_, ?_⟩
  · intro h; unfold levelAndReport; try dsimp only
    (repeat' split) <;> first | with_reducible exact h | simp (maxDischargeDepth := 30) [h]
  · intro h; unfold levelAndReport; try dsimp only
    (repeat' split) <;> first | with_reducible exact h | simp (maxDischargeDepth := 30) [h]
  · intro h; unfold levelAndReport; try dsimp only
    (repeat' split) <;> first | with_reducible exact h | simp (maxDischargeDepth := 30) [h]
  · intro h; unfold levelAndReport; try dsimp only
    (repeat' split) <;> first | with_reducible exact h | simp (maxDischargeDepth := 30) [h]
  · intro h; unfold levelAndReport; try dsimp only
    (repeat' split) <;> first | with_reducible exact h | simp (maxDischargeDepth := 30) [h]
  · intro h; unfold levelAndReport; try dsimp only
    (repeat' split) <;> first | with_reducible exact h | simp (maxDischargeDepth := 30) [h]

theorem mapEnabled_form (g : SlotCfg) (f : Nat → ChannelCfg → Channel → Channel)
    (hf : ∀ i h c, c.Wf → (f i h c).Wf) {cs : List Channel} (h : cs.length = 4 ∧ ∀ c ∈ cs, c.Wf) :
    (mapEnabled g f cs).length = 4 ∧ ∀ c ∈ mapEnabled g f cs, c.Wf := by
  refine ⟨by simpa [mapEnabled] using h.1, ?_⟩
  intro d hd
  simp only [mapEnabled, List.mem_mapIdx] at hd
  obtain ⟨i, hi, rfl⟩ := hd
  have hc := h.2 _ (List.getElem_mem hi)
  split
  · exact hf _ _ _ hc
  · exact hc

theorem latch_measure_form (k : Nat) (g : ChannelCfg) {c : Channel} (h : c.Wf) :
    (c.latch.measure k g).Wf := by
  obtain ⟨h1, h2, h3, h4, h5⟩ := h
  refine ⟨Nat.zero_le _, h1, ?_, rfl, h5⟩
  show (joinRing c.ring _).length ≤ 12
  unfold joinRing
  split
  · simp; omega
  · simp; omega

theorem judge_form (w : Bool) (g : ChannelCfg) {c : Channel} (h : c.Wf) :
    ((c.judgeStuck w).judgeOver g).Wf := by
  have hs : (c.judgeStuck w).Wf := by
    obtain ⟨h1, h2, h3, h4, h5⟩ := h
    unfold Channel.judgeStuck
    (repeat' split)
    · exact ⟨h1, h2, h3, h4, by simp⟩
    · exact ⟨h1, h2, h3, h4, h5⟩
    · exact ⟨h1, h2, h3, h4, h5⟩
    · exact ⟨h1, h2, h3, h4, by simp⟩
    · exact ⟨h1, h2, h3, h4, by simp⟩
    · next hr => exact ⟨h1, h2, h3, h4, by show c.recovery + 1 < 10; omega⟩
  exact hs

theorem closed_form (g : SlotCfg) (sh : Sheet) (vane : BitVec 4) (now : Nat) {w : Wmu} (h : w.Wf) :
    (w.closed g sh vane now).Wf := by
  obtain ⟨h1, h2, h3⟩ := h
  have hm := mapEnabled_form g (fun _ h c => c.latch.measure sh.k h) (fun _ _ c hc => latch_measure_form _ _ hc)
    ⟨h1, h2⟩
  have hj := mapEnabled_form g (fun i h c => (c.judgeStuck (windElsewhere g
    (mapEnabled g (fun _ h c => c.latch.measure sh.k h) w.channels) i)).judgeOver h)
    (fun _ _ c hc => judge_form _ _ hc) hm
  have he := mapEnabled_form g (fun _ _ c => c.expose (g.exposure.getD (vaneSector vane) 0))
    (fun _ _ c hc => hc) hj
  have ha := mapEnabled_form g (fun _ h c => { c with adjusted := adjust (referenceExposure g
    (mapEnabled g (fun _ _ c => c.expose (g.exposure.getD (vaneSector vane) 0)) (mapEnabled g
      (fun i h c => (c.judgeStuck (windElsewhere g
        (mapEnabled g (fun _ h c => c.latch.measure sh.k h) w.channels) i)).judgeOver h)
      (mapEnabled g (fun _ h c => c.latch.measure sh.k h) w.channels)))) h c })
    (fun _ _ c hc => hc) he
  unfold Wmu.closed Wmu.assess
  dsimp only
  split <;> exact ⟨ha.1, ha.2, Nat.min_le_left _ _⟩

@[simp] theorem windowClose_keeps (v : BitVec 4) (s : State) :
    (s.lu.Wf → (windowClose v s).lu.Wf) ∧
    (LinkForm s.lc.queue s.lc.nextEntry s.lc.sending s.lc.rxErrors →
      LinkForm (windowClose v s).lc.queue (windowClose v s).lc.nextEntry (windowClose v s).lc.sending
        (windowClose v s).lc.rxErrors) ∧
    (HoldForm s.hu.records s.hu.effect s.hu.own →
      HoldForm (windowClose v s).hu.records (windowClose v s).hu.effect (windowClose v s).hu.own) ∧
    (MotionForm s.mu.motion s.mu.invCause s.mu.brakeCause s.mu.listenCause s.mu.reference s.mu.missed s.mu.still →
      MotionForm (windowClose v s).mu.motion (windowClose v s).mu.invCause
        (windowClose v s).mu.brakeCause (windowClose v s).mu.listenCause (windowClose v s).mu.reference
        (windowClose v s).mu.missed (windowClose v s).mu.still) ∧
    (PartyForm s.bu.queue s.bu.window.state s.bu.window.matched s.bu.window.grace →
      PartyForm (windowClose v s).bu.queue (windowClose v s).bu.window.state
        (windowClose v s).bu.window.matched (windowClose v s).bu.window.grace) ∧
    (WmuForm s.wmu.channels s.wmu.windows →
      WmuForm (windowClose v s).wmu.channels (windowClose v s).wmu.windows) := by
  refine ⟨?_, ?_, ?_, ?_, ?_, ?_⟩
  · intro h; unfold windowClose; try dsimp only
    (repeat' split) <;> first | with_reducible exact h | simp (maxDischargeDepth := 30) [h]
  · intro h; unfold windowClose; try dsimp only
    (repeat' split) <;> first | with_reducible exact h | simp (maxDischargeDepth := 30) [h]
  · intro h; unfold windowClose; try dsimp only
    (repeat' split) <;> first | with_reducible exact h | simp (maxDischargeDepth := 30) [h]
  · intro h; unfold windowClose; try dsimp only
    (repeat' split) <;> first | with_reducible exact h | simp (maxDischargeDepth := 30) [h]
  · intro h; unfold windowClose; try dsimp only
    (repeat' split) <;> first | with_reducible exact h | simp (maxDischargeDepth := 30) [h]
  · intro h
    have h' := fun now => closed_form s.ownSlot s.sl.sheet v now h
    unfold windowClose
    dsimp only
    split
    · exact h' _
    · exact (levelAndReport_keeps _ _).2.2.2.2.2 (h' _)

@[simp] theorem takePeerFault_keeps (n : Nat) (s : State) :
    PeerForm s.pv.table → PeerForm (takePeerFault n s).1.pv.table := by
  intro h; unfold takePeerFault; try dsimp only
  (repeat' split) <;> first | with_reducible exact h | simp (maxDischargeDepth := 30) [h]

@[simp] theorem takeEvent_keeps (s : State) :
    s.lu.Wf → (takeEvent s).1.lu.Wf := by
  intro h
  unfold takeEvent
  split
  · exact h
  · next e rest hq =>
    simp only [onLu_blocks]
    exact LogUnit.pop_wf h hq

@[simp] theorem hostDeclare_keeps (e c : Byte) (s : State) :
    (s.lu.Wf → (hostDeclare e c s).1.lu.Wf) ∧
    (LinkForm s.lc.queue s.lc.nextEntry s.lc.sending s.lc.rxErrors →
      LinkForm (hostDeclare e c s).1.lc.queue (hostDeclare e c s).1.lc.nextEntry
        (hostDeclare e c s).1.lc.sending (hostDeclare e c s).1.lc.rxErrors) ∧
    (HoldForm s.hu.records s.hu.effect s.hu.own →
      HoldForm (hostDeclare e c s).1.hu.records (hostDeclare e c s).1.hu.effect
        (hostDeclare e c s).1.hu.own) ∧
    (MotionForm s.mu.motion s.mu.invCause s.mu.brakeCause s.mu.listenCause s.mu.reference s.mu.missed s.mu.still →
      MotionForm (hostDeclare e c s).1.mu.motion (hostDeclare e c s).1.mu.invCause
        (hostDeclare e c s).1.mu.brakeCause (hostDeclare e c s).1.mu.listenCause
        (hostDeclare e c s).1.mu.reference (hostDeclare e c s).1.mu.missed
        (hostDeclare e c s).1.mu.still) ∧
    (PartyForm s.bu.queue s.bu.window.state s.bu.window.matched s.bu.window.grace →
      PartyForm (hostDeclare e c s).1.bu.queue (hostDeclare e c s).1.bu.window.state
        (hostDeclare e c s).1.bu.window.matched (hostDeclare e c s).1.bu.window.grace) := by
  refine ⟨?_, ?_, ?_, ?_, ?_⟩
  · intro h; unfold hostDeclare; try dsimp only
    (repeat' split) <;> first | with_reducible exact h | simp (maxDischargeDepth := 30) [h]
  · intro h; unfold hostDeclare; try dsimp only
    (repeat' split) <;> first | with_reducible exact h | simp (maxDischargeDepth := 30) [h]
  · intro h; unfold hostDeclare; try dsimp only
    (repeat' split) <;> first | with_reducible exact h | simp (maxDischargeDepth := 30) [h]
  · intro h; unfold hostDeclare; try dsimp only
    (repeat' split) <;> first | with_reducible exact h | simp (maxDischargeDepth := 30) [h]
  · intro h; unfold hostDeclare; try dsimp only
    (repeat' split) <;> first | with_reducible exact h | simp (maxDischargeDepth := 30) [h]

@[simp] theorem releaseKey_keeps (k : HoldKind) (d : Nat) (s : State) :
    (s.lu.Wf → (releaseKey k d s).lu.Wf) ∧
    (LinkForm s.lc.queue s.lc.nextEntry s.lc.sending s.lc.rxErrors →
      LinkForm (releaseKey k d s).lc.queue (releaseKey k d s).lc.nextEntry
        (releaseKey k d s).lc.sending (releaseKey k d s).lc.rxErrors) ∧
    (HoldForm s.hu.records s.hu.effect s.hu.own →
      HoldForm (releaseKey k d s).hu.records (releaseKey k d s).hu.effect (releaseKey k d s).hu.own) ∧
    (MotionForm s.mu.motion s.mu.invCause s.mu.brakeCause s.mu.listenCause s.mu.reference s.mu.missed s.mu.still →
      MotionForm (releaseKey k d s).mu.motion (releaseKey k d s).mu.invCause
        (releaseKey k d s).mu.brakeCause (releaseKey k d s).mu.listenCause
        (releaseKey k d s).mu.reference (releaseKey k d s).mu.missed (releaseKey k d s).mu.still) ∧
    (PartyForm s.bu.queue s.bu.window.state s.bu.window.matched s.bu.window.grace →
      PartyForm (releaseKey k d s).bu.queue (releaseKey k d s).bu.window.state
        (releaseKey k d s).bu.window.matched (releaseKey k d s).bu.window.grace) := by
  refine ⟨?_, ?_, ?_, ?_, ?_⟩
  · intro h; unfold releaseKey; try dsimp only
    (repeat' split) <;> first | with_reducible exact h | simp (maxDischargeDepth := 30) [h]
  · intro h; unfold releaseKey; try dsimp only
    (repeat' split) <;> first | with_reducible exact h | simp (maxDischargeDepth := 30) [h]
  · intro h; unfold releaseKey; try dsimp only
    (repeat' split) <;> first | with_reducible exact h | simp (maxDischargeDepth := 30) [h]
  · intro h; unfold releaseKey; try dsimp only
    (repeat' split) <;> first | with_reducible exact h | simp (maxDischargeDepth := 30) [h]
  · intro h; unfold releaseKey; try dsimp only
    (repeat' split) <;> first | with_reducible exact h | simp (maxDischargeDepth := 30) [h]

@[simp] theorem hostRelease_keeps (k d : Byte) (s : State) :
    (s.lu.Wf → (hostRelease k d s).1.lu.Wf) ∧
    (LinkForm s.lc.queue s.lc.nextEntry s.lc.sending s.lc.rxErrors →
      LinkForm (hostRelease k d s).1.lc.queue (hostRelease k d s).1.lc.nextEntry
        (hostRelease k d s).1.lc.sending (hostRelease k d s).1.lc.rxErrors) ∧
    (HoldForm s.hu.records s.hu.effect s.hu.own →
      HoldForm (hostRelease k d s).1.hu.records (hostRelease k d s).1.hu.effect
        (hostRelease k d s).1.hu.own) ∧
    (MotionForm s.mu.motion s.mu.invCause s.mu.brakeCause s.mu.listenCause s.mu.reference s.mu.missed s.mu.still →
      MotionForm (hostRelease k d s).1.mu.motion (hostRelease k d s).1.mu.invCause
        (hostRelease k d s).1.mu.brakeCause (hostRelease k d s).1.mu.listenCause
        (hostRelease k d s).1.mu.reference (hostRelease k d s).1.mu.missed
        (hostRelease k d s).1.mu.still) ∧
    (PartyForm s.bu.queue s.bu.window.state s.bu.window.matched s.bu.window.grace →
      PartyForm (hostRelease k d s).1.bu.queue (hostRelease k d s).1.bu.window.state
        (hostRelease k d s).1.bu.window.matched (hostRelease k d s).1.bu.window.grace) := by
  refine ⟨?_, ?_, ?_, ?_, ?_⟩
  · intro h; unfold hostRelease; try dsimp only
    (repeat' split) <;> first | with_reducible exact h | simp (maxDischargeDepth := 30) [h]
  · intro h; unfold hostRelease; try dsimp only
    (repeat' split) <;> first | with_reducible exact h | simp (maxDischargeDepth := 30) [h]
  · intro h; unfold hostRelease; try dsimp only
    (repeat' split) <;> first | with_reducible exact h | simp (maxDischargeDepth := 30) [h]
  · intro h; unfold hostRelease; try dsimp only
    (repeat' split) <;> first | with_reducible exact h | simp (maxDischargeDepth := 30) [h]
  · intro h; unfold hostRelease; try dsimp only
    (repeat' split) <;> first | with_reducible exact h | simp (maxDischargeDepth := 30) [h]

@[simp] theorem orderRide_keeps (m : Byte) (s : State) :
    (s.lu.Wf → (orderRide m s).1.lu.Wf) ∧
    (LinkForm s.lc.queue s.lc.nextEntry s.lc.sending s.lc.rxErrors →
      LinkForm (orderRide m s).1.lc.queue (orderRide m s).1.lc.nextEntry (orderRide m s).1.lc.sending
        (orderRide m s).1.lc.rxErrors) ∧
    (MotionForm s.mu.motion s.mu.invCause s.mu.brakeCause s.mu.listenCause s.mu.reference s.mu.missed s.mu.still →
      MotionForm (orderRide m s).1.mu.motion (orderRide m s).1.mu.invCause
        (orderRide m s).1.mu.brakeCause (orderRide m s).1.mu.listenCause (orderRide m s).1.mu.reference
        (orderRide m s).1.mu.missed (orderRide m s).1.mu.still) := by
  refine ⟨?_, ?_, ?_⟩
  · intro h; unfold orderRide; try dsimp only
    (repeat' split) <;> first | with_reducible exact h | simp (maxDischargeDepth := 30) [h]
  · intro h; unfold orderRide; try dsimp only
    (repeat' split) <;> first | with_reducible exact h | simp (maxDischargeDepth := 30) [h]
  · intro h; unfold orderRide; try dsimp only
    (repeat' split) <;> first | with_reducible exact h | simp (maxDischargeDepth := 30) [h]

@[simp] theorem setService_keeps (c v : Byte) (s : State) :
    (s.lu.Wf → (setService c v s).1.lu.Wf) ∧
    (LinkForm s.lc.queue s.lc.nextEntry s.lc.sending s.lc.rxErrors →
      LinkForm (setService c v s).1.lc.queue (setService c v s).1.lc.nextEntry
        (setService c v s).1.lc.sending (setService c v s).1.lc.rxErrors) ∧
    (CabinForm s.ct.occupied s.ct.cabins →
      CabinForm (setService c v s).1.ct.occupied (setService c v s).1.ct.cabins) := by
  refine ⟨?_, ?_, ?_⟩
  · intro h; unfold setService; try dsimp only
    (repeat' split) <;> first | with_reducible exact h | simp (maxDischargeDepth := 30) [h]
  · intro h; unfold setService; try dsimp only
    (repeat' split) <;> first | with_reducible exact h | simp (maxDischargeDepth := 30) [h]
  · intro h; unfold setService; try dsimp only
    (repeat' split) <;> first | with_reducible exact h | simp (maxDischargeDepth := 30) [h]

@[simp] theorem serve_keeps (r : Request) (s : State) :
    (s.lu.Wf → (serve r s).1.lu.Wf) ∧
    (LinkForm s.lc.queue s.lc.nextEntry s.lc.sending s.lc.rxErrors →
      LinkForm (serve r s).1.lc.queue (serve r s).1.lc.nextEntry (serve r s).1.lc.sending
        (serve r s).1.lc.rxErrors) ∧
    (HoldForm s.hu.records s.hu.effect s.hu.own →
      HoldForm (serve r s).1.hu.records (serve r s).1.hu.effect (serve r s).1.hu.own) ∧
    (MotionForm s.mu.motion s.mu.invCause s.mu.brakeCause s.mu.listenCause s.mu.reference s.mu.missed s.mu.still →
      MotionForm (serve r s).1.mu.motion (serve r s).1.mu.invCause (serve r s).1.mu.brakeCause
        (serve r s).1.mu.listenCause (serve r s).1.mu.reference (serve r s).1.mu.missed
        (serve r s).1.mu.still) ∧
    (PartyForm s.bu.queue s.bu.window.state s.bu.window.matched s.bu.window.grace →
      PartyForm (serve r s).1.bu.queue (serve r s).1.bu.window.state (serve r s).1.bu.window.matched
        (serve r s).1.bu.window.grace) ∧
    (CabinForm s.ct.occupied s.ct.cabins → CabinForm (serve r s).1.ct.occupied (serve r s).1.ct.cabins) ∧
    (PeerForm s.pv.table → PeerForm (serve r s).1.pv.table) := by
  refine ⟨?_, ?_, ?_, ?_, ?_, ?_, ?_⟩
  · intro h; unfold serve; try dsimp only
    (repeat' split) <;> first | with_reducible exact h | simp (maxDischargeDepth := 30) [h]
  · intro h; unfold serve; try dsimp only
    (repeat' split) <;> first | with_reducible exact h | simp (maxDischargeDepth := 30) [h]
  · intro h; unfold serve; try dsimp only
    (repeat' split) <;> first | with_reducible exact h | simp (maxDischargeDepth := 30) [h]
  · intro h; unfold serve; try dsimp only
    (repeat' split) <;> first | with_reducible exact h | simp (maxDischargeDepth := 30) [h]
  · intro h; unfold serve; try dsimp only
    (repeat' split) <;> first | with_reducible exact h | simp (maxDischargeDepth := 30) [h]
  · intro h; unfold serve; try dsimp only
    (repeat' split) <;> first | with_reducible exact h | simp (maxDischargeDepth := 30) [h]
  · intro h; unfold serve; try dsimp only
    (repeat' split) <;> first | with_reducible exact h | simp (maxDischargeDepth := 30) [h]

@[simp] theorem placeAnswer_form (c n : Byte) (v : Verdict) (s : State) (h : s.rp.refused ≤ 255) :
    (placeAnswer c n v s).rp.Wf := by
  unfold placeAnswer
  simp only [onRp_blocks]
  refine ⟨rfl, ?_, h⟩
  intro a ha
  simp only [Option.some.injEq] at ha
  subst ha
  show 0 < max 1 _
  omega

@[simp] theorem carryOut_keeps (n : Byte) (r : Request) (s : State) :
    (s.lu.Wf → (carryOut n r s).lu.Wf) ∧
    (LinkForm s.lc.queue s.lc.nextEntry s.lc.sending s.lc.rxErrors →
      LinkForm (carryOut n r s).lc.queue (carryOut n r s).lc.nextEntry (carryOut n r s).lc.sending
        (carryOut n r s).lc.rxErrors) ∧
    (HoldForm s.hu.records s.hu.effect s.hu.own →
      HoldForm (carryOut n r s).hu.records (carryOut n r s).hu.effect (carryOut n r s).hu.own) ∧
    (MotionForm s.mu.motion s.mu.invCause s.mu.brakeCause s.mu.listenCause s.mu.reference s.mu.missed s.mu.still →
      MotionForm (carryOut n r s).mu.motion (carryOut n r s).mu.invCause (carryOut n r s).mu.brakeCause
        (carryOut n r s).mu.listenCause (carryOut n r s).mu.reference (carryOut n r s).mu.missed
        (carryOut n r s).mu.still) ∧
    (PartyForm s.bu.queue s.bu.window.state s.bu.window.matched s.bu.window.grace →
      PartyForm (carryOut n r s).bu.queue (carryOut n r s).bu.window.state
        (carryOut n r s).bu.window.matched (carryOut n r s).bu.window.grace) ∧
    (CabinForm s.ct.occupied s.ct.cabins →
      CabinForm (carryOut n r s).ct.occupied (carryOut n r s).ct.cabins) ∧
    (s.rp.Wf → (carryOut n r s).rp.Wf) ∧
    (PeerForm s.pv.table → PeerForm (carryOut n r s).pv.table) := by
  refine ⟨?_, ?_, ?_, ?_, ?_, ?_, ?_, ?_⟩
  · intro h; unfold carryOut; try dsimp only
    (repeat' split) <;> first | with_reducible exact h | simp (maxDischargeDepth := 30) [h]
  · intro h; unfold carryOut; try dsimp only
    (repeat' split) <;> first | with_reducible exact h | simp (maxDischargeDepth := 30) [h]
  · intro h; unfold carryOut; try dsimp only
    (repeat' split) <;> first | with_reducible exact h | simp (maxDischargeDepth := 30) [h]
  · intro h; unfold carryOut; try dsimp only
    (repeat' split) <;> first | with_reducible exact h | simp (maxDischargeDepth := 30) [h]
  · intro h; unfold carryOut; try dsimp only
    (repeat' split) <;> first | with_reducible exact h | simp (maxDischargeDepth := 30) [h]
  · intro h; unfold carryOut; try dsimp only
    (repeat' split) <;> first | with_reducible exact h | simp (maxDischargeDepth := 30) [h]
  · intro h
    unfold carryOut
    exact placeAnswer_form _ _ _ _ (by simpa using h.2.2)
  · intro h; unfold carryOut; try dsimp only
    (repeat' split) <;> first | with_reducible exact h | simp (maxDischargeDepth := 30) [h]

@[simp] theorem putRequest_keeps (n : Byte) (r : Request) (s : State) :
    (s.lu.Wf → (putRequest n r s).lu.Wf) ∧
    (LinkForm s.lc.queue s.lc.nextEntry s.lc.sending s.lc.rxErrors →
      LinkForm (putRequest n r s).lc.queue (putRequest n r s).lc.nextEntry
        (putRequest n r s).lc.sending (putRequest n r s).lc.rxErrors) ∧
    (HoldForm s.hu.records s.hu.effect s.hu.own →
      HoldForm (putRequest n r s).hu.records (putRequest n r s).hu.effect (putRequest n r s).hu.own) ∧
    (MotionForm s.mu.motion s.mu.invCause s.mu.brakeCause s.mu.listenCause s.mu.reference s.mu.missed s.mu.still →
      MotionForm (putRequest n r s).mu.motion (putRequest n r s).mu.invCause
        (putRequest n r s).mu.brakeCause (putRequest n r s).mu.listenCause
        (putRequest n r s).mu.reference (putRequest n r s).mu.missed (putRequest n r s).mu.still) ∧
    (PartyForm s.bu.queue s.bu.window.state s.bu.window.matched s.bu.window.grace →
      PartyForm (putRequest n r s).bu.queue (putRequest n r s).bu.window.state
        (putRequest n r s).bu.window.matched (putRequest n r s).bu.window.grace) ∧
    (CabinForm s.ct.occupied s.ct.cabins →
      CabinForm (putRequest n r s).ct.occupied (putRequest n r s).ct.cabins) ∧
    (s.rp.Wf → (putRequest n r s).rp.Wf) ∧
    (PeerForm s.pv.table → PeerForm (putRequest n r s).pv.table) := by
  refine ⟨?_, ?_, ?_, ?_, ?_, ?_, ?_, ?_⟩
  · intro h; unfold putRequest; try dsimp only
    (repeat' split) <;> first | with_reducible exact h | simp (maxDischargeDepth := 30) [h]
  · intro h; unfold putRequest; try dsimp only
    (repeat' split) <;> first | with_reducible exact h | simp (maxDischargeDepth := 30) [h]
  · intro h; unfold putRequest; try dsimp only
    (repeat' split) <;> first | with_reducible exact h | simp (maxDischargeDepth := 30) [h]
  · intro h; unfold putRequest; try dsimp only
    (repeat' split) <;> first | with_reducible exact h | simp (maxDischargeDepth := 30) [h]
  · intro h; unfold putRequest; try dsimp only
    (repeat' split) <;> first | with_reducible exact h | simp (maxDischargeDepth := 30) [h]
  · intro h; unfold putRequest; try dsimp only
    (repeat' split) <;> first | with_reducible exact h | simp (maxDischargeDepth := 30) [h]
  · intro h
    unfold putRequest
    (repeat' split)
    · simp only [onRp_blocks]
      exact ⟨rfl, h.2.1, h.2.2⟩
    · exact (carryOut_keeps _ _ _).2.2.2.2.2.2.1 h
    · simp only [onRp_blocks]
      exact ⟨h.1, h.2.1, Nat.min_le_left _ _⟩
  · intro h; unfold putRequest; try dsimp only
    (repeat' split) <;> first | with_reducible exact h | simp (maxDischargeDepth := 30) [h]

@[simp] theorem enterSheetFault_keeps (s : State) :
    (s.lu.Wf → (enterSheetFault s).lu.Wf) ∧
    (LinkForm s.lc.queue s.lc.nextEntry s.lc.sending s.lc.rxErrors →
      LinkForm (enterSheetFault s).lc.queue (enterSheetFault s).lc.nextEntry
        (enterSheetFault s).lc.sending (enterSheetFault s).lc.rxErrors) ∧
    (PeerForm s.pv.table → PeerForm (enterSheetFault s).pv.table) := by
  refine ⟨?_, ?_, ?_⟩
  · intro h; unfold enterSheetFault; try dsimp only
    (repeat' split) <;> first | with_reducible exact h | simp (maxDischargeDepth := 30) [h]
  · intro h; unfold enterSheetFault; try dsimp only
    (repeat' split) <;> first | with_reducible exact h | simp (maxDischargeDepth := 30) [h]
  · intro h; unfold enterSheetFault; try dsimp only
    (repeat' split) <;> first | with_reducible exact h | simp (maxDischargeDepth := 30) [h]

theorem startPeers_form (s : State) : PeerForm (startPeers s).pv.table := by
  unfold startPeers
  refine onPeer_keeps _ _ _ (fun p hp => hp) ?_
  simp only [onPv_blocks]
  refine ⟨by simp [rosterTable], ?_⟩
  intro p hp
  simp only [rosterTable, List.mem_map] at hp
  obtain ⟨i, _, rfl⟩ := hp
  exact ⟨Nat.zero_le _, Nat.zero_le _⟩

theorem startTables_form (s : State) :
    CabinForm (startTables s).ct.occupied (startTables s).ct.cabins := by
  unfold startTables
  simp only [onBu_blocks, onCt_blocks]
  refine ⟨rfl, ?_⟩
  intro c hc
  simp only [startCabins, List.mem_map] at hc
  obtain ⟨i, _, rfl⟩ := hc
  exact ⟨Nat.zero_le _, by simp [startCabin]⟩

@[simp] theorem startTables_keeps (s : State) :
    PartyForm s.bu.queue s.bu.window.state s.bu.window.matched s.bu.window.grace →
      PartyForm (startTables s).bu.queue (startTables s).bu.window.state
        (startTables s).bu.window.matched (startTables s).bu.window.grace := by
  intro h; unfold startTables; try dsimp only
  (repeat' split) <;> first | with_reducible exact h | simp (maxDischargeDepth := 30) [h]

@[simp] theorem startTimers_keeps (s : State) :
    (HoldForm s.hu.records s.hu.effect s.hu.own →
      HoldForm (startTimers s).hu.records (startTimers s).hu.effect (startTimers s).hu.own) ∧
    (WmuForm s.wmu.channels s.wmu.windows →
      WmuForm (startTimers s).wmu.channels (startTimers s).wmu.windows) := by
  refine ⟨?_, ?_⟩
  · intro h; unfold startTimers; try dsimp only
    (repeat' split) <;> first | with_reducible exact h | simp (maxDischargeDepth := 30) [h]
  · intro h; unfold startTimers; try dsimp only
    (repeat' split) <;> first | with_reducible exact h | simp (maxDischargeDepth := 30) [h]

@[simp] theorem startConditions_keeps (s : State) :
    (s.lu.Wf → (startConditions s).lu.Wf) ∧
    (LinkForm s.lc.queue s.lc.nextEntry s.lc.sending s.lc.rxErrors →
      LinkForm (startConditions s).lc.queue (startConditions s).lc.nextEntry
        (startConditions s).lc.sending (startConditions s).lc.rxErrors) ∧
    (HoldForm s.hu.records s.hu.effect s.hu.own →
      HoldForm (startConditions s).hu.records (startConditions s).hu.effect (startConditions s).hu.own) ∧
    (MotionForm s.mu.motion s.mu.invCause s.mu.brakeCause s.mu.listenCause s.mu.reference s.mu.missed s.mu.still →
      MotionForm (startConditions s).mu.motion (startConditions s).mu.invCause
        (startConditions s).mu.brakeCause (startConditions s).mu.listenCause
        (startConditions s).mu.reference (startConditions s).mu.missed (startConditions s).mu.still) ∧
    (PartyForm s.bu.queue s.bu.window.state s.bu.window.matched s.bu.window.grace →
      PartyForm (startConditions s).bu.queue (startConditions s).bu.window.state
        (startConditions s).bu.window.matched (startConditions s).bu.window.grace) := by
  refine ⟨?_, ?_, ?_, ?_, ?_⟩
  · intro h; unfold startConditions; try dsimp only
    (repeat' split) <;> first | with_reducible exact h | simp (maxDischargeDepth := 30) [h]
  · intro h; unfold startConditions; try dsimp only
    (repeat' split) <;> first | with_reducible exact h | simp (maxDischargeDepth := 30) [h]
  · intro h; unfold startConditions; try dsimp only
    (repeat' split) <;> first | with_reducible exact h | simp (maxDischargeDepth := 30) [h]
  · intro h; unfold startConditions; try dsimp only
    (repeat' split) <;> first | with_reducible exact h | simp (maxDischargeDepth := 30) [h]
  · intro h; unfold startConditions; try dsimp only
    (repeat' split) <;> first | with_reducible exact h | simp (maxDischargeDepth := 30) [h]

@[simp] theorem enterJoining_keeps (sh : Sheet) (s : State) :
    (s.lu.Wf → (enterJoining sh s).lu.Wf) ∧
    (LinkForm s.lc.queue s.lc.nextEntry s.lc.sending s.lc.rxErrors →
      LinkForm (enterJoining sh s).lc.queue (enterJoining sh s).lc.nextEntry
        (enterJoining sh s).lc.sending (enterJoining sh s).lc.rxErrors) ∧
    (HoldForm s.hu.records s.hu.effect s.hu.own →
      HoldForm (enterJoining sh s).hu.records (enterJoining sh s).hu.effect (enterJoining sh s).hu.own) ∧
    (MotionForm s.mu.motion s.mu.invCause s.mu.brakeCause s.mu.listenCause s.mu.reference s.mu.missed s.mu.still →
      MotionForm (enterJoining sh s).mu.motion (enterJoining sh s).mu.invCause
        (enterJoining sh s).mu.brakeCause (enterJoining sh s).mu.listenCause
        (enterJoining sh s).mu.reference (enterJoining sh s).mu.missed (enterJoining sh s).mu.still) ∧
    (PartyForm s.bu.queue s.bu.window.state s.bu.window.matched s.bu.window.grace →
      PartyForm (enterJoining sh s).bu.queue (enterJoining sh s).bu.window.state
        (enterJoining sh s).bu.window.matched (enterJoining sh s).bu.window.grace) ∧
    (WmuForm s.wmu.channels s.wmu.windows →
      WmuForm (enterJoining sh s).wmu.channels (enterJoining sh s).wmu.windows) := by
  refine ⟨?_, ?_, ?_, ?_, ?_, ?_⟩
  · intro h; unfold enterJoining; try dsimp only
    (repeat' split) <;> first | with_reducible exact h | simp (maxDischargeDepth := 30) [h]
  · intro h; unfold enterJoining; try dsimp only
    (repeat' split) <;> first | with_reducible exact h | simp (maxDischargeDepth := 30) [h]
  · intro h; unfold enterJoining; try dsimp only
    (repeat' split) <;> first | with_reducible exact h | simp (maxDischargeDepth := 30) [h]
  · intro h; unfold enterJoining; try dsimp only
    (repeat' split) <;> first | with_reducible exact h | simp (maxDischargeDepth := 30) [h]
  · intro h; unfold enterJoining; try dsimp only
    (repeat' split) <;> first | with_reducible exact h | simp (maxDischargeDepth := 30) [h]
  · intro h; unfold enterJoining; try dsimp only
    (repeat' split) <;> first | with_reducible exact h | simp (maxDischargeDepth := 30) [h]

@[simp] theorem serveDeferred_keeps (s : State) :
    (s.lu.Wf → (serveDeferred s).lu.Wf) ∧
    (LinkForm s.lc.queue s.lc.nextEntry s.lc.sending s.lc.rxErrors →
      LinkForm (serveDeferred s).lc.queue (serveDeferred s).lc.nextEntry (serveDeferred s).lc.sending
        (serveDeferred s).lc.rxErrors) ∧
    (HoldForm s.hu.records s.hu.effect s.hu.own →
      HoldForm (serveDeferred s).hu.records (serveDeferred s).hu.effect (serveDeferred s).hu.own) ∧
    (MotionForm s.mu.motion s.mu.invCause s.mu.brakeCause s.mu.listenCause s.mu.reference s.mu.missed s.mu.still →
      MotionForm (serveDeferred s).mu.motion (serveDeferred s).mu.invCause
        (serveDeferred s).mu.brakeCause (serveDeferred s).mu.listenCause (serveDeferred s).mu.reference
        (serveDeferred s).mu.missed (serveDeferred s).mu.still) ∧
    (PartyForm s.bu.queue s.bu.window.state s.bu.window.matched s.bu.window.grace →
      PartyForm (serveDeferred s).bu.queue (serveDeferred s).bu.window.state
        (serveDeferred s).bu.window.matched (serveDeferred s).bu.window.grace) ∧
    (CabinForm s.ct.occupied s.ct.cabins →
      CabinForm (serveDeferred s).ct.occupied (serveDeferred s).ct.cabins) ∧
    (s.rp.Wf → (serveDeferred s).rp.Wf) ∧
    (PeerForm s.pv.table → PeerForm (serveDeferred s).pv.table) := by
  refine ⟨?_, ?_, ?_, ?_, ?_, ?_, ?_, ?_⟩
  · intro h; unfold serveDeferred; try dsimp only
    (repeat' split) <;> first | with_reducible exact h | simp (maxDischargeDepth := 30) [h]
  · intro h; unfold serveDeferred; try dsimp only
    (repeat' split) <;> first | with_reducible exact h | simp (maxDischargeDepth := 30) [h]
  · intro h; unfold serveDeferred; try dsimp only
    (repeat' split) <;> first | with_reducible exact h | simp (maxDischargeDepth := 30) [h]
  · intro h; unfold serveDeferred; try dsimp only
    (repeat' split) <;> first | with_reducible exact h | simp (maxDischargeDepth := 30) [h]
  · intro h; unfold serveDeferred; try dsimp only
    (repeat' split) <;> first | with_reducible exact h | simp (maxDischargeDepth := 30) [h]
  · intro h; unfold serveDeferred; try dsimp only
    (repeat' split) <;> first | with_reducible exact h | simp (maxDischargeDepth := 30) [h]
  · intro h; unfold serveDeferred; try dsimp only
    (repeat' split) <;> first | with_reducible exact h | simp (maxDischargeDepth := 30) [h]
  · intro h; unfold serveDeferred; try dsimp only
    (repeat' split) <;> first | with_reducible exact h | simp (maxDischargeDepth := 30) [h]

@[simp] theorem endLoading_keeps (i : Option (List Byte)) (s : State) :
    (s.lu.Wf → (endLoading i s).lu.Wf) ∧
    (LinkForm s.lc.queue s.lc.nextEntry s.lc.sending s.lc.rxErrors →
      LinkForm (endLoading i s).lc.queue (endLoading i s).lc.nextEntry (endLoading i s).lc.sending
        (endLoading i s).lc.rxErrors) ∧
    (HoldForm s.hu.records s.hu.effect s.hu.own →
      HoldForm (endLoading i s).hu.records (endLoading i s).hu.effect (endLoading i s).hu.own) ∧
    (MotionForm s.mu.motion s.mu.invCause s.mu.brakeCause s.mu.listenCause s.mu.reference s.mu.missed s.mu.still →
      MotionForm (endLoading i s).mu.motion (endLoading i s).mu.invCause (endLoading i s).mu.brakeCause
        (endLoading i s).mu.listenCause (endLoading i s).mu.reference (endLoading i s).mu.missed
        (endLoading i s).mu.still) ∧
    (PartyForm s.bu.queue s.bu.window.state s.bu.window.matched s.bu.window.grace →
      PartyForm (endLoading i s).bu.queue (endLoading i s).bu.window.state
        (endLoading i s).bu.window.matched (endLoading i s).bu.window.grace) ∧
    (s.rp.Wf → (endLoading i s).rp.Wf) ∧
    (WmuForm s.wmu.channels s.wmu.windows →
      WmuForm (endLoading i s).wmu.channels (endLoading i s).wmu.windows) := by
  refine ⟨?_, ?_, ?_, ?_, ?_, ?_, ?_⟩
  · intro h; unfold endLoading; try dsimp only
    (repeat' split) <;> first | with_reducible exact h | simp (maxDischargeDepth := 30) [h]
  · intro h; unfold endLoading; try dsimp only
    (repeat' split) <;> first | with_reducible exact h | simp (maxDischargeDepth := 30) [h]
  · intro h; unfold endLoading; try dsimp only
    (repeat' split) <;> first | with_reducible exact h | simp (maxDischargeDepth := 30) [h]
  · intro h; unfold endLoading; try dsimp only
    (repeat' split) <;> first | with_reducible exact h | simp (maxDischargeDepth := 30) [h]
  · intro h; unfold endLoading; try dsimp only
    (repeat' split) <;> first | with_reducible exact h | simp (maxDischargeDepth := 30) [h]
  · intro h; unfold endLoading; try dsimp only
    (repeat' split) <;> first | with_reducible exact h | simp (maxDischargeDepth := 30) [h]
  · intro h; unfold endLoading; try dsimp only
    (repeat' split) <;> first | with_reducible exact h | simp (maxDischargeDepth := 30) [h]

@[simp] theorem enterRunning_keeps (s : State) :
    (s.lu.Wf → (enterRunning s).lu.Wf) ∧
    (LinkForm s.lc.queue s.lc.nextEntry s.lc.sending s.lc.rxErrors →
      LinkForm (enterRunning s).lc.queue (enterRunning s).lc.nextEntry (enterRunning s).lc.sending
        (enterRunning s).lc.rxErrors) ∧
    (MotionForm s.mu.motion s.mu.invCause s.mu.brakeCause s.mu.listenCause s.mu.reference s.mu.missed s.mu.still →
      MotionForm (enterRunning s).mu.motion (enterRunning s).mu.invCause (enterRunning s).mu.brakeCause
        (enterRunning s).mu.listenCause (enterRunning s).mu.reference (enterRunning s).mu.missed
        (enterRunning s).mu.still) ∧
    (CabinForm s.ct.occupied s.ct.cabins →
      CabinForm (enterRunning s).ct.occupied (enterRunning s).ct.cabins) ∧
    (PeerForm s.pv.table → PeerForm (enterRunning s).pv.table) := by
  refine ⟨?_, ?_, ?_, ?_, ?_⟩
  · intro h; unfold enterRunning; try dsimp only
    (repeat' split) <;> first | with_reducible exact h | simp (maxDischargeDepth := 30) [h]
  · intro h; unfold enterRunning; try dsimp only
    (repeat' split) <;> first | with_reducible exact h | simp (maxDischargeDepth := 30) [h]
  · intro h; unfold enterRunning; try dsimp only
    (repeat' split) <;> first | with_reducible exact h | simp (maxDischargeDepth := 30) [h]
  · intro h; unfold enterRunning; try dsimp only
    (repeat' split) <;> first | with_reducible exact h | simp (maxDischargeDepth := 30) [h]
  · intro h; unfold enterRunning; try dsimp only
    (repeat' split) <;> first | with_reducible exact h | simp (maxDischargeDepth := 30) [h]

@[simp] theorem endSettling_keeps (s : State) :
    (s.lu.Wf → (endSettling s).lu.Wf) ∧
    (LinkForm s.lc.queue s.lc.nextEntry s.lc.sending s.lc.rxErrors →
      LinkForm (endSettling s).lc.queue (endSettling s).lc.nextEntry (endSettling s).lc.sending
        (endSettling s).lc.rxErrors) ∧
    (HoldForm s.hu.records s.hu.effect s.hu.own →
      HoldForm (endSettling s).hu.records (endSettling s).hu.effect (endSettling s).hu.own) ∧
    (MotionForm s.mu.motion s.mu.invCause s.mu.brakeCause s.mu.listenCause s.mu.reference s.mu.missed s.mu.still →
      MotionForm (endSettling s).mu.motion (endSettling s).mu.invCause (endSettling s).mu.brakeCause
        (endSettling s).mu.listenCause (endSettling s).mu.reference (endSettling s).mu.missed
        (endSettling s).mu.still) ∧
    (PartyForm s.bu.queue s.bu.window.state s.bu.window.matched s.bu.window.grace →
      PartyForm (endSettling s).bu.queue (endSettling s).bu.window.state
        (endSettling s).bu.window.matched (endSettling s).bu.window.grace) := by
  refine ⟨?_, ?_, ?_, ?_, ?_⟩
  · intro h; unfold endSettling; try dsimp only
    (repeat' split) <;> first | with_reducible exact h | simp (maxDischargeDepth := 30) [h]
  · intro h; unfold endSettling; try dsimp only
    (repeat' split) <;> first | with_reducible exact h | simp (maxDischargeDepth := 30) [h]
  · intro h; unfold endSettling; try dsimp only
    (repeat' split) <;> first | with_reducible exact h | simp (maxDischargeDepth := 30) [h]
  · intro h; unfold endSettling; try dsimp only
    (repeat' split) <;> first | with_reducible exact h | simp (maxDischargeDepth := 30) [h]
  · intro h; unfold endSettling; try dsimp only
    (repeat' split) <;> first | with_reducible exact h | simp (maxDischargeDepth := 30) [h]

end Sys2Proof.Machine
end

