-- ==== Sys2Proof/Laws/Exec.lean ====
section
/-! SUPPORT. Commands and steps: a command's effect with RESET released and with RESET held, the order in
which due timers are taken, and the millisecond. -/

namespace Sys2Proof.Machine

theorem whenUp_up {s : State} (h : s.sl.resetHeld = false) (f : State → State) :
    whenUp s f = .next (f s) := by simp [whenUp, h]

theorem whenUp_held {s : State} (h : s.sl.resetHeld = true) (f : State → State) :
    whenUp s f = .next s := by simp [whenUp, h]

theorem whenUp_next (s : State) (f : State → State) : ∃ t, whenUp s f = .next t := ⟨_, rfl⟩

/-- Every due timer is taken exactly once (log entry 2). -/
theorem arrange_perm (now n : Nat) (xs : List Instr) : (arrange now n xs).Perm xs := by
  induction n generalizing xs with
  | zero => unfold arrange; exact List.Perm.refl _
  | succ n ih =>
    match xs with
    | [] => exact List.Perm.refl _
    | [x] => exact List.Perm.refl _
    | x :: y :: rest =>
      unfold arrange
      dsimp only
      have hl : 0 < (x :: y :: rest).length := by simp
      have hi := Nat.mod_lt (Config.nextTimer now (x :: y :: rest).length) hl
      generalize Config.nextTimer now (x :: y :: rest).length % (x :: y :: rest).length = i at hi ⊢
      have hg : (x :: y :: rest)[i]?.getD x = (x :: y :: rest)[i] := by
        rw [List.getElem?_eq_getElem hi]; rfl
      rw [hg]
      exact ((ih _).cons _).trans (List.getElem_cons_eraseIdx_perm hi)

theorem mem_rowIf {b : Bool} {i c : Instr} : c ∈ rowIf b i ↔ b = true ∧ c = i := by
  cases b <;> simp [rowIf]

theorem rowIf_nodup (b : Bool) (i : Instr) : (rowIf b i).Nodup := by cases b <;> simp [rowIf]

theorem mem_rowsFor {n : Nat} {b : Nat → Bool} {i : Fin n → Instr} {c : Instr} :
    c ∈ rowsFor n b i ↔ ∃ k : Fin n, b k.val = true ∧ c = i k := by
  simp [rowsFor, mem_rowIf]

/-- A timer kept per number puts its row into the queue once for each number. -/
theorem rowsFor_nodup {n : Nat} {b : Nat → Bool} {i : Fin n → Instr} (h : Function.Injective i) :
    (rowsFor n b i).Nodup := by
  unfold rowsFor
  rw [List.nodup_flatMap]
  refine ⟨fun x _ => rowIf_nodup _ _, List.Pairwise.imp_of_mem ?_ (List.nodup_finRange n)⟩
  intro x y _ _ hxy a ha hb
  rw [mem_rowIf] at ha hb
  exact hxy (h (ha.2.symm.trans hb.2))

theorem step_front (s : State) (c : Instr) (rest : List Instr) :
    step { s with pending := c :: rest } = exec c { s with pending := rest } := rfl

theorem step_idle {s : State} (h : s.pending = []) : step s = .next (tick s) := by simp [step, h]

theorem tick_held {s : State} (h : s.sl.resetHeld = true) : tick s = s := by simp [tick, h]

theorem tick_up {s : State} (h : s.sl.resetHeld = false) :
    tick s = s.advance.onPending
      (fun q => q ++ arrange s.advance.now s.advance.dueTimers.length s.advance.dueTimers) := by
  simp [tick, h]

@[simp] theorem advance_blocks (s : State) :
    s.advance.clock = { now := s.clock.now + 1, station := s.clock.station + 1 } ∧
    s.advance.pins = s.pins ∧ s.advance.lu = s.lu ∧ s.advance.lc = s.lc ∧ s.advance.pv = s.pv ∧
    s.advance.wmu = s.wmu ∧ s.advance.wv = s.wv ∧ s.advance.hu = s.hu ∧ s.advance.mu = s.mu ∧
    s.advance.ct = s.ct ∧ s.advance.bu = s.bu ∧ s.advance.rp = s.rp ∧ s.advance.sl = s.sl ∧
    s.advance.pending = s.pending :=
  ⟨rfl, rfl, rfl, rfl, rfl, rfl, rfl, rfl, rfl, rfl, rfl, rfl, rfl, rfl⟩

@[simp] theorem closeWhen_spares (v : BitVec 4) (o : Wmu → Wmu → Bool) (s : State) :
    (closeWhen v o s).clock = s.clock ∧ (closeWhen v o s).pins = s.pins ∧
    (closeWhen v o s).pv = s.pv ∧ (closeWhen v o s).wv = s.wv ∧ (closeWhen v o s).ct = s.ct ∧
    (closeWhen v o s).rp = s.rp ∧ (closeWhen v o s).sl = s.sl ∧
    (closeWhen v o s).pending = s.pending := by
  unfold closeWhen
  dsimp only
  split <;> simp

@[simp] theorem updateWhen_spares (o : MotionUnit → MotionUnit → Bool) (s : State) :
    (updateWhen o s).clock = s.clock ∧ (updateWhen o s).pins = s.pins ∧
    (updateWhen o s).pv = s.pv ∧ (updateWhen o s).wmu = s.wmu ∧ (updateWhen o s).wv = s.wv ∧
    (updateWhen o s).hu = s.hu ∧ (updateWhen o s).ct = s.ct ∧ (updateWhen o s).bu = s.bu ∧
    (updateWhen o s).rp = s.rp ∧ (updateWhen o s).sl = s.sl ∧
    (updateWhen o s).pending = s.pending := by
  unfold updateWhen
  dsimp only
  split <;> simp

end Sys2Proof.Machine
end

