-- ==== Sys2Proof/Laws/Own.lean ====
section
/-! SUPPORT. The own-hold list and the record of an own hold: what declaring, sending, placing and
releasing leave in them (R78 to R80). -/

namespace Sys2Proof.Machine

theorem elapsed_true {s : State} {since d : Nat} (h : since + d ≤ s.clock.now) :
    s.elapsed since d = true := decide_eq_true h

theorem elapsed_false {s : State} {since d : Nat} (h : s.clock.now < since + d) :
    s.elapsed since d = false := decide_eq_false (Nat.not_le.mpr h)

theorem own?_some_kind {k : HoldKind} {u : HoldUnit} {o : OwnHold} (h : u.own? k = some o) :
    o.kind = k := by
  have := List.find?_some h
  simpa using this

theorem own?_setOwn (k j : HoldKind) (f : OwnHold → OwnHold) (hf : ∀ o, (f o).kind = o.kind)
    (u : HoldUnit) :
    (u.setOwn k f).own? j = if j = k then (u.own? k).map f else u.own? j := by
  unfold HoldUnit.own? HoldUnit.setOwn
  dsimp only
  induction u.own with
  | nil => simp
  | cons o os ih =>
    simp only [List.map_cons, List.find?_cons]
    by_cases ho : o.kind = k
    · subst ho
      simp only [beq_self_eq_true, if_true, hf]
      by_cases hj : j = o.kind
      · subst hj; simp
      · have : (o.kind == j) = false := by simpa using fun h => hj h.symm
        simp only [this, if_neg hj] at ih ⊢
        exact ih
    · have hk : (o.kind == k) = false := by simpa using ho
      simp only [hk, Bool.false_eq_true, if_false]
      by_cases hj : j = k
      · subst hj; simp only [hk, if_true] at ih ⊢; exact ih
      · simp only [if_neg hj] at ih ⊢
        split
        · rfl
        · exact ih

theorem own?_append (k : HoldKind) (os : List OwnHold) (o : OwnHold) :
    (os ++ [o]).find? (fun o => o.kind == k) =
      match os.find? (fun o => o.kind == k) with
      | some x => some x
      | none => if o.kind = k then some o else none := by
  rw [List.find?_append]
  cases os.find? (fun o => o.kind == k) <;> simp [List.find?_singleton]

theorem own?_filter (k j : HoldKind) (u : HoldUnit) :
    (u.own.filter (fun o => o.kind != k)).find? (fun o => o.kind == j)
      = if j = k then none else u.own? j := by
  unfold HoldUnit.own?
  induction u.own with
  | nil => simp
  | cons o os ih =>
    by_cases ho : o.kind = k
    · subst ho
      by_cases hj : j = o.kind
      · subst hj; simpa using ih
      · have : (o.kind == j) = false := by simpa using fun h => hj h.symm
        simp only [if_neg hj] at ih ⊢
        simpa [this] using ih
    · have hk : (o.kind != k) = true := by simpa using ho
      simp only [List.filter_cons, hk, if_true, List.find?_cons]
      by_cases hj : j = k
      · subst hj
        have : (o.kind == j) = false := by simpa using ho
        simp only [this, if_true] at ih ⊢
        exact ih
      · simp only [if_neg hj] at ih ⊢
        split
        · rfl
        · exact ih

theorem newOwn_own (k j : HoldKind) (e : Effect) (c : Cause) (s : State) (h : s.hu.own? k = none) :
    (newOwn k e c s).hu.own? j = if j = k then
      some { kind := k, effect := e, cause := c, declaredAt := s.time, sentAt := s.now }
      else s.hu.own? j := by
  unfold newOwn HoldUnit.own?
  simp only [logLocal_spares, onHu_blocks]
  rw [own?_append]
  unfold HoldUnit.own? at h
  by_cases hj : j = k
  · subst hj; simp [h]
  · simp only [if_neg hj]
    have : ¬ k = j := fun h => hj h.symm
    simp only [this, if_false]
    split
    · next hs => exact hs.symm
    · next hs => exact hs.symm

theorem changeOwn_own (k j : HoldKind) (e : Effect) (c : Cause) (s : State) :
    (changeOwn k e c s).hu.own? j = if j = k then
      (s.hu.own? k).map (fun o => { o with effect := e, cause := c }) else s.hu.own? j := by
  unfold changeOwn
  simp only [logLocal_spares, onHu_blocks]
  exact own?_setOwn k j (fun o => { o with effect := e, cause := c }) (fun _ => rfl) s.hu

theorem sendOwn_own (k j : HoldKind) (b : Bool) (s : State) :
    (sendOwn k b s).hu.own? j = if j = k then
      (s.hu.own? k).map (fun o => { o with sentAt := s.now }) else s.hu.own? j := by
  unfold sendOwn
  split
  · simp only [handOver_spares, onHu_blocks]
    exact own?_setOwn k j (fun o => { o with sentAt := s.now }) (fun _ => rfl) s.hu
  · next h => by_cases hj : j = k <;> simp [hj, h]

theorem placeOwn_own (k : HoldKind) (s : State) : (placeOwn k s).hu.own = s.hu.own := by
  unfold placeOwn
  split
  · split
    · exact (updateRecord_set ..).2.1
    · exact (admitHold_set ..).1
  · rfl

theorem placeOwn_own? (k j : HoldKind) (s : State) : (placeOwn k s).hu.own? j = s.hu.own? j := by
  unfold HoldUnit.own?
  rw [placeOwn_own]

/-- What a declaration leaves in the own-hold list (R78). -/
theorem declareHold_own (k j : HoldKind) (e : Effect) (c : Cause) (s : State) :
    (declareHold k e c s).hu.own? j = if j = k then
      (match s.hu.own? k with
      | none => some { kind := k, effect := e, cause := c, declaredAt := s.time, sentAt := s.now }
      | some o =>
        if effectCode o.effect < effectCode e then
          some { o with effect := e, cause := c, sentAt := s.now }
        else if o.effect = e then some { o with effect := e, cause := c }
        else some o)
      else s.hu.own? j := by
  unfold declareHold
  have hn : ∀ t : State, (placeOwn k t).now = t.now := by intro t; simp [State.now]
  have hnew : (newOwn k e c s).now = s.now := by simp [State.now, newOwn]
  have hchg : (changeOwn k e c s).now = s.now := by simp [State.now, changeOwn]
  split
  · next h =>
    rw [sendOwn_own, hn, hnew]
    by_cases hj : j = k
    · subst hj
      simp [placeOwn_own?, newOwn_own _ _ _ _ _ h, h]
    · simp [hj, placeOwn_own?, newOwn_own _ _ _ _ _ h]
  · next o h =>
    split
    · next hlt =>
      rw [sendOwn_own, hn, hchg]
      by_cases hj : j = k
      · subst hj
        simp [placeOwn_own?, changeOwn_own, h, hlt]
      · simp [hj, placeOwn_own?, changeOwn_own]
    · next hlt =>
      split
      · next he =>
        rw [placeOwn_own?]
        split
        · next hc => by_cases hj : j = k
                     · subst hj he hc; simp [h]
                     · simp [hj]
        · rw [changeOwn_own]
          by_cases hj : j = k
          · subst hj; simp [h, hlt, he]
          · simp [hj]
      · next he =>
        rw [placeOwn_own?]
        by_cases hj : j = k
        · subst hj; simp [h, hlt, he]
        · simp [hj]

/-- What a release leaves in the own-hold list (R80). -/
theorem releaseOwn_own (k j : HoldKind) (s : State) :
    (releaseOwn k s).hu.own? j = if j = k then none else s.hu.own? j := by
  unfold releaseOwn
  split
  · next h => by_cases hj : j = k <;> simp [hj, h]
  · simp only [handOver_spares]
    split
    · unfold HoldUnit.own?
      rw [(removeRecord_set ..).2.1]
      simp only [logLocal_spares, onHu_blocks]
      exact own?_filter _ _ _
    · unfold HoldUnit.own?
      simp only [logLocal_spares, onHu_blocks]
      exact own?_filter _ _ _

end Sys2Proof.Machine
end

