-- ==== Sys2Proof/Laws/Monitor.lean ====
section
/-! SUPPORT. The LINK monitor's marks (section 5.7): the operations on the hold set leave them, and what the
monitor itself leaves in them (R90 to R93). -/

namespace Sys2Proof.Machine

@[simp] theorem endWatch_marks (n : Nat) (ns : List Nat) (s : State) :
    (endWatch n ns s).hu.cond = s.hu.cond ∧
    (endWatch n ns s).hu.overridden = s.hu.overridden ∧
    (endWatch n ns s).hu.driveRestartAt = s.hu.driveRestartAt ∧
    (endWatch n ns s).hu.lapseAt = s.hu.lapseAt ∧
    (endWatch n ns s).hu.dwellFrom = s.hu.dwellFrom := by
  unfold endWatch
  simp

@[simp] theorem startWatch_marks (s : State) :
    (startWatch s).hu.cond = s.hu.cond ∧
    (startWatch s).hu.overridden = s.hu.overridden ∧
    (startWatch s).hu.driveRestartAt = s.hu.driveRestartAt ∧
    (startWatch s).hu.lapseAt = s.hu.lapseAt ∧
    (startWatch s).hu.dwellFrom = s.hu.dwellFrom := by
  unfold startWatch
  dsimp only
  split <;> simp

@[simp] theorem completeEmptyDown_marks (t : Bool) (s : State) :
    (completeEmptyDown t s).hu.cond = s.hu.cond ∧
    (completeEmptyDown t s).hu.overridden = s.hu.overridden ∧
    (completeEmptyDown t s).hu.driveRestartAt = s.hu.driveRestartAt ∧
    (completeEmptyDown t s).hu.lapseAt = s.hu.lapseAt ∧
    (completeEmptyDown t s).hu.dwellFrom = s.hu.dwellFrom := by
  unfold completeEmptyDown
  dsimp only
  cases t <;> simp

@[simp] theorem testEmptyDown_marks (s : State) :
    (testEmptyDown s).hu.cond = s.hu.cond ∧
    (testEmptyDown s).hu.overridden = s.hu.overridden ∧
    (testEmptyDown s).hu.driveRestartAt = s.hu.driveRestartAt ∧
    (testEmptyDown s).hu.lapseAt = s.hu.lapseAt ∧
    (testEmptyDown s).hu.dwellFrom = s.hu.dwellFrom := by
  unfold testEmptyDown
  split <;> simp

@[simp] theorem emptyDownOnEffect_marks (a b : Effect) (s : State) :
    (emptyDownOnEffect a b s).hu.cond = s.hu.cond ∧
    (emptyDownOnEffect a b s).hu.overridden = s.hu.overridden ∧
    (emptyDownOnEffect a b s).hu.driveRestartAt = s.hu.driveRestartAt ∧
    (emptyDownOnEffect a b s).hu.lapseAt = s.hu.lapseAt ∧
    (emptyDownOnEffect a b s).hu.dwellFrom = s.hu.dwellFrom := by
  unfold emptyDownOnEffect
  (repeat' split) <;> simp

@[simp] theorem handOnEffect_marks (a b : Effect) (s : State) :
    (handOnEffect a b s).hu.cond = s.hu.cond ∧
    (handOnEffect a b s).hu.overridden = s.hu.overridden ∧
    (handOnEffect a b s).hu.driveRestartAt = s.hu.driveRestartAt ∧
    (handOnEffect a b s).hu.lapseAt = s.hu.lapseAt ∧
    (handOnEffect a b s).hu.dwellFrom = s.hu.dwellFrom := by
  unfold handOnEffect
  (repeat' split) <;> simp

@[simp] theorem refreshHoldLamp_marks (s : State) :
    (refreshHoldLamp s).hu.cond = s.hu.cond ∧
    (refreshHoldLamp s).hu.overridden = s.hu.overridden ∧
    (refreshHoldLamp s).hu.driveRestartAt = s.hu.driveRestartAt ∧
    (refreshHoldLamp s).hu.lapseAt = s.hu.lapseAt ∧
    (refreshHoldLamp s).hu.dwellFrom = s.hu.dwellFrom := by
  unfold refreshHoldLamp
  split <;> simp

@[simp] theorem formEffect_marks (s : State) :
    (formEffect s).hu.cond = s.hu.cond ∧
    (formEffect s).hu.overridden = s.hu.overridden ∧
    (formEffect s).hu.driveRestartAt = s.hu.driveRestartAt ∧
    (formEffect s).hu.lapseAt = s.hu.lapseAt ∧
    (formEffect s).hu.dwellFrom = s.hu.dwellFrom := by
  unfold formEffect
  dsimp only
  split <;> simp

@[simp] theorem afterRecords_marks (s : State) :
    (afterRecords s).hu.cond = s.hu.cond ∧
    (afterRecords s).hu.overridden = s.hu.overridden ∧
    (afterRecords s).hu.driveRestartAt = s.hu.driveRestartAt ∧
    (afterRecords s).hu.lapseAt = s.hu.lapseAt ∧
    (afterRecords s).hu.dwellFrom = s.hu.dwellFrom := by
  unfold afterRecords
  simp

@[simp] theorem removeRecord_marks (k : HoldKind) (d : Nat) (s : State) :
    (removeRecord k d s).hu.cond = s.hu.cond ∧
    (removeRecord k d s).hu.overridden = s.hu.overridden ∧
    (removeRecord k d s).hu.driveRestartAt = s.hu.driveRestartAt ∧
    (removeRecord k d s).hu.lapseAt = s.hu.lapseAt ∧
    (removeRecord k d s).hu.dwellFrom = s.hu.dwellFrom := by
  unfold removeRecord
  simp

@[simp] theorem insertRecord_marks (r : HoldRec) (s : State) :
    (insertRecord r s).hu.cond = s.hu.cond ∧
    (insertRecord r s).hu.overridden = s.hu.overridden ∧
    (insertRecord r s).hu.driveRestartAt = s.hu.driveRestartAt ∧
    (insertRecord r s).hu.lapseAt = s.hu.lapseAt ∧
    (insertRecord r s).hu.dwellFrom = s.hu.dwellFrom := by
  unfold insertRecord
  simp

@[simp] theorem updateRecord_marks (k : HoldKind) (d : Nat) (f : HoldRec → HoldRec) (s : State) :
    (updateRecord k d f s).hu.cond = s.hu.cond ∧
    (updateRecord k d f s).hu.overridden = s.hu.overridden ∧
    (updateRecord k d f s).hu.driveRestartAt = s.hu.driveRestartAt ∧
    (updateRecord k d f s).hu.lapseAt = s.hu.lapseAt ∧
    (updateRecord k d f s).hu.dwellFrom = s.hu.dwellFrom := by
  unfold updateRecord
  simp

@[simp] theorem admitHold_marks (r : HoldRec) (s : State) :
    (admitHold r s).hu.cond = s.hu.cond ∧
    (admitHold r s).hu.overridden = s.hu.overridden ∧
    (admitHold r s).hu.driveRestartAt = s.hu.driveRestartAt ∧
    (admitHold r s).hu.lapseAt = s.hu.lapseAt ∧
    (admitHold r s).hu.dwellFrom = s.hu.dwellFrom := by
  unfold admitHold
  (repeat' split) <;> simp

@[simp] theorem sendOwn_marks (k : HoldKind) (b : Bool) (s : State) :
    (sendOwn k b s).hu.cond = s.hu.cond ∧
    (sendOwn k b s).hu.overridden = s.hu.overridden ∧
    (sendOwn k b s).hu.driveRestartAt = s.hu.driveRestartAt ∧
    (sendOwn k b s).hu.lapseAt = s.hu.lapseAt ∧
    (sendOwn k b s).hu.dwellFrom = s.hu.dwellFrom := by
  unfold sendOwn
  split <;> simp [HoldUnit.setOwn]

@[simp] theorem placeOwn_marks (k : HoldKind) (s : State) :
    (placeOwn k s).hu.cond = s.hu.cond ∧
    (placeOwn k s).hu.overridden = s.hu.overridden ∧
    (placeOwn k s).hu.driveRestartAt = s.hu.driveRestartAt ∧
    (placeOwn k s).hu.lapseAt = s.hu.lapseAt ∧
    (placeOwn k s).hu.dwellFrom = s.hu.dwellFrom := by
  unfold placeOwn
  (repeat' split) <;> simp

@[simp] theorem newOwn_marks (k : HoldKind) (e : Effect) (c : Cause) (s : State) :
    (newOwn k e c s).hu.cond = s.hu.cond ∧
    (newOwn k e c s).hu.overridden = s.hu.overridden ∧
    (newOwn k e c s).hu.driveRestartAt = s.hu.driveRestartAt ∧
    (newOwn k e c s).hu.lapseAt = s.hu.lapseAt ∧
    (newOwn k e c s).hu.dwellFrom = s.hu.dwellFrom := by
  unfold newOwn
  simp

@[simp] theorem changeOwn_marks (k : HoldKind) (e : Effect) (c : Cause) (s : State) :
    (changeOwn k e c s).hu.cond = s.hu.cond ∧
    (changeOwn k e c s).hu.overridden = s.hu.overridden ∧
    (changeOwn k e c s).hu.driveRestartAt = s.hu.driveRestartAt ∧
    (changeOwn k e c s).hu.lapseAt = s.hu.lapseAt ∧
    (changeOwn k e c s).hu.dwellFrom = s.hu.dwellFrom := by
  unfold changeOwn
  simp [HoldUnit.setOwn]

@[simp] theorem declareHold_marks (k : HoldKind) (e : Effect) (c : Cause) (s : State) :
    (declareHold k e c s).hu.cond = s.hu.cond ∧
    (declareHold k e c s).hu.overridden = s.hu.overridden ∧
    (declareHold k e c s).hu.driveRestartAt = s.hu.driveRestartAt ∧
    (declareHold k e c s).hu.lapseAt = s.hu.lapseAt ∧
    (declareHold k e c s).hu.dwellFrom = s.hu.dwellFrom := by
  unfold declareHold
  (repeat' split) <;> simp

@[simp] theorem releaseOwn_marks (k : HoldKind) (s : State) :
    (releaseOwn k s).hu.cond = s.hu.cond ∧
    (releaseOwn k s).hu.overridden = s.hu.overridden ∧
    (releaseOwn k s).hu.driveRestartAt = s.hu.driveRestartAt ∧
    (releaseOwn k s).hu.lapseAt = s.hu.lapseAt ∧
    (releaseOwn k s).hu.dwellFrom = s.hu.dwellFrom := by
  unfold releaseOwn
  dsimp only
  (repeat' split) <;> simp

@[simp] theorem declareLink_marks (e : Effect) (c : Cause) (s : State) :
    (declareLink e c s).hu.cond = s.hu.cond ∧
    (declareLink e c s).hu.overridden = s.hu.overridden ∧
    (declareLink e c s).hu.driveRestartAt = s.hu.driveRestartAt ∧
    (declareLink e c s).hu.lapseAt = s.hu.lapseAt ∧
    (declareLink e c s).hu.dwellFrom = s.hu.dwellFrom := by
  unfold declareLink
  (repeat' split) <;> simp

/-- The monitor's own action leaves the conditions and their overridden marks (R91, R92). -/
@[simp] theorem linkAct_conds (s : State) :
    (linkAct s).hu.cond = s.hu.cond ∧ (linkAct s).hu.overridden = s.hu.overridden ∧
    (linkAct s).hu.driveRestartAt = s.hu.driveRestartAt ∧ (linkAct s).hu.lapseAt = s.hu.lapseAt := by
  unfold linkAct
  (repeat' split) <;> simp

theorem put_get (c : LinkCond) (f : LinkFlags) : f.put c (f.get c) = f := by
  cases c <;> rfl

theorem get_put (c d : LinkCond) (v : Bool) (f : LinkFlags) :
    (f.put c v).get d = if d = c then v else f.get d := by
  cases c <;> cases d <;> rfl

/-- A condition's mark takes the value given, and the others stay (R90). -/
@[simp] theorem setCond_conds (c : LinkCond) (v : Bool) (s : State) :
    (setCond c v s).hu.cond = s.hu.cond.put c v ∧
    (setCond c v s).hu.driveRestartAt = s.hu.driveRestartAt ∧
    (setCond c v s).hu.lapseAt = s.hu.lapseAt := by
  unfold setCond
  split
  · next h => rw [← h, put_get]; simp
  · by_cases hs : s.sl.settled = true ∨ c = .button <;> simp [hs]

/-- An overridden mark is cleared when its condition ceases, and the others stay (R93). -/
theorem setCond_overridden (c : LinkCond) (v : Bool) (s : State) :
    (setCond c v s).hu.overridden =
      if s.hu.cond.get c = v then s.hu.overridden
      else if v then s.hu.overridden else s.hu.overridden.put c false := by
  unfold setCond
  split
  · rfl
  · by_cases hs : s.sl.settled = true ∨ c = .button <;> simp [hs]

/-- The monitor touches no own hold but LINK's (R91). -/
theorem declareLink_own (e : Effect) (c : Cause) (j : HoldKind) (hj : j ≠ .link) (s : State) :
    (declareLink e c s).hu.own? j = s.hu.own? j := by
  unfold declareLink
  split
  · next h => rw [sendOwn_own, if_neg hj, placeOwn_own?, newOwn_own _ _ _ _ _ h, if_neg hj]
  · split
    · split
      · rfl
      · rw [changeOwn_own, if_neg hj]
    · rw [sendOwn_own, if_neg hj, placeOwn_own?, changeOwn_own, if_neg hj]

theorem linkAct_own (j : HoldKind) (hj : j ≠ .link) (s : State) :
    (linkAct s).hu.own? j = s.hu.own? j := by
  unfold linkAct
  split
  · exact declareLink_own _ _ _ hj _
  · split <;> rfl

theorem setCond_own (c : LinkCond) (v : Bool) (j : HoldKind) (hj : j ≠ .link) (s : State) :
    (setCond c v s).hu.own? j = s.hu.own? j := by
  unfold setCond
  split
  · rfl
  · by_cases hs : s.sl.settled = true ∨ c = .button
    · simp only [logLocal_spares, onHu_blocks, hs, if_true]
      rw [linkAct_own _ hj]
      simp only [HoldUnit.own?, logLocal_spares, onHu_blocks]
    · simp only [logLocal_spares, onHu_blocks, hs, if_false]
      simp only [HoldUnit.own?, logLocal_spares, onHu_blocks]

end Sys2Proof.Machine
end

