-- ==== Sys2Proof/Laws/Receive.lean ====
section
/-! SUPPORT. Receiving a telegram: what PV leaves when it has taken one (R37, R45), and what of the other
blocks stays. -/

namespace Sys2Proof.Machine

theorem arrival_exec (t : Telegram) (s : State) : exec (arrival t) s = whenUp s (receive t) := by
  obtain ⟨a, b, p⟩ := t
  cases p <;> rfl

theorem onPeer_peer (n : Nat) (f : Peer → Peer) (s : State) :
    (s.onPeer n f).peer n = f (s.peer n) ∨ (s.onPeer n f).peer n = s.peer n := by
  simp only [State.onPeer, State.peer, State.setPeer, onPv_blocks]
  by_cases h : n < s.pv.table.length
  · left; simp [h]
  · right; simp [h]

theorem judgeSeq_same (q : Byte) (p : Peer) :
    (p.judgeSeq q).state = p.state ∧ (p.judgeSeq q).role = p.role ∧ (p.judgeSeq q).motion =
    p.motion ∧ (p.judgeSeq q).bay = p.bay := by
  unfold Peer.judgeSeq; (repeat' split) <;> simp_all

theorem takeContent_same (c : Payload) (a : Bool) (n : Nat) (p : Peer) :
    (p.takeContent c a n).state = p.state ∧ (p.takeContent c a n).role = p.role := by
  unfold Peer.takeContent; (repeat' split) <;> simp

theorem afterParts_id (n : Nat) (c : Payload) (acc ch : Bool) (s : State)
    (hk : acc = true → (∀ m, c ≠ .motion m) ∧ (∀ m, c ≠ .bay m))
    (hc : (ch && (s.peer n).role == .drive) = false) :
   afterParts n c acc ch s = s := by
  unfold afterParts
  cases c <;> simp_all

theorem setPeerState_peer (n : Nat) (st : PeerState) (s : State) :
    ((setPeerState n st s).peer n).role = (s.peer n).role := by
  unfold setPeerState
  dsimp only
  split
  · rfl
  · have : ∀ z : State, (logLocal .pv 0 [byteOf n, byteOf (peerStateCode (s.peer n).state),
        byteOf (peerStateCode st)] (raise .peerState (n * 256 + peerStateCode st) z)).peer n =
              z.peer n := by
      intro z; simp [State.peer]
    rw [this]
    rcases onPeer_peer n (fun p => { p with state := st }) s with h | h <;> rw [h]

/-- Taking any telegram but PRESENCE. -/
theorem pvTakeOther_notPresence (t : Telegram) (acc : Bool) (s : State)
    (hp : ∀ q, t.payload ≠ .presence q) :
    pvTakeOther t acc s = (let n := t.sender.toNat
      let s1 := s.onPeer n (·.judgeSeq t.seq)
      afterParts n t.payload acc (s1.stateAfter n t.payload != (s.peer n).state)
        (setPeerState n (s1.stateAfter n t.payload) (s1.onPeer n (fun p => { p.takeContent t.payload acc s1.now with lastHeard := s1.now })))) := by
  obtain ⟨a, b, p⟩ := t
  cases p <;> first | rfl | exact absurd rfl (hp _)

/-- Taking a telegram that moves no part of a peer and changes no state of a DRIVE leaves every block but PV
and LU. -/
theorem pv_quiet (t : Telegram) (acc : Bool) (s : State) (hp : ∀ q, t.payload ≠ .presence q)
    (hk : acc = true → (∀ m, t.payload ≠ .motion m) ∧ (∀ m, t.payload ≠ .bay m))
    (hne : t.sender.toNat ≠ s.own)
    (hs : (s.peer t.sender.toNat).state = .fresh ∨ (s.peer t.sender.toNat).state =
          .foreign ∨ (s.peer t.sender.toNat).role ≠ .drive) :
    ∀ b : Block, b ≠ .pv → b ≠ .lu → b.same s (pvTake t acc s) := by
  have e : ∃ x, pvTake t acc s = setPeerState t.sender.toNat x ((s.onPeer t.sender.toNat (·.judgeSeq t.seq)).onPeer t.sender.toNat (fun p => { p.takeContent t.payload acc (s.onPeer t.sender.toNat (·.judgeSeq t.seq)).now with lastHeard := (s.onPeer t.sender.toNat (·.judgeSeq t.seq)).now })) := by
    unfold pvTake
    rw [if_neg hne]
    rw [pvTakeOther_notPresence t acc s hp]
    dsimp only
    refine ⟨_, afterParts_id _ _ _ _ _ hk ?_⟩
    rw [setPeerState_peer]
    have r1 : ((s.onPeer t.sender.toNat (·.judgeSeq t.seq)).peer t.sender.toNat).state =
          (s.peer t.sender.toNat).state ∧
                ((s.onPeer t.sender.toNat (·.judgeSeq t.seq)).peer t.sender.toNat).role =
                      (s.peer t.sender.toNat).role := by
      rcases onPeer_peer t.sender.toNat (·.judgeSeq t.seq) s with h | h <;> rw [h]
      · exact ⟨(judgeSeq_same _ _).1, (judgeSeq_same _ _).2.1⟩
      · exact ⟨rfl, rfl⟩
    have r2 : ∀ z : State, ∀ k, (((z.onPeer t.sender.toNat (fun p => { p.takeContent t.payload acc k with lastHeard := k })).peer t.sender.toNat).role = (z.peer t.sender.toNat).role) := by
      intro z k
      rcases onPeer_peer t.sender.toNat (fun p => { p.takeContent t.payload acc k with lastHeard := k }) z with h | h <;> rw [h]
      exact (takeContent_same _ _ _ _).2
    rw [r2, r1.2]
    have r3 : (s.onPeer t.sender.toNat (·.judgeSeq t.seq)).stateAfter t.sender.toNat t.payload = (match (s.peer t.sender.toNat).state with | .foreign => .foreign | _ => .fresh) := by
      unfold State.stateAfter
      rw [r1.1]
      cases hpl : t.payload <;> simp_all <;> cases (s.peer t.sender.toNat).state <;> rfl
    rw [r3]
    rcases hs with h | h | h
    · simp [h]
    · simp [h]
    · simp [h]
  obtain ⟨x, e⟩ := e
  rw [e]
  intro b b1 b2
  cases b <;> simp [Block.same, State.onPeer] at *

theorem setPeer_peer (n m : Nat) (p : Peer) (s : State) (h : s.pv.table.length = 24) (hn : n < 24) :
    (s.setPeer n p).peer m = if m = n then p else s.peer m := by
  simp only [State.peer, State.setPeer, onPv_blocks]
  by_cases hm : m = n
  · subst hm; simp [h, hn]
  · simp [hm, List.getD_eq_getElem?_getD, List.getElem?_set, Ne.symm hm]

/-- A receiver in RUNNING or JOINING drops an echo that was due. -/
def clearEcho (s : State) : State := s.onLc (fun l => { l with echoDue := none })

/-- A telegram that the station hears goes by its judgement (R34). -/
theorem receive_hears (t : Telegram) (s : State) (h : s.hears t) :
    receive t s = (match s.judge t with
      | .ignore => ignoreTelegram t (clearEcho s)
      | .refuse m => refuseTelegram t m (clearEcho s)
      | .accept => acceptTelegram t (clearEcho s)) := by
  obtain ⟨h1, h2, h3, h4⟩ := h
  unfold receive
  rw [if_neg (by simp [h3])]
  dsimp only
  have : t.sender.toNat ≠ (s.onLc (fun l => { l with echoDue := none })).own := by simpa [State.own] using h4
  rw [if_neg (by tauto)]
  unfold judgeTelegram
  rw [if_neg (by simpa [State.joined] using h2)]
  rfl

theorem setPeerState_at (n : Nat) (st : PeerState) (s : State) (h : s.pv.table.length = 24)
    (hn : n < 24) (m : Nat) :
    (setPeerState n st s).peer m = if m = n then { s.peer n with state := st } else s.peer m := by
  unfold setPeerState
  dsimp only
  split
  · next he => split
               · next hm => subst hm he; rfl
               · rfl
  · have : ∀ z : State, (logLocal .pv 0 [byteOf n, byteOf (peerStateCode (s.peer n).state),
        byteOf (peerStateCode st)] (raise .peerState (n * 256 + peerStateCode st) z)).peer m =
              z.peer m := by
      intro z; simp [State.peer]
    rw [this]
    unfold State.onPeer
    exact setPeer_peer _ _ _ _ h hn

theorem setPeerState_length (n : Nat) (st : PeerState) (s : State) :
    (setPeerState n st s).pv.table.length = s.pv.table.length := by
  unfold setPeerState State.onPeer State.setPeer; dsimp only; split <;> simp

theorem onPeer_length (n : Nat) (f) (s : State) :
    (s.onPeer n f).pv.table.length = s.pv.table.length := by
  simp [State.onPeer, State.setPeer]

theorem onPeer_at (n m : Nat) (f) (s : State) (h : s.pv.table.length = 24) (hn : n < 24) :
    (s.onPeer n f).peer m = if m = n then f (s.peer n) else s.peer m := setPeer_peer _ _ _ _ h hn

theorem afterParts_pv (n c acc ch) (s : State) : (afterParts n c acc ch s).pv = s.pv := by simp

theorem peer_of_pv {s t : State} (h : s.pv = t.pv) (m : Nat) : s.peer m = t.peer m := by
  simp [State.peer, h]

/-- The record of the sender after any telegram but PRESENCE, and every other record. -/
theorem pvTakeOther_peer (t : Telegram) (acc : Bool) (s : State)
    (hp : ∀ q, t.payload ≠ .presence q) (h : s.pv.table.length = 24) (hn : t.sender.toNat < 24)
    (m : Nat) :
    (pvTakeOther t acc s).peer m = if m = t.sender.toNat then
      { (((s.peer t.sender.toNat).judgeSeq t.seq).takeContent t.payload acc s.clock.now) with lastHeard := s.clock.now, state := (match (s.peer t.sender.toNat).state with | .foreign => .foreign | _ => .fresh) } else s.peer m := by
  rw [pvTakeOther_notPresence t acc s hp]
  dsimp only
  rw [peer_of_pv (afterParts_pv _ _ _ _ _)]
  have l1 : (s.onPeer t.sender.toNat (·.judgeSeq t.seq)).pv.table.length = 24 :=
        by rw [onPeer_length, h]
  rw [setPeerState_at _ _ _ (by rw [onPeer_length, l1]) hn]
  have r3 : (s.onPeer t.sender.toNat (·.judgeSeq t.seq)).stateAfter t.sender.toNat t.payload = (match (s.peer t.sender.toNat).state with | .foreign => .foreign | _ => .fresh) := by
    unfold State.stateAfter
    rw [onPeer_at _ _ _ _ h hn, if_pos rfl, (judgeSeq_same _ _).1]
    cases hpl : t.payload <;> simp_all <;> cases (s.peer t.sender.toNat).state <;> rfl
  rw [r3]
  have hnow :
        (s.onPeer t.sender.toNat (·.judgeSeq t.seq)).now = s.clock.now := by simp [State.now,
              State.onPeer]
  rw [hnow]
  rw [onPeer_at _ _ _ _ l1 hn, onPeer_at _ _ _ _ l1 hn, onPeer_at _ _ _ _ h hn,
        onPeer_at _ _ _ _ h hn, if_pos rfl, if_pos rfl]
  split <;> rfl

theorem pvTakeOther_tail (t : Telegram) (acc : Bool) (s : State)
    (hp : ∀ q, t.payload ≠ .presence q) :
   ∃ ch z, pvTakeOther t acc s = afterParts t.sender.toNat t.payload acc ch z ∧ z.sl = s.sl := by
  rw [pvTakeOther_notPresence t acc s hp]
  exact ⟨_, _, rfl, by simp [State.onPeer]⟩

theorem pvTake_other (t : Telegram) (acc : Bool) (s : State) (h : t.sender.toNat ≠ s.own) :
    pvTake t acc s = pvTakeOther t acc s := by
  unfold pvTake; rw [if_neg h]

theorem availableDrives_of {s t : State} (h1 : s.pv = t.pv) (h2 : s.clock = t.clock) :
    s.availableDrives = t.availableDrives := by
  cases s; cases t; dsimp only at h1 h2; subst h1 h2; rfl

theorem baySilentNow_of {s t : State} (h1 : s.pv = t.pv) (h2 : s.clock = t.clock) :
    s.baySilentNow = t.baySilentNow := by
  cases s; cases t; dsimp only at h1 h2; subst h1 h2; rfl

/-- A recheck leaves the condition as the parts show it. -/
theorem recheckDrives_ok (s : State) :
    (recheckDrives s).hu.cond.drivesLow =
    decide ((recheckDrives s).availableDrives.length < (recheckDrives s).sl.sheet.minDrives) := by
  have : (recheckDrives s).availableDrives = s.availableDrives :=
        availableDrives_of (by simp) (by simp)
  rw [this]
  unfold recheckDrives
  rw [(setCond_conds _ _ _).1,
        (show (setCond LinkCond.drivesLow (decide (s.availableDrives.length < s.sl.sheet.minDrives)) s).sl = s.sl by simp)]
  rfl

theorem recheckBays_ok (s : State) :
    (recheckBays s).hu.cond.baySilent = (recheckBays s).baySilentNow := by
  have : (recheckBays s).baySilentNow = s.baySilentNow := baySilentNow_of (by simp) (by simp)
  rw [this]
  unfold recheckBays
  rw [(setCond_conds _ _ _).1]
  rfl

theorem supplyTags_hu (b p) (s : State) : (supplyTags b p s).hu = s.hu := by simp

theorem applyPassage_cond (b n p) (s : State) : (applyPassage b n p s).1.hu.cond = s.hu.cond := by
  unfold applyPassage
  (repeat' split) <;> try simp
  have : ∀ z : State, (countStage z).hu.cond = z.hu.cond := by
    intro z; unfold countStage; dsimp only; split <;> simp
  rw [this]; simp

end Sys2Proof.Machine
end

