-- ==== Sys2Proof/Laws/Passage.lean ====
section
/-! SUPPORT. Applying a passage to the cabin table (R128, R132), and the walk of the matching
(R149). -/

namespace Sys2Proof.Machine

/-- The cabins of a gap, by their places after the last one. -/
theorem mem_cabinsAfter (n q m x : Nat) (hn : 1 ≤ n) (hq : 1 ≤ q ∧ q ≤ n)
    (h : x ∈ cabinsAfter n q m) : ∃ i, 1 ≤ i ∧ i ≤ m ∧ x = (q - 1 + i) % n + 1 := by
  induction m generalizing q with
  | zero => simp [cabinsAfter] at h
  | succ m ih =>
    have hnx : nextCabin n q = (q - 1 + 1) % n + 1 := by
      unfold nextCabin
      split
      · rw [Nat.mod_eq_of_lt (by omega)]; omega
      · have : q - 1 + 1 = n := by omega
        rw [this, Nat.mod_self]
    have hr : 1 ≤ nextCabin n q ∧ nextCabin n q ≤ n := by
      unfold nextCabin; split <;> omega
    simp only [cabinsAfter, List.mem_cons] at h
    rcases h with h | h
    · exact ⟨1, le_refl _, by omega, h.trans hnx⟩
    · obtain ⟨i, i1, i2, i3⟩ := ih _ hr h
      refine ⟨i + 1, by omega, by omega, ?_⟩
      rw [i3, hnx]
      rw [show (q - 1 + 1) % n + 1 - 1 + i = (q - 1 + 1) % n + i by omega, Nat.mod_add_mod]
      congr 2; omega

/-- The cabin that passes is not among those that a gap left out. -/
theorem not_passed (n q c : Nat) (hq : 1 ≤ q ∧ q ≤ n) (hc : 1 ≤ c ∧ c ≤ n) :
    c ∉ cabinsAfter n q (gapCount n q c) := by
  intro h
  obtain ⟨i, i1, i2, i3⟩ := mem_cabinsAfter n q _ c (by omega) hq h
  have hm : gapCount n q c < n := Nat.mod_lt _ (by omega)
  have e1 : (q + gapCount n q c) % n = (c - 1) % n := by
    unfold gapCount
    rw [Nat.add_mod_mod, show q + (c + 2 * n - q - 1) = (c - 1) + n * 2 by omega,
          Nat.add_mul_mod_self_left]
  have e2 : (q - 1 + i) % n = (c - 1) % n := by
    rw [Nat.mod_eq_of_lt (show c - 1 < n by omega)]; omega
  have e3 : (q + gapCount n q c) ≡ (q - 1 + i) [MOD n] := e1.trans e2.symm
  have e4 : n ∣ (q + gapCount n q c) - (q - 1 + i) := (Nat.modEq_iff_dvd' (by omega)).mp e3.symm
  have := Nat.le_of_dvd (by omega) e4
  omega

theorem onCabin_get (d e : Nat) (f) (s : State) (hd : 1 ≤ d) :
    (s.onCabin d f).cabin? e = if e = d then (s.cabin? e).map f else s.cabin? e := by
  unfold State.cabin? State.onCabin
  simp only [onCt_blocks, List.getElem?_modify]
  by_cases he : e = 0
  · subst he; rw [if_pos rfl, if_pos rfl, if_neg (by omega)]
  · by_cases h : e = d
    · subst h; simp [he]
    · simp only [he, if_false, h]
      have : ¬ (d - 1 = e - 1) := by omega
      simp [this]

theorem doubted_idem (c : Cabin) : c.doubted.doubted = c.doubted := rfl

theorem fold_doubt (l : List Nat) (s : State) (e : Nat) (h : ∀ x ∈ l, 1 ≤ x) :
    (l.foldl (fun s d => s.onCabin d Cabin.doubted) s).cabin? e =
    (s.cabin? e).map (fun c => if e ∈ l then c.doubted else c) := by
  induction l generalizing s with
  | nil => simp
  | cons d l ih =>
    simp only [List.foldl_cons]
    rw [ih _ (fun x hx => h x (List.mem_cons_of_mem _ hx)),
          onCabin_get _ _ _ _ (h d (List.mem_cons_self ..))]
    by_cases he : e = d
    · subst he
      rw [if_pos rfl, Option.map_map]
      congr 1; funext c
      simp only [Function.comp]
      by_cases hl : e ∈ l <;> simp [hl, doubted_idem]
    · rw [if_neg he]
      simp [he]

/-- What a gap leaves of a cabin: doubt for those left out. -/
theorem gapStage_cabin (b st c : _) (s : State) (e : Nat) (hk : s.CabinsKnown)
    (hc : 1 ≤ c ∧ c ≤ s.sl.sheet.n) :
    (gapStage b st c s).cabin? e = (s.cabin? e).map (fun x =>
          if e ∈ (match (s.ct.cursor b).cabin with
          | some q => cabinsAfter s.sl.sheet.n q (gapCount s.sl.sheet.n q c)
          | none => []) then x.doubted else x) := by
  unfold gapStage
  cases hcu : (s.ct.cursor b).cabin with
  | none => simp
  | some q =>
    dsimp only
    split
    · next h0 => simp [h0, cabinsAfter]
    · have hsame : ∀ (y z : State), z.ct = y.ct → z.cabin? e = y.cabin? e := by intro y z h; unfold State.cabin?; rw [h]
      refine (hsame _ _ (by simp only [logLocal_spares, raise_spares])).trans (fold_doubt _ _ _ ?_)
      intro x hx
      obtain ⟨_, h1, h2⟩ := hk.2 b q hcu
      obtain ⟨i, _, _, h⟩ := mem_cabinsAfter _ _ _ _ (by omega) ⟨h1, h2⟩ hx
      omega

theorem gapStage_cursor (b st c) (s : State) (b') :
    (gapStage b st c s).ct.cursor b' = s.ct.cursor b' ∧ (gapStage b st c s).bu = s.bu ∧
    (gapStage b st c s).clock = s.clock := by
  unfold gapStage
  split
  · exact ⟨rfl, rfl, rfl⟩
  · dsimp only
    split
    · exact ⟨rfl, rfl, rfl⟩
    · simp only [logLocal_spares, raise_spares]
      generalize cabinsAfter _ _ _ = l
      have : ∀ (l : List Nat) (x : State),
            (l.foldl (fun s d => s.onCabin d Cabin.doubted) x).ct.cursor b' = x.ct.cursor b' ∧
                  (l.foldl (fun s d => s.onCabin d Cabin.doubted) x).bu = x.bu ∧
                        (l.foldl (fun s d => s.onCabin d Cabin.doubted) x).clock = x.clock := by
        intro l
        induction l with
        | nil => intro x; exact ⟨rfl, rfl, rfl⟩
        | cons a l ih =>
          intro x
          rw [List.foldl_cons]
          obtain ⟨i1, i2, i3⟩ := ih (x.onCabin a Cabin.doubted)
          refine ⟨i1.trans ?_, i2.trans rfl, i3.trans rfl⟩
          cases b' <;> rfl
      exact this l s

theorem applyPassage_new (b : BayId) (st : Nat) (p : Passage) (r : PassResult) (s : State)
    (hr : p.result = some r) (h1 : 1 ≤ p.cabin) (h2 : p.cabin ≤ s.sl.sheet.n)
    (hf : resultFits b r = true) (hs : (s.ct.cursor b).serial ≠ some p.serial) :
    applyPassage b st p s =
          (countStage (cursorStage b p (resultStage b r p (gapStage b st p.cabin s))),
                .accepted) := by
  unfold applyPassage
  rw [hr]
  dsimp only
  rw [if_neg (by intro h; rcases h with h | h | h; omega; omega; simp [hf] at h), if_neg hs]

theorem countStage_ct (s : State) :
    (countStage s).ct.cabins = s.ct.cabins ∧ (∀ b, (countStage s).ct.cursor b = s.ct.cursor b) ∧
    (countStage s).ct.occupied = occupiedOf s.ct.cabins := by
  unfold countStage
  dsimp only
  split
  · next h => exact ⟨rfl, fun _ => rfl, h.symm⟩
  · refine ⟨by simp, ?_, by simp⟩
    intro b; cases b <;> simp [CabinTable.cursor]

/-- A new passage in the table: the cursor of the bay and the record of the cabin. -/
theorem applyPassage_table (b st p r) (s : State) (hr : p.result = some r) (h1 : 1 ≤ p.cabin)
    (h2 : p.cabin ≤ s.sl.sheet.n) (hf : resultFits b r = true)
    (hs : (s.ct.cursor b).serial ≠ some p.serial) (hk : s.CabinsKnown) (ht : p.isTelegram = true)
    :
    (applyPassage b st p s).1.ct.cursor b = ⟨some p.serial, some p.cabin, false⟩ ∧
    (applyPassage b st p s).1.cabin? p.cabin = (s.cabin? p.cabin).map (fun x => { x.applyResult r p s.clock.station with last := some ⟨b, p.serial, s.clock.now⟩ }) := by
  rw [applyPassage_new b st p r s hr h1 h2 hf hs]
  dsimp only
  have hg := gapStage_cabin b st p.cabin s p.cabin hk ⟨h1, h2⟩
  have hgc := (gapStage_cursor b st p.cabin s b).2.2
  generalize gapStage b st p.cabin s = g at *
  have hnp : p.cabin ∉ (match (s.ct.cursor b).cabin with | some q => cabinsAfter s.sl.sheet.n q (gapCount s.sl.sheet.n q p.cabin) | none => []) := by
    cases hc : (s.ct.cursor b).cabin with
    | none => simp
    | some q =>
      have := hk.2 b q hc
      exact not_passed _ _ _ ⟨this.2.1, this.2.2⟩ ⟨h1, h2⟩
  obtain ⟨c1, c2, c3⟩ := countStage_ct (cursorStage b p (resultStage b r p g))
  refine ⟨?_, ?_⟩
  · rw [c2 b]
    unfold cursorStage
    cases b <;> simp [CabinTable.cursor, CabinTable.setCursor, ht]
  · have : (countStage (cursorStage b p (resultStage b r p g))).cabin? p.cabin =
        (resultStage b r p g).cabin? p.cabin := by
      unfold State.cabin?
      rw [c1]
      unfold cursorStage
      cases b <;> rfl
    rw [this]
    unfold resultStage
    dsimp only
    rw [onCabin_get _ _ _ _ h1, if_pos rfl, hg, Option.map_map]
    congr 1
    funext x
    simp only [Function.comp, if_neg hnp, State.time, State.now, hgc]

/-- What the walk keeps: the order of the queue, needs, seats, the limit of four, and one
party where nothing is shared. -/
theorem matchWalk_keeps (cls : CabinClass) (sharing : Bool) (limit : Nat) :
    ∀ (q : List Party) (cap : Nat) (m : List Party), m.length ≤ 3 →
    (m ≠ [] → cls ≠ .priv ∧ sharing = true) →
    let r := matchWalk cls sharing limit cap m q
    ∃ new, r.2.1 = m ++ new ∧ new.Sublist q ∧ (∀ p ∈ new, needFits p.need cls = true) ∧
          sizeSum new + r.2.2 = cap ∧ (m ++ new).length ≤ 4 ∧
                (cls = .priv ∨ sharing = false → (m ++ new).length ≤ 1) ∧
    (r.1.map Party.tag).Sublist (q.map Party.tag) ∧
          ((new ++ r.1).map Party.tag).Perm (q.map Party.tag) := by
  intro q
  induction q with
  | nil =>
    intro cap m h1 h2
    refine ⟨[], by simp [matchWalk], by simp, by simp, by simp [matchWalk, sizeSum], by simp; omega, ?_, by simp [matchWalk], by simp [matchWalk]⟩
    intro h
    cases m with
    | nil => simp
    | cons a m => obtain ⟨a1, a2⟩ := h2 (by simp); rcases h with h | h; exact absurd h a1; rw [a2] at h; cases h
  | cons p ps ih =>
    intro cap m h1 h2
    have stay : (cls = .priv ∨ sharing = false → (m ++ ([] : List Party)).length ≤ 1) := by
      intro h
      cases m with
      | nil => simp
      | cons a m => obtain ⟨a1, a2⟩ := h2 (by simp); rcases h with h | h; exact absurd h a1; rw [a2] at h; cases h
    have one : (cls = .priv ∨ sharing = false → (m ++ [p]).length ≤ 1) := by
      intro h
      cases m with
      | nil => simp
      | cons a m => obtain ⟨a1, a2⟩ := h2 (by simp); rcases h with h | h; exact absurd h a1; rw [a2] at h; cases h
    dsimp only
    unfold matchWalk
    split
    · next hf =>
      simp only [Bool.and_eq_true, decide_eq_true_eq] at hf
      split
      · exact ⟨[p], rfl, by simp, by simp [hf.1], by simp [sizeSum]; omega, by simp; omega, one, by simp, by simp⟩
      · next hs =>
        have hs' : ¬ walkStops cls sharing (cap - p.size) (m ++ [p]) = true := hs
        simp only [walkStops, Bool.or_eq_true, beq_iff_eq, Bool.not_eq_true', not_or] at hs'
        obtain ⟨new, e1, e2, e3, e4, e5, e6, e7, e8⟩ := ih (cap - p.size) (m ++ [p]) (by simp at *; omega) (by intro _; exact ⟨hs'.1.2, by simpa using hs'.2⟩)
        refine ⟨p :: new, by rw [e1]; simp, e2.cons_cons p, ?_, ?_, by simpa using e5, by simpa using e6, ?_, ?_⟩
        · intro x hx; rcases List.mem_cons.mp hx with rfl | hx; exact hf.1; exact e3 x hx
        · simp [sizeSum] at e4 ⊢; omega
        · exact e7.cons _
        · simpa using e8
    · split
      · exact ⟨[], by simp, by simp, by simp, by simp [sizeSum], by simp; omega, stay, by simp, by simp⟩
      · split
        · split
          · exact ⟨[], by simp, by simp, by simp, by simp [sizeSum], by simp; omega, stay, by simp [Party.skip], by simp [Party.skip]⟩
          · obtain ⟨new, e1, e2, e3, e4, e5, e6, e7, e8⟩ := ih cap m h1 h2
            refine ⟨new, e1, e2.cons p, e3, e4, e5, e6, ?_, ?_⟩
            · simpa [Party.skip] using e7
            · simp only [List.map_append, List.map_cons] at e8 ⊢
              exact List.perm_middle.trans (e8.cons _)
        · obtain ⟨new, e1, e2, e3, e4, e5, e6, e7, e8⟩ := ih cap m h1 h2
          refine ⟨new, e1, e2.cons p, e3, e4, e5, e6, ?_, ?_⟩
          · simpa using e7
          · simp only [List.map_append, List.map_cons] at e8 ⊢
            exact List.perm_middle.trans (e8.cons _)

/-- The first party matched stays the first. -/
theorem matchWalk_head (cls : CabinClass) (sharing : Bool) (limit cap : Nat) (q m : List Party)
    (a : Party) : (matchWalk cls sharing limit cap (a :: m) q).2.1.head? = some a := by
  induction q generalizing cap m with
  | nil => rfl
  | cons p ps ih =>
    unfold matchWalk
    split
    · split
      · rfl
      · exact ih _ (m ++ [p])
    · split
      · rfl
      · split
        · split
          · rfl
          · exact ih _ _
        · exact ih _ _

end Sys2Proof.Machine
end

