-- ==== Sys2Proof/Laws/BayKeep.lean ====
section
/-! SUPPORT. What a change of a hold, a departure test and a passage leave of the bay,
and the ends of a window. -/

namespace Sys2Proof.Machine

theorem effect_of_stop_code {e : Effect} (h : 4 ≤ effectCode e) : e = .stop := by
  cases e <;> simp_all [effectCode]

/-- A declaration with STOP leaves an own hold with STOP. -/
theorem declareHold_stop_own (k : HoldKind) (c : Cause) (s : State) :
    ∃ o, (declareHold k .stop c s).hu.own? k = some o ∧ o.effect = .stop ∧ o.cause = c := by
  rw [declareHold_own, if_pos rfl]
  split
  · exact ⟨_, rfl, rfl, rfl⟩
  · next o ho =>
    split
    · exact ⟨_, rfl, rfl, rfl⟩
    · next hlt =>
      have hst : o.effect = .stop := effect_of_stop_code (by simpa [effectCode] using hlt)
      rw [if_pos hst]
      exact ⟨_, rfl, rfl, rfl⟩

/-- What a change of a hold leaves of the bay. -/
structure BayCore (a b : BayUnit) : Prop where
  serial : b.serial = a.serial
  summary : b.summary = a.summary
  cabin : b.window.cabin = a.window.cabin
  state : b.window.state = a.window.state
  count : b.window.count = a.window.count
  result : b.window.result = a.window.result
  contact : b.window.contact = a.window.contact
  matched : a.window.state ≠ .arriving → b.window.matched = a.window.matched
  none : a.window.matched = [] → b.window.matched = []

theorem BayCore.refl (a : BayUnit) :
    BayCore a a := ⟨rfl, rfl, rfl, rfl, rfl, rfl, rfl, fun _ => rfl, id⟩

theorem BayCore.of {a b : BayUnit} (h : b = a) : BayCore a b := h ▸ BayCore.refl a

theorem BayCore.trans {a b c : BayUnit} (h : BayCore a b) (k : BayCore b c) : BayCore a c :=
  ⟨k.serial.trans h.serial, k.summary.trans h.summary, k.cabin.trans h.cabin,
        k.state.trans h.state, k.count.trans h.count, k.result.trans h.result,
              k.contact.trans h.contact,
   fun x => (k.matched (by rw [h.state]; exact x)).trans (h.matched x), fun x => k.none (h.none x)⟩

theorem closeInWindow_core (s : State) : BayCore s.bu (closeInWindow s).bu := by
  unfold closeInWindow
  split
  · next h =>
    unfold returnParties
    dsimp only
    have : ∀ d x, (logBay 6 d x).bu = x.bu := by intro d x; simp [logBay]
    split
    · exact ⟨rfl, rfl, rfl, rfl, rfl, rfl, rfl, fun x => absurd h x, fun _ => rfl⟩
    · rw [this]; exact ⟨rfl, rfl, rfl, rfl, rfl, rfl, rfl, fun x => absurd h x, fun _ => rfl⟩
  all_goals exact .refl _

theorem formBoarding_core (s : State) : BayCore s.bu (formBoarding s).bu := by
  unfold formBoarding
  dsimp only
  have h0 : BayCore s.bu (refreshLamp (s.onBu (fun b => { b with boarding := s.boardingNow }))).bu := ⟨rfl, rfl, rfl, rfl, rfl, rfl, rfl, fun _ => rfl, id⟩
  split
  · exact h0.trans (closeInWindow_core _)
  · exact h0

theorem flushQueue_core (s : State) : BayCore s.bu (flushQueue s).bu := by
  unfold flushQueue
  dsimp only
  simp only [logBay_spares, cancelParties_spares, onBu_blocks]
  exact ⟨rfl, rfl, rfl, rfl, rfl, rfl, rfl, fun _ => rfl, id⟩

theorem latchHalt_core (c : Nat) (s : State) : BayCore s.bu (latchHalt c s).bu := by
  unfold latchHalt
  split
  · exact .refl _
  · dsimp only
    refine BayCore.trans (.of ?_) (formBoarding_core _)
    simp

theorem completeEmptyDown_core (t) (s : State) : BayCore s.bu (completeEmptyDown t s).bu := by
  unfold completeEmptyDown
  dsimp only
  refine BayCore.trans (latchHalt_core 1 (s.onMu (fun m => { m with emptyState := .done }))) (.of ?_)
  split <;> simp

theorem testEmptyDown_core (s : State) : BayCore s.bu (testEmptyDown s).bu := by
  unfold testEmptyDown; split
  · exact completeEmptyDown_core _ _
  · exact .refl _

theorem emptyDownOnEffect_core (a b) (s : State) : BayCore s.bu (emptyDownOnEffect a b s).bu := by
  unfold emptyDownOnEffect
  split
  · refine BayCore.trans (.of ?_) (testEmptyDown_core _); simp
  · split <;> exact .refl _

theorem handOnEffect_core (a b) (s : State) : BayCore s.bu (handOnEffect a b s).bu := by
  unfold handOnEffect
  dsimp only
  have h1 := formBoarding_core s
  generalize formBoarding s = x1 at *
  have h2 : BayCore x1.bu (if x1.role = .entry ∧ ¬ a.atLeast .empty ∧ b.atLeast .empty then flushQueue x1 else x1).bu := by split; exact flushQueue_core _; exact .refl _
  generalize (if x1.role = .entry ∧ ¬ a.atLeast .empty ∧
        b.atLeast .empty then flushQueue x1 else x1) = x2 at *
  have h3 : BayCore x2.bu (if ¬ a.atLeast .halt ∧ b.atLeast .halt then latchHalt 0 x2 else x2).bu := by split; exact latchHalt_core _ _; exact .refl _
  generalize (if ¬ a.atLeast .halt ∧ b.atLeast .halt then latchHalt 0 x2 else x2) = x3 at *
  have h4 := emptyDownOnEffect_core a b x3
  generalize emptyDownOnEffect a b x3 = x4 at *
  refine h1.trans (h2.trans (h3.trans (h4.trans (.of ?_))))
  split <;> simp

theorem formEffect_core (s : State) : BayCore s.bu (formEffect s).bu := by
  unfold formEffect
  dsimp only
  split
  · exact .refl _
  · refine BayCore.trans (.of ?_) (handOnEffect_core _ _ _); simp

theorem afterRecords_core (s : State) : BayCore s.bu (afterRecords s).bu := by
  unfold afterRecords
  exact (formEffect_core s).trans (.of (by simp))

theorem insertRecord_core (r) (s : State) : BayCore s.bu (insertRecord r s).bu := by
  unfold insertRecord
  exact BayCore.trans (.of (by simp)) (afterRecords_core _)

theorem removeRecord_core (k d) (s : State) : BayCore s.bu (removeRecord k d s).bu := by
  unfold removeRecord
  exact BayCore.trans (.of (by simp)) (afterRecords_core _)

theorem updateRecord_core (k d f) (s : State) : BayCore s.bu (updateRecord k d f s).bu := by
  unfold updateRecord
  exact BayCore.trans (.of (by simp)) (afterRecords_core _)

theorem admitHold_core (r) (s : State) : BayCore s.bu (admitHold r s).bu := by
  unfold admitHold
  split
  · exact insertRecord_core _ _
  · split
    · next m hm =>
      split
      · refine (removeRecord_core m.kind m.declarer s).trans (BayCore.trans (.of ?_) (insertRecord_core _ _)); simp
      · exact .of (by simp)
    · exact .refl _

theorem placeOwn_core (k) (s : State) : BayCore s.bu (placeOwn k s).bu := by
  unfold placeOwn
  split
  · split
    · exact updateRecord_core _ _ _ _
    · exact admitHold_core _ _
  · exact .refl _

theorem declareHold_core (k e c) (s : State) : BayCore s.bu (declareHold k e c s).bu := by
  have hs : ∀ b x, (sendOwn k b x).bu = x.bu := by intro b x; simp
  unfold declareHold
  split
  · rw [hs]; exact BayCore.trans (.of (by simp)) (placeOwn_core _ _)
  · split
    · rw [hs]; exact BayCore.trans (.of (by simp)) (placeOwn_core _ _)
    · split
      · refine BayCore.trans (.of ?_) (placeOwn_core _ _)
        split <;> simp
      · exact placeOwn_core _ _

theorem departureTests_core (s : State) :
    BayCore s.bu (departureTests s).bu ∧ (departureTests s).ct = s.ct ∧
    (departureTests s).clock = s.clock ∧ (departureTests s).sl = s.sl ∧ (departureTests s).pins =
    s.pins := by
  unfold departureTests
  dsimp only
  generalize hx : (if s.pins.doorLocked then s
    else declareHold .bay .stop .doorUnlocked (logBay 4 [byteOf (causeCode .doorUnlocked)] s)) = x
  have h1 : BayCore s.bu x.bu ∧ x.ct = s.ct ∧ x.clock = s.clock ∧ x.sl = s.sl ∧
        x.pins = s.pins := by
    rw [← hx]; split
    · exact ⟨.refl _, rfl, rfl, rfl, rfl⟩
    · exact ⟨BayCore.trans (.of (by simp)) (declareHold_core _ _ _ _), by simp, by simp, by simp,
          by simp⟩
  split
  · exact h1
  · exact ⟨h1.1.trans (BayCore.trans (.of (by simp)) (declareHold_core _ _ _ _)), by simp [h1],
        by simp [h1], by simp [h1], by simp [h1]⟩

/-- The own BAY hold that the departure tests leave (R154, R171). -/
theorem departureTests_own (s : State) :
   (s.pins.doorLocked = false → ∃ o, (departureTests s).hu.own? .bay = some o ∧ o.effect = .stop ∧
         o.cause = .doorUnlocked) ∧
   (s.pins.gateClear = false → s.pins.doorLocked = true → s.hu.own? .bay = none → ∃ o,
         (departureTests s).hu.own? .bay = some o ∧ o.effect = .halt ∧ o.cause = .gate) ∧
   (s.pins.gateClear = true → s.pins.doorLocked = true → departureTests s = s) := by
  unfold departureTests
  dsimp only
  refine ⟨?_, ?_, ?_⟩
  · intro h
    rw [h]
    simp only [Bool.false_eq_true, if_false]
    obtain ⟨o, o1, o2,
          o3⟩ := declareHold_stop_own .bay .doorUnlocked (logBay 4 [byteOf (causeCode .doorUnlocked)] s)
    split
    · exact ⟨o, o1, o2, o3⟩
    · generalize declareHold .bay .stop .doorUnlocked (logBay 4 [byteOf (causeCode .doorUnlocked)] s) = x at *
      refine ⟨o, ?_, o2, o3⟩
      have hl : (logBay 4 [byteOf (causeCode .gate)] x).hu.own? .bay = some o :=
            by simpa [logBay] using o1
      rw [declareHold_own, if_pos rfl, hl]
      dsimp only
      rw [o2]
      simp [effectCode]
  · intro h1 h2 h3
    rw [h2]
    simp only [if_true, h1]
    simp only [Bool.false_eq_true, if_false]
    have hl : (logBay 4 [byteOf (causeCode .gate)] s).hu.own? .bay = none :=
          by simpa [logBay] using h3
    rw [declareHold_own, if_pos rfl, hl]
    exact ⟨_, rfl, rfl, rfl⟩
  · intro h1 h2; simp [h1, h2]

theorem applyPassage_core (b st p) (s : State) : BayCore s.bu (applyPassage b st p s).1.bu := by
  unfold applyPassage
  split
  · exact .refl _
  · split
    · exact .refl _
    · split
      · refine .of ?_; simp [supplyTags]
      · dsimp only
        unfold countStage
        dsimp only
        split
        · refine .of ?_
          show (gapStage _ _ _ s).bu = _
          exact (gapStage_cursor b st p.cabin s b).2.1
        · refine BayCore.trans (.of ?_) (testEmptyDown_core _)
          show (gapStage _ _ _ s).bu = _
          exact (gapStage_cursor b st p.cabin s b).2.1

theorem startWatch_own (s : State) : (startWatch s).hu.own = s.hu.own := by
  unfold startWatch; dsimp only; split <;> simp [endWatch]

theorem completeEmptyDown_own (t) (s : State) : (completeEmptyDown t s).hu.own = s.hu.own := by
  unfold completeEmptyDown; dsimp only
  simp only [logLocal_spares]
  rw [startWatch_own]
  split <;> simp

theorem applyPassage_own (b st p) (s : State) : (applyPassage b st p s).1.hu.own = s.hu.own := by
  unfold applyPassage
  split
  · rfl
  · split
    · rfl
    · split
      · simp [supplyTags]
      · dsimp only
        unfold countStage
        dsimp only
        split
        · simp [cursorStage, resultStage, State.onCabin]
        · simp [cursorStage, resultStage, State.onCabin]

theorem endWindow_bu (s : State) :
    (endWindow s).bu = { s.bu with window := Window.idle, boardLamp := false } := by
  unfold endWindow refreshLamp State.lampNow State.onWindow
  simp [Window.idle]

theorem endWindow_others (s : State) :
    (endWindow s).lc = s.lc ∧ (endWindow s).ct = s.ct ∧ (endWindow s).hu = s.hu ∧
    (endWindow s).sl = s.sl ∧ (endWindow s).clock = s.clock := by
  simp [endWindow, State.onWindow]

end Sys2Proof.Machine
end

