-- ==== Sys2Proof/Laws/Events.lean ====
section
/-! SUPPORT. The event queue: an event just raised stays among the last ones through what
follows it. -/

namespace Sys2Proof.Machine

/-- Handing a telegram over changes LC by LC and the start state alone. -/
theorem handOver_lc (p : Payload) (r : Bool) {s t : State} (h1 : s.lc = t.lc)
    (h2 : s.sl.start = t.sl.start) : (handOver p r s).lc = (handOver p r t).lc := by
  have ov : ∀ a q z, (overflow a q z).lc = z.lc := by intro a q z; simp [overflow]
  have ad : ∀ y z : State, y.lc = z.lc → (addTelegram p r y).lc = (addTelegram p r z).lc := by
    intro y z h
    unfold addTelegram
    rw [h]
    split
    · simp [h]
    · split
      · split
        · split
          · rw [ov, ov, h]
          · rw [ov, ov]; simp [h]
        · rw [ov, ov, h]
      · rw [ov, ov, h]
  unfold handOver
  rw [h2]
  split
  · exact h1
  · dsimp only
    have e : (s.onLc (·.beforeJoin p)).lc = (t.onLc (·.beforeJoin p)).lc := by simp [h1]
    rw [e]
    split
    · simp [h1]
    · exact ad _ _ e

theorem raise_queue {c : EventCode} {n : Nat} {s : State} (h : s.suppressed c = false) :
    (raise c n s).lu.queue =
    (s.lu.place { code := c, param := BitVec.ofNat 16 n, time := s.clock.station }).queue := by
  unfold raise; rw [h]; rfl

/-- The event e is in the queue, with at most n events after it. -/
def Recent (n : Nat) (e : EventEntry) (s : State) : Prop := ∃ pre post,
      s.lu.queue = pre ++ e :: post ∧ post.length ≤ n

theorem Recent.mem {n e s} (h : Recent n e s) : e ∈ s.lu.queue := by
  obtain ⟨a, b, h, _⟩ := h; rw [h]; simp

theorem Recent.lu {n e} {s t : State} (h : Recent n e s) (hq : t.lu.queue = s.lu.queue) :
    Recent n e t := by
  obtain ⟨a, b, h, l⟩ := h; exact ⟨a, b, hq.trans h, l⟩

theorem Recent.mono {n m e s} (h : Recent n e s) (hm : n ≤ m) : Recent m e s := by
  obtain ⟨a, b, h, l⟩ := h; exact ⟨a, b, h, by omega⟩

theorem place_recent {u : LogUnit} (e f : EventEntry) {n : Nat} (hn : n < 31)
    (h : ∃ pre post, u.queue = pre ++ e :: post ∧ post.length ≤ n) :
    ∃ pre post, (u.place f).queue = pre ++ e :: post ∧ post.length ≤ n + 1 := by
  obtain ⟨a, b, h, l⟩ := h
  unfold LogUnit.place
  split
  · exact ⟨a, b ++ [f], by simp [h], by simp; omega⟩
  · next hl =>
    cases a with
    | nil => rw [h] at hl; simp at hl; omega
    | cons x a => exact ⟨a, b ++ [f], by simp [h], by simp; omega⟩

theorem Recent.raise {n e} {s : State} (h : Recent n e s) (hn : n < 31) (c : EventCode) (m : Nat) :
    Recent (n+1) e (raise c m s) := by
  unfold Sys2Proof.Machine.raise
  split
  · exact h.mono (by omega)
  · exact place_recent _ _ hn h

theorem Recent.write {n e} {s : State} (h : Recent n e s) (hn : n < 31) (a b c d) :
    Recent (n+1) e (writeEntry a b c d s) := by
  unfold writeEntry
  dsimp only
  have : Recent n e (s.onLu (·.write s.time a b c d)) := h.lu (by simp [LogUnit.write])
  split
  · exact this.raise hn _ _
  · split
    · exact this.raise hn _ _
    · exact this.mono (by omega)

theorem Recent.log {n e} {s : State} (h : Recent n e s) (hn : n < 31) (a b c) :
    Recent (n+1) e (logLocal a b c s) := by
  unfold logLocal
  split
  · exact h.write hn _ _ _ _
  · exact h.mono (by omega)

theorem Recent.setMotion {n e} {s : State} (h : Recent n e s) (hn : n < 31) (m) :
    Recent (n+1) e (setMotion m s) := by
  unfold Sys2Proof.Machine.setMotion
  split
  · exact h.mono (by omega)
  · have key : ∀ k a d (x : State),
        Recent n e x → Recent (n+1) e (refreshMismatch (logLocal k a d x)) := by
      intro k a d x hx
      exact (hx.log hn k a d).lu (by simp)
    exact key _ _ _ _ (h.lu rfl)

theorem Recent.afterOverflow {n e} {s : State} (h : Recent n e s) (hn : n < 30) (a b) :
    Recent (n+2) e (overflow a b s) := by
  unfold overflow
  exact (h.raise (by omega) _ _).log (by omega) _ _ _

theorem raise_recent {c : EventCode} {n : Nat} {s : State} (h : s.suppressed c = false) :
    Recent 0 (EventEntry.mk c (BitVec.ofNat 16 n) s.clock.station) (raise c n s) := by
  unfold Recent
  rw [raise_queue h]
  unfold LogUnit.place
  split
  · exact ⟨_, [], rfl, by simp⟩
  · exact ⟨_, [], rfl, by simp⟩

/-! ### What LU becomes depends on LU, the start state and the clock alone -/

theorem raise_lu (c : EventCode) (n : Nat) {y z : State} (h1 : y.lu = z.lu) (h2 : y.sl = z.sl)
    (h3 : y.clock = z.clock) : (raise c n y).lu = (raise c n z).lu := by
  have e : y.suppressed c = z.suppressed c := by
    simp [State.suppressed, State.masksTrusted, State.joined, h2]
  unfold raise
  rw [e]
  split
  · exact h1
  · simp [h1, h3, State.time]

theorem writeEntry_lu (a : Nat) (k : LogKind) (o : LogOutcome) (b : List Byte) {y z : State}
    (h1 : y.lu = z.lu) (h2 : y.sl = z.sl) (h3 : y.clock = z.clock) :
    (writeEntry a k o b y).lu = (writeEntry a k o b z).lu := by
  unfold writeEntry
  dsimp only
  have w : (y.onLu (·.write y.time a k o b)).lu = (z.onLu (·.write z.time a k o b)).lu := by
    simp [h1, State.time, h3]
  rw [h1]
  split
  · exact raise_lu _ _ w (by simp [h2]) (by simp [h3])
  · split
    · exact raise_lu _ _ w (by simp [h2]) (by simp [h3])
    · exact w

theorem logTelegram_lu (r : Role) (t : Telegram) (o : LogOutcome) {y z : State} (h1 : y.lu = z.lu)
    (h2 : y.sl = z.sl) (h3 : y.clock = z.clock) : (logTelegram r t o y).lu = (logTelegram r t o z).lu := by
  have f : y.filterSet r (payloadKind t.payload) = z.filterSet r (payloadKind t.payload) := by
    simp [State.filterSet, State.masksTrusted, State.joined, h2]
  unfold logTelegram
  dsimp only
  rw [f]
  split
  · exact writeEntry_lu _ _ _ _ h1 h2 h3
  · exact h1

end Sys2Proof.Machine
end

