-- ==== Sys2Proof/Laws/Rise.lean ====
section
/-! SUPPORT. What a rise of the effective effect sets off (R75, R94, R106, R121, R157, R158), and the most severe
effect of a set of records (R76, R77). -/

namespace Sys2Proof.Machine

theorem recent_endWatch {n e} {s : State} (h : Recent n e s) (hn : n < 29) (a b) :
    Recent (n+2) e (endWatch a b s) := by
  unfold Sys2Proof.Machine.endWatch
  apply Recent.log _ (by omega)
  apply Recent.raise _ (by omega)
  exact h.lu rfl

theorem recent_startWatch {n e} {s : State} (h : Recent n e s) (hn : n < 28) :
    Recent (n+3) e (startWatch s) := by
  unfold Sys2Proof.Machine.startWatch
  dsimp only
  split
  · apply recent_endWatch _ (by omega)
    exact h.log (by omega) _ _ _
  · exact ((h.log (by omega) _ _ _).lu rfl).mono (by omega)

/-- The reference at trigger of listed drives is stated by R94: no free value enters it. -/
theorem triggerReference_listed {s : State} {list : List Nat} (h : list ≠ []) (hr : s.role ≠ .drive) :
    s.triggerReference list = list.foldl (fun acc n => max acc (match (s.peer n).motion with
      | some (m, _) => m.reference.toNat
      | none => 0)) 0 := by
  have he : list.isEmpty = false := by simpa using h
  unfold State.triggerReference
  rw [he]
  split
  · contradiction
  · rfl

/-- A start event of the halt watch (R94). -/
theorem startWatch_hu (s : State) : (startWatch s).hu = { s.hu with
    watch := if s.availableDrives = [] then none else some
      { list := s.availableDrives, acked := [], braked := [], startAt := s.now,
        limit := brakedLimit (s.triggerReference s.availableDrives) s.watchDecel,
        ackUntil := some (s.now + 500),
        counted := (match s.hu.watch with
          | some w => w.counted
          | none => []) } } := by
  unfold startWatch
  dsimp only
  by_cases h : s.availableDrives = []
  · rw [h]; simp [endWatch]
  · have : s.availableDrives.isEmpty = false := by simpa using h
    simp only [this, h]
    simp [State.now] <;> rfl

theorem latchHalt_mu (c : Nat) (s : State) : (latchHalt c s).mu = { s.mu with mode := .halt } := by
  unfold latchHalt
  split
  · next h => rw [← h]
  · dsimp only; simp

theorem latchHalt_suppressed (c : Nat) (s : State) (k) : (latchHalt c s).suppressed k =
    s.suppressed k := by
  unfold State.suppressed State.masksTrusted State.joined; simp

theorem atLeast_iff (a b : Effect) : b.atLeast a = true ↔ effectCode a ≤ effectCode b :=
    by simp [Effect.atLeast]

theorem boardingNow_held {z : State} (h : z.hu.effect ≠ .none) : z.boardingNow = false := by
  unfold State.boardingNow; simp [h]

theorem role_congr {a b : State} (h : a.sl = b.sl) : a.role = b.role := by simp [State.role, h]

/-- Boarding ceases to be open at the entry bay (R147, R157). -/
theorem formBoarding_closes (z : State) (hr : z.role = .entry) (hb : z.boardingNow = false) :
   (formBoarding z).bu.boarding = false ∧ (formBoarding z).bu.boardLamp = false ∧
   (formBoarding z).bu.queue = (if z.bu.boarding = true ∧ z.bu.window.state =
       .arriving then z.bu.window.matched else []) ++ z.bu.queue ∧
   ((z.bu.boarding = true ∧ z.bu.window.state = .arriving) → (formBoarding z).bu.window =
       { z.bu.window with matched := [], grace := false } ∧ (formBoarding z).bu.creep = false) ∧
   (¬ (z.bu.boarding = true ∧ z.bu.window.state = .arriving) → (formBoarding z).bu.window =
       z.bu.window) ∧
   (z.bu.boarding = false → (formBoarding z).bu = { z.bu with boardLamp := false }) := by
  have rl : ∀ y : State, y.role = .entry → y.bu.boarding = false → refreshLamp y =
      y.onBu (fun b => { b with boardLamp := false }) := by
    intro y h1 h2; unfold refreshLamp State.lampNow; rw [h1]; simp [h2]
  unfold formBoarding
  dsimp only
  rw [hb]
  rw [rl _ (by simpa [State.role] using hr) rfl]
  cases hbd : z.bu.boarding
  · simp only [Bool.false_and, Bool.false_eq_true, if_false, false_and, onBu_blocks]
    refine ⟨by simp, by simp, by simp, by simp, by simp, ?_⟩
    intro _; simp
  · simp only [Bool.not_false, Bool.and_true, if_true, true_and]
    unfold closeInWindow
    simp only [onBu_blocks]
    cases hw : z.bu.window.state
    · simp
    · unfold returnParties
      dsimp only
      split <;> simp [hw, logBay]
    · simp
    · simp

theorem recent_cancelParties (ps : List Party) : ∀ (s : State) {n e}, Recent n e s →
    n + ps.length ≤ 31 → Recent (n + ps.length) e (cancelParties ps s) := by
  induction ps with
  | nil => intro s n e h _; exact h
  | cons p ps ih =>
    intro s n e h hl
    simp only [List.length_cons] at hl ⊢
    unfold cancelParties
    have := ih (raise .partyCancelled p.tag.toNat s) (h.raise (by omega) .partyCancelled p.tag.toNat)
        (by omega)
    exact this.mono (by omega)

/-- PARTY_CANCELLED for each party (R158). -/
theorem cancelParties_raises (ps : List Party) : ∀ (s : State), ps.length ≤ 20 →
    s.suppressed .partyCancelled = false →
   ∀ x ∈ ps, Recent 19 (EventEntry.mk .partyCancelled x.tag s.clock.station) (cancelParties ps s) := by
  induction ps with
  | nil => intro s _ _ x hx; cases hx
  | cons p ps ih =>
    intro s hl hs x hx
    simp only [List.length_cons] at hl
    unfold cancelParties
    rcases List.mem_cons.mp hx with hx | hx
    · subst hx
      have := raise_recent (n := x.tag.toNat) hs
      have := recent_cancelParties ps _ this (by omega)
      simpa using this.mono (by omega)
    · have := ih (raise .partyCancelled p.tag.toNat s) (by omega)
        (by simpa [State.suppressed, State.masksTrusted, State.joined] using hs) x hx
      simpa using this

theorem latchHalt_bu (c : Nat) (z : State) (hr : z.role = .entry) (hb : z.bu.boarding = false) (hl :
    z.bu.boardLamp = false) (he : z.hu.effect ≠ .none) : (latchHalt c z).bu = z.bu := by
  unfold latchHalt
  split
  · rfl
  · dsimp only
    rw [(formBoarding_closes _ (by simpa [State.role] using hr) (boardingNow_held (by simpa using he))).2.2.2.2.2 (by simpa using hb)]
    simp [← hl]

theorem recent_returnParties {n e} {s : State} (h : Recent n e s) (hn : n < 31) :
    Recent (n+1) e (returnParties s) := by
  unfold Sys2Proof.Machine.returnParties
  dsimp only
  split
  · exact (h.lu rfl).mono (by omega)
  · unfold logBay; apply Recent.log _ hn; exact h.lu rfl

theorem recent_formBoarding {n e} {s : State} (h : Recent n e s) (hn : n < 31) :
    Recent (n+1) e (formBoarding s) := by
  unfold Sys2Proof.Machine.formBoarding
  dsimp only
  have h0 : Recent n e (refreshLamp (s.onBu (fun b => { b with boarding := s.boardingNow }))) :=
      h.lu (by simp)
  split
  · unfold closeInWindow
    split
    · exact recent_returnParties (h0.lu (by simp)) hn
    all_goals exact h0.mono (by omega)
  · exact h0.mono (by omega)

theorem recent_latchHalt {n e} {s : State} (h : Recent n e s) (hn : n < 30) (c) :
    Recent (n+2) e (latchHalt c s) := by
  unfold Sys2Proof.Machine.latchHalt
  split
  · exact h.mono (by omega)
  · dsimp only
    apply recent_formBoarding _ (by omega)
    apply Recent.log _ (by omega)
    exact h.lu rfl

theorem recent_completeEmptyDown {n e} {s : State} (h : Recent n e s) (hn : n < 24) (c) :
    Recent (n+7) e (completeEmptyDown c s) := by
  unfold completeEmptyDown
  dsimp only
  have h0 : Recent n e (s.onMu (fun m => { m with emptyState := .done })) := h.lu rfl
  have h1 := recent_latchHalt h0 (by omega) 1
  have h2 : ∀ z : State, Recent (n+2) e z → Recent (n+3) e (if c =
      true then raise .emptydownTimeout s.ct.occupied z else raise .emptydownDone (clamp16 ((s.now - s.mu.emptyAt)/1000)) z) := by
    intro z hz; split <;> exact hz.raise (by omega) _ _
  exact (recent_startWatch (h2 _ h1) (by omega)).log (by omega) _ _ _

theorem startWatch_congr {y z : State} (a : y.hu = z.hu) (b : y.pv = z.pv) (c : y.sl = z.sl) (d :
    y.clock = z.clock) (e : y.mu.reference = z.mu.reference) : (startWatch y).hu = (startWatch z).hu :=
        by
  rw [startWatch_hu, startWatch_hu]
  simp only [State.availableDrives, State.driveAvailable, State.peer, State.within, State.now,
      State.triggerReference, State.watchDecel, State.role, a, b, c, d, e]
  rfl

theorem completeEmptyDown_facts (z : State) : (completeEmptyDown false z).mu =
    { z.mu with emptyState := .done, mode := .halt } ∧
   (completeEmptyDown false z).hu = (startWatch z).hu ∧
       (z.role = .entry → z.bu.boarding = false → z.bu.boardLamp = false → z.hu.effect ≠ .none →
           (completeEmptyDown false z).bu = z.bu) := by
  unfold completeEmptyDown
  dsimp only
  refine ⟨?_, ?_, ?_⟩
  · simp [latchHalt_mu]
  · simp only [logLocal_spares]
    exact startWatch_congr (by simp) (by simp) (by simp) (by simp) (by simp [latchHalt_mu])
  · intro a b c d
    simp only [logLocal_spares, startWatch_spares]
    have : ∀ y : State, y.bu = z.bu → (if False then y else y).bu = z.bu := by intro y h; simpa using h
    simp only [Bool.false_eq_true, if_false, raise_spares]
    rw [latchHalt_bu]
    · simp
    · simpa [State.role] using a
    · simpa using b
    · simpa using c
    · simpa using d

/-- What handing on a raised effect leaves, in every unit. -/
theorem handOnEffect_rise (old new : Effect) (z : State) (hlt : effectCode old < effectCode new) (hz :
    z.hu.effect = new) :
   let u := handOnEffect old new z
   let below := fun x : Effect => effectCode old < effectCode x ∧ effectCode x ≤ effectCode new
   let completes := new = .empty ∧ z.ct.occupied = 0
   let back := if z.bu.boarding = true ∧ z.bu.window.state = .arriving then z.bu.window.matched else []
   (below .halt ∨ completes → u.mu.mode = .halt) ∧
   (below .halt ∨ (old = .halt ∧ new = .stop) ∨ completes → u.hu = (startWatch z).hu) ∧
   (¬ below .halt → ¬ (old = .halt ∧ new = .stop) → ¬ completes → u.hu = z.hu ∧ u.mu.mode = z.mu.mode) ∧
   (new = .empty → u.mu.emptyAt = z.now ∧ u.mu.emptyState = if z.ct.occupied =
       0 then .done else .emptying) ∧
   (old = .empty → u.mu.emptyState = .idle) ∧
   (new ≠ .empty → old ≠ .empty → u.mu.emptyState = z.mu.emptyState) ∧
   (z.role = .entry → u.bu.boarding = false ∧ u.bu.boardLamp = false ∧
     u.bu.queue = (if below .empty then [] else back ++ z.bu.queue) ∧
     (z.bu.boarding = true → z.bu.window.state = .arriving →
        u.bu.window = { z.bu.window with matched := [], grace := false } ∧ u.bu.creep = false) ∧
     (¬ (z.bu.boarding = true ∧ z.bu.window.state = .arriving) → u.bu.window = z.bu.window) ∧
     (below .empty → z.bu.Wf → z.suppressed .partyCancelled = false → ∀ x ∈ back ++ z.bu.queue,
        Recent 29 (EventEntry.mk .partyCancelled x.tag z.clock.station) u)) := by
  dsimp only
  have hne : z.hu.effect ≠ .none := by rw [hz]; rintro rfl; simp [effectCode] at hlt
  unfold handOnEffect
  dsimp only
  obtain ⟨x1, h1⟩ : ∃ x1, x1 = formBoarding z := ⟨_, rfl⟩
  rw [← h1]
  have k1 : x1.hu = z.hu ∧ x1.pv = z.pv ∧ x1.sl = z.sl ∧ x1.clock = z.clock ∧ x1.ct = z.ct ∧ x1.mu =
      z.mu := by rw [h1]; simp
  have b1 : z.role = .entry → _ := fun h => formBoarding_closes z h (boardingNow_held hne)
  rw [← h1] at b1
  clear h1
  obtain ⟨x2, h2⟩ : ∃ x2, x2 = (if x1.role = .entry ∧ ¬ old.atLeast .empty ∧
      new.atLeast .empty then flushQueue x1 else x1) := ⟨_, rfl⟩
  rw [← h2]
  have k2 : x2.hu = z.hu ∧ x2.pv = z.pv ∧ x2.sl = z.sl ∧ x2.clock = z.clock ∧ x2.ct = z.ct ∧ x2.mu =
      z.mu := by
    rw [h2]; split <;> simp [k1]
  have b2 : z.role = .entry → x2.bu.boarding = false ∧ x2.bu.boardLamp = false ∧
     x2.bu.queue = (if (effectCode old < effectCode .empty ∧ effectCode .empty ≤ effectCode new)
         then [] else (if z.bu.boarding = true ∧ z.bu.window.state =
             .arriving then z.bu.window.matched else []) ++ z.bu.queue) ∧
     x2.bu.window = x1.bu.window ∧ x2.bu.creep = x1.bu.creep ∧
     ((effectCode old < effectCode .empty ∧ effectCode .empty ≤ effectCode new) → z.bu.Wf →
         z.suppressed .partyCancelled = false →
             ∀ x ∈ (if z.bu.boarding = true ∧ z.bu.window.state =
                 .arriving then z.bu.window.matched else []) ++ z.bu.queue,
        Recent 20 (EventEntry.mk .partyCancelled x.tag z.clock.station) x2) := by
    intro hr
    obtain ⟨c1, c2, c3, c4, c5, c6⟩ := b1 hr
    by_cases hb : (effectCode old < effectCode .empty ∧ effectCode .empty ≤ effectCode new)
    · have : x1.role = .entry ∧ ¬ old.atLeast .empty = true ∧ new.atLeast .empty = true :=
        ⟨(role_congr k1.2.2.1).trans hr, by rw [atLeast_iff]; omega, by rw [atLeast_iff]; exact hb.2⟩
      rw [if_pos this] at h2
      rw [if_pos hb]
      have fq : x2.bu = { x1.bu with queue := [] } := by rw [h2]; unfold flushQueue; simp [logBay]
      rw [fq]
      refine ⟨c1, c2, rfl, rfl, rfl, ?_⟩
      intro _ wf hs x hx
      rw [← c3] at hx
      rw [h2]; unfold flushQueue; dsimp only; unfold logBay
      apply Recent.log _ (by omega)
      have := cancelParties_raises x1.bu.queue (x1.onBu (fun b => { b with queue := [] })) ?_ ?_ x hx
      · simpa [k1] using this
      · rw [c3]
        have w1 := wf.1
        unfold BayUnit.placesTaken at w1
        simp only [List.length_append]
        split
        · next h => rw [if_pos h.2] at w1; omega
        · simp; omega
      · rw [← hs]; simp [State.suppressed, State.masksTrusted, State.joined, k1]
    · have : ¬ (x1.role = .entry ∧ ¬ old.atLeast .empty = true ∧ new.atLeast .empty = true) := by
        rintro ⟨_, a, b⟩; rw [atLeast_iff] at a b; exact hb ⟨by omega, b⟩
      rw [if_neg this] at h2
      rw [if_neg hb, h2]
      exact ⟨c1, c2, c3, rfl, rfl, fun h => absurd h hb⟩
  clear h2
  obtain ⟨x3, h3⟩ : ∃ x3, x3 = (if ¬ old.atLeast .halt ∧
      new.atLeast .halt then latchHalt 0 x2 else x2) := ⟨_, rfl⟩
  rw [← h3]
  have bh : (¬ old.atLeast .halt = true ∧ new.atLeast .halt = true) ↔
      (effectCode old < effectCode .halt ∧ effectCode .halt ≤ effectCode new) := by
    rw [atLeast_iff, atLeast_iff]; omega
  have k3 : x3.hu = z.hu ∧ x3.pv = z.pv ∧ x3.sl = z.sl ∧ x3.clock = z.clock ∧ x3.ct = z.ct ∧ x3.mu =
      (if (effectCode old < effectCode .halt ∧ effectCode .halt ≤ effectCode new)
          then { z.mu with mode := .halt } else z.mu) := by
    rw [h3]; simp only [bh]; split <;> simp [k2, latchHalt_mu]
  have b3 : z.role = .entry → x3.bu = x2.bu := by
    intro hr
    rw [h3]; split
    · exact latchHalt_bu _ _ ((role_congr k2.2.2.1).trans hr)
        (b2 hr).1 (b2 hr).2.1 (by rw [k2.1]; exact hne)
    · rfl
  have e3 : ∀ e, Recent 20 e x2 → Recent 22 e x3 := by
    intro e h; rw [h3]; split
    · exact recent_latchHalt h (by omega) 0
    · exact h.mono (by omega)
  have e4 : ¬ (effectCode old < effectCode .halt ∧ effectCode .halt ≤ effectCode new) → ∀ e,
      Recent 20 e x2 → Recent 20 e x3 := by
    intro hh e h; rw [h3, if_neg (by rw [bh]; exact hh)]; exact h
  clear h3
  have ne3 : x3.hu.effect ≠ .none := by rw [k3.1]; exact hne
  -- the rest, by the new effect
  have sw3 : (startWatch x3).hu = (startWatch z).hu :=
      startWatch_congr k3.1 k3.2.1 k3.2.2.1 k3.2.2.2.1 (by rw [k3.2.2.2.2.2]; split <;> rfl)
  by_cases hE : new = .empty
  · have n1 : ¬ (effectCode old < effectCode .halt ∧ effectCode .halt ≤ effectCode new) :=
      by rw [hE]; simp [effectCode]
    have n2 : ¬ ((¬ old.atLeast .halt = true ∧ new.atLeast .halt = true) ∨
        (old = .halt ∧ new = .stop)) := by
      rw [bh]; rintro (h | h)
      · exact n1 h
      · rw [hE] at h; cases h.2
    rw [if_neg n2]
    have no : old ≠ .empty := by rintro rfl; rw [hE] at hlt; omega
    unfold emptyDownOnEffect
    rw [if_pos hE]
    obtain ⟨y, hy⟩ : ∃ y, y =
        logLocal .mu 6 [byteOf x3.ct.occupied] (x3.onMu (fun m => { m with emptyState := .emptying, emptyAt := x3.now })) := ⟨_, rfl⟩
    rw [← hy]
    rw [if_neg n1] at k3
    have ky : y.hu = z.hu ∧ y.pv = z.pv ∧ y.sl = z.sl ∧ y.clock = z.clock ∧ y.ct = z.ct ∧ y.mu =
        { z.mu with emptyState := .emptying, emptyAt := z.now } ∧ y.bu = x3.bu := by
      rw [hy]; simp [k3, State.now]
    have ey : ∀ e, Recent 20 e x2 → Recent 21 e y := by
      intro e h; rw [hy]; apply Recent.log _ (by omega); exact (e4 n1 e h).lu rfl
    unfold testEmptyDown
    rw [ky.2.2.2.2.1, ky.2.2.2.2.2.1]
    simp only [true_and]
    by_cases ho : z.ct.occupied = 0
    · rw [if_pos ho]
      obtain ⟨f1, f2, f3⟩ := completeEmptyDown_facts y
      have swy : (startWatch y).hu = (startWatch z).hu :=
          startWatch_congr ky.1 ky.2.1 ky.2.2.1 ky.2.2.2.1 (by rw [ky.2.2.2.2.2.1])
      simp only [f1, f2, swy, hE, ho, if_true, and_true, ky.2.2.2.2.2.1]
      refine ⟨by simp, by simp, by simp, by simp, fun h => absurd h no, by simp, ?_⟩
      intro hr
      obtain ⟨d1, d2, d3, d4, d5, d6⟩ := b2 hr
      obtain ⟨c1, c2, c3, c4, c5, c6⟩ := b1 hr
      have fb : (completeEmptyDown false y).bu = x2.bu := by
        rw [f3 ((role_congr ky.2.2.1).trans hr) (by rw [ky.2.2.2.2.2.2, b3 hr]; exact d1)
            (by rw [ky.2.2.2.2.2.2, b3 hr]; exact d2) (by rw [ky.1]; exact hne), ky.2.2.2.2.2.2, b3 hr]
      rw [fb, d4, d5]
      refine ⟨d1, d2, by rw [d3, hE], fun a b => c4 ⟨a, b⟩, c5, ?_⟩
      intro hb wf hs x hx
      exact (recent_completeEmptyDown (ey _ (d6 (by rw [hE]; exact hb) wf hs x hx)) (by omega)
          false).mono (by omega)
    · rw [if_neg ho]
      simp only [hE, ho, if_false, and_false, or_false]
      refine ⟨by simp [effectCode], by simp [effectCode], ?_, by simp [ky], fun h => absurd h no, by simp, ?_⟩
      · intro _ _ _; exact ⟨ky.1, by rw [ky.2.2.2.2.2.1]⟩
      intro hr
      obtain ⟨d1, d2, d3, d4, d5, d6⟩ := b2 hr
      obtain ⟨c1, c2, c3, c4, c5, c6⟩ := b1 hr
      rw [ky.2.2.2.2.2.2, b3 hr, d4, d5]
      refine ⟨d1, d2, by rw [d3, hE], fun a b => c4 ⟨a, b⟩, c5, ?_⟩
      intro hb wf hs x hx
      exact (ey _ (d6 (by rw [hE]; exact hb) wf hs x hx)).mono (by omega)
  · have kE : ∃ y, y = emptyDownOnEffect old new x3 ∧ y.hu = z.hu ∧ y.pv = z.pv ∧ y.sl = z.sl ∧
      y.clock = z.clock ∧ y.mu = (if old = .empty then { x3.mu with emptyState := .idle } else x3.mu) ∧
          y.bu = x3.bu ∧ y.lu = x3.lu := by
      refine ⟨_, rfl, ?_⟩
      unfold emptyDownOnEffect
      rw [if_neg hE]
      split <;> simp [k3]
    obtain ⟨y, hy, ky⟩ := kE
    rw [← hy]
    clear hy
    have swy : (startWatch y).hu = (startWatch z).hu :=
        startWatch_congr ky.1 ky.2.1 ky.2.2.1 ky.2.2.2.1 (by rw [ky.2.2.2.2.1, k3.2.2.2.2.2]; split <;> split <;> rfl)
    have fin : ∃ u, u = (if (¬ old.atLeast .halt = true ∧ new.atLeast .halt = true) ∨
        (old = .halt ∧ new = .stop) then startWatch y else y) := ⟨_, rfl⟩
    obtain ⟨u, hu⟩ := fin
    rw [← hu]
    simp only [bh] at hu
    have um : u.mu = y.mu ∧ u.bu = y.bu := by rw [hu]; split <;> simp
    have ur : ∀ e, Recent 20 e x2 → Recent 25 e u := by
      intro e h; rw [hu]; have := Recent.lu (e3 e h) (t := y) (by rw [ky.2.2.2.2.2.2]); split
      · exact recent_startWatch this (by omega)
      · exact this.mono (by omega)
    rw [um.1, um.2, ky.2.2.2.2.1, k3.2.2.2.2.2]
    simp only [hE, false_and, or_false]
    refine ⟨?_, ?_, ?_, by simp, ?_, ?_, ?_⟩
    · intro h; rw [if_pos h]; split <;> rfl
    · intro h; rw [hu, if_pos h]; exact swy
    · intro a b _; rw [hu, if_neg (by rintro (h|h); exact a h; exact b h), if_neg a]; refine ⟨ky.1,
        ?_⟩; split <;> rfl
    · intro h; rw [if_pos h]
    · intro _ h; rw [if_neg h]; split <;> rfl
    · intro hr
      obtain ⟨d1, d2, d3, d4, d5, d6⟩ := b2 hr
      obtain ⟨c1, c2, c3, c4, c5, c6⟩ := b1 hr
      rw [ky.2.2.2.2.2.1, b3 hr, d4, d5]
      refine ⟨d1, d2, d3, fun a b => c4 ⟨a, b⟩, c5, ?_⟩
      intro hb wf hs x hx
      exact (ur _ (d6 hb wf hs x hx)).mono (by omega)

theorem effectCode_injective (a b : Effect) (h : effectCode a = effectCode b) : a = b :=
    by cases a <;> cases b <;> simp_all [effectCode]

theorem le_severest (l : List HoldRec) : ∀ r ∈ l, effectCode r.effect ≤ effectCode (severest l) := by
  induction l with
  | nil => intro r h; cases h
  | cons a l ih =>
    intro r h
    simp only [severest, Effect.atLeast, decide_eq_true_eq]
    rcases List.mem_cons.mp h with rfl | h
    · split <;> omega
    · have := ih r h; split <;> omega

theorem severest_mem (l : List HoldRec) : effectCode (severest l) = 0 ∨ ∃ r ∈ l, r.effect =
    severest l := by
  induction l with
  | nil => left; rfl
  | cons a l ih =>
    simp only [severest]
    split
    · rcases ih with h | ⟨r, h1, h2⟩
      · exact .inl h
      · exact .inr ⟨r, List.mem_cons_of_mem _ h1, h2⟩
    · exact .inr ⟨a, List.mem_cons_self .., rfl⟩

theorem severest_eq (l : List HoldRec) (e : Effect) (h1 : ∀ r ∈ l,
    effectCode r.effect ≤ effectCode e) (h2 : ∃ r ∈ l, r.effect = e) : severest l = e := by
  obtain ⟨r, hr, he⟩ := h2
  have := le_severest l r hr
  rw [he] at this
  apply effectCode_injective
  rcases severest_mem l with h | ⟨x, x1, x2⟩
  · omega
  · have := h1 x x1; rw [x2] at this; omega

theorem mildest_le (l : List HoldRec) : ∀ m, mildest l = some m → ∀ r ∈ l,
    effectCode m.effect ≤ effectCode r.effect := by
  induction l with
  | nil => intro m h; cases h
  | cons a l ih =>
    intro m h r hr
    unfold mildest at h
    split at h
    · next hn =>
      cases l with
      | nil => injection h with h; subst h; simp at hr; subst hr; exact le_refl _
      | cons b l => exfalso; unfold mildest at hn; split at hn <;> try (cases hn)
                    split at hn <;> cases hn
    · next m' hm =>
      split at h
      · next hc =>
        injection h with h; subst h
        rcases List.mem_cons.mp hr with rfl | hr
        · rcases hc with hc | hc
          · omega
          · rw [hc.1]
        · exact ih _ hm r hr
      · next hc =>
        injection h with h; subst h
        rcases List.mem_cons.mp hr with rfl | hr
        · exact le_refl _
        · have := ih _ hm r hr
          have : effectCode a.effect ≤ effectCode m'.effect := by omega
          omega

/-- Removing the mildest of two records or more leaves the effect (R77). -/
theorem severest_without_mildest (u : HoldUnit) (hw : u.Wf) (h16 : 2 ≤ u.records.length) (m) (hm :
    mildest u.records = some m) :
    severest (u.records.filter (fun x => !x.hasKey m.kind m.declarer)) = u.effect := by
  rw [hw.2.2.1]
  have mm := mildest_mem hm
  by_cases h0 : effectCode (severest u.records) = 0
  · apply effectCode_injective
    rcases severest_mem (u.records.filter (fun x => !x.hasKey m.kind m.declarer)) with h | ⟨r, h1, h2⟩
    · omega
    · have := le_severest u.records r (List.mem_filter.mp h1).1
      rw [h2] at this; omega
  obtain ⟨r0, r1, r2⟩ := (severest_mem u.records).resolve_left h0
  apply severest_eq
  · intro r hr; exact le_severest _ r (List.mem_filter.mp hr).1
  · by_cases hk : r0.hasKey m.kind m.declarer = true
    · -- r0 carries the key of m; another record is as severe
      have hnd := hw.2.1
      have ex : ∃ r' ∈ u.records, r'.hasKey m.kind m.declarer = false := by
        by_contra hno
        push Not at hno
        have hall : ∀ r' ∈ u.records, (r'.kind, r'.declarer) = (m.kind, m.declarer) := by
          intro r' hr'
          have := hno r' hr'
          have := (hasKey_iff _ _ _).mp (by simpa using this)
          simpa [Prod.ext_iff] using this
        have hrep : u.records.map (fun r => (r.kind, r.declarer)) =
            List.replicate u.records.length (m.kind, m.declarer) := by
          rw [List.eq_replicate_iff]; refine ⟨by simp, ?_⟩
          intro b hb
          obtain ⟨r', a, b'⟩ := List.mem_map.mp hb
          rw [← b']; exact hall r' a
        rw [hrep, List.nodup_replicate] at hnd
        omega
      obtain ⟨r', a, b⟩ := ex
      refine ⟨r', List.mem_filter.mpr ⟨a, by simp [b]⟩, ?_⟩
      apply effectCode_injective
      have l1 := mildest_le _ m hm r' a
      have l2 := le_severest _ r' a
      have : m.effect = r0.effect := by
        have e1 : r0 = m := by
          have := (hasKey_iff _ _ _).mp hk
          exact List.inj_on_of_nodup_map hnd r1 mm this
        rw [e1]
      rw [this, r2] at l1
      omega
    · exact ⟨r0, List.mem_filter.mpr ⟨r1, by simpa using hk⟩, r2⟩

theorem removeRecord_quiet (k d) (s : State) (h :
    severest (s.hu.records.filter (fun x => !x.hasKey k d)) = s.hu.effect) :
   (removeRecord k d s).hu.watch = s.hu.watch ∧ (removeRecord k d s).bu = s.bu ∧
       (removeRecord k d s).mu = s.mu := by
  unfold removeRecord afterRecords
  have : formEffect (raise .holdOff (keyParam k d)
      (s.onHu (fun h => { h with records := h.records.filter (fun r => !r.hasKey k d) }))) =
          raise .holdOff (keyParam k d)
              (s.onHu (fun h => { h with records := h.records.filter (fun r => !r.hasKey k d) })) := by
    unfold formEffect; dsimp only; rw [if_pos (by simpa using h)]
  simp only [this]
  unfold refreshHoldLamp
  split <;> simp

end Sys2Proof.Machine
end

