-- ==== Sys2Proof/Laws/Depart.lean ====
section
/-! SUPPORT. What a departure hands over and raises (R153, R154, R171), and the laps of a record (R133). -/

namespace Sys2Proof.Machine

/-- The report of a close carried out (R153). -/
theorem closeWindow_report (n) (s : State) (ho : s.bu.window.state = .opened) (hg : s.pins.gateClear =
    true) : (closeWindow n s).bayReport = { s.bayReport with doors := 0 } := by
  unfold closeWindow
  dsimp only
  have e1 : (refreshLamp (s.onWindow (fun w => { w with state := .closing }))).pins.gateClear = true :=
      hg
  rw [e1]
  simp only [Bool.not_true, Bool.false_eq_true, if_false]
  generalize hx : refreshLamp (s.onWindow (fun w => { w with state := .closing })) = x
  have xb : x.bu =
      { s.bu with window := { s.bu.window with state := .closing }, boardLamp := x.bu.boardLamp } :=
          by rw [← hx]; rfl
  have xr : x.role = s.role ∧ x.joined = s.joined ∧ x.now = s.now := by rw [← hx]; exact ⟨rfl, rfl, rfl⟩
  obtain ⟨shut, hs⟩ : ∃ b : BayUnit, b = { x.bu with
      doorRelease := false, gateOpen := false, doorClose := true, closeDeferred := false,
      doorsOpen := false, reportAt := x.clock.now } := ⟨_, rfl⟩
  have : ∀ y : State, y.bu = shut → y.role = x.role → y.joined = x.joined → y.now = x.now →
      y.bayReport = { s.bayReport with doors := 0 } := by
    intro y h1 h2 h3 h4
    unfold State.bayReport State.ownBay State.idleSeconds BayUnit.cabinAtBay
    rw [h1, h2, h3, h4, hs, xb, xr.1, xr.2.1, xr.2.2]
    simp only [ho]
    simp
    rfl
  have sb : (shutDoors x).bu = shut := by
    rw [hs]; unfold shutDoors handBay; simp [State.now]
  have ss : (logBay 3 [byteOf n, flagByte false] (shutDoors x)).sl = x.sl :=
      by simp [logBay, shutDoors, handBay]
  apply this
  · simpa [logBay] using sb
  · unfold State.role; rw [ss]
  · unfold State.joined; rw [ss]
  · unfold State.now; simp [logBay, shutDoors, handBay]

theorem recent_boardParties (ps : List Party) : ∀ (s : State) {n e}, Recent n e s → n + ps.length ≤ 31 →
    Recent (n + ps.length) e (boardParties ps s) := by
  induction ps with
  | nil => intro s n e h _; exact h
  | cons p ps ih =>
    intro s n e h hl
    simp only [List.length_cons] at hl ⊢
    unfold boardParties
    have := ih (raise .partyBoarded p.tag.toNat s) (h.raise (by omega) .partyBoarded p.tag.toNat)
        (by omega)
    exact this.mono (by omega)

/-- PARTY_BOARDED for each party (R154). -/
theorem boardParties_raises (ps : List Party) : ∀ (s : State), ps.length ≤ 20 →
    s.suppressed .partyBoarded = false →
   ∀ x ∈ ps, Recent 20 (EventEntry.mk .partyBoarded x.tag s.clock.station) (boardParties ps s) := by
  induction ps with
  | nil => intro s _ _ x hx; cases hx
  | cons p ps ih =>
    intro s hl hs x hx
    simp only [List.length_cons] at hl
    unfold boardParties
    rcases List.mem_cons.mp hx with hx | hx
    · subst hx
      have := raise_recent (n := x.tag.toNat) hs
      have := recent_boardParties ps _ this (by omega)
      simpa using this.mono (by omega)
    · have := ih (raise .partyBoarded p.tag.toNat s) (by omega)
        (by simpa [State.suppressed, State.masksTrusted, State.joined] using hs) x hx
      simpa using this

theorem suppressed_congr {a b : State} (h : a.sl = b.sl) (k) : a.suppressed k = b.suppressed k := by
  unfold State.suppressed State.masksTrusted State.joined; rw [h]

theorem makePassage_sent (c r riders tags) (s : State) :
   (makePassage c r riders tags s).lc = (handOver (.passage ⟨s.bu.serial, byteOf c,
       byteOf (resultCode r), cabinByte riders, tags⟩) false s).lc ∧
   (s.suppressed .passage = false →
       Recent 0 (EventEntry.mk .passage (BitVec.ofNat 16 (c * 256 + resultCode r)) s.clock.station)
           (makePassage c r riders tags s)) ∧
   (makePassage c r riders tags s).sl = s.sl ∧ (makePassage c r riders tags s).clock = s.clock := by
  refine ⟨?_, ?_, by simp, by simp⟩
  · unfold makePassage
    dsimp only
    simp only [raise_spares]
    apply handOver_lc
    · simp
    · simp
  intro h
  unfold makePassage
  dsimp only
  generalize hy : handOver (.passage _) false _ = y
  have y1 : y.sl = s.sl ∧ y.clock = s.clock := by rw [← hy]; simp
  have := raise_recent (c := .passage) (n := c * 256 + resultCode r) (s :=
      y) (by rw [suppressed_congr y1.1]; exact h)
  rw [y1.2] at this
  exact this

theorem endWindow_lu (s : State) : (endWindow s).lu = s.lu := by simp [endWindow, State.onWindow]

theorem recent_afterRecords {n e} {s : State} (hr : s.role ≠ .entry) (h : Recent n e s) (hn : n ≤ 8) :
    Recent (n+16) e (afterRecords s) := by
  unfold afterRecords
  have : Recent (n+16) e (formEffect s) := by
    unfold formEffect
    dsimp only
    split
    · exact h.mono (by omega)
    · generalize hz : logLocal .hu 8 _ _ = z
      have z1 : Recent (n+2) e z := by
        rw [← hz]
        apply Recent.log _ (by omega)
        apply Recent.raise _ (by omega)
        exact h.lu rfl
      have z2 : z.role ≠ .entry := by rw [← hz]; simpa [State.role] using hr
      unfold handOnEffect
      dsimp only
      have a := recent_formBoarding z1 (by omega)
      have hfr : (formBoarding z).role ≠ .entry := by simpa [State.role] using z2
      simp only [hfr, false_and, if_false]
      have b : ∀ c : Prop, [Decidable c] → Recent (n+5) e (if c then latchHalt 0 (formBoarding z)
          else formBoarding z) := by
        intro c _; split
        · exact recent_latchHalt a (by omega) 0
        · exact a.mono (by omega)
      have b' := b (¬ s.hu.effect.atLeast .halt = true ∧ (severest s.hu.records).atLeast .halt = true)
      clear b
      generalize (if (¬ s.hu.effect.atLeast .halt = true ∧ (severest s.hu.records).atLeast .halt =
          true) then latchHalt 0 (formBoarding z) else formBoarding z) = y at *
      have c : Recent (n+13) e (emptyDownOnEffect s.hu.effect (severest s.hu.records) y) := by
        unfold emptyDownOnEffect
        split
        · have : Recent (n+6)
            e (logLocal .mu 6 [byteOf y.ct.occupied] (y.onMu (fun m => { m with emptyState := .emptying, emptyAt := y.now }))) := by
            apply Recent.log _ (by omega); exact b'.lu rfl
          unfold testEmptyDown
          split
          · exact recent_completeEmptyDown this (by omega) false
          · exact this.mono (by omega)
        · split
          · exact (b'.lu rfl).mono (by omega)
          · exact b'.mono (by omega)
      split
      · exact recent_startWatch c (by omega)
      · exact c.mono (by omega)
  unfold refreshHoldLamp
  split
  · exact this.lu rfl
  · exact this

theorem recent_placeOwn {n e} (k) {s : State} (hr : s.role ≠ .entry) (hl :
    s.hu.records.length < 16) (h : Recent n e s) (hn : n ≤ 7) : Recent (n+17) e (placeOwn k s) := by
  unfold placeOwn
  split
  · split
    · unfold updateRecord
      refine (recent_afterRecords (n := n) ?_ ?_ (by omega)).mono (by omega)
      · simpa [State.role] using hr
      · exact h.lu rfl
    · unfold admitHold
      rw [if_pos hl]
      unfold insertRecord
      refine (recent_afterRecords (n := n + 1) ?_ ?_ (by omega)).mono (by omega)
      · simpa [State.role] using hr
      · apply Recent.raise _ (by omega)
        exact h.lu rfl
  · exact h.mono (by omega)

theorem recent_handOver {n e} (p r) {s : State} (h : Recent n e s) (hn : n < 30) :
    Recent (n+2) e (handOver p r s) := by
  have ad : ∀ z : State, Recent n e z → Recent (n+2) e (addTelegram p r z) := by
    intro z hz
    unfold addTelegram
    split
    · exact (hz.lu rfl).mono (by omega)
    · split
      · split
        · split
          · exact hz.afterOverflow hn _ _
          · refine Recent.afterOverflow ?_ hn _ _; exact hz.lu rfl
        · exact hz.afterOverflow hn _ _
      · exact hz.afterOverflow hn _ _
  unfold handOver
  split
  · exact h.mono (by omega)
  · dsimp only
    split
    · exact (h.lu rfl).mono (by omega)
    · exact ad _ (h.lu rfl)

theorem recent_sendOwn {n e} (k r) {s : State} (h : Recent n e s) (hn : n < 30) :
    Recent (n+2) e (sendOwn k r s) := by
  unfold sendOwn
  split
  · exact recent_handOver _ _ (h.lu rfl) hn
  · exact h.mono (by omega)

theorem recent_declareHold {n e} (k f c) {s : State} (hr : s.role ≠ .entry) (hl :
    s.hu.records.length < 16) (h : Recent n e s) (hn : n ≤ 5) : Recent (n+20) e (declareHold k f c s) :=
        by
  have no : Recent (n+1) e (newOwn k f c s) ∧ (newOwn k f c s).role ≠ .entry ∧
      (newOwn k f c s).hu.records.length < 16 := by
    refine ⟨?_, by simpa [State.role] using hr, by simpa [newOwn] using hl⟩
    unfold newOwn; apply Recent.log _ (by omega); exact h.lu rfl
  have ch : Recent (n+1) e (changeOwn k f c s) ∧ (changeOwn k f c s).role ≠ .entry ∧
      (changeOwn k f c s).hu.records.length < 16 := by
    refine ⟨?_, by simpa [State.role] using hr, by simpa [changeOwn, HoldUnit.setOwn] using hl⟩
    unfold changeOwn; apply Recent.log _ (by omega); exact h.lu rfl
  unfold declareHold
  split
  · exact (recent_sendOwn _ _ (recent_placeOwn k no.2.1 no.2.2 no.1 (by omega))
      (by omega)).mono (by omega)
  · split
    · exact (recent_sendOwn _ _ (recent_placeOwn k ch.2.1 ch.2.2 ch.1 (by omega))
        (by omega)).mono (by omega)
    · split
      · split
        · exact (recent_placeOwn k hr hl h (by omega)).mono (by omega)
        · exact (recent_placeOwn k ch.2.1 ch.2.2 ch.1 (by omega)).mono (by omega)
      · exact (recent_placeOwn k hr hl h (by omega)).mono (by omega)

def LapStep (f : Cabin → Cabin) : Prop := ∀ v, (f v).laps = v.laps ∨ (f v).laps = min 3 (v.laps + 1)

theorem onCabin_cabin (d e : Nat) (g : Cabin → Cabin) (s : State) : (s.onCabin d g).cabin? e =
    s.cabin? e ∨ (s.onCabin d g).cabin? e = (s.cabin? e).map g := by
  unfold State.cabin? State.onCabin
  simp only [onCt_blocks, List.getElem?_modify]
  split
  · exact .inl rfl
  · cases hc : s.ct.cabins[e-1]? with
    | none => left; rfl
    | some v => by_cases h : d - 1 = e - 1 <;> simp [h]

theorem gapStage_laps (b st c) (s : State) (e : Nat) : ∃ f : Cabin → Cabin, (∀ v, (f v).laps = v.laps) ∧
    (gapStage b st c s).cabin? e = (s.cabin? e).map f := by
  have idm : ∀ (o : Option Cabin), o = o.map id := by intro o; simp
  unfold gapStage
  split
  · exact ⟨id, fun _ => rfl, idm _⟩
  · dsimp only
    split
    · exact ⟨id, fun _ => rfl, idm _⟩
    · have hsame : ∀ (y z : State), z.ct = y.ct → z.cabin? e = y.cabin? e :=
        by intro y z h; unfold State.cabin?; rw [h]
      rw [hsame _ _ (by simp only [logLocal_spares, raise_spares]; rfl)]
      generalize cabinsAfter _ _ _ = l
      have : ∀ (l : List Nat) (x : State), ∃ f : Cabin → Cabin, (∀ v, (f v).laps = v.laps) ∧
          (l.foldl (fun s d => s.onCabin d Cabin.doubted) x).cabin? e = (x.cabin? e).map f := by
        intro l
        induction l with
        | nil => intro x; exact ⟨id, fun _ => rfl, idm _⟩
        | cons a l ih =>
          intro x
          obtain ⟨f, h1, h2⟩ := ih (x.onCabin a Cabin.doubted)
          simp only [List.foldl_cons]
          rcases onCabin_cabin a e Cabin.doubted x with h | h
          · exact ⟨f, h1, by rw [h2, h]⟩
          · exact ⟨f ∘ Cabin.doubted,
              fun v => by simp [h1, Cabin.doubted], by rw [h2, h, Option.map_map]⟩
      exact this l s

theorem applyPassage_laps (b st) (p : Passage) (s : State) (e : Nat) (hp : p.result = some .heldOver) :
    ∃ f, LapStep f ∧ (applyPassage b st p s).1.cabin? e = (s.cabin? e).map f := by
  have idm : ∀ (o : Option Cabin), o = o.map id := by intro o; simp
  have same : ∀ (y z : State), z.ct.cabins = y.ct.cabins → z.cabin? e = y.cabin? e :=
      by intro y z h; unfold State.cabin?; rw [h]
  unfold applyPassage
  rw [hp]
  dsimp only
  split
  · exact ⟨id, fun v => .inl rfl, idm _⟩
  · split
    · dsimp only
      unfold supplyTags
      split
      · rw [same (s.onCabin p.cabin (fun c => { c with tags := p.tags })) _ (by cases b <;> rfl)]
        rcases onCabin_cabin p.cabin e (fun c => { c with tags := p.tags }) s with h | h
        · exact ⟨id, fun v => .inl rfl, by rw [h]; exact idm _⟩
        · exact ⟨fun c => { c with tags := p.tags }, fun v => .inl rfl, h⟩
      · exact ⟨id, fun v => .inl rfl, idm _⟩
    · dsimp only
      obtain ⟨f, f1, f2⟩ := gapStage_laps b st p.cabin s e
      have cs : ∀ z : State, (countStage z).ct.cabins = z.ct.cabins := by
        intro z; unfold countStage; dsimp only; split
        · rfl
        · unfold testEmptyDown; split <;> simp [completeEmptyDown]
      generalize gapStage b st p.cabin s = g at f2 ⊢
      rw [same (resultStage b .heldOver p g) _ (by rw [cs]; unfold cursorStage; cases b <;> rfl)]
      unfold resultStage
      rcases onCabin_cabin p.cabin e (fun c => { c.applyResult .heldOver p g.time with
        last := some { bay := b, serial := p.serial, time := g.now } }) g with h | h
      · exact ⟨f, fun v => .inl (f1 v), by rw [h, f2]⟩
      · refine ⟨_, ?_, by rw [h, f2, Option.map_map]⟩
        intro v
        right
        show min 3 ((f v).laps + 1) = _
        rw [f1]

theorem makePassage_laps (c : Nat) (tags) (z : State) : ∃ f, LapStep f ∧
    (makePassage c .heldOver none tags z).cabin? c = (z.cabin? c).map f := by
  unfold makePassage
  dsimp only
  have same : ∀ (y z : State), z.ct = y.ct → z.cabin? c = y.cabin? c :=
      by intro y z h; unfold State.cabin?; rw [h]
  generalize hy : z.onBu (fun b => { b with
    serial := b.serial + 1
    summary := some { serial := z.bu.serial, cabin := c, result := .heldOver, riders := none } }) = y
  have hc : y.cabin? c = z.cabin? c := by rw [← hy]; rfl
  rw [same _ _ (by simp only [raise_spares, handOver_spares]; rfl), ← hc]
  exact applyPassage_laps _ _ _ _ _ rfl

/-- The telegram of a BAY HALT hold newly declared (R78). -/
theorem declareHold_lc (s : State) (c : Cause) (h : s.hu.own? .bay = none) :
    (declareHold .bay .halt c s).lc =
   (handOver (.hold ⟨byteOf (holdKindCode .bay), byteOf (effectCode .halt), byteOf (causeCode c),
       s.clock.station⟩) false s).lc := by
  unfold declareHold
  rw [h]
  dsimp only
  have e : (placeOwn .bay (newOwn .bay .halt c s)).hu.own? .bay =
      some ⟨.bay, .halt, c, s.time, s.now⟩ := by
    rw [placeOwn_own?, newOwn_own _ _ _ _ _ h, if_pos rfl]
  unfold sendOwn
  rw [e]
  dsimp only
  exact handOver_lc _ _ (by simp [newOwn]) (by simp [newOwn])

theorem applyPassage_records (b st p) (s : State) : (applyPassage b st p s).1.hu.records =
    s.hu.records := by
  unfold applyPassage
  (repeat' split) <;> try simp
  all_goals
    unfold countStage
    dsimp only
    split
    · simp [cursorStage, resultStage, State.onCabin]
    · unfold testEmptyDown
      split
      · unfold completeEmptyDown
        dsimp only
        have w : ∀ z : State, (startWatch z).hu.records = z.hu.records := by
          intro z; unfold startWatch; dsimp only; split <;> simp [endWatch]
        simp only [logLocal_spares]
        rw [w]
        split <;> simp [cursorStage, resultStage, State.onCabin]
      · simp [cursorStage, resultStage, State.onCabin]

theorem makePassage_records (c r riders tags) (s : State) : (makePassage c r riders tags s).hu.records =
    s.hu.records := by
  unfold makePassage
  dsimp only
  simp only [raise_spares, handOver_spares]
  rw [applyPassage_records]; rfl

end Sys2Proof.Machine
end

