-- ==== Sys2Proof/Laws/Echo.lean ====
section
/-! SUPPORT. A telegram taken, another station's or the own echo (R34, R37, R44): how it reaches its
judgement, what the peer view keeps of an own one, and what of the other blocks stays. -/

namespace Sys2Proof.Machine

/-- A telegram that is heard, or the own echo, goes by its judgement (R34). -/
theorem receive_judged (t : Telegram) (s : State) (h : s.hears t ∨ s.echoes t) :
    receive t s = (match s.judge t with
      | .ignore => ignoreTelegram t (clearEcho s)
      | .refuse m => refuseTelegram t m (clearEcho s)
      | .accept => acceptTelegram t (clearEcho s)) := by
  rcases h with h | ⟨_, h2, h3, h4, h5⟩
  · exact receive_hears t s h
  · unfold receive
    rw [if_neg (by simp [h3])]
    dsimp only
    have e : s.isEcho t = true := by simp [State.isEcho, h4, h5]
    rw [if_neg (by simp [e])]
    unfold judgeTelegram
    rw [if_neg (by simpa [State.joined] using h2)]
    rfl

/-- An accepted telegram is taken by PV and its owner, and logged (R37). -/
theorem takes_exec (t : Telegram) (s : State) (h : s.takes t) :
    exec (arrival t) s = .next (acceptTelegram t (clearEcho s)) := by
  have hr : s.sl.resetHeld = false := by rcases h with h | h <;> exact h.1.1
  have hj : s.judge t = .accept := by rcases h with h | h <;> exact h.2
  have hh : s.hears t ∨ s.echoes t := h.imp And.left And.left
  rw [arrival_exec]
  unfold whenUp
  rw [if_neg (by simp [hr]), receive_judged t s hh, hj]

/-- What an accepted telegram leaves, but for its log entry. -/
theorem acceptTelegram_eq (t : Telegram) (s : State) : acceptTelegram t s =
    logTelegram (s.sl.sheet.roleAt t.sender.toNat) t (giveOwner t (pvTake t true s)).2
      (giveOwner t (pvTake t true s)).1 := rfl

/-- The record of the own station after its echo, and every other record (R44). -/
theorem pvTakeOwn_peer (t : Telegram) (acc : Bool) (s : State) (h : s.pv.table.length = 24)
    (hn : t.sender.toNat < 24) (m : Nat) :
    (pvTakeOwn t acc s).peer m = if m = t.sender.toNat then
      { (s.peer t.sender.toNat).takeContent t.payload acc s.clock.now with
        lastHeard := s.clock.now, lastSeq := t.seq } else s.peer m := by
  unfold pvTakeOwn
  dsimp only
  rw [peer_of_pv (afterParts_pv _ _ _ _ _), onPeer_at _ _ _ _ h hn]
  split <;> simp [State.now]

/-- The own echo, but of a MOTION or BAY, leaves every block but PV. -/
theorem own_quiet (t : Telegram) (acc : Bool) (s : State)
    (hk : acc = true → (∀ m, t.payload ≠ .motion m) ∧ (∀ m, t.payload ≠ .bay m)) :
    ∀ b : Block, b ≠ .pv → b.same s (pvTakeOwn t acc s) := by
  unfold pvTakeOwn
  dsimp only
  rw [afterParts_id _ _ _ _ _ hk (by simp)]
  intro b hb
  cases b <;> simp [Block.same, State.onPeer] at *

/-- The state in which the owner takes an accepted telegram, where it moves no part and no DRIVE record. -/
theorem pvTake_quiet (t : Telegram) (s : State) (hp : ∀ q, t.payload ≠ .presence q)
    (hm : ∀ m, t.payload ≠ .motion m) (hb : ∀ m, t.payload ≠ .bay m) (hs : s.steady t.sender.toNat) :
    ∀ b : Block, b ≠ .pv → b ≠ .lu → b ≠ .lc → b.same s (pvTake t true (clearEcho s)) := by
  intro b b1 b2 b3
  have key : b.same (clearEcho s) (pvTake t true (clearEcho s)) := by
    by_cases hn : t.sender.toNat = s.own
    · have e : pvTake t true (clearEcho s) = pvTakeOwn t true (clearEcho s) := if_pos hn
      rw [e]
      exact own_quiet t true (clearEcho s) (fun _ => ⟨hm, hb⟩) b b1
    · refine pv_quiet t true (clearEcho s) hp (fun _ => ⟨hm, hb⟩) hn ?_ b b1 b2
      rcases hs with hs | hs | hs
      · exact absurd hs hn
      · exact Or.inl hs
      · exact Or.inr (Or.inr hs)
  cases b <;> first | exact key | exact absurd rfl b3

/-- The number of a telegram's sender is in the table's range (R33). -/
theorem takes_num (t : Telegram) (s : State) (h : s.takes t) : t.sender.toNat < 24 := by
  have : telegramOk t = true := by rcases h with h | h <;> exact h.1.2.2.1
  simp [telegramOk] at this
  omega

/-- An accepted telegram but PRESENCE comes from a station that is not FOREIGN (R34). -/
theorem takes_fresh (t : Telegram) (s : State) (h : s.takes t) (hp : ∀ q, t.payload ≠ .presence q) :
    (s.peer t.sender.toNat).state ≠ .foreign := by
  intro hf
  have : s.judge t = .accept := by rcases h with h | h <;> exact h.2
  unfold State.judge at this
  dsimp only at this
  rw [if_pos ⟨hf, by cases hpl : t.payload <;> simp_all [payloadKind]⟩] at this
  cases this

/-- Taking an accepted telegram but PRESENCE ends with what HU does with the parts. -/
theorem pvTake_tail (t : Telegram) (s : State) (hp : ∀ q, t.payload ≠ .presence q) :
    ∃ ch z, pvTake t true (clearEcho s) = afterParts t.sender.toNat t.payload true ch z ∧
      z.sl = s.sl ∧ z.hu = s.hu ∧ z.clock = s.clock := by
  by_cases hn : t.sender.toNat = s.own
  · have e : pvTake t true (clearEcho s) = pvTakeOwn t true (clearEcho s) := if_pos hn
    rw [e]
    exact ⟨_, _, rfl, by simp [State.onPeer, clearEcho], by simp [State.onPeer, clearEcho],
      by simp [State.onPeer, clearEcho]⟩
  · rw [pvTake_other t true (clearEcho s) hn, pvTakeOther_notPresence t true _ hp]
    exact ⟨_, _, rfl, by simp [State.onPeer, clearEcho], by simp [State.onPeer, clearEcho],
      by simp [State.onPeer, clearEcho]⟩

end Sys2Proof.Machine
end

