-- ==== Sys2Proof/Laws/Fusion.lean ====
section
/-! SUPPORT. The fused level that a wind table gives (R65) and what forming it leaves (R66 to R70). -/

namespace Sys2Proof.Machine

/-- The rank of a level, BLIND ranking as GUSTY (R65). -/
def levelRank (l : WindLevel) : Nat := if l = .blind then 2 else windCode l

theorem windRank_eq (l) : windRank l = levelRank l := by cases l <;> rfl

theorem foldl_higherLevel (ls : List WindLevel) : ∀ a,
    (ls.foldl higherLevel a = a ∨ ls.foldl higherLevel a ∈ ls) ∧
        levelRank a ≤ levelRank (ls.foldl higherLevel a) ∧ ∀ l ∈ ls,
            levelRank l ≤ levelRank (ls.foldl higherLevel a) := by
  induction ls with
  | nil => intro a; simp
  | cons b ls ih =>
    intro a
    simp only [List.foldl_cons]
    obtain ⟨h1, h2, h3⟩ := ih (higherLevel a b)
    have hb : (higherLevel a b = a ∨ higherLevel a b = b) ∧ levelRank a ≤ levelRank (higherLevel a b) ∧
        levelRank b ≤ levelRank (higherLevel a b) := by
      unfold higherLevel; rw [windRank_eq, windRank_eq]; split
      · exact ⟨.inr rfl, by omega, le_refl _⟩
      · exact ⟨.inl rfl, le_refl _, by omega⟩
    refine ⟨?_, le_trans hb.2.1 h2, ?_⟩
    · rcases h1 with h1 | h1
      · rw [h1]; rcases hb.1 with h | h
        · exact .inl h
        · right; rw [h]; exact List.mem_cons_self ..
      · exact .inr (List.mem_cons_of_mem _ h1)
    · intro l hl
      rcases List.mem_cons.mp hl with rfl | hl
      · exact le_trans hb.2.2 h2
      · exact h3 l hl

theorem highestLevel_spec (ls : List WindLevel) (h : ls ≠ []) : highestLevel ls ∈ ls ∧ ∀ l ∈ ls,
    levelRank l ≤ levelRank (highestLevel ls) := by
  obtain ⟨h1, h2, h3⟩ := foldl_higherLevel ls .calm
  refine ⟨?_, h3⟩
  rcases h1 with h1 | h1
  · have : ∀ l ∈ ls, l = .calm := by
      intro l hl
      have := h3 l hl
      rw [h1] at this
      cases l <;> simp_all [levelRank, windCode]
    unfold highestLevel
    rw [h1]
    cases ls with
    | nil => exact absurd rfl h
    | cons a l => rw [this a (List.mem_cons_self ..)]; exact List.mem_cons_self ..
  · exact h1

/-- The fused level and the degraded mark of some fresh levels (R65). -/
theorem fusedOf_spec (m : Nat) (ls : List WindLevel) :
    let raised := ls ≠ [] ∧ ls.length < m ∧ ∀ l ∈ ls, levelRank l < 2
    (degradedOf m ls = true ↔ raised) ∧ (ls = [] → fusedOf m ls = .blind) ∧
        (raised → fusedOf m ls = .gusty) ∧
    (ls ≠ [] → ¬ raised → fusedOf m ls ∈ ls ∧ ∀ l ∈ ls, levelRank l ≤ levelRank (fusedOf m ls)) := by
  dsimp only
  by_cases h : ls = []
  · subst h; simp [degradedOf, fusedOf]
  have hl : ls.length ≠ 0 := by simpa using h
  obtain ⟨h1, h2⟩ := highestLevel_spec ls h
  have hr : (∀ l ∈ ls, levelRank l < 2) ↔ levelRank (highestLevel ls) < 2 :=
      ⟨fun a => a _ h1, fun a l hl => lt_of_le_of_lt (h2 l hl) a⟩
  rw [hr]
  unfold degradedOf fusedOf
  rw [if_neg hl]
  refine ⟨?_, fun x => absurd x h, ?_, ?_⟩
  · simp only [Bool.and_eq_true, bne_iff_ne, decide_eq_true_eq, windRank_eq]
    have : levelRank .gusty = 2 := rfl
    rw [this]; tauto
  · intro ⟨_, a, b⟩
    rw [if_pos a]; unfold higherLevel; rw [if_pos (by rw [windRank_eq]; exact b)]
  · intro _ hn
    by_cases hm : ls.length < m
    · rw [if_pos hm]
      have : ¬ levelRank (highestLevel ls) < 2 := fun x => hn ⟨h, hm, x⟩
      unfold higherLevel
      rw [if_neg (by rw [windRank_eq]; exact this)]
      exact ⟨h1, h2⟩
    · rw [if_neg hm]; exact ⟨h1, h2⟩

theorem formBoarding_boarding (s : State) : (formBoarding s).bu.boarding = s.boardingNow := by
  unfold formBoarding
  dsimp only
  have rl : ∀ z : State, (refreshLamp z).bu.boarding = z.bu.boarding := fun z => rfl
  have rt : ∀ z : State, (returnParties z).bu.boarding = z.bu.boarding := by
    intro z; unfold returnParties; dsimp only; split <;> simp [logBay]
  split
  · unfold closeInWindow
    split
    · rw [rt]; rfl
    all_goals rfl
  · rfl

theorem formFused_facts (s : State) :
    let u := formFused s
    let ls := s.wv.freshLevels
    let new := fusedOf s.sl.sheet.minMasts ls
    u.wv = { s.wv with fused := new, freshCount := ls.length, degraded := degradedOf s.sl.sheet.minMasts ls } ∧
    (new = s.wv.fused → u.hu = s.hu ∧ u.mu = s.mu ∧ u.bu = s.bu) ∧
    (new ≠ s.wv.fused →
      (new = .blind → u.hu.cond.noWind = true) ∧ (s.wv.fused = .blind → u.hu.cond.noWind = false) ∧
      (new ≠ .blind → s.wv.fused ≠ .blind → u.hu = s.hu ∧ u.mu = s.mu) ∧
      u.bu.boarding = u.boardingNow ∧
      ((new ≠ .blind ∧ s.wv.fused ≠ .blind) ∨ s.sl.settled = false → s.suppressed .windLevel = false →
        Recent 3 (EventEntry.mk .windLevel (BitVec.ofNat 16 (ls.length * 256 + windCode new))
            s.clock.station) u)) := by
  dsimp only
  unfold formFused
  dsimp only
  generalize hls : s.wv.freshLevels = ls
  generalize hn : fusedOf s.sl.sheet.minMasts ls = new
  generalize hd : degradedOf s.sl.sheet.minMasts ls = d
  by_cases he : new = s.wv.fused
  · rw [if_pos he]; simp [he]
  rw [if_neg he]
  refine ⟨by (repeat' split) <;> simp, fun h => absurd h he, fun _ => ?_⟩
  generalize hy : logLocal .wv 0 [byteOf (windCode s.wv.fused), byteOf (windCode new),
      byteOf ls.length] (raise .windLevel (ls.length * 256 + windCode new)
          (s.onWv (fun w => { w with fused := new, freshCount := ls.length, degraded := d }))) = y
  have yh : y.hu = s.hu ∧ y.mu = s.mu ∧ y.sl = s.sl := by rw [← hy]; simp
  have yr : s.suppressed .windLevel = false →
      Recent 1 (EventEntry.mk .windLevel (BitVec.ofNat 16 (ls.length * 256 + windCode new))
          s.clock.station) y := by
    intro h
    rw [← hy]
    have := raise_recent (c := .windLevel) (n := ls.length * 256 + windCode new) (s :=
        s.onWv (fun w => { w with fused := new, freshCount := ls.length, degraded := d }))
            (by simpa [State.suppressed, State.masksTrusted, State.joined] using h)
    exact (this.log (by omega) _ _ _)
  clear hy
  generalize hx : (if new = .blind then setCond .noWind true y else if s.wv.fused =
      .blind then setCond .noWind false y else y) = x
  refine ⟨?_, ?_, ?_, ?_, ?_⟩
  · intro h; rw [if_pos h] at hx
    simp only [formBoarding_spares]; rw [← hx, (setCond_conds _ _ _).1]; rfl
  · intro h; rw [if_neg (by rw [← h]; exact he), if_pos h] at hx
    simp only [formBoarding_spares]; rw [← hx, (setCond_conds _ _ _).1]; rfl
  · intro h h'; rw [if_neg h, if_neg h'] at hx
    simp only [formBoarding_spares]; rw [← hx]; exact ⟨yh.1, yh.2.1⟩
  · rw [formBoarding_boarding]
    simp [State.boardingNow, State.role, State.pastSettling]
  · intro h hs
    apply recent_formBoarding _ (by omega)
    rw [← hx]
    have q : ∀ b, s.sl.settled = false →
        Recent 2 (EventEntry.mk .windLevel (BitVec.ofNat 16 (ls.length * 256 + windCode new))
            s.clock.station) (setCond .noWind b y) := by
      intro b hb
      unfold setCond
      split
      · exact (yr hs).mono (by omega)
      · dsimp only
        rw [if_neg (by simp [yh.2.2, hb])]
        apply Recent.log _ (by omega)
        exact (yr hs).lu (by simp)
    rcases h with ⟨h1, h2⟩ | h
    · rw [if_neg h1, if_neg h2]; exact (yr hs).mono (by omega)
    · split
      · exact q _ h
      · split
        · exact q _ h
        · exact (yr hs).mono (by omega)

end Sys2Proof.Machine
end

