-- ==== Sys2Proof/Laws/Lamp.lean ====
section
/-! SUPPORT. The hold lamp of a DESK after the set changes (R99): each operation on records leaves it in the
case of the set. -/

namespace Sys2Proof.Machine

/-- A hold unit's lamp is that of another. -/
def HoldUnit.lampSame (g h : HoldUnit) : Prop :=
  h.lampMode = g.lampMode ∧ h.lampLit = g.lampLit ∧ h.lampAt = g.lampAt

/-- From `s` to `u` the hold lamp either stands, the set and its effect standing too, or is in the case of the
set, as it stood or begun now. -/
def State.lampStep (s u : State) : Prop :=
  u.role = s.role ∧ u.clock.now = s.clock.now ∧ (s.role ≠ .desk → s.hu.lampSame u.hu) ∧
  (s.role = .desk →
    (s.hu.lampSame u.hu ∧ u.hu.records = s.hu.records ∧ u.hu.effect = s.hu.effect) ∨
    (u.hu.lampMode = lampModeOf u.hu ∧ (s.hu.lampSame u.hu ∨
      (u.hu.lampAt = s.clock.now ∧ (u.hu.lampLit = true ↔ u.hu.lampMode ≠ .off)))))

theorem HoldUnit.lampSame.trans {f g h : HoldUnit} (a : f.lampSame g) (b : g.lampSame h) : f.lampSame h :=
  ⟨b.1.trans a.1, b.2.1.trans a.2.1, b.2.2.trans a.2.2⟩

theorem lampModeOf_eq {g h : HoldUnit} (h1 : h.records = g.records) (h2 : h.effect = g.effect) :
    lampModeOf h = lampModeOf g := by
  unfold lampModeOf
  rw [h1, h2]

theorem State.lampStep.trans {s v u : State} (a : s.lampStep v) (b : v.lampStep u) : s.lampStep u := by
  obtain ⟨a1, a2, a3, a4⟩ := a
  obtain ⟨b1, b2, b3, b4⟩ := b
  refine ⟨b1.trans a1, b2.trans a2, fun h => (a3 h).trans (b3 (by rw [a1]; exact h)), fun h => ?_⟩
  rcases a4 h with ⟨x1, x2, x3⟩ | ⟨x1, x2⟩ <;> rcases b4 (by rw [a1]; exact h) with ⟨y1, y2, y3⟩ | ⟨y1, y2⟩
  · exact Or.inl ⟨x1.trans y1, y2.trans x2, y3.trans x3⟩
  · refine Or.inr ⟨y1, y2.imp (fun y => x1.trans y) (fun y => ?_)⟩
    rw [← a2]; exact y
  · refine Or.inr ⟨by rw [y1.1, x1, lampModeOf_eq y2 y3], x2.imp (fun x => x.trans y1) (fun x => ?_)⟩
    rw [y1.2.2, y1.2.1, y1.1]; exact x
  · refine Or.inr ⟨y1, ?_⟩
    rcases y2 with y2 | y2
    · refine x2.imp (fun x => x.trans y2) (fun x => ?_)
      rw [y2.2.2, y2.2.1, y2.1]; exact x
    · right; rw [← a2]; exact y2

/-- Nothing of the set, its effect, the lamp, the role and the clock changes. -/
theorem lampStep_quiet {s u : State} (h : u.hu = s.hu) (h1 : u.clock = s.clock) (h2 : u.sl = s.sl) :
    s.lampStep u := by
  have r : u.role = s.role := by simp [State.role, h2]
  refine ⟨r, by rw [h1], fun _ => ?_, fun _ => Or.inl ?_⟩
  · rw [h]; exact ⟨rfl, rfl, rfl⟩
  · rw [h]; exact ⟨⟨rfl, rfl, rfl⟩, rfl, rfl⟩

theorem lampStep_log {s u : State} (h : s.lampStep u) (r : Role) (t : Telegram) (o : LogOutcome) :
    s.lampStep (logTelegram r t o u) :=
  h.trans (lampStep_quiet (s := u) (by simp) (by simp) (by simp))

/-! ### Forming the effect leaves the lamp -/

theorem endWatch_lamp (n : Nat) (ns : List Nat) (s : State) : s.hu.lampSame (endWatch n ns s).hu := by
  unfold endWatch
  simp [HoldUnit.lampSame]

theorem startWatch_lamp (s : State) : s.hu.lampSame (startWatch s).hu := by
  unfold startWatch
  dsimp only
  split
  · have := endWatch_lamp 0 (match s.hu.watch with | some w => w.counted | none => [])
    refine HoldUnit.lampSame.trans ?_ (endWatch_lamp _ _ _)
    simp [HoldUnit.lampSame]
  · simp [HoldUnit.lampSame]

theorem completeEmptyDown_lamp (t : Bool) (s : State) : s.hu.lampSame (completeEmptyDown t s).hu := by
  unfold completeEmptyDown
  dsimp only
  cases t
  · simp only [logLocal_spares, Bool.false_eq_true, if_false]
    refine HoldUnit.lampSame.trans ?_ (startWatch_lamp _)
    simp [HoldUnit.lampSame]
  · simp only [logLocal_spares, if_true]
    refine HoldUnit.lampSame.trans ?_ (startWatch_lamp _)
    simp [HoldUnit.lampSame]

theorem testEmptyDown_lamp (s : State) : s.hu.lampSame (testEmptyDown s).hu := by
  unfold testEmptyDown
  split
  · exact completeEmptyDown_lamp _ _
  · exact ⟨rfl, rfl, rfl⟩

theorem emptyDownOnEffect_lamp (a b : Effect) (s : State) : s.hu.lampSame (emptyDownOnEffect a b s).hu := by
  unfold emptyDownOnEffect
  (repeat' split)
  · refine HoldUnit.lampSame.trans ?_ (testEmptyDown_lamp _)
    simp [HoldUnit.lampSame]
  · simp [HoldUnit.lampSame]
  · exact ⟨rfl, rfl, rfl⟩

theorem handOnEffect_lamp (a b : Effect) (s : State) : s.hu.lampSame (handOnEffect a b s).hu := by
  have e : ∀ z : State, z.hu.lampSame (if (¬ a.atLeast .halt ∧ b.atLeast .halt) ∨ (a = .halt ∧ b = .stop)
      then startWatch z else z).hu := by
    intro z
    split
    · exact startWatch_lamp z
    · exact ⟨rfl, rfl, rfl⟩
  unfold handOnEffect
  dsimp only
  refine HoldUnit.lampSame.trans ?_ (e _)
  refine HoldUnit.lampSame.trans ?_ (emptyDownOnEffect_lamp _ _ _)
  split <;> split <;> simp [HoldUnit.lampSame]

theorem formEffect_lamp (s : State) : s.hu.lampSame (formEffect s).hu := by
  unfold formEffect
  dsimp only
  split
  · exact ⟨rfl, rfl, rfl⟩
  · refine HoldUnit.lampSame.trans ?_ (handOnEffect_lamp _ _ _)
    simp [HoldUnit.lampSame]

/-! ### Operations on records -/

/-- What follows a change of the set, from a state with the same lamp. -/
theorem afterRecords_lampStep (s v : State) (h : s.hu.lampSame v.hu) (h1 : v.clock = s.clock)
    (h2 : v.sl = s.sl) : s.lampStep (afterRecords v) := by
  have r : v.role = s.role := by simp [State.role, h2]
  have l := h.trans (formEffect_lamp v)
  have fr : (formEffect v).role = s.role := by rw [← r]; simp [State.role]
  have fc : (formEffect v).clock = s.clock := by rw [← h1]; simp
  unfold afterRecords refreshHoldLamp
  generalize formEffect v = z at *
  split
  · next hc =>
    refine ⟨by simpa [State.role] using fr, by simp [fc], fun hd => absurd (fr ▸ hc.1) hd, fun _ => Or.inr ?_⟩
    refine ⟨by simp [lampModeOf], Or.inr ⟨by simp [State.now, fc], ?_⟩⟩
    simp
  · next hc =>
    refine ⟨fr, by rw [fc], fun _ => l, fun hd => Or.inr ⟨?_, Or.inl l⟩⟩
    by_contra hne
    exact hc ⟨fr.trans hd, fun e => hne e.symm⟩

theorem removeRecord_lamp (k : HoldKind) (d : Nat) (s : State) : s.lampStep (removeRecord k d s) := by
  unfold removeRecord
  exact afterRecords_lampStep _ _ (by simp [HoldUnit.lampSame]) (by simp) (by simp)

theorem insertRecord_lamp (r : HoldRec) (s : State) : s.lampStep (insertRecord r s) := by
  unfold insertRecord
  exact afterRecords_lampStep _ _ (by simp [HoldUnit.lampSame]) (by simp) (by simp)

theorem updateRecord_lamp (k : HoldKind) (d : Nat) (f : HoldRec → HoldRec) (s : State) :
    s.lampStep (updateRecord k d f s) := by
  unfold updateRecord
  exact afterRecords_lampStep _ _ (by simp [HoldUnit.lampSame]) (by simp) (by simp)

theorem admitHold_lamp (r : HoldRec) (s : State) : s.lampStep (admitHold r s) := by
  unfold admitHold
  split
  · exact insertRecord_lamp _ _
  · split
    · next m hm =>
      split
      · refine (removeRecord_lamp m.kind m.declarer s).trans (State.lampStep.trans ?_ (insertRecord_lamp _ _))
        exact lampStep_quiet (by simp) (by simp) (by simp)
      · exact lampStep_quiet (by simp) (by simp) (by simp)
    · exact lampStep_quiet rfl rfl rfl

theorem lapseOne_lamp (s : State) (r : HoldRec) : s.lampStep (lapseOne s r) := by
  unfold lapseOne
  split
  · split
    · unfold lapse
      exact State.lampStep.trans (lampStep_quiet (by simp) (by simp) (by simp)) (removeRecord_lamp _ _ _)
    · unfold orphan
      exact (updateRecord_lamp r.kind r.declarer (fun x => { x with state := .orphaned }) s).trans (lampStep_quiet (by simp) (by simp) (by simp))
  · exact lampStep_quiet rfl rfl rfl

theorem lapseAll_lamp (s : State) : s.lampStep (lapseAll s) := by
  unfold lapseAll
  have f : ∀ (l : List HoldRec) (z : State), z.lampStep (l.foldl lapseOne z) := by
    intro l
    induction l with
    | nil => exact fun z => lampStep_quiet rfl rfl rfl
    | cons r l ih => exact fun z => (lapseOne_lamp z r).trans (ih _)
  refine State.lampStep.trans ?_ (f _ _)
  refine ⟨by simp [State.role], by simp, fun _ => ?_, fun _ => Or.inl ⟨?_, ?_⟩⟩ <;> simp [HoldUnit.lampSame]

/-- The lamp follows the set. -/
theorem lampFollows_of_step {s u : State} (h : s.lampStep u) (he : u.hu.records ≠ s.hu.records) :
    (s.role = .desk →
      ((∃ r ∈ u.hu.records, r.state = .orphaned) → u.hu.lampMode = .flashing) ∧
      ((∀ r ∈ u.hu.records, r.state ≠ .orphaned) →
        u.hu.lampMode = if u.hu.effect = .none then .off else .steady) ∧
      (u.hu.lampMode ≠ s.hu.lampMode →
        u.hu.lampAt = s.clock.now ∧ (u.hu.lampLit = true ↔ u.hu.lampMode ≠ .off))) := by
  intro hd
  rcases h.2.2.2 hd with ⟨_, x, _⟩ | ⟨x1, x2⟩
  · exact absurd x he
  · refine ⟨fun ⟨r, r1, r2⟩ => ?_, fun hr => ?_, fun hn => ?_⟩
    · rw [x1]; unfold lampModeOf
      rw [if_pos (List.any_eq_true.mpr ⟨r, r1, by simp [r2]⟩)]
    · rw [x1]; unfold lampModeOf
      rw [if_neg]
      intro ha
      obtain ⟨r, r1, r2⟩ := List.any_eq_true.mp ha
      exact hr r r1 (by simpa using r2)
    · rcases x2 with x2 | x2
      · exact absurd x2.1 hn
      · exact x2

theorem lampFollows_step {s u : State} (h : s.lampStep u) : s.lampFollows u :=
  ⟨fun hd he => lampFollows_of_step h he hd, fun hd => h.2.2.1 hd⟩

end Sys2Proof.Machine
end

