-- ==== Sys2Proof/Laws/Reach.lean ====
section
/-! SUPPORT. The forms of Forms.lean through the operations that Keep.lean leaves: the conditional close
and update, the entry into JOINING, and the resets. -/

namespace Sys2Proof.Machine

/-! ### A close or an update with an occasion is that close or update, or nothing -/

theorem closeWhen_eq (v : BitVec 4) (o : Wmu → Wmu → Bool) (s : State) :
    closeWhen v o s = windowClose v s ∨ closeWhen v o s = s := by
  unfold closeWhen
  dsimp only
  split
  · exact Or.inl rfl
  · exact Or.inr rfl

theorem updateWhen_eq (o : MotionUnit → MotionUnit → Bool) (s : State) :
    updateWhen o s = motionUpdate s ∨ updateWhen o s = s := by
  unfold updateWhen
  dsimp only
  split
  · exact Or.inl rfl
  · exact Or.inr rfl

@[simp] theorem closeWhen_keeps (v : BitVec 4) (o : Wmu → Wmu → Bool) (s : State) :
    (s.lu.Wf → (closeWhen v o s).lu.Wf) ∧
    (LinkForm s.lc.queue s.lc.nextEntry s.lc.sending s.lc.rxErrors →
      LinkForm (closeWhen v o s).lc.queue (closeWhen v o s).lc.nextEntry (closeWhen v o s).lc.sending
        (closeWhen v o s).lc.rxErrors) ∧
    (HoldForm s.hu.records s.hu.effect s.hu.own →
      HoldForm (closeWhen v o s).hu.records (closeWhen v o s).hu.effect (closeWhen v o s).hu.own) ∧
    (MotionForm s.mu.motion s.mu.invCause s.mu.brakeCause s.mu.listenCause s.mu.reference s.mu.missed
        s.mu.still →
      MotionForm (closeWhen v o s).mu.motion (closeWhen v o s).mu.invCause (closeWhen v o s).mu.brakeCause
        (closeWhen v o s).mu.listenCause (closeWhen v o s).mu.reference (closeWhen v o s).mu.missed
        (closeWhen v o s).mu.still) ∧
    (PartyForm s.bu.queue s.bu.window.state s.bu.window.matched s.bu.window.grace →
      PartyForm (closeWhen v o s).bu.queue (closeWhen v o s).bu.window.state
        (closeWhen v o s).bu.window.matched (closeWhen v o s).bu.window.grace) ∧
    (WmuForm s.wmu.channels s.wmu.windows →
      WmuForm (closeWhen v o s).wmu.channels (closeWhen v o s).wmu.windows) := by
  rcases closeWhen_eq v o s with e | e <;> rw [e]
  · exact windowClose_keeps v s
  · exact ⟨id, id, id, id, id, id⟩

@[simp] theorem updateWhen_keeps (o : MotionUnit → MotionUnit → Bool) (s : State) :
    (s.lu.Wf → (updateWhen o s).lu.Wf) ∧
    (LinkForm s.lc.queue s.lc.nextEntry s.lc.sending s.lc.rxErrors →
      LinkForm (updateWhen o s).lc.queue (updateWhen o s).lc.nextEntry (updateWhen o s).lc.sending
        (updateWhen o s).lc.rxErrors) ∧
    (MotionForm s.mu.motion s.mu.invCause s.mu.brakeCause s.mu.listenCause s.mu.reference s.mu.missed
        s.mu.still →
      MotionForm (updateWhen o s).mu.motion (updateWhen o s).mu.invCause (updateWhen o s).mu.brakeCause
        (updateWhen o s).mu.listenCause (updateWhen o s).mu.reference (updateWhen o s).mu.missed
        (updateWhen o s).mu.still) := by
  rcases updateWhen_eq o s with e | e <;> rw [e]
  · exact motionUpdate_keeps s
  · exact ⟨id, id, id⟩

/-! ### The port's slot and the link controller's small changes -/

theorem Answer.advance_part (a : Answer) (h : a.part < a.parts) :
    a.advance.part < a.advance.parts := by
  unfold Answer.advance
  split
  · next h1 => exact h1
  · exact h

theorem Port.get_wf (complete : Bool) {p : Port} (h : p.Wf) : Port.Wf { p with
    miso := p.getBytes
    slot := if complete then p.slot.map Answer.advance else p.slot } := by
  obtain ⟨h1, h2, h3⟩ := h
  refine ⟨h1, ?_, h3⟩
  intro a ha
  cases complete with
  | false => exact h2 a ha
  | true =>
    simp only [if_true, Option.map_eq_some_iff] at ha
    obtain ⟨b, hb, rfl⟩ := ha
    exact Answer.advance_part b (h2 b hb)

theorem count_wmu {w : Wmu} (h : w.Wf) (i : Nat) : Wmu.Wf { w with
    channels := w.channels.modify i (fun c => { c with counter := min 1023 (c.counter + 1) }) } := by
  obtain ⟨h1, h2, h3⟩ := h
  refine ⟨by simpa using h1, ?_, h3⟩
  intro d hd
  obtain ⟨j, hj, rfl⟩ := List.getElem_of_mem hd
  rw [List.getElem_modify]
  have hc := h2 _ (List.getElem_mem (by simpa using hj : j < w.channels.length))
  split
  · obtain ⟨c1, c2, c3, c4, c5⟩ := hc
    exact ⟨Nat.min_le_left _ _, c2, c3, c4, c5⟩
  · exact hc

/-! ### The entry into JOINING -/

theorem enterJoining_tables (sh : Sheet) (s : State) :
    PeerForm (enterJoining sh s).pv.table ∧
    CabinForm (enterJoining sh s).ct.occupied (enterJoining sh s).ct.cabins := by
  unfold enterJoining
  dsimp only
  refine ⟨?_, ?_⟩
  · have hp := fun s => startPeers_form s
    split <;> simp [startConditions, startTimers, startTables, hp]
  · have hc := fun s => startTables_form s
    split <;> simp [startConditions, startTimers, hc]

theorem endLoading_tables (i : Option (List Byte)) (s : State) :
    (PeerForm s.pv.table → PeerForm (endLoading i s).pv.table) ∧
    (CabinForm s.ct.occupied s.ct.cabins →
      CabinForm (endLoading i s).ct.occupied (endLoading i s).ct.cabins) := by
  have hj := fun sh s => enterJoining_tables sh s
  unfold endLoading
  dsimp only
  refine ⟨?_, ?_⟩ <;> intro h <;> split <;> simp [hj, enterSheetFault, h]

/-! ### The resets -/

theorem Link.reset_wf : Link.reset.Wf :=
  ⟨by decide, by decide, by decide, by decide, (by intro x hx; cases hx), by decide⟩

theorem PeerView.reset_wf : PeerView.reset.Wf := ⟨by decide, by decide⟩

theorem HoldUnit.reset_wf : HoldUnit.reset.Wf := ⟨by decide, by decide, by decide, by decide⟩

theorem MotionUnit.reset_wf : MotionUnit.reset.Wf := ⟨by decide, by decide, by decide, by decide⟩

theorem CabinTable.reset_wf : CabinTable.reset.Wf := ⟨by decide, (by intro c hc; cases hc)⟩

theorem BayUnit.reset_wf : BayUnit.reset.Wf := ⟨by decide, by decide, by decide, by decide⟩

theorem Port.reset_wf : Port.reset.Wf := ⟨by decide, (by intro a ha; cases ha), by decide⟩

theorem Wmu.reset_wf : Wmu.reset.Wf := by
  refine ⟨by decide, ?_, by decide⟩
  intro c hc
  have : c = Channel.reset := List.eq_of_mem_replicate (n := 4) hc
  subst this
  unfold Channel.Wf
  decide

theorem LogUnit.powerOn_wf (n : Nat) : (LogUnit.powerOn n).Wf := by
  refine ⟨?_, (by show 1 < 256; decide), ?_, (by show 1 ≤ 32; decide), (by show 0 ≤ 255; decide),
    (by show false = true ↔ 0 < 0; decide), fun _ => rfl⟩
  · show (_ :: List.replicate 255 none).length = 256
    rw [List.length_cons, List.length_replicate]
  intro i e h
  have hr : (LogUnit.powerOn n).ring = some (startEntry 0 n 0) :: List.replicate 255 none := rfl
  rw [hr] at h
  cases i with
  | zero => cases h; exact ⟨rfl, (by show 2 ≤ 8; decide)⟩
  | succ i =>
    rw [List.getElem?_cons_succ, List.getElem?_replicate] at h
    split at h <;> cases h

theorem LogUnit.restarted_wf (n : Nat) {u : LogUnit} (h : u.Wf) : (u.restarted n).Wf := by
  have hu : LogUnit.Wf { u with queue := restartedQueue 1, overrun := false, lost := 0 } := by
    obtain ⟨h1, h2, h3, _, _, _, _⟩ := h
    exact ⟨h1, h2, h3, (by show 1 ≤ 32; decide), (by show 0 ≤ 255; decide),
      (by show false = true ↔ 0 < 0; decide), fun _ => rfl⟩
  unfold LogUnit.restarted
  dsimp only
  split
  · exact LogUnit.place_wf _ (LogUnit.write_wf _ _ _ _ _ hu)
  · split
    · exact LogUnit.place_wf _ (LogUnit.write_wf _ _ _ _ _ hu)
    · exact LogUnit.write_wf _ _ _ _ _ hu

end Sys2Proof.Machine
end

