-- ==== Sys2Proof/Laws/Sent.lean ====
section
/-! SUPPORT. The telegrams that declaring and releasing an own hold hand over (R78, R80, R91). -/

namespace Sys2Proof.Machine

theorem sendOwn_sends (k : HoldKind) (b : Bool) (s : State) (o : OwnHold) (h : s.hu.own? k = some o) :
    (sendOwn k b s).lc = (handOver (.hold ⟨byteOf (holdKindCode k), byteOf (effectCode o.effect),
      byteOf (causeCode o.cause), o.declaredAt⟩) b s).lc := by
  unfold sendOwn
  rw [h]
  exact handOver_lc _ _ (by simp) (by simp)

/-- A new own hold is sent, and one raised in effect; another change sends nothing (R78). -/
theorem declareHold_sends (k : HoldKind) (e : Effect) (c : Cause) (s : State) : (declareHold k e c s).lc =
    (match s.hu.own? k with
      | none => (handOver (.hold ⟨byteOf (holdKindCode k), byteOf (effectCode e), byteOf (causeCode c),
          s.clock.station⟩) false s).lc
      | some o => if effectCode o.effect < effectCode e
        then (handOver (.hold ⟨byteOf (holdKindCode k), byteOf (effectCode e), byteOf (causeCode c),
          o.declaredAt⟩) false s).lc
        else s.lc) := by
  unfold declareHold
  cases h : s.hu.own? k with
  | none =>
    dsimp only
    have hn := newOwn_own k k e c s h
    rw [if_pos rfl] at hn
    have hp := placeOwn_own? k k (newOwn k e c s)
    rw [hn] at hp
    rw [sendOwn_sends _ _ _ _ hp]
    exact handOver_lc _ _ (by simp [newOwn]) (by simp [newOwn])
  | some o =>
    dsimp only
    have hch := changeOwn_own k k e c s
    rw [if_pos rfl, h] at hch
    split
    · have hp := placeOwn_own? k k (changeOwn k e c s)
      rw [hch] at hp
      simp only [Option.map_some] at hp
      rw [sendOwn_sends _ _ _ _ hp]
      exact handOver_lc _ _ (by simp [changeOwn]) (by simp [changeOwn])
    · split
      · split <;> simp [changeOwn]
      · simp

/-- A RELEASE of reason OWN is sent where a list entry stands (R80). -/
theorem releaseOwn_sends (k : HoldKind) (s : State) : (releaseOwn k s).lc =
    (match s.hu.own? k with
      | none => s.lc
      | some _ => (handOver (.release ⟨byteOf (holdKindCode k), byteOf s.own, 0⟩) false s).lc) := by
  unfold releaseOwn
  cases h : s.hu.own? k with
  | none => rfl
  | some o =>
    dsimp only
    have hx : ∀ y : State, y.lc = s.lc → y.sl = s.sl →
        (handOver (.release ⟨byteOf (holdKindCode k), byteOf y.own, 0⟩) false y).lc =
          (handOver (.release ⟨byteOf (holdKindCode k), byteOf s.own, 0⟩) false s).lc := by
      intro y h1 h2
      have : y.own = s.own := by simp [State.own, h2]
      rw [this]
      exact handOver_lc _ _ h1 (by rw [h2])
    apply hx
    · split <;> simp
    · split <;> simp

end Sys2Proof.Machine
end

