-- ==== Sys2Proof/Laws/Tables.lean ====
section
/-! SUPPORT. The tables that follow the sheet: the sheet itself and the RESET line through every operation,
the wind table with its fused level, the cabin table with its cursors, and the mast level. -/

namespace Sys2Proof.Machine

/-! ### The sheet, the RESET line and JOINING -/

@[simp] theorem setStart_sl (st : StartState) (s : State) :
    (setStart st s).sl = { s.sl with start := st } := by
  unfold setStart
  simp

theorem enterListenOnly_sl (s : State) :
    (enterListenOnly s).sl.sheet = s.sl.sheet ∧ (enterListenOnly s).sl.resetHeld = s.sl.resetHeld ∧
    (enterListenOnly s).sl.start = .listenOnly := by
  unfold enterListenOnly
  dsimp only
  split <;> simp

theorem foundDuplicate_sl (s : State) :
    (foundDuplicate s).sl.sheet = s.sl.sheet ∧ (foundDuplicate s).sl.resetHeld = s.sl.resetHeld ∧
    (s.joined = true → (foundDuplicate s).joined = true) ∧
    (s.joined = false → (foundDuplicate s).joined = false) := by
  unfold foundDuplicate
  dsimp only
  split
  · next h =>
    obtain ⟨h1, h2, h3⟩ := enterListenOnly_sl (logLocal .lc 2 [byteOf (State.own (s.onLc (fun l =>
      { l with duplicate := true })))] (raise .dupStation (State.own (s.onLc (fun l =>
      { l with duplicate := true }))) (s.onLc (fun l => { l with duplicate := true }))))
    refine ⟨by simpa using h1, by simpa using h2, ?_, ?_⟩
    · intro _; unfold State.joined; rw [h3]
    · intro hj
      simp only [logLocal_spares, raise_spares, onLc_blocks] at h
      unfold State.joined at hj
      rcases h with h | h <;> rw [h] at hj <;> cases hj
  · simp [State.joined]

theorem receive_sl (t : Telegram) (s : State) :
    (receive t s).sl.sheet = s.sl.sheet ∧ (receive t s).sl.resetHeld = s.sl.resetHeld ∧
    (s.joined = true → (receive t s).joined = true) ∧
    (s.joined = false → (receive t s).joined = false) := by
  unfold receive
  split
  · simp [State.joined]
  · dsimp only
    split
    · unfold receiveDuplicate
      dsimp only
      split
      · simp [State.joined]
      · have h := foundDuplicate_sl (s.onLc (fun l => { l with echoDue := none }))
        simpa [State.joined] using h
    · simp [State.joined]

theorem enterRunning_sl (s : State) :
    (enterRunning s).sl.sheet = s.sl.sheet ∧ (enterRunning s).sl.resetHeld = s.sl.resetHeld ∧
    (enterRunning s).joined = true := by
  unfold enterRunning State.joined
  dsimp only
  (repeat' split) <;> simp_all

theorem endSettling_sl (s : State) :
    (endSettling s).sl = { s.sl with settled := true } := by
  unfold endSettling
  simp

theorem enterJoining_sl (sh : Sheet) (s : State) :
    (enterJoining sh s).sl = { s.sl with start := .joining, sheet := sh, joinedAt := s.clock.now } := by
  unfold enterJoining
  dsimp only
  split <;> simp [startConditions, startTimers, startTables, startPeers] <;> rfl

theorem serveDeferred_sl (s : State) : (serveDeferred s).sl = s.sl ∧ (serveDeferred s).wv = s.wv ∧
    (serveDeferred s).wmu = s.wmu := by
  unfold serveDeferred
  split <;> simp

/-! ### The fused level -/

theorem State.WindFused.of_eq {s t : State} (h : s.WindFused) (hw : t.wv = s.wv)
    (hs : t.sl.sheet = s.sl.sheet) : t.WindFused := by
  unfold State.WindFused at *
  rwa [hw, hs]

/-- A fused level formed again is that of its table (R65). -/
theorem formFused_fused (s : State) : (formFused s).WindFused ∧
    (formFused s).wv.records = s.wv.records := by
  unfold State.WindFused formFused WindView.freshLevels
  dsimp only
  (repeat' split) <;> simp

theorem takeWind_fused (n : Nat) (q : Byte) (p : WindPayload) {s : State} (h : s.WindFused) :
    (takeWind n q p s).1.WindFused := by
  unfold takeWind
  split
  · exact h
  · exact (formFused_fused _).1

/-! ### The cabin table -/

/-- The cabin table has `len` records and its cursors name cabins 1 to `n`. -/
def KnownForm (len n : Nat) (t : CabinTable) : Prop :=
  t.cabins.length = len ∧ ∀ b c, (t.cursor b).cabin = some c → 1 ≤ c ∧ c ≤ n

theorem setCursor_cursor (b d : BayId) (c : Cursor) (t : CabinTable) :
    (t.setCursor b c).cursor d = if d = b then c else t.cursor d := by
  cases b <;> cases d <;> rfl

theorem KnownForm.of_cabins {len n : Nat} {t u : CabinTable} (h : KnownForm len n t)
    (hl : u.cabins.length = t.cabins.length) (he : u.entryCursor = t.entryCursor)
    (hx : u.exitCursor = t.exitCursor) : KnownForm len n u := by
  refine ⟨hl.trans h.1, ?_⟩
  intro b c hc
  refine h.2 b c ?_
  cases b
  · rw [← hc]; show t.entryCursor.cabin = u.entryCursor.cabin; rw [he]
  · rw [← hc]; show t.exitCursor.cabin = u.exitCursor.cabin; rw [hx]

theorem onCabin_known (c : Nat) (f : Cabin → Cabin) (len n : Nat) (s : State)
    (h : KnownForm len n s.ct) : KnownForm len n (s.onCabin c f).ct :=
  h.of_cabins (by simp) rfl rfl

theorem gapStage_known (b : BayId) (st c : Nat) (len n : Nat) (s : State) (h : KnownForm len n s.ct) :
    KnownForm len n (gapStage b st c s).ct := by
  unfold gapStage
  split
  · exact h
  · dsimp only
    split
    · exact h
    · simp only [logLocal_spares, raise_spares]
      exact foldl_inv (P := fun t => KnownForm len n t.ct) (fun t d ht => onCabin_known _ _ _ _ _ ht) _ h

theorem supplyTags_known (b : BayId) (p : Passage) (len n : Nat) (s : State) (h : KnownForm len n s.ct) :
    KnownForm len n (supplyTags b p s).ct := by
  unfold supplyTags
  split
  · refine ⟨by simpa using h.1, ?_⟩
    intro d c hc
    simp only [onCt_blocks, setCursor_cursor] at hc
    split at hc
    · exact h.2 b c hc
    · exact h.2 d c hc
  · exact h

@[simp] theorem applyPassage_known (b : BayId) (st : Nat) (p : Passage) (len n : Nat) (s : State)
    (hn : s.sl.sheet.n = n) (h : KnownForm len n s.ct) : KnownForm len n (applyPassage b st p s).1.ct := by
  unfold applyPassage
  split
  · exact h
  · next r hr =>
    split
    · exact h
    · next hc =>
      split
      · exact supplyTags_known _ _ _ _ _ h
      · have h1 := gapStage_known b st p.cabin len n s h
        have h2 : KnownForm len n (resultStage b r p (gapStage b st p.cabin s)).ct :=
          onCabin_known _ _ _ _ _ h1
        have h3 : KnownForm len n (cursorStage b p (resultStage b r p (gapStage b st p.cabin s))).ct := by
          unfold cursorStage
          refine ⟨by simpa using h2.1, ?_⟩
          intro d c hd
          simp only [onCt_blocks, setCursor_cursor] at hd
          split at hd
          · cases hd
            omega
          · exact h2.2 d c hd
        unfold countStage
        dsimp only
        split
        · exact h3
        · simp only [testEmptyDown_spares, onCt_blocks]
          exact h3.of_cabins rfl rfl rfl

@[simp] theorem takePassage_known (r : Role) (m : Nat) (p : PassagePayload) (len n : Nat) (s : State) (hn : s.sl.sheet.n = n)
    (h : KnownForm len n s.ct) : KnownForm len n (takePassage r m p s).1.ct := by
  unfold takePassage
  try dsimp only
  (repeat' split) <;> first | with_reducible exact h | simp (maxDischargeDepth := 30) [h, hn]

@[simp] theorem takeSummary_known (r : Role) (m : Nat) (p : BayPayload) (len n : Nat) (s : State) (hn : s.sl.sheet.n = n)
    (h : KnownForm len n s.ct) : KnownForm len n (takeSummary r m p s).1.ct := by
  unfold takeSummary
  try dsimp only
  (repeat' split) <;> first | with_reducible exact h | simp (maxDischargeDepth := 30) [h, hn]

@[simp] theorem takeService_known (m : Nat) (p : ServicePayload) (len n : Nat) (s : State) (hn : s.sl.sheet.n = n)
    (h : KnownForm len n s.ct) : KnownForm len n (takeService m p s).1.ct := by
  unfold takeService
  split
  · exact h
  · exact h.of_cabins (by simp [serviceFrom]) rfl rfl

@[simp] theorem giveOwner_known (t : Telegram) (len n : Nat) (s : State) (hn : s.sl.sheet.n = n)
    (h : KnownForm len n s.ct) : KnownForm len n (giveOwner t s).1.ct := by
  unfold giveOwner
  try dsimp only
  (repeat' split) <;> first | with_reducible exact h | simp (maxDischargeDepth := 30) [h, hn]

@[simp] theorem acceptTelegram_known (t : Telegram) (len n : Nat) (s : State) (hn : s.sl.sheet.n = n)
    (h : KnownForm len n s.ct) : KnownForm len n (acceptTelegram t s).ct := by
  unfold acceptTelegram
  try dsimp only
  (repeat' split) <;> first | with_reducible exact h | simp (maxDischargeDepth := 30) [h, hn]

@[simp] theorem judgeTelegram_known (t : Telegram) (len n : Nat) (s : State) (hn : s.sl.sheet.n = n)
    (h : KnownForm len n s.ct) : KnownForm len n (judgeTelegram t s).ct := by
  unfold judgeTelegram
  try dsimp only
  (repeat' split) <;> first | with_reducible exact h | simp (maxDischargeDepth := 30) [h, hn]

@[simp] theorem receive_known (t : Telegram) (len n : Nat) (s : State) (hn : s.sl.sheet.n = n)
    (h : KnownForm len n s.ct) : KnownForm len n (receive t s).ct := by
  unfold receive
  try dsimp only
  (repeat' split) <;> first | with_reducible exact h | simp (maxDischargeDepth := 30) [h, hn]

@[simp] theorem handService_known (len n : Nat) (s : State) (hn : s.sl.sheet.n = n)
    (h : KnownForm len n s.ct) : KnownForm len n (handService s).ct := by
  unfold handService
  simp only [handOver_spares]
  exact h.of_cabins rfl rfl rfl

@[simp] theorem enterRunning_known (len n : Nat) (s : State) (hn : s.sl.sheet.n = n)
    (h : KnownForm len n s.ct) : KnownForm len n (enterRunning s).ct := by
  unfold enterRunning
  try dsimp only
  (repeat' split) <;> first | with_reducible exact h | simp (maxDischargeDepth := 30) [h, hn]

@[simp] theorem makePassage_known (c : Nat) (r : PassResult) (m : Option Nat) (ts : List Half) (len n : Nat) (s : State) (hn : s.sl.sheet.n = n)
    (h : KnownForm len n s.ct) : KnownForm len n (makePassage c r m ts s).ct := by
  unfold makePassage
  try dsimp only
  (repeat' split) <;> first | with_reducible exact h | simp (maxDischargeDepth := 30) [h, hn]

@[simp] theorem departEntry_known (len n : Nat) (s : State) (hn : s.sl.sheet.n = n)
    (h : KnownForm len n s.ct) : KnownForm len n (departEntry s).ct := by
  unfold departEntry
  try dsimp only
  (repeat' split) <;> first | with_reducible exact h | simp (maxDischargeDepth := 30) [h, hn]

@[simp] theorem departExit_known (e : Bool) (len n : Nat) (s : State) (hn : s.sl.sheet.n = n)
    (h : KnownForm len n s.ct) : KnownForm len n (departExit e s).ct := by
  unfold departExit
  try dsimp only
  (repeat' split) <;> first | with_reducible exact h | simp (maxDischargeDepth := 30) [h, hn]

@[simp] theorem arriveEntry_known (len n : Nat) (s : State) (hn : s.sl.sheet.n = n)
    (h : KnownForm len n s.ct) : KnownForm len n (arriveEntry s).ct := by
  unfold arriveEntry
  try dsimp only
  (repeat' split) <;> first | with_reducible exact h | simp (maxDischargeDepth := 30) [h, hn]

@[simp] theorem arriveExit_known (e : Bool) (len n : Nat) (s : State) (hn : s.sl.sheet.n = n)
    (h : KnownForm len n s.ct) : KnownForm len n (arriveExit e s).ct := by
  unfold arriveExit
  try dsimp only
  (repeat' split) <;> first | with_reducible exact h | simp (maxDischargeDepth := 30) [h, hn]

@[simp] theorem departLimitEntry_known (len n : Nat) (s : State) (hn : s.sl.sheet.n = n)
    (h : KnownForm len n s.ct) : KnownForm len n (departLimitEntry s).ct := by
  unfold departLimitEntry
  try dsimp only
  (repeat' split) <;> first | with_reducible exact h | simp (maxDischargeDepth := 30) [h, hn]

@[simp] theorem departLimitExit_known (e : Bool) (len n : Nat) (s : State) (hn : s.sl.sheet.n = n)
    (h : KnownForm len n s.ct) : KnownForm len n (departLimitExit e s).ct := by
  unfold departLimitExit
  try dsimp only
  (repeat' split) <;> first | with_reducible exact h | simp (maxDischargeDepth := 30) [h, hn]

@[simp] theorem setService_known (c v : Byte) (len n : Nat) (s : State) (hn : s.sl.sheet.n = n)
    (h : KnownForm len n s.ct) : KnownForm len n (setService c v s).1.ct := by
  unfold setService
  split
  · exact h
  · split
    · exact h
    · split
      · exact h
      · exact handService_known _ _ _ hn (h.of_cabins rfl rfl rfl)

@[simp] theorem serve_known (r : Request) (len n : Nat) (s : State) (hn : s.sl.sheet.n = n)
    (h : KnownForm len n s.ct) : KnownForm len n (serve r s).1.ct := by
  unfold serve
  try dsimp only
  (repeat' split) <;> first | with_reducible exact h | simp (maxDischargeDepth := 30) [h, hn]

@[simp] theorem carryOut_known (m : Byte) (r : Request) (len n : Nat) (s : State) (hn : s.sl.sheet.n = n)
    (h : KnownForm len n s.ct) : KnownForm len n (carryOut m r s).ct := by
  unfold carryOut
  try dsimp only
  (repeat' split) <;> first | with_reducible exact h | simp (maxDischargeDepth := 30) [h, hn]

@[simp] theorem putRequest_known (m : Byte) (r : Request) (len n : Nat) (s : State) (hn : s.sl.sheet.n = n)
    (h : KnownForm len n s.ct) : KnownForm len n (putRequest m r s).ct := by
  unfold putRequest
  try dsimp only
  (repeat' split) <;> first | with_reducible exact h | simp (maxDischargeDepth := 30) [h, hn]

@[simp] theorem serveDeferred_known (len n : Nat) (s : State) (hn : s.sl.sheet.n = n)
    (h : KnownForm len n s.ct) : KnownForm len n (serveDeferred s).ct := by
  unfold serveDeferred
  try dsimp only
  (repeat' split) <;> first | with_reducible exact h | simp (maxDischargeDepth := 30) [h, hn]

/-! ### The entry into JOINING -/

theorem startConditions_fused (s : State) : (startConditions s).WindFused :=
  (formFused_fused s).1.of_eq (by simp [startConditions]) (by simp [startConditions])

theorem enterJoining_fused (sh : Sheet) (s : State) : (enterJoining sh s).WindFused := by
  unfold enterJoining
  dsimp only
  split
  · refine (startConditions_fused ?_).of_eq ?_ ?_
    rotate_left
    · simp only [motionUpdate_spares, handPresence_spares, refreshMismatch_spares]
      rfl
    · simp only [motionUpdate_spares, handPresence_spares, refreshMismatch_spares]
  · refine (startConditions_fused ?_).of_eq ?_ ?_
    rotate_left
    · simp only [handPresence_spares, refreshMismatch_spares]
      rfl
    · simp only [handPresence_spares, refreshMismatch_spares]

/-- A request leaves the cursors (R128). -/
theorem carryOut_cursor (b : BayId) (n : Byte) (r : Request) (s : State) :
    (carryOut n r s).ct.cursor b = s.ct.cursor b := by
  have hs : ∀ c v : Byte, (setService c v s).1.ct.cursor b = s.ct.cursor b := by
    intro c v
    unfold setService handService
    (repeat' split) <;> simp only [handOver_spares, onCt_blocks] <;> cases b <;> rfl
  have hc : (carryOut n r s).ct = (serve r s).1.ct := by simp [carryOut, placeAnswer]
  rw [hc]
  cases r <;> simp [serve, hs]

theorem putRequest_cursor (b : BayId) (n : Byte) (r : Request) (s : State) :
    (putRequest n r s).ct.cursor b = s.ct.cursor b := by
  unfold putRequest
  (repeat' split) <;> first
    | rfl
    | exact carryOut_cursor _ _ _ _
    | simp

theorem serveDeferred_cursor (b : BayId) (s : State) : (serveDeferred s).ct.cursor b = s.ct.cursor b := by
  unfold serveDeferred
  split
  · exact carryOut_cursor _ _ _ _
  · rfl

theorem enterJoining_known (sh : Sheet) {s : State} (h : ∀ b c, (s.ct.cursor b).cabin ≠ some c) :
    KnownForm sh.n sh.n (enterJoining sh s).ct := by
  have hc : (enterJoining sh s).ct.cabins = startCabins sh ∧
      (enterJoining sh s).ct.entryCursor = s.ct.entryCursor ∧
      (enterJoining sh s).ct.exitCursor = s.ct.exitCursor := by
    unfold enterJoining
    dsimp only
    split <;> simp [startTables]
  refine ⟨by rw [hc.1]; simp [startCabins], ?_⟩
  intro b c hb
  refine absurd ?_ (h b c)
  cases b
  · simp only [CabinTable.cursor] at hb
    rw [hc.2.1] at hb
    exact hb
  · simp only [CabinTable.cursor] at hb
    rw [hc.2.2] at hb
    exact hb

/-- CabinsKnown by fields. -/
theorem cabinsKnown_of {s : State} (hj : s.joined = true)
    (h : KnownForm s.sl.sheet.n s.sl.sheet.n s.ct) : s.CabinsKnown :=
  ⟨fun _ => h.1, fun b c hc => ⟨hj, h.2 b c hc⟩⟩

theorem State.CabinsKnown.form {s : State} (h : s.CabinsKnown) (hj : s.joined = true) :
    KnownForm s.sl.sheet.n s.sl.sheet.n s.ct :=
  ⟨h.1 hj, fun b c hc => (h.2 b c hc).2⟩

/-- Before JOINING no cursor names a cabin. -/
theorem State.CabinsKnown.bare {s : State} (h : s.CabinsKnown) (hj : s.joined = false) (b : BayId)
    (c : Nat) : (s.ct.cursor b).cabin ≠ some c := by
  intro hc
  have := (h.2 b c hc).1
  rw [hj] at this
  cases this

theorem cabinsKnown_bare {s : State} (hj : s.joined = false) (h : ∀ b c, (s.ct.cursor b).cabin ≠ some c) :
    s.CabinsKnown :=
  ⟨fun h1 => (by rw [hj] at h1; cases h1), fun b c hc => absurd hc (h b c)⟩

theorem endLoading_fused (i : Option (List Byte)) {s : State} (h : s.WindFused) :
    (endLoading i s).WindFused := by
  unfold endLoading
  dsimp only
  split
  · exact (enterJoining_fused _ _).of_eq (serveDeferred_sl _).2.1 (by rw [(serveDeferred_sl _).1])
  · refine h.of_eq ?_ ?_
    · rw [(serveDeferred_sl _).2.1]; simp [enterSheetFault]
    · rw [(serveDeferred_sl _).1]; simp [enterSheetFault]

theorem endLoading_known (i : Option (List Byte)) {s : State} (h : s.CabinsKnown)
    (hl : s.sl.start = .loading) : (endLoading i s).CabinsKnown := by
  have hb := h.bare (show s.joined = false by unfold State.joined; rw [hl])
  unfold endLoading
  dsimp only
  split
  · next sh _ =>
    have hs := enterJoining_sl sh (s.onSl (fun l => { l with digest := readDigest i }))
    have hk := enterJoining_known sh (s := s.onSl (fun l => { l with digest := readDigest i })) hb
    refine cabinsKnown_of ?_ ?_
    · unfold State.joined; rw [(serveDeferred_sl _).1, hs]
    · rw [(serveDeferred_sl _).1, hs]
      exact serveDeferred_known _ _ _ (by rw [hs]) hk
  · refine cabinsKnown_bare ?_ ?_
    · unfold State.joined; rw [(serveDeferred_sl _).1]; simp [enterSheetFault]
    · intro b c hc
      rw [serveDeferred_cursor] at hc
      exact hb b c (by simpa [enterSheetFault] using hc)

/-! ### The mast level -/

theorem levelAt_code {n : Nat} (h : n ≤ 4) : windCode (levelAt n) = n := by
  obtain rfl | rfl | rfl | rfl | rfl : n = 0 ∨ n = 1 ∨ n = 2 ∨ n = 3 ∨ n = 4 := by omega
  all_goals rfl

theorem nextLevel_le (sh : Sheet) (v dwell : Nat) {cur : Nat} (h : cur ≤ 4) :
    (nextLevel sh v cur dwell).1 ≤ 4 := by
  unfold nextLevel
  split
  · next j hj =>
    have := List.mem_of_find?_eq_some hj
    simp only [List.mem_cons, List.not_mem_nil, or_false] at this
    omega
  · (repeat' split) <;> simp only <;> omega

theorem levelStage_le (g : SlotCfg) (sh : Sheet) {w : Wmu} (h : windCode w.level ≤ 4) :
    windCode (w.levelStage g sh).level ≤ 4 := by
  unfold Wmu.levelStage
  split
  · have hl := nextLevel_le sh w.v w.dwell h
    dsimp only
    rw [levelAt_code hl]
    exact hl
  · exact h

@[simp] theorem sendWind_level (s : State) : (sendWind s).wmu.level = s.wmu.level := by
  unfold sendWind
  simp

@[simp] theorem reportWind_level (f : Bool) (s : State) : (reportWind f s).wmu.level = s.wmu.level := by
  unfold reportWind
  (repeat' split) <;> simp

theorem closed_level (g : SlotCfg) (sh : Sheet) (v : BitVec 4) (now : Nat) (w : Wmu) :
    (w.closed g sh v now).level = w.level := by
  unfold Wmu.closed Wmu.assess
  dsimp only
  split <;> rfl

theorem levelAndReport_level (old : Wmu) {s : State} (h : windCode s.wmu.level ≤ 4) :
    windCode (levelAndReport old s).wmu.level ≤ 4 := by
  have hl := levelStage_le s.ownSlot s.sl.sheet h
  unfold levelAndReport
  dsimp only
  rw [reportWind_level]
  (repeat' split) <;> simp only [handLevelHolds_spares, logLevel_spares, onWmu_blocks] <;> exact hl

/-- A close leaves the level one of CALM to STORM (R11). -/
theorem windowClose_level (v : BitVec 4) {s : State} (h : windCode s.wmu.level ≤ 4) :
    windCode (windowClose v s).wmu.level ≤ 4 := by
  unfold windowClose
  dsimp only
  split
  · simp only [onWmu_blocks, closed_level]
    exact h
  · refine levelAndReport_level _ ?_
    simp only [onWmu_blocks, closed_level]
    exact h

/-! ### Telegrams and the end of LOADING as a whole -/

theorem giveOwner_fused (t : Telegram) {s : State} (h : s.WindFused) : (giveOwner t s).1.WindFused := by
  unfold giveOwner
  dsimp only
  (repeat' split) <;> first
    | exact h
    | exact takeWind_fused _ _ _ h
    | exact h.of_eq (by simp) (by simp)

theorem receive_fused (t : Telegram) {s : State} (h : s.WindFused) : (receive t s).WindFused := by
  refine State.WindFused.of_eq (s := { receive t s with sl := { s.sl with start := (receive t s).sl.start } })
    ?_ rfl (receive_sl t s).1
  refine State.WindFused.of_eq (s := { s with wv := (receive t s).wv }) ?_ rfl rfl
  have hk : ∀ u : State, u.sl.sheet = s.sl.sheet → u.WindFused →
      State.WindFused { s with wv := u.wv } := fun u hu hw => hw.of_eq rfl hu.symm
  unfold receive
  split
  · exact h.of_eq (by simp) rfl
  · dsimp only
    split
    · refine h.of_eq ?_ rfl
      unfold receiveDuplicate foundDuplicate enterListenOnly
      dsimp only
      (repeat' split) <;> simp
    · refine hk _ (by simp) ?_
      have hu : (s.onLc (fun l => { l with echoDue := none })).WindFused := h.of_eq rfl rfl
      unfold judgeTelegram
      split
      · exact hu
      · split
        · exact hu.of_eq (by simp [ignoreTelegram]) (by simp [ignoreTelegram])
        · exact hu.of_eq (by simp [refuseTelegram]) (by simp [refuseTelegram])
        · unfold acceptTelegram
          have hp : (pvTake t true (s.onLc (fun l => { l with echoDue := none }))).WindFused :=
            hu.of_eq (by simp) (by simp)
          exact (giveOwner_fused t hp).of_eq (by simp) (by simp)

theorem endLoading_held (i : Option (List Byte)) (s : State) :
    (endLoading i s).sl.resetHeld = s.sl.resetHeld ∧ (endLoading i s).wmu.level = s.wmu.level := by
  unfold endLoading
  dsimp only
  refine ⟨?_, ?_⟩
  · rw [(serveDeferred_sl _).1]
    split
    · rw [enterJoining_sl]; rfl
    · simp [enterSheetFault]
  · rw [(serveDeferred_sl _).2.2]
    split
    · unfold enterJoining
      dsimp only
      split <;> simp [startTimers]
    · simp [enterSheetFault]

/-- A state with the tables of a reset part: nothing fused, no cabin known (R71, R142). -/
theorem cleared_tables {s : State} (hw : s.wv = .reset) (hc : s.ct = .reset) (hl : s.sl.start = .loading)
    (hs : s.sl.sheet = .blank) : s.WindFused ∧ s.CabinsKnown := by
  refine ⟨?_, ?_⟩
  · unfold State.WindFused
    rw [hw, hs]
    exact ⟨by decide, by decide, by decide⟩
  · have hj : s.joined = false := by unfold State.joined; rw [hl]
    refine cabinsKnown_bare hj ?_
    intro b c
    rw [hc]
    cases b <;> exact fun h => by cases h

end Sys2Proof.Machine
end

