-- ==== Sys2Proof/Laws/Window.lean ====
section
/-! SUPPORT. The close of a measuring window (R1): WMU after it, channel by channel, and the level. -/

namespace Sys2Proof.Machine

/-- The channels, assessment and window count of two WMUs agree, overrange marks apart. -/
def WmuAgrees (w v : Wmu) : Prop :=
  w.sector = v.sector ∧ w.windowFrom = v.windowFrom ∧ w.windows = v.windows ∧ w.a = v.a ∧
        w.t = v.t ∧ w.v = v.v ∧
  w.channels.map (fun c => { c with overrangeMark := false }) = v.channels.map (fun c => { c with overrangeMark := false })

theorem WmuAgrees.refl (w : Wmu) : WmuAgrees w w := ⟨rfl, rfl, rfl, rfl, rfl, rfl, rfl⟩

theorem WmuAgrees.trans {a b c : Wmu} (h : WmuAgrees a b) (k : WmuAgrees b c) : WmuAgrees a c := by
  unfold WmuAgrees at *; obtain ⟨h1,h2,h3,h4,h5,h6,h7⟩ := h; simp_all

theorem sendWind_wmu (s : State) :
    WmuAgrees (sendWind s).wmu s.wmu ∧ (sendWind s).wmu.level = s.wmu.level ∧
   (sendWind s).wmu.dwell = s.wmu.dwell ∧ (sendWind s).wmu.blind = s.wmu.blind ∧
         (sendWind s).wmu.reportAt = s.clock.now := by
  unfold sendWind WmuAgrees; simp [State.now]

theorem reportWind_wmu (f) (s : State) :
    WmuAgrees (reportWind f s).wmu s.wmu ∧ (reportWind f s).wmu.level = s.wmu.level ∧
   (reportWind f s).wmu.dwell = s.wmu.dwell ∧ (reportWind f s).wmu.blind = s.wmu.blind ∧
   (((f : Prop) ∨ s.elapsed s.wmu.reportAt (s.wmu.reportPeriod s.now) = true) →
         (reportWind f s).wmu.reportAt = s.clock.now) := by
  unfold reportWind
  split
  · have := sendWind_wmu s; tauto
  · exact ⟨WmuAgrees.refl _, rfl, rfl, rfl, fun h => absurd h (by assumption)⟩

theorem levelStage_eq (g sh) (w : Wmu) :
    WmuAgrees (w.levelStage g sh) w ∧ (w.levelStage g sh).channels = w.channels ∧
    (w.levelStage g sh).reportAt = w.reportAt ∧ (w.levelStage g sh).changeAt = w.changeAt := by
  unfold Wmu.levelStage WmuAgrees; dsimp only; split <;> simp

/-- The level stage of a close: the level, its log, the holds, then the report. -/
theorem levelAndReport_shape (old : Wmu) (s : State) :
    let u := s.wmu.levelStage s.ownSlot s.sl.sheet
    let c := levelChanged old u || decide (old.windows < 12)
    ∃ y, levelAndReport old s = reportWind c (handLevelHolds old.level u.level y) ∧ y.wmu = { u with changeAt := if c then s.clock.now else s.wmu.changeAt } ∧
      y.clock = s.clock ∧ y.hu = s.hu ∧ y.sl = s.sl ∧ y.lc = s.lc := by
  have hch :
        (s.wmu.levelStage s.ownSlot s.sl.sheet).changeAt = s.wmu.changeAt :=
              (levelStage_eq _ _ _).2.2.2
  by_cases hc : levelChanged old (s.wmu.levelStage s.ownSlot s.sl.sheet) = true <;>
  by_cases hf : old.windows < 12
  · refine ⟨logLevel old (s.wmu.levelStage s.ownSlot s.sl.sheet) ((s.onWmu (·.levelStage s.ownSlot s.sl.sheet)).onWmu (fun w => { w with changeAt := s.now })), ?_, ?_, ?_, ?_, ?_, ?_⟩
    · unfold levelAndReport; simp [hc, hf]; rfl
    all_goals simp [hc, hf, logLevel, State.now]
  · refine ⟨logLevel old (s.wmu.levelStage s.ownSlot s.sl.sheet) ((s.onWmu (·.levelStage s.ownSlot s.sl.sheet)).onWmu (fun w => { w with changeAt := s.now })), ?_, ?_, ?_, ?_, ?_, ?_⟩
    · unfold levelAndReport; simp [hc, hf]; rfl
    all_goals simp [hc, hf, logLevel, State.now]
  · refine ⟨((s.onWmu (·.levelStage s.ownSlot s.sl.sheet)).onWmu (fun w => { w with changeAt := s.now })), ?_, ?_, ?_, ?_, ?_, ?_⟩
    · unfold levelAndReport; simp [hc, hf]; rfl
    all_goals simp [hc, hf, State.now]
  · refine ⟨((s.onWmu (·.levelStage s.ownSlot s.sl.sheet))), ?_, ?_, ?_, ?_, ?_, ?_⟩
    · unfold levelAndReport; simp [hc, hf]
    · rw [if_neg (by simp [hc, hf]), ← hch]; rfl
    all_goals rfl

/-- A window close as measuring, fault reports and the level stage. -/
theorem windowClose_eq (v : BitVec 4) (s : State) :
    windowClose v s =
      (let w := s.wmu.closed s.ownSlot s.sl.sheet v s.clock.now
       let m := s.wmu.measured s.ownSlot s.sl.sheet.k v s.clock.now
       let r := reportFaults 0 m.channels (m.judged s.ownSlot).channels s
       let c := r.onWmu (fun _ => w)
       if w.windows < 12 then c else levelAndReport s.wmu c) := by
  unfold windowClose
  dsimp only
  have : (reportFaults 0 (s.wmu.measured s.ownSlot s.sl.sheet.k v s.now).channels ((s.wmu.measured s.ownSlot s.sl.sheet.k v s.now).judged s.ownSlot).channels s).now = s.clock.now := by simp [State.now]
  simp only [this]
  simp [State.now]

theorem closed_facts (g sh) (vane) (now) (w : Wmu) :
    (w.closed g sh vane now).sector = vaneSector vane ∧ (w.closed g sh vane now).windowFrom =
    some now ∧ (w.closed g sh vane now).windows = min 12 (w.windows + 1) ∧
    (w.closed g sh vane now).level = w.level ∧ (w.closed g sh vane now).dwell = w.dwell ∧
    (w.closed g sh vane now).blind = w.blind ∧ (w.closed g sh vane now).reportAt = w.reportAt ∧
    (w.closed g sh vane now).changeAt = w.changeAt := by
  unfold Wmu.closed Wmu.assess Wmu.judged Wmu.measured Wmu.latchAll
  dsimp only
  split <;> simp

theorem windowClose_wmu (v : BitVec 4) (s : State) :
    WmuAgrees (windowClose v s).wmu (s.wmu.closed s.ownSlot s.sl.sheet v s.clock.now) := by
  rw [windowClose_eq]; dsimp only
  split
  · simp [WmuAgrees]
  · obtain ⟨y, h1, h2, h3,
        h4, _⟩ := levelAndReport_shape s.wmu (State.onWmu (fun _ =>
              s.wmu.closed s.ownSlot s.sl.sheet v s.clock.now) (reportFaults 0 (s.wmu.measured s.ownSlot s.sl.sheet.k v s.clock.now).channels ((s.wmu.measured s.ownSlot s.sl.sheet.k v s.clock.now).judged s.ownSlot).channels s))
    rw [h1]
    refine WmuAgrees.trans (reportWind_wmu _ _).1 ?_
    have hwm : ∀ a b z, (handLevelHolds a b z).wmu = z.wmu := by intro a b z; simp
    rw [hwm]
    rw [h2]
    have := levelStage_eq s.ownSlot s.sl.sheet (s.wmu.closed s.ownSlot s.sl.sheet v s.clock.now)
    simpa [WmuAgrees, State.ownSlot, State.own] using this.1

theorem exposeChannels_get (g : SlotCfg) (sec : Nat) (cs : List Channel) (i : Nat) :
    ∃ er, (exposeChannels g sec cs)[i]? = cs[i]?.map (fun c => if (g.channel i).enabled then
      ({ (c.expose (g.exposure.getD sec 0)) with adjusted := adjust er (g.channel i) (c.expose (g.exposure.getD sec 0)) } : Channel) else c) := by
  refine ⟨referenceExposure g (mapEnabled g (fun _ _ c => c.expose (g.exposure.getD sec 0)) cs), ?_⟩
  unfold exposeChannels
  simp only [mapEnabled, List.getElem?_mapIdx]
  cases cs[i]? <;> simp
  split <;> rfl

/-- One channel after a close. -/
theorem closed_get (g : SlotCfg) (sh : Sheet) (v : BitVec 4) (n : Nat) (w : Wmu) (i : Nat) :
    ∃ er wind,
          (w.closed g sh v n).channels[i]? = w.channels[i]?.map (fun c =>
                if (g.channel i).enabled then
      let x := (((c.latch.measure sh.k (g.channel i)).judgeStuck wind).judgeOver (g.channel i)).expose (g.exposure.getD (vaneSector v) 0)
      ({ x with adjusted := adjust er (g.channel i) x } : Channel) else c) := by
  have hch :
        (w.closed g sh v n).channels =
              exposeChannels g (vaneSector v) (judgeChannels g (mapEnabled g (fun _ h c =>
                    c.latch.measure sh.k h) w.channels)) := by
    unfold Wmu.closed Wmu.assess Wmu.judged Wmu.measured Wmu.latchAll
    dsimp only
    split <;> rfl
  rw [hch]
  obtain ⟨er,
        h⟩ := exposeChannels_get g (vaneSector v) (judgeChannels g (mapEnabled g (fun _ h c =>
              c.latch.measure sh.k h) w.channels)) i
  refine ⟨er, windElsewhere g (mapEnabled g (fun _ h c => c.latch.measure sh.k h) w.channels) i, ?_⟩
  rw [h]
  simp only [judgeChannels, mapEnabled, List.getElem?_mapIdx]
  cases w.channels[i]? <;> simp
  split <;> rfl

theorem joinRing_eq (r : List Nat) (x : Nat) (h : r.length ≤ 12) :
    joinRing r x = (r ++ [x]).drop (r.length + 1 - 12) := by
  unfold joinRing
  split
  · rw [show r.length + 1 - 12 = 0 by omega]; rfl
  · rw [show r.length + 1 - 12 = 1 by omega, List.drop_append_of_le_length (by omega)]

theorem nextMean_eq (k x m : Nat) :
    (nextMean k x m true : Int) = m + (16 * (x : Int) - m) / 2 ^ k := by
  unfold nextMean
  simp only [if_true]
  have h2 : ((2 ^ k : Nat) : Int) = (2:Int)^k := by push_cast; rfl
  rw [h2]
  have hp : (0:Int) < 2 ^ k := by positivity
  have : -(m:Int) ≤ (16 * (x : Int) - m) / 2 ^ k := by
    rw [Int.le_ediv_iff_mul_le hp]
    have : (1:Int) ≤ 2 ^ k := hp
    nlinarith
  omega

theorem le_foldl_max (l : List Nat) :
    ∀ b, b ≤ l.foldl max b ∧ (∀ x ∈ l, x ≤ l.foldl max b) ∧
    (l.foldl max b ≠ b → l.foldl max b ∈ l) := by
  induction l with
  | nil => intro b; simp
  | cons a l ih =>
    intro b
    obtain ⟨h1, h2, h3⟩ := ih (max b a)
    simp only [List.foldl_cons]
    refine ⟨le_trans (le_max_left _ _) h1, ?_, ?_⟩
    · intro x hx
      rcases List.mem_cons.mp hx with rfl | hx
      · exact le_trans (le_max_right _ _) h1
      · exact h2 x hx
    · intro hne
      by_cases he : l.foldl max (max b a) = max b a
      · rcases le_total a b with hab | hab
        · rw [he] at hne; simp [hab] at hne
        · rw [he]; simp [hab]
      · exact List.mem_cons_of_mem _ (h3 he)

theorem mem_mapIdx_iff {α β} (f : Nat → α → β) (l : List α) (b : β) :
    b ∈ l.mapIdx f ↔ ∃ i a, l[i]? = some a ∧ f i a = b := by
  simp only [List.mem_iff_getElem?, List.getElem?_mapIdx, Option.map_eq_some_iff]

theorem closed_length (g sh v n) (w : Wmu) :
    (w.closed g sh v n).channels.length = w.channels.length := by
  unfold Wmu.closed Wmu.assess Wmu.judged Wmu.measured Wmu.latchAll exposeChannels judgeChannels mapEnabled
  dsimp only
  split <;> simp

/-- The assessment after a close. -/
theorem closed_assessment (g sh v n) (w : Wmu) : let u := w.closed g sh v n
   (anyWorking g u.channels = true → u.a = greatestExposure g u.channels ∧
         u.t = turbulence g u.channels ∧ u.v = assessedValue sh.spread u.a u.t) ∧
   (anyWorking g u.channels = false → u.a = 0 ∧ u.t = 0 ∧ u.v = 0) := by
  unfold Wmu.closed Wmu.assess Wmu.judged Wmu.measured Wmu.latchAll
  dsimp only
  split <;> simp_all

/-- A close after warm-up ends in the report. -/
theorem windowClose_warm (v : BitVec 4) (s : State) (h11 : 11 ≤ s.wmu.windows) :
    let w := s.wmu.closed s.ownSlot s.sl.sheet v s.clock.now
    let u := w.levelStage s.ownSlot s.sl.sheet
    let c := levelChanged s.wmu u || decide (s.wmu.windows < 12)
    ∃ y, windowClose v s = reportWind c (handLevelHolds s.wmu.level u.level y) ∧
      y.wmu = { u with changeAt := if c then s.clock.now else s.wmu.changeAt } ∧ y.clock = s.clock ∧ y.hu = s.hu ∧
      y.sl = s.sl ∧ y.lc = s.lc := by
  obtain ⟨f1, f2, f3, f4, f5, f6, f7, f8⟩ := closed_facts s.ownSlot s.sl.sheet v s.clock.now s.wmu
  rw [windowClose_eq]; dsimp only
  rw [if_neg (by omega)]
  generalize hC :
        State.onWmu (fun _ =>
              s.wmu.closed s.ownSlot s.sl.sheet v s.clock.now) (reportFaults 0 (s.wmu.measured s.ownSlot s.sl.sheet.k v s.clock.now).channels ((s.wmu.measured s.ownSlot s.sl.sheet.k v s.clock.now).judged s.ownSlot).channels s) = C
  have c1 : C.ownSlot = s.ownSlot := by subst hC; simp [State.ownSlot, State.own]
  have c2 : C.sl = s.sl := by subst hC; simp
  have c3 : C.wmu = s.wmu.closed s.ownSlot s.sl.sheet v s.clock.now := by subst hC; simp
  have c4 : C.clock = s.clock := by subst hC; simp
  have c5 : C.hu = s.hu := by subst hC; simp
  have c6 : C.lc = s.lc := by subst hC; simp
  obtain ⟨y, h1, h2, h3, h4, h5, h6⟩ := levelAndReport_shape s.wmu C
  rw [c1, c2, c3] at h1 h2
  rw [c4, f8] at h2
  exact ⟨y, h1, h2, h3.trans c4, h4.trans c5, h5.trans c2, h6.trans c6⟩

/-- The level that a value rises to: the highest one entered. -/
theorem riseTo_spec (sh : Sheet) (v cur : Nat) :
    (∀ j, riseTo sh v cur = some j → cur < j ∧ j ≤ 4 ∧ sh.enter.getD (j-1) 0 ≤ v ∧ ∀ i,
          cur < i → i ≤ 4 → sh.enter.getD (i-1) 0 ≤ v → i ≤ j) ∧
    (riseTo sh v cur = none → ∀ j, cur < j → j ≤ 4 → ¬ sh.enter.getD (j-1) 0 ≤ v) := by
  have key : ∀ j, cur < j → j ≤ 4 → j = 1 ∨ j = 2 ∨ j = 3 ∨ j = 4 := by omega
  have pk : ∀ j, ((decide (cur < j) && decide (sh.enter.getD (j - 1) 0 ≤ v)) = true ↔ (cur < j ∧ sh.enter.getD (j-1) 0 ≤ v)) := by intro j; simp
  have un : riseTo sh v cur = if (cur < 4 ∧ sh.enter.getD 3 0 ≤ v) then some 4 else if (cur < 3 ∧
        sh.enter.getD 2 0 ≤ v) then some 3 else if (cur < 2 ∧
              sh.enter.getD 1 0 ≤ v) then some 2 else if (cur < 1 ∧
                    sh.enter.getD 0 0 ≤ v) then some 1 else none := by
    unfold riseTo
    simp only [List.find?_cons, List.find?_nil]
    by_cases a : (cur < 4 ∧ sh.enter.getD 3 0 ≤ v)
    · rw [if_pos a, (pk 4).mpr a]
    rw [if_neg a, (Bool.eq_false_iff.mpr (fun h => a ((pk 4).mp h)))]
    by_cases b : (cur < 3 ∧ sh.enter.getD 2 0 ≤ v)
    · rw [if_pos b, (pk 3).mpr b]
    rw [if_neg b, (Bool.eq_false_iff.mpr (fun h => b ((pk 3).mp h)))]
    by_cases c : (cur < 2 ∧ sh.enter.getD 1 0 ≤ v)
    · rw [if_pos c, (pk 2).mpr c]
    rw [if_neg c, (Bool.eq_false_iff.mpr (fun h => c ((pk 2).mp h)))]
    by_cases d : (cur < 1 ∧ sh.enter.getD 0 0 ≤ v)
    · rw [if_pos d, (pk 1).mpr d]
    rw [if_neg d, (Bool.eq_false_iff.mpr (fun h => d ((pk 1).mp h)))]
  rw [un]
  refine ⟨?_, ?_⟩
  · intro j hj
    split at hj
    · injection hj with hj; subst hj; next a => exact ⟨a.1, le_refl _, a.2, fun i _ h _ => h⟩
    split at hj
    · injection hj with hj; subst hj; next n a =>
      refine ⟨a.1, by omega, a.2, fun i h1 h2 h3 => ?_⟩
      by_contra hc
      obtain rfl : i = 4 := by omega
      exact n ⟨h1, h3⟩
    split at hj
    · injection hj with hj; subst hj; next n m a =>
      refine ⟨a.1, by omega, a.2, fun i h1 h2 h3 => ?_⟩
      by_contra hc
      have : i = 4 ∨ i = 3 := by omega
      rcases this with rfl | rfl
      · exact n ⟨h1, h3⟩
      · exact m ⟨h1, h3⟩
    split at hj
    · injection hj with hj; subst hj; next n m k a =>
      refine ⟨a.1, by omega, a.2, fun i h1 h2 h3 => ?_⟩
      by_contra hc
      have : i = 4 ∨ i = 3 ∨ i = 2 := by omega
      rcases this with rfl | rfl | rfl
      · exact n ⟨h1, h3⟩
      · exact m ⟨h1, h3⟩
      · exact k ⟨h1, h3⟩
    · cases hj
  · intro hn j h1 h2 h3
    split at hn
    · cases hn
    split at hn
    · cases hn
    split at hn
    · cases hn
    split at hn
    · cases hn
    next n m k l =>
    rcases key j h1 h2 with rfl | rfl | rfl | rfl
    · exact l ⟨h1, h3⟩
    · exact k ⟨h1, h3⟩
    · exact m ⟨h1, h3⟩
    · exact n ⟨h1, h3⟩

theorem handLevelHolds_storm (o : WindLevel) (y : State) (h : windCode o < windCode .storm) :
    handLevelHolds o .storm y = declareHold .storm .stop .level y := by
  unfold handLevelHolds; rw [if_pos h]

theorem handLevelHolds_hold (o : WindLevel) (y : State) (h : windCode o < windCode .hold) :
    handLevelHolds o .hold y = declareHold .wind .empty .level y := by
  unfold handLevelHolds; rw [if_pos h]

theorem handLevelHolds_stormToHold (y : State) :
    handLevelHolds .storm .hold y = releaseOwn .storm (declareHold .wind .empty .level y) := by
  unfold handLevelHolds; rfl

theorem handLevelHolds_holdToGusty (y : State) :
    handLevelHolds .hold .gusty y = releaseOwn .wind y := by
  unfold handLevelHolds; rfl

theorem windCode_levelAt (n : Nat) (h : n ≤ 4) : windCode (levelAt n) = n := by
  have : n = 0 ∨ n = 1 ∨ n = 2 ∨ n = 3 ∨ n = 4 := by omega
  rcases this with rfl | rfl | rfl | rfl | rfl <;> rfl

theorem levelAt_windCode (l : WindLevel) (h : windCode l ≤ 4) : levelAt (windCode l) = l := by
  cases l <;> simp_all [windCode, levelAt, windOf]

theorem windCode_injective (a b : WindLevel) (h : windCode a = windCode b) : a = b := by
  cases a <;> cases b <;> simp_all [windCode]

end Sys2Proof.Machine
end

