-- ==== Sys2Proof/WellFormed.lean ====
section
/-! DEFINITION. Which terms of Instr are events that the spec describes: the operands lie within the
ranges that a telegram, a sheet read or a transaction can have. exec is total beyond them (log entries 9
and 35). -/

namespace Sys2Proof

/-- The telegram of a received row. -/
def receivedTelegram (sender : BitVec 5) (seq : Byte) (p : Payload) : Telegram :=
  { sender := sender, seq := seq, payload := p }

/-- A received row carries a telegram that is not malformed (R26). -/
def receivedOk (sender : BitVec 5) (p : Payload) : Bool :=
  Machine.telegramOk (receivedTelegram sender 0 p)

/-- The operands of a command are ones that the spec gives its event. -/
def Instr.wellFormed : Instr → Bool
  | .sheetReadComplete (some im) => im.length == 270
  | .holdReceived n _ p => receivedOk n (.hold p)
  | .releaseReceived n _ p => receivedOk n (.release p)
  | .motionReceived n _ p => receivedOk n (.motion p)
  | .passageReceived n _ p => receivedOk n (.passage p)
  | .bayReceived n _ p => receivedOk n (.bay p)
  | .windReceived n _ p => receivedOk n (.wind p)
  | .orderReceived n _ p => receivedOk n (.order p)
  | .serviceReceived n _ p => receivedOk n (.service p)
  | .presenceReceived n _ p => receivedOk n (.presence p)
  | .markReceived n _ p => receivedOk n (.mark p)
  | .telegramCheckFailed frame => (Machine.telegramOf frame).isNone
  | .putUnknownRequest code _ length => Machine.requestLength code.toNat != some length.toNat
  | _ => true

end Sys2Proof
end

