-- ==== Sys2Proof/Tests/Slice0.lean ====
section
/-! SUPPORT. Tests on small states: the ill-formed terms that WellFormed refuses, and for every statement with
hypotheses a state and operands that meet them, clause by clause, at the boundary of each range. -/

set_option linter.style.longLine false

namespace Sys2Proof.Tests

set_option Elab.async false

open Sys2Proof Sys2Proof.Machine

/-! ### A wheel for the tests: drive 0, mast 1, entry bay 2, exit bay 3, desk 4, drive 5 -/

/-- One channel with cal 250,000 and weight 100, one without weight. -/
def slot0 : SlotCfg :=
  { channels := [⟨true, true, 250000, 100⟩, ⟨true, false, 250000, 0⟩, ⟨false, false, 0, 0⟩, ⟨false, false, 0, 0⟩]
    exposure := List.replicate 16 128 }

/-- The sheet of the wheel. -/
def sheet : Sheet :=
  { Sheet.blank with
    roster := [.drive, .mast, .entry, .exit, .desk, .drive] ++ List.replicate 18 .unfitted
    timeSource := 0x10
    n := 16
    classes := [.priv, .stepFree] ++ List.replicate 62 .standard
    capStandard := 10
    capStepFree := 5
    capPrivate := 4
    run := 300
    slow := 150
    creep := 50
    aUp := 5
    aDn := 5
    aStop := 20
    g := 512
    trimLimit := 50
    minDrives := 1
    minMasts := 1
    idleOne := 60
    idleTwo := 300
    emptyLimit := 600
    skipLimit := 3
    sharing := true
    slots := slot0 :: List.replicate 3 ⟨[], []⟩
    k := 4
    spread := 100
    enter := [5000, 8000, 11000, 15000]
    leave := [4000, 7000, 10000, 14000]
    dwell := [60, 60, 60, 60] }

/-- A settled station in RUNNING at 100,000 ms, with nothing heard. -/
def station (n : Nat) (role : BitVec 3) : State :=
  let s := State.reset
  { s with
    clock := { now := 100000, station := 100000 }
    sl := { s.sl with start := .running, station := n, roleCode := role, sheet := sheet, settled := true }
    pv := { s.pv with table := rosterTable sheet }
    wv := { s.wv with records := windTable sheet }
    ct := { s.ct with cabins := startCabins sheet, occupied := 16 } }

def drive : State := station 0 0
def mast : State := station 1 1
def entry : State := station 2 2
def exit_ : State := station 3 3
def desk : State := station 4 4

/-- The same station in another start state. -/
def started (st : StartState) (s : State) : State := { s with sl := { s.sl with start := st } }

/-- The next state of a command. -/
def nxt (c : Instr) (s : State) : State :=
  match exec c s with
  | .next t => t
  | _ => s

/-- The same station one millisecond earlier. -/
def before1 (s : State) : State := { s with clock := { s.clock with now := s.clock.now - 1 } }

/-- A station with RESET asserted. -/
def held : State := nxt .resetAsserted State.reset

/-! ### WellFormed refuses every ill-formed term -/

theorem test_wellFormed_refuses_short_image : (Instr.sheetReadComplete (some [])).wellFormed = false := by decide
theorem test_wellFormed_refuses_sender : (Instr.markReceived 24 0 ⟨0⟩).wellFormed = false ∧
    (Instr.motionReceived 31 0 ⟨0, 0, 0, 0, 0, 0⟩).wellFormed = false ∧
    (Instr.bayReceived 24 0 ⟨0, 0, 0, 0, 0, 0, 0, 0, 0, 0⟩).wellFormed = false ∧
    (Instr.windReceived 24 0 ⟨0, 0, 0, 0, 0, 0⟩).wellFormed = false ∧
    (Instr.orderReceived 24 0 ⟨0, 0⟩).wellFormed = false ∧
    (Instr.serviceReceived 24 0 ⟨0, 0⟩).wellFormed = false ∧
    (Instr.presenceReceived 24 0 ⟨0, 0, 0, 0⟩).wellFormed = false := by decide
theorem test_wellFormed_refuses_hold_kind : (Instr.holdReceived 0 0 ⟨5, 0, 0, 0⟩).wellFormed = false := by decide
theorem test_wellFormed_refuses_release : (Instr.releaseReceived 0 0 ⟨5, 0, 0⟩).wellFormed = false ∧
    (Instr.releaseReceived 0 0 ⟨4, 0, 2⟩).wellFormed = false := by decide
theorem test_wellFormed_refuses_tags :
    (Instr.passageReceived 2 0 ⟨0, 1, 4, 5, [1, 2, 3, 4, 5]⟩).wellFormed = false := by decide
theorem test_wellFormed_refuses_intact_frame : (Instr.telegramCheckFailed
    (telegramBytes ⟨4, 7, .order ⟨3, 1⟩⟩)).wellFormed = false := by decide +kernel
theorem test_wellFormed_refuses_known_request : (Instr.putUnknownRequest 1 0 0).wellFormed = false := by decide
theorem test_wellFormed_accepts : (Instr.holdReceived 23 255 ⟨4, 0, 0, 0⟩).wellFormed = true ∧
    (Instr.passageReceived 2 0 ⟨0, 1, 4, 5, [1, 2, 3, 4]⟩).wellFormed = true ∧
    (Instr.putUnknownRequest 1 0 1).wellFormed = true ∧ (Instr.putUnknownRequest 99 0 0).wellFormed = true ∧
    (Instr.telegramCheckFailed []).wellFormed = true ∧ (Instr.sheetReadComplete none).wellFormed = true := by decide

/-! ### The check and a telegram's bytes (R27) -/

/-- The bytes of an ORDER, with the check worked out from the polynomial. -/
theorem test_telegram_bytes : telegramBytes ⟨4, 7, .order ⟨3, 1⟩⟩ =
    withCheck [0x64, 0x06, 0x07, 0x02, 0x03, 0x01] := by decide +kernel
theorem test_check_of_nine_digits :
    crc16 [0x31, 0x32, 0x33, 0x34, 0x35, 0x36, 0x37, 0x38, 0x39] = 0x29B1 := by decide +kernel

/-! ### Steps and resets -/

theorem test_idle_step : State.reset.pending = [] ∧ State.reset.sl.resetHeld = false ∧
    held.pending = [] ∧ held.sl.resetHeld = true := by decide +kernel
theorem test_held_station_ignores : (∀ l, Instr.align ≠ .powerOn l) ∧ (∀ l, Instr.align ≠ .resetReleased l) ∧
    (∀ v, Instr.align ≠ .brakeFbChange v) ∧ (∀ v, Instr.align ≠ .gateClear v) ∧
    (∀ v, Instr.align ≠ .doorLocked v) ∧ held.sl.resetHeld = true :=
  ⟨nofun, nofun, nofun, nofun, nofun, by decide +kernel⟩

/-- Under RESET the pins follow their lines, and POWER_ON leaves the part reset. -/
theorem test_held_pins : (nxt (.brakeFbChange true) held).pins.brakeReleased = true ∧
    (nxt (.gateClear false) held).pins.gateClear = false ∧
    (nxt (.doorLocked false) held).pins.doorLocked = false ∧
    (nxt (.powerOn ⟨2, 2⟩) held).sl.resetHeld = true ∧
    (nxt (.powerOn ⟨2, 2⟩) State.reset).sl.resetHeld = false := by decide +kernel
theorem test_release : held.sl.resetHeld = true ∧ (nxt (.resetReleased ⟨4, 4⟩) held).sl = .reset ⟨4, 4⟩ false ∧
    State.reset.sl.resetHeld = false := by decide +kernel

/-- The write positions before, at and after the two crossings. -/
theorem test_restart : ∀ w ∈ [1, 126, 127, 128, 254, 255],
    let s := { desk with lu := { desk.lu with writePos := w } }
    s.sl.resetHeld = false ∧ s.lu.ring.length = 256 ∧ s.lu.writePos < 256 ∧
    (nxt (.restart 0 ⟨2, 2⟩) s).lu.queue.length = (if w = 127 ∨ w = 255 then 2 else 1) ∧
    (nxt .resetAsserted s).lu.writePos = (w + 1) % 256 := by decide +kernel

/-! ### Start-up -/

/-- A sheet image: the wheel of these tests with cabins all STANDARD. -/
def image : List Byte :=
  let head : List Byte := [0, 1, 2, 3, 4, 0] ++ List.replicate 18 7 ++ [0x10, 0, 0, 16] ++ List.replicate 16 0
    ++ [10, 5, 4] ++ List.replicate 8 0
    ++ [1, 44, 0, 150, 0, 50, 5, 5, 20, 2, 0, 50, 1, 1, 0, 60, 1, 44, 2, 88, 3, 1]
    ++ [3, 3, 208, 144, 100, 1, 3, 208, 144, 0] ++ List.replicate 10 0 ++ List.replicate 16 128
    ++ List.replicate 108 0
    ++ [4, 0, 100, 19, 136, 31, 64, 42, 248, 58, 152, 15, 160, 27, 88, 39, 16, 54, 176, 0, 60, 0, 60, 0, 60, 0, 60]
    ++ List.replicate 6 0 ++ List.replicate 8 255 ++ List.replicate 6 0
  head ++ be16 (digestSum head)

/-- A station in LOADING under a number and a role. -/
def loading (n : BitVec 5) (role : BitVec 3) : State := nxt (.powerOn ⟨n, role⟩) State.reset

theorem test_good_sheet : imageOk image = true := by decide +kernel
theorem test_good_sheet_joins : (loading 2 2).sl.resetHeld = false ∧ (loading 2 2).sl.start = .loading ∧
    strapsOk (loading 2 2).sl.station (loading 2 2).sl.roleCode (sheetOf image) = true ∧
    (nxt (.sheetReadComplete (some image)) (loading 2 2)).sl.start = .joining := by decide +kernel
theorem test_loading_port : (loading 2 2).rp.Wf := Port.reset_wf
theorem test_bad_sheets : (loading 2 2).takenSheet none = none ∧ (loading 2 2).takenSheet (some []) = none ∧
    (loading 24 2).takenSheet (some image) = none ∧ (loading 2 3).takenSheet (some image) = none ∧
    (nxt (.sheetReadComplete (some image)) (loading 2 3)).sl.start = .sheetFault := by decide +kernel

/-- Each start-state timer at its time and one millisecond before. -/
theorem test_start_timers :
    let j := started .joining { desk with sl := { desk.sl with joinedAt := 98000 } }
    let r := { entry with sl := { entry.sl with runningAt := 85000, settled := false } }
    let f := { entry with sl := { entry.sl with runningAt := 90000 } }
    j.joiningDue = true ∧ (nxt .joiningEnd j).sl.start = .running ∧
    r.settlingDue = true ∧ (nxt .settlingEnd r).sl.settled = true ∧ (started .listenOnly r).settlingDue = true ∧
    f.flagDue = true ∧ (nxt .restartedFlagClear f).pv.restartedFlag = false ∧
    { j with clock := ⟨99999, 0⟩ }.joiningDue = false ∧ { r with clock := ⟨99999, 0⟩ }.settlingDue = false ∧
    { f with clock := ⟨99999, 0⟩ }.flagDue = false := by decide +kernel

/-- The entry into RUNNING of a desk that is the time source and of a bay, and the end of settling with a LINK
condition holding. -/
theorem test_entry_into_running :
    let j := fun s : State => started .joining { s with sl := { s.sl with joinedAt := 98000 } }
    let l := { desk with
      sl := { desk.sl with runningAt := 85000, settled := false }
      hu := { desk.hu with cond := { desk.hu.cond with baySilent := true } } }
    (j desk).role = .desk ∧ (j desk).sl.sheet.timeSource.getLsbD 4 = true ∧
    ((nxt .joiningEnd (j desk)).lc.queue.map (fun e => payloadKind e.payload)) = [.order, .service, .mark] ∧
    (nxt .joiningEnd (j entry)).lc.queue = [] ∧
    ((nxt .settlingEnd l).hu.own? .link).map (·.cause) = some .baySilent := by decide +kernel

/-! ### Wind measurement -/

/-- A mast with a window open for the whole 250 ms and counts c and d on its two channels. -/
def measuring (windows c d : Nat) : State :=
  { mast with wmu := { mast.wmu with
      windowFrom := some 99750
      windows := windows
      channels := [{ Channel.reset with counter := c }, { Channel.reset with counter := d },
        Channel.reset, Channel.reset] } }

theorem measuring_wf (windows c d : Nat) (hw : windows ≤ 12) (hc : c ≤ 1023) (hd : d ≤ 1023) :
    (measuring windows c d).wmu.Wf := by
  refine ⟨rfl, ?_, hw⟩
  intro x hx
  have h : x = { Channel.reset with counter := c } ∨ x = { Channel.reset with counter := d } ∨
      x = Channel.reset := by
    simpa [measuring] using hx
  rcases h with rfl | rfl | rfl
  · exact ⟨hc, Nat.zero_le _, Nat.zero_le _, rfl, (by show 0 < 10; decide)⟩
  · exact ⟨hd, Nat.zero_le _, Nat.zero_le _, rfl, (by show 0 < 10; decide)⟩
  · exact ⟨by decide, by decide, by decide, rfl, by decide⟩

theorem test_cup_pulse :
    let s := measuring 0 1022 0
    s.role = .mast ∧ s.wmu.windowFrom.isSome = true ∧ (s.ownSlot.channel 0).enabled = true ∧
    (nxt (.cupPulse 0) (nxt (.cupPulse 0) s)).wmu.channels.map (·.counter) = [1023, 0, 0, 0] ∧
    (s.ownSlot.channel 2).enabled = false ∧ mast.wmu.windowFrom = none ∧ drive.role ≠ .mast := by decide +kernel

/-- A mean not started and one started, an enabled channel and one that is not. -/
theorem test_window_close :
    let s := measuring 0 16 16
    let t := nxt (.windowClose 3) s
    s.windowDue = true ∧ (s.ownSlot.channel 0).enabled = true ∧ (s.ownSlot.channel 2).enabled = false ∧
    t.wmu.channels.map (·.sample) = [16000, 16000, 0, 0] ∧ t.wmu.channels.map (·.m16) = [256000, 256000, 0, 0] ∧
    (nxt (.windowClose 3) { t with clock := ⟨100250, 0⟩ }).wmu.channels.map (·.m16) = [240000, 240000, 0, 0] ∧
    anyWorking s.ownSlot t.wmu.channels = true := by decide +kernel

/-- A mast whose channels are all stuck is assessed as 0. -/
theorem test_assessment_blind :
    let s := measuring 0 0 0
    let b := { s with wmu := { s.wmu with
      channels := s.wmu.channels.map (fun c => { c with state := .stuck }) } }
    b.windowDue = true ∧ anyWorking b.ownSlot (nxt (.windowClose 0) b).wmu.channels = false := by decide +kernel

/-- The exposure of a steady speed, a full counter with its mark, and the mark cleared by a report. -/
theorem test_exposure_and_overrange :
    let full := measuring 0 1023 0
    let rep := measuring 12 1023 0
    (nxt (.windowClose 3) full).wmu.channels.map (·.overrange) = [true, false, false, false] ∧
    (nxt (.windowClose 3) full).wmu.channels.map (·.overrangeMark) = [true, false, false, false] ∧
    (nxt (.windowClose 3) full).wmu.reportAt ≠ 100000 ∧
    (nxt (.windowClose 3) (measuring 0 1022 0)).wmu.channels.map (·.overrange) = [true, false, false, false] ∧
    (nxt (.windowClose 3) (measuring 0 16 0)).wmu.channels.map (·.overrange) = List.replicate 4 false ∧
    (nxt (.windowClose 3) (measuring 0 16 0)).wmu.channels.map (·.exposure) = [1333, 0, 0, 0] ∧
    (nxt (.windowClose 3) rep).wmu.reportAt = 100000 ∧
    (nxt (.windowClose 3) rep).wmu.channels.map (·.overrangeMark) = List.replicate 4 false := by decide +kernel

/-- The adjusted exposures with the reference channel working, STUCK, and without one. -/
theorem test_adjusted_exposure :
    let g := fun reference : Bool =>
      { slot0 with channels := [⟨true, reference, 250000, 128⟩, ⟨true, false, 250000, 64⟩, ⟨false, false, 0, 0⟩, ⟨false, false, 0, 0⟩] }
    let s := fun (reference : Bool) (st : ChannelState) (p : Nat) =>
      let m := measuring 0 24 p
      { m with
        sl := { m.sl with sheet := { sheet with slots := g reference :: sheet.slots.tail } }
        wmu := { m.wmu with channels := m.wmu.channels.modify 0 (fun c => { c with state := st }) } }
    let adjusted := fun x : State => (nxt (.windowClose 0) x).wmu.channels.map (·.adjusted)
    adjusted (s true .working 0) = [some 2000, some 1000, some 0, some 0] ∧
    adjusted (s true .working 24) = [some 2000, some 2000, some 0, some 0] ∧
    adjusted (s true .stuck 24) = [none, some 2000, some 0, some 0] ∧
    adjusted (s false .stuck 24) = [none, some 2000, some 0, some 0] ∧
    adjusted (s false .working 0) = [some 2000, some 0, some 0, some 0] := by decide +kernel

/-- A mast past warm-up at a level with a dwell, its channels at a steady speed of p pulses. -/
def steady (level : WindLevel) (dwell p : Nat) : State :=
  let s := measuring 12 p p
  let c : Channel :=
    { Channel.reset with counter := p, ring := List.replicate 12 (p * 1000), ringSum := 12000 * p, m16 := 16000 * p, meanStarted := true }
  { s with wmu := { s.wmu with level := level, dwell := dwell, reportAt := 99000, changeAt := 40001, channels := [c, c, Channel.reset, Channel.reset] } }

/-- A rise to the enter threshold of STORM and of HOLD, no rise just below, a fall after the dwell and none
before or at the exit threshold. -/
theorem test_levels :
    (nxt (.windowClose 0) (steady .calm 0 15)).wmu.level = .storm ∧
    (nxt (.windowClose 0) (steady .calm 0 11)).wmu.level = .hold ∧
    (nxt (.windowClose 0) (steady .calm 0 4)).wmu.level = .calm ∧
    (nxt (.windowClose 0) (steady .breeze 59749 3)).wmu.level = .breeze ∧
    (nxt (.windowClose 0) (steady .breeze 59750 3)).wmu.level = .calm ∧
    (nxt (.windowClose 0) (steady .breeze 59750 4)).wmu.level = .breeze ∧
    (nxt (.windowClose 0) (steady .storm 59750 13)).wmu.level = .hold ∧
    (nxt (.windowClose 0) (steady .hold 59750 9)).wmu.level = .gusty ∧
    (steady .storm 59750 13).windowDue = true ∧ windCode (steady .storm 59750 13).wmu.level ≤ 4 := by decide +kernel

theorem test_warm_up : (measuring 10 0 0).windowDue = true ∧ (measuring 10 0 0).wmu.windows < 11 ∧
    (nxt (.windowClose 0) (measuring 10 0 0)).wmu.windows = 11 ∧
    (nxt (.warmUpEnd 0) (measuring 11 0 0)).wmu.windows = 12 := by decide +kernel

/-- Each occasion of a close, at its boundary. -/
theorem test_window_occasions :
    let z : Channel := { Channel.reset with zeroTime := 29750 }
    let r : Channel := { Channel.reset with counter := 1, state := .stuck, recovery := 9 }
    let c := { steady .calm 0 15 with wmu := { (steady .calm 0 15).wmu with
      channels := [{ Channel.reset with counter := 36 }, z, Channel.reset, Channel.reset] } }
    let d := { c with wmu := { c.wmu with channels := [{ Channel.reset with counter := 36 }, r, Channel.reset, Channel.reset] } }
    windElsewhere c.ownSlot (c.wmu.measured c.ownSlot 4 0 100000).channels 1 = true ∧
    ((nxt (.stuckEntry 1 0) c).wmu.channels[1]?.map (·.state)) = some .stuck ∧
    ((nxt (.stuckRecovery 1 0) d).wmu.channels[1]?.map (·.state)) = some .working ∧
    (nxt (.levelDwellExpiry 0) (steady .breeze 59750 3)).wmu.level = .calm ∧
    (nxt (.windReportPeriod 0) (steady .calm 0 0)).wmu.reportAt = 100000 ∧
    (steady .calm 0 0).wmu.reportAt + 1000 ≤ 100000 ∧
    100000 < (steady .calm 0 0).wmu.changeAt + 60000 := by decide +kernel

/-- The report period at BREEZE and at CALM, long after the last change. -/
theorem test_report_period :
    let s := fun l : WindLevel => { steady l 0 (if l = .calm then 0 else 5) with wmu := { (steady l 0 (if l = .calm then 0 else 5)).wmu with changeAt := 0 } }
    (nxt (.windReportPeriod 0) (s .breeze)).wmu.level = .breeze ∧
    (nxt (.windReportPeriod 0) (s .breeze)).wmu.reportAt = 100000 ∧
    (nxt (.windReportPeriod 0) (s .calm)).wmu.reportAt = 99000 ∧
    (before1 (s .breeze)).wmu.windows = 12 := by decide +kernel

/-- A close past warm-up that reports, at the period, at a change and with a channel over range, and one that
does not. -/
theorem test_wind_report :
    let report := fun s : State => (nxt (.windowClose 3) s).lc.queue.map (·.payload)
    let quiet := { steady .calm 0 0 with wmu := { (steady .calm 0 0).wmu with changeAt := 0 } }
    report (steady .breeze 0 5) = [.wind ⟨1, 5000, 5000, 0, 2, 0⟩] ∧ report quiet = [] ∧
    (report (steady .calm 0 15)).map payloadKind = [.hold, .wind] ∧
    (report (steady .breeze 0 1023)).getLast? = some (.wind ⟨4, 65535, 65535, 0, 2, 0x30⟩) := by decide +kernel

/-! ### The ride link: sending -/

/-- A telegram handed over to a station without one waiting of its kind. -/
def sent (ps : List Payload) (s : State) : State := ps.foldl (fun s p => handOver p false s) s

theorem sent_wf (ps : List Payload) (s : State) (h : s.lc.Wf) : (sent ps s).lc.Wf := by
  induction ps generalizing s with
  | nil => exact h
  | cons p ps ih => exact ih _ ((handOver_keeps p false s).2 h)

def motion1 : Payload := .motion ⟨2, 300, 300, 0, 300, 0⟩
def hold1 (n : Stamp) : Payload := .hold ⟨2, 3, 6, n⟩
def presence1 : Payload := .presence ⟨2, 2, 0, 0⟩

theorem test_transmission_start :
    let s := sent [motion1, presence1] entry
    s.sl.start = .running ∧ s.lc.sending = none ∧ s.lc.queue.map (·.cls) = [1, 4] ∧
    ((nxt .transmissionStart s).lc.sending.map (·.no)) = some 1 ∧
    ((nxt .transmissionStart (started .joining s)).lc.sending.map (·.no)) = some 2 ∧
    ((nxt .transmissionStart (started .sheetFault s)).lc.sending.map (·.no)) = some 2 ∧
    s.lc.duplicate = false ∧ entry.lc.queue = [] ∧
    (nxt .arbitrationLost (nxt .transmissionStart s)).lc.sending = none := by decide +kernel

/-- A transmission after one failed echo and after two, and a line held with a telegram waiting. -/
theorem test_transmission_end :
    let s := nxt .transmissionStart (sent [motion1, presence1] entry)
    let two := { s with lc := { s.lc with echoFails := 2 } }
    s.lc.sending.isSome = true ∧ s.lc.lineFault = false ∧ s.lc.echoFails + 1 < 3 ∧
    (nxt (.transmissionComplete false) two).lc.lineFault = true ∧ two.suppressed .lineFault = false ∧
    (nxt (.transmissionComplete true) two).lc.queue.map (·.cls) = [4] ∧
    s.lc.waiting ≠ [] ∧ (nxt .lineDominantTimeout s).lc.lineFault = true ∧ entry.lc.waiting = [] ∧
    telegramOf [] = none ∧ (nxt (.telegramCheckFailed []) s).lc.rxErrors = 1 := by decide +kernel

/-- A queue with a waiting MOTION, one place left, and full queues with and without a telegram above class 0. -/
theorem test_hand_over :
    let seven := sent ((List.range 7).map (fun n => hold1 (BitVec.ofNat 32 n))) entry
    let eight := sent [motion1] seven
    let holds := sent [hold1 7] seven
    seven.lc.beforeJoin motion1 = seven.lc ∧ seven.lc.queue.length = 7 ∧
    (seven.lc.waiting.find? (supersedes motion1 false)) = none ∧
    (eight.lc.waiting.find? (supersedes motion1 false)).isSome = true ∧ eight.lc.queue.length = 8 ∧
    kindClass (payloadKind (hold1 8)) = 0 ∧ (eight.lc.waiting.getLast?.map (·.cls)) = some 1 ∧
    eight.lc.waiting.find? (supersedes (hold1 8) false) = none ∧
    kindClass (payloadKind presence1) ≠ 0 ∧ eight.lc.waiting.find? (supersedes presence1 false) = none ∧
    (handOver presence1 false eight).lc.queue = eight.lc.queue ∧
    (handOver (hold1 8) false eight).lc.queue.map (·.cls) = List.replicate 8 0 ∧
    holds.lc.queue.length = 8 ∧ (∀ x ∈ holds.lc.waiting, x.cls = 0) ∧
    (handOver (hold1 8) false holds).lc.queue = holds.lc.queue ∧
    (handOver presence1 false (started .listenOnly entry)).lc.queue = [] := by decide +kernel
/-- A RELEASE with reason OWN removes the waiting refresh of its kind alone. -/
theorem test_release_drops_refresh :
    let s := handOver (.hold ⟨3, 3, 6, 5⟩) true (handOver (hold1 5) true (sent [hold1 4] entry))
    s.lc.queue.map (·.refresh) = [false, true, true] ∧
    (handOver (.release ⟨2, 2, 0⟩) false s).lc.queue.map (fun e => (payloadKind e.payload, e.refresh)) =
      [(.hold, false), (.hold, true), (.release, false)] ∧
    (handOver (.release ⟨2, 2, 1⟩) false s).lc.queue.length = 4 := by decide +kernel
theorem test_hand_over_form (ps : List Payload) : (sent ps entry).lc.Wf := sent_wf ps entry Link.reset_wf

/-- A waiting telegram of another number stays where one is superseded. -/
theorem test_supersession :
    let s := sent [motion1, presence1, hold1 3] entry
    s.lc.queue.length = 3 ∧ (handOver (.motion ⟨3, 0, 0, 0, 0, 0⟩) false s).lc.queue.length = 3 ∧
    (handOver (.motion ⟨3, 0, 0, 0, 0, 0⟩) false s).lc.queue.map (·.payload) =
      [hold1 3, .motion ⟨3, 0, 0, 0, 0, 0⟩, presence1] := by decide +kernel

/-! ### The ride link: receiving -/

/-- A telegram of another station is accepted. -/
def takes (s : State) (t : Telegram) : Bool :=
  !s.sl.resetHeld && s.joined && telegramOk t && t.sender.toNat != s.own && s.judge t == .accept

theorem takes_accepts {s : State} {t : Telegram} (h : takes s t = true) : s.accepts t := by
  unfold takes at h
  simp only [Bool.and_eq_true, Bool.not_eq_true', bne_iff_ne, ne_eq, beq_iff_eq] at h
  obtain ⟨⟨⟨⟨h1, h2⟩, h3⟩, h4⟩, h5⟩ := h
  exact ⟨⟨h1, h2, h3, h4⟩, h5⟩

theorem station_peers (n : Nat) (r : BitVec 3) : (station n r).pv.Wf := by
  unfold PeerView.Wf
  show (rosterTable sheet).length = 24 ∧ ∀ p ∈ rosterTable sheet, p.gaps ≤ 255 ∧ p.unanswered ≤ 15
  decide +kernel

/-- A record of the peer table changed. -/
def withPeer (n : Nat) (f : Peer → Peer) (s : State) : State := s.onPeer n f

def refusing : State := { entry with sl := { entry.sl with sheet := { sheet with refuseMask := 1 <<< 42 } } }

theorem test_turned_away :
    telegramOk ⟨5, 0, .hold ⟨5, 0, 0, 0⟩⟩ = false ∧ telegramOk ⟨24, 0, motion1⟩ = false ∧
    entry.judge ⟨1, 0, .order ⟨3, 1⟩⟩ = .refuse false ∧ refusing.judge ⟨4, 0, .order ⟨3, 1⟩⟩ = .refuse true ∧
    telegramOk ⟨1, 0, .order ⟨3, 1⟩⟩ = true ∧
    ((nxt (.orderReceived 1 0 ⟨3, 1⟩) entry).peer 1).fault.isSome = true ∧
    (withPeer 4 (fun p => { p with state := .foreign }) entry).judge ⟨4, 0, .order ⟨3, 1⟩⟩ = .ignore := by decide +kernel

/-- An ignored telegram of a FOREIGN station with a gap in its sequence and without. -/
theorem test_ignored_is_heard :
    let f := withPeer 4 (fun p => { p with state := .foreign, lastSeq := 7, gaps := 255 }) entry
    let g := withPeer 4 (fun p => { p with state := .foreign, lastSeq := 7, gaps := 3 }) entry
    let after := fun (q : Byte) (s : State) =>
      let p := (nxt (.orderReceived 4 q ⟨3, 1⟩) s).peer 4
      (p.lastHeard, p.lastSeq, p.gaps)
    f.judge ⟨4, 0, .order ⟨3, 1⟩⟩ = .ignore ∧ after 7 g = (100000, 7, 3) ∧ after 8 g = (100000, 8, 3) ∧
    after 9 g = (100000, 9, 4) ∧ after 9 f = (100000, 9, 255) := by decide +kernel

theorem test_duplicate :
    let t : Telegram := ⟨0, 9, motion1⟩
    let d := { drive with lc := { drive.lc with duplicate := true } }
    telegramOk t = true ∧ t.sender.toNat = drive.sl.station ∧ drive.lc.echoDue ≠ some t ∧
    drive.lc.duplicate = false ∧ (nxt (arrival t) drive).sl.start = .listenOnly ∧
    (nxt (arrival t) drive).mu.motion = .fault ∧ (nxt (arrival t) (started .joining drive)).sl.start = .listenOnly ∧
    (nxt (arrival t) (started .sheetFault drive)).sl.start = .sheetFault ∧
    (nxt (arrival t) d).sl.start = .running := by decide +kernel

/-! ### What accepted telegrams do -/

/-- A station with hold records. -/
def holding (rs : List HoldRec) (s : State) : State :=
  { s with hu := { s.hu with records := rs, effect := severest rs } }

def deskHold (n : Nat) : HoldRec := ⟨.desk, n, .close, .host, 0, 99000, .active⟩
def many (n : Nat) : List HoldRec := (List.range n).map deskHold

/-- A HOLD of the exit bay: new, repeated, at a set of 14 and 15, at a full set above and not above the
mildest effect, and one that R74 does not allow. -/
theorem test_hold_received :
    let t : HoldPayload := ⟨2, 3, 6, 77⟩
    let mild : HoldPayload := ⟨2, 1, 6, 77⟩
    let bad : HoldPayload := ⟨2, 2, 6, 77⟩
    takes drive ⟨3, 1, .hold t⟩ = true ∧ takes drive ⟨3, 1, .hold bad⟩ = true ∧ (drive.peer 3).role ≠ .drive ∧
    effectOf 3 = some .halt ∧ causeOf 6 = some .host ∧ holdAllowed .bay .host .halt = true ∧
    holdAllowed .bay .host .empty = false ∧
    (nxt (.holdReceived 3 1 t) drive).hu.effect = .halt ∧
    (nxt (.holdReceived 3 2 mild) (nxt (.holdReceived 3 1 t) drive)).hu.effect = .close ∧
    (nxt (.holdReceived 3 1 bad) drive).hu = drive.hu ∧
    (holding (many 14) drive).hu.records.length ≤ 14 ∧
    (nxt (.holdReceived 3 1 t) (holding (many 15) drive)).hu.records.length = 16 ∧
    (nxt (.holdReceived 3 1 t) (holding (many 16) drive)).hu.effect = .halt ∧
    mildest (many 16) = some (deskHold 0) ∧ takes (holding (many 16) drive) ⟨3, 1, .hold mild⟩ = true ∧
    (nxt (.holdReceived 3 1 mild) (holding (many 16) drive)).hu.records = many 16 := by decide +kernel
/-- What the rise to an effect sets off at a drive that hears another: nothing at CLOSE, empty-down at EMPTY with
cabins occupied and without, the latch and the watch at HALT, the watch again at STOP, and the end of
empty-down. -/
theorem test_rise_of_the_effect :
    let far := withPeer 5 (fun p => { p with state := .fresh, motion := some (⟨2, 300, 300, 0, 300, 0⟩, 99900) }) drive
    let s := { far with mu := { far.mu with mode := .run } }
    let rise := fun (e : Byte) (x : State) => nxt (.holdReceived 4 1 ⟨3, e, 6, 77⟩) x
    let none_ := { s with ct := { s.ct with occupied := 0 } }
    takes s ⟨4, 1, .hold ⟨3, 3, 6, 77⟩⟩ = true ∧ s.availableDrives = [5] ∧ drive.availableDrives = [] ∧
    (rise 1 s).mu.mode = .run ∧ (rise 1 s).hu.watch = none ∧
    (rise 2 s).mu.emptyState = .emptying ∧ (rise 2 s).mu.mode = .run ∧
    (rise 2 none_).mu.emptyState = .done ∧ (rise 2 none_).mu.mode = .halt ∧
    (rise 2 none_).hu.watch.map (·.list) = some [5] ∧
    (rise 3 s).mu.mode = .halt ∧ (rise 3 s).hu.watch.map (·.limit) = some 5000 ∧
    (rise 3 { s with mu := { s.mu with reference := 300 } }).hu.watch.map (·.limit) = some 11000 ∧
    (rise 3 drive).hu.watch = none ∧
    (rise 4 (holding [⟨.bay, 3, .halt, .host, 0, 99000, .active⟩] s)).hu.watch.map (·.startAt) = some 100000 ∧
    (rise 3 { holding [⟨.bay, 3, .empty, .host, 0, 99000, .active⟩] s with
      mu := { s.mu with emptyState := .emptying } }).mu.emptyState = .idle := by decide +kernel
theorem test_hold_set_form : (holding (many 14) drive).hu.Wf ∧ (holding (many 15) drive).hu.Wf ∧
    (holding (many 16) drive).hu.Wf ∧ drive.hu.Wf := by
  unfold HoldUnit.Wf
  decide +kernel

/-- A rise to HALT by the update of a standing record and by a displacement in a full set. -/
theorem test_rise_by_update_and_displacement :
    let t : HoldPayload := ⟨2, 3, 6, 77⟩
    let s := { holding [⟨.bay, 3, .close, .host, 0, 99000, .active⟩] drive with mu := { drive.mu with mode := .run } }
    let f := { holding (many 16) drive with mu := { drive.mu with mode := .run } }
    s.hu.effect = .close ∧ f.hu.effect = .close ∧ (nxt (.holdReceived 3 1 t) s).hu.records.length = 1 ∧
    (nxt (.holdReceived 3 1 t) s).hu.effect = .halt ∧ (nxt (.holdReceived 3 1 t) s).mu.mode = .halt ∧
    (nxt (.holdReceived 3 1 t) f).hu.find? .desk 0 = none ∧ (nxt (.holdReceived 3 1 t) f).mu.mode = .halt := by
  decide +kernel

/-- A RELEASE of the exit bay's own hold, and overrides of the desk: of another's hold, of an own LINK hold,
of a STORM hold in a storm, and of a hold that is not held. -/
theorem test_release_received :
    let own : ReleasePayload := ⟨2, 3, 0⟩
    let h := holding [⟨.bay, 3, .halt, .host, 0, 99000, .active⟩] drive
    let l := { drive with hu := { drive.hu with
        own := [⟨.link, .stop, .button, 0, 99000⟩]
        cond := { drive.hu.cond with button := true } } }
    let w := { drive with wv := { drive.wv with records := [⟨1, some (.storm, ⟨4, 0, 0, 0, 0, 0⟩), 99000, 0, true⟩] } }
    takes h ⟨3, 1, .release own⟩ = true ∧ (nxt (.releaseReceived 3 1 own) h).hu.effect = .none ∧
    (h.peer 3).role ≠ .drive ∧ (h.peer 4).role ≠ .drive ∧
    takes h ⟨4, 1, .release ⟨2, 3, 1⟩⟩ = true ∧ (nxt (.releaseReceived 4 1 ⟨2, 3, 1⟩) h).hu.records = [] ∧
    (l.hu.own? .link).isSome = true ∧ (nxt (.releaseReceived 4 1 ⟨4, 0, 1⟩) l).hu.overridden.button = false ∧
    (nxt (.releaseReceived 4 1 ⟨4, 0, 1⟩) l).hu.own = [] ∧
    w.wv.stormStanding = true ∧ (nxt (.releaseReceived 4 1 ⟨0, 1, 1⟩) w).hu = w.hu ∧
    (nxt (.releaseReceived 4 1 ⟨2, 3, 1⟩) drive).hu = drive.hu ∧ (drive.hu.find? .bay 3).isSome = false := by decide +kernel

def bay1 : BayPayload := ⟨0, 0, 0xFF, 0, 0, 0, 7, 1, 4, 3⟩

/-- The MOTION of a listed drive in a running watch: acknowledged within the ack window and not after it, braked,
and the end of the watch with the last one. -/
theorem test_watch_follows_motion :
    let w := fun (list : List Nat) (ack : Option Nat) =>
      { desk with hu := { desk.hu with watch := some ⟨list, [], [], 99900, 5000, ack, []⟩ } }
    let heard := fun (b : Byte) (x : State) => nxt (.motionReceived 5 1 ⟨b, 0, 0, 0, 0, 0⟩) x
    takes (w [0, 5] none) ⟨5, 1, .motion ⟨3, 0, 0, 0, 0, 0⟩⟩ = true ∧
    (heard 3 (w [0, 5] (some 100400))).hu.cond = (w [0, 5] none).hu.cond ∧
    (heard 3 (w [0, 5] (some 100400))).hu.watch.map (fun v => (v.acked, v.braked)) = some ([5], []) ∧
    (heard 2 (w [0, 5] (some 100400))).hu.watch.map (fun v => (v.acked, v.braked)) = some ([], []) ∧
    (heard 0 (w [0, 5] none)).hu.watch.map (fun v => (v.acked, v.braked)) = some ([], [5]) ∧
    (heard 0 (w [5] (some 100400))).hu.watch = none ∧ desk.suppressed .haltWatchDone = false ∧
    (.haltWatchDone, 0) ∈ (heard 0 (w [5] none)).lu.queue.map (fun e => (e.code, e.param)) := by decide +kernel

theorem test_reports_received :
    takes desk ⟨5, 1, motion1⟩ = true ∧ takes desk ⟨2, 1, .bay bay1⟩ = true ∧
    ((nxt (arrival ⟨5, 1, motion1⟩) desk).peer 5).state = .fresh ∧
    ((nxt (.bayReceived 2 1 bay1) desk).peer 2).bay = some (bay1, 100000) := by decide +kernel

/-- A passage of the entry bay, its repeat with the tags, and one that passes two cabins over. -/
theorem test_passage_received :
    let e := { desk with ct := { desk.ct with cabins := desk.ct.cabins.map (fun c => { c with state := .empty }) } }
    let a := nxt (.bayReceived 2 1 bay1) e
    let b := nxt (.passageReceived 2 2 ⟨7, 1, 4, 3, [9]⟩) a
    let d := nxt (.passageReceived 2 3 ⟨8, 4, 5, 0xFF, []⟩) b
    takes e ⟨2, 1, .bay bay1⟩ = true ∧ takes a ⟨2, 2, .passage ⟨7, 1, 4, 3, [9]⟩⟩ = true ∧
    bayOf (e.sl.sheet.roleAt 2) = some .entry ∧ resultOf 4 = some .boarded ∧ resultFits .entry .boarded = true ∧
    a.ct.occupied = 1 ∧ (a.cabin? 1).map (·.riders) = some (some 3) ∧ a.tagsMissing .entry ⟨7, 1, some .boarded, some 3, [9], true⟩ = true ∧
    (b.cabin? 1).map (·.tags) = some [9] ∧ b.tagsMissing .entry ⟨7, 1, some .boarded, some 3, [9], true⟩ = false ∧
    (d.cabin? 2).map (·.state) = some .unknown ∧ (d.cabin? 3).map (·.state) = some .unknown ∧
    (d.cabin? 4).map (·.state) = some .empty ∧ d.ct.occupied = 3 := by decide +kernel
/-- Passages that are declined: cabin 0, cabin N + 1 and a result of the other bay; and an empty summary. -/
theorem test_passage_declined :
    (nxt (.passageReceived 2 1 ⟨7, 0, 4, 3, [9]⟩) desk).ct = desk.ct ∧
    (nxt (.passageReceived 2 1 ⟨7, 17, 4, 3, [9]⟩) desk).ct = desk.ct ∧
    (nxt (.passageReceived 2 1 ⟨7, 1, 0, 3, [9]⟩) desk).ct = desk.ct ∧ resultFits .entry .cleared = false ∧
    resultOf 0 = some .cleared ∧
    (nxt (.bayReceived 2 1 { bay1 with sumCabin := 0 }) desk).ct = desk.ct ∧ sheet.n = 16 := by decide +kernel
theorem test_cabins_known : desk.CabinsKnown :=
  cabinsKnown_of rfl ⟨by decide +kernel, fun b c h => by cases b <;> cases h⟩

/-- What each result does to a record, and doubt. -/
theorem test_results :
    let c := fun st : CabinState => Cabin.mk .standard 10 false st (some 4) true [9] (some 5) 3 none
    let p : Passage := ⟨1, 3, none, some 12, [1, 2], true⟩
    let after := fun (st : CabinState) (r : PassResult) => (c st).applyResult r p 77
    after .boarded .cleared = Cabin.mk .standard 10 false .empty (some 0) false [] none 0 none ∧
    after .heldOver .heldOver = c .heldOver ∧
    after .empty .loadedFound = Cabin.mk .standard 10 false .heldOver none false [] none 1 none ∧
    after .empty .boarded = Cabin.mk .standard 10 false .boarded (some 10) true [1, 2] (some 77) 0 none ∧
    after .heldOver .boarded = Cabin.mk .standard 10 false .heldOver none true [1, 2] (some 77) 3 none ∧
    after .unknown .boarded = c .unknown ∧
    (c .boarded).doubted = Cabin.mk .standard 10 false .unknown none false [] none 3 none := by decide +kernel

theorem test_wind_received :
    let w := nxt (.windReceived 1 1 ⟨4, 16000, 0, 0, 0, 0⟩) desk
    takes desk ⟨1, 1, .wind ⟨4, 16000, 0, 0, 0, 0⟩⟩ = true ∧ w.wv.fused = .storm ∧ windOf 6 = none ∧
    (nxt (.windReceived 1 1 ⟨6, 0, 0, 0, 0, 0⟩) desk).wv = desk.wv ∧
    (w.wv.records[0]?.map (·.fresh)) = some true ∧
    (nxt (.windRecordExpiry 0) { w with clock := ⟨110000, 0⟩ }).wv.fused = .blind ∧
    (nxt (.windRecordExpiry 0) { w with clock := ⟨109999, 0⟩ }).wv.fused = .storm := by decide +kernel

/-- The fused level without a fresh report, below the minimum of masts and at it, and the readings formed from
it; the turn to and from NO_WIND. -/
theorem test_fused_level :
    let two := { desk with
      sl := { desk.sl with sheet := { sheet with minMasts := 2 } }
      wv := { desk.wv with records := [⟨1, none, 0, 0, false⟩, ⟨7, none, 0, 0, false⟩] } }
    let wind := fun (l : Byte) (s : State) => nxt (.windReceived 1 1 ⟨l, 0, 0, 0, 0, 0⟩) s
    let both := { two with wv := { two.wv with records := [⟨1, none, 0, 0, false⟩, ⟨7, some (.breeze, ⟨1, 0, 0, 0, 0, 0⟩), 99000, 0, true⟩] } }
    let late := fun s : State => nxt (.windRecordExpiry 0) { s with clock := ⟨110000, 0⟩ }
    (wind 0 two).wv.fused = .gusty ∧ (wind 0 two).wv.degraded = true ∧ (wind 1 two).wv.fused = .gusty ∧
    (wind 3 two).wv.fused = .hold ∧ (wind 3 two).wv.degraded = false ∧ (wind 0 two).wv.freshCount = 1 ∧
    (wind 0 both).wv.fused = .breeze ∧ (wind 0 both).wv.degraded = false ∧ (wind 0 both).wv.capped = true ∧
    (wind 0 both).wv.closed = false ∧ (wind 0 desk).wv.capped = false ∧ (wind 4 both).wv.stormStanding = true ∧
    (wind 3 both).wv.stormStanding = false ∧ (wind 0 desk).hu.cond.noWind = false ∧
    (late (wind 0 desk)).hu.cond.noWind = true ∧ (wind 0 (late (wind 0 desk))).hu.cond.noWind = false := by decide +kernel

/-- An order and a SERVICE, each new and repeated, and an order above HALT under a hold of HALT. -/
theorem test_order_and_service :
    let o := nxt (.orderReceived 4 1 ⟨3, 1⟩) drive
    let h := holding [⟨.bay, 3, .halt, .host, 0, 99000, .active⟩] drive
    takes drive ⟨4, 1, .order ⟨3, 1⟩⟩ = true ∧ (drive.peer 4).role ≠ .drive ∧ o.mu.mode = .run ∧
    (nxt (.orderReceived 4 2 ⟨0, 1⟩) o).mu = o.mu ∧ modeOf 4 = none ∧
    (nxt (.orderReceived 4 1 ⟨3, 1⟩) h).mu.mode = .halt ∧
    takes drive ⟨4, 1, .service ⟨1, 0⟩⟩ = true ∧
    ((nxt (.serviceReceived 4 1 ⟨1, 0⟩) drive).cabin? 1).map (·.outOfService) = some true ∧
    (nxt (.serviceReceived 4 2 ⟨0, 0⟩) (nxt (.serviceReceived 4 1 ⟨1, 0⟩) drive)).ct =
      (nxt (.serviceReceived 4 1 ⟨1, 0⟩) drive).ct := by decide +kernel

/-- A PRESENCE that matches and one of another role; a MARK 4 ms and 5 ms off. -/
theorem test_presence_and_mark :
    takes entry ⟨4, 1, .presence ⟨4, 2, 2, 0⟩⟩ = true ∧ takes entry ⟨4, 1, .mark ⟨100004⟩⟩ = true ∧
    entry.presenceMatches 4 ⟨4, 2, 2, 0⟩ = true ∧ entry.presenceMatches 4 ⟨3, 2, 2, 0⟩ = false ∧
    ((nxt (.presenceReceived 4 1 ⟨3, 2, 0, 0⟩) entry).peer 4).state = .foreign ∧
    (let p := nxt (.presenceReceived 4 1 ⟨4, 2, 2, 0⟩) entry
     (p.peer 4).state = .fresh ∧ (nxt (.markReceived 4 2 ⟨100004⟩) p).clock.station = 100000 ∧
     (nxt (.markReceived 4 2 ⟨100005⟩) p).clock.station = 100005 ∧
     (nxt (.markReceived 4 2 ⟨99996⟩) p).clock.station = 100000) := by decide +kernel

/-- The sequence judgement: a record that was ABSENT, steps of 0, 1 and 2, and a full gap count. -/
theorem test_sequence_gaps :
    let p := fun (g : Nat) => withPeer 4 (fun p => { p with state := .fresh, lastSeq := 255, gaps := g }) entry
    let gaps := fun (seq : Byte) (s : State) => ((nxt (.presenceReceived 4 seq ⟨4, 2, 2, 0⟩) s).peer 4).gaps
    takes (p 0) ⟨4, 1, .presence ⟨4, 2, 2, 0⟩⟩ = true ∧ (entry.peer 4).state = .absent ∧ gaps 9 entry = 0 ∧
    gaps 255 (p 0) = 0 ∧ gaps 0 (p 0) = 0 ∧ gaps 1 (p 0) = 1 ∧ gaps 254 (p 0) = 1 ∧ gaps 1 (p 255) = 255 ∧
    ((nxt (.presenceReceived 4 9 ⟨4, 2, 2, 0⟩) entry).peer 4).lastSeq = 9 := by decide +kernel

/-- A PRESENCE with the RESTARTED flag from a FRESH and from a STALE record, from one that showed it before and
was heard RUNNING, and the restart of a drive with a motion part of 999 ms and of 1,000 ms. -/
theorem test_peer_restart :
    let s := holding [⟨.bay, 3, .halt, .host, 0, 99000, .active⟩, ⟨.desk, 4, .close, .host, 0, 99000, .active⟩] entry
    let from_ := fun (st : PeerState) => withPeer 3 (fun p => { p with state := st }) s
    let again := withPeer 3 (fun p => { p with
      state := .fresh, restartedSeen := true, heard := some ⟨3, 2, false⟩ }) s
    let restarts := fun (start : Byte) (x : State) => nxt (.presenceReceived 3 1 ⟨3, start, 1, 0⟩) x
    let states := fun x : State => x.hu.records.map (·.state)
    let d := fun at_ : Nat => nxt (.presenceReceived 5 1 ⟨0, 1, 1, 0⟩) (withPeer 5 (fun p => { p with
      state := .stale, motion := some (⟨2, 300, 300, 0, 300, 0⟩, at_) }) entry)
    takes (from_ .stale) ⟨3, 1, .presence ⟨3, 1, 1, 0⟩⟩ = true ∧
    states (restarts 2 (from_ .fresh)) = [.orphaned, .active] ∧
    states (restarts 2 (from_ .stale)) = [.orphaned, .active] ∧
    states (restarts 2 s) = [.active, .active] ∧ states (restarts 1 again) = [.orphaned, .active] ∧
    states (restarts 2 again) = [.active, .active] ∧
    .peerRestarted ∈ (restarts 2 (from_ .fresh)).lu.queue.map (·.code) ∧
    (from_ .fresh).suppressed .peerRestarted = false ∧
    (d 99001).hu.cond.driveRestart = true ∧ (d 99001).hu.driveRestartAt = 100000 ∧
    (d 99000).hu.cond.driveRestart = false := by decide +kernel

/-! ### Timers of the peer view and the reports -/

/-- Each period at its end and one millisecond before. -/
theorem test_periods :
    let p := { entry with pv := { entry.pv with presenceAt := 99000 } }
    let m := { desk with pv := { desk.pv with markAt := 90000 } }
    let o := { desk with mu := { desk.mu with orderAt := 99000 } }
    let v := { desk with ct := { desk.ct with serviceAt := 95000 } }
    let b := { exit_ with bu := { exit_.bu with reportAt := 99500 } }
    (nxt .presencePeriod p).pv.presenceAt = 100000 ∧ (nxt .presencePeriod p).lc.queue.length = 1 ∧
    (before1 p).presenceDue = false ∧ (nxt .markPeriod m).lc.queue.length = 1 ∧ (before1 m).markDue = false ∧
    m.sl.sheet.timeSource.getLsbD m.sl.station = true ∧ desk.role = .desk ∧ exit_.role = .exit ∧
    (nxt .orderPeriod o).mu.orderAt = 100000 ∧ (before1 o).orderDue = false ∧
    (nxt .servicePeriod v).ct.serviceAt = 100000 ∧ (before1 v).serviceDue = false ∧
    (nxt .bayReportPeriod b).bu.reportAt = 100000 ∧ (before1 b).bayReportDue = false := by decide +kernel

/-- A row is among the due ones one millisecond on, with a start of its time ago, and is not with a start one
millisecond later. -/
def fallsDue (c : Instr) (time : Nat) (s : Nat → State) : Bool :=
  (s (100001 - time)).advance.dueTimers.contains c && !(s (100002 - time)).advance.dueTimers.contains c

/-- The rows of the start state, of the reports and of the peers. -/
theorem test_due_rows :
    let sl := fun (f : Loader → Loader) (s : State) => { s with sl := f s.sl }
    let pv := fun (f : PeerView → PeerView) => { desk with pv := f desk.pv }
    let peer := fun (f : Peer → Peer) => withPeer 5 f desk
    fallsDue .joiningEnd 2000 (fun n => started .joining (sl ({ · with joinedAt := n }) desk)) = true ∧
    fallsDue .settlingEnd 15000 (fun n => sl ({ · with runningAt := n, settled := false }) desk) = true ∧
    fallsDue .restartedFlagClear 10000 (fun n => started .listenOnly (sl ({ · with runningAt := n }) desk)) = true ∧
    fallsDue .presencePeriod 1000 (fun n => pv ({ · with presenceAt := n })) = true ∧
    fallsDue .markPeriod 10000 (fun n => pv ({ · with markAt := n })) = true ∧
    fallsDue (.peerStaleExpiry 5) 3000 (fun n => peer ({ · with state := .fresh, lastHeard := n })) = true ∧
    fallsDue (.peerAbsentExpiry 5) 20000 (fun n => peer ({ · with state := .foreign, lastHeard := n })) = true ∧
    fallsDue (.motionPartAgeExpiry 5) 1000 (fun n => peer ({ · with motion := some (⟨2, 300, 300, 0, 300, 0⟩, n) })) = true ∧
    fallsDue (.bayPartAgeExpiry 5) 3000 (fun n => peer ({ · with bay := some (⟨0, 0, 0xFF, 0, 0, 0, 7, 1, 4, 3⟩, n) })) = true ∧
    fallsDue (.windRecordExpiry 0) 10000 (fun n => { desk with wv := { desk.wv with
      records := [⟨1, some (.storm, ⟨4, 0, 0, 0, 0, 0⟩), n, 0, true⟩] } }) = true ∧
    fallsDue .orderPeriod 1000 (fun n => { desk with mu := { desk.mu with orderAt := n } }) = true ∧
    fallsDue .servicePeriod 5000 (fun n => { desk with ct := { desk.ct with serviceAt := n } }) = true := by decide +kernel

/-- The rows of the hold unit, the drive, the bays and the mast. -/
theorem test_due_rows_of_units :
    let hu := fun f : HoldUnit → HoldUnit => { desk with hu := f desk.hu }
    let mu := fun f : MotionUnit → MotionUnit => { drive with mu := f drive.mu }
    let bu := fun f : BayUnit → BayUnit => { exit_ with bu := f exit_.bu }
    let closes := fun at_ : Nat => ({ mast with wmu := { mast.wmu with windowFrom := some at_ } }).advance.dueTimers.any
      (fun c => match c with
        | .windowClose _ => true
        | _ => false)
    fallsDue .driveRestartExpiry 10000 (fun n => hu ({ · with
      cond := { desk.hu.cond with driveRestart := true }, driveRestartAt := n })) = true ∧
    fallsDue (.holdRefreshPeriod .desk) 1000 (fun n => hu ({ · with own := [⟨.desk, .halt, .host, 5, n⟩] })) = true ∧
    fallsDue .lapseCheck 1000 (fun n => hu ({ · with lapseAt := n })) = true ∧
    fallsDue .linkReleaseDwellExpiry 5000 (fun n => hu ({ · with dwellFrom := some n })) = true ∧
    fallsDue .ackWindowExpiry 0 (fun n => hu ({ · with watch := some ⟨[5], [], [], 99900, 5000, some n, []⟩ })) = true ∧
    fallsDue .brakedLimitExpiry 5000 (fun n => hu ({ · with watch := some ⟨[5], [], [], n, 5000, none, []⟩ })) = true ∧
    fallsDue .holdLampFlash 500 (fun n => hu ({ · with lampMode := .flashing, lampAt := n })) = true ∧
    fallsDue .motionUpdate 100 (fun n => mu ({ · with updateAt := n })) = true ∧
    fallsDue .brakeFault 1000 (fun n => mu ({ · with mismatchFrom := some n })) = true ∧
    fallsDue .emptydownTimeout 600 (fun n => { mu ({ · with emptyState := .emptying, emptyAt := n }) with
      sl := { drive.sl with sheet := { sheet with emptyLimit := 0 } } }) = false ∧
    fallsDue .emptydownTimeout 60000 (fun n => { mu ({ · with emptyState := .emptying, emptyAt := n }) with
      sl := { drive.sl with sheet := { sheet with emptyLimit := 60 } } }) = true ∧
    fallsDue .tagPoll 100 (fun n => bu ({ · with pollAt := n })) = true ∧
    fallsDue .bayReportPeriod 500 (fun n => bu ({ · with reportAt := n })) = true ∧
    (bu ({ · with doorClose := true })).advance.dueTimers.contains (.doorLocked true) = true ∧
    (bu ({ · with doorClose := false })).advance.dueTimers.contains (.doorLocked true) = false ∧
    closes 99751 = true ∧ closes 99752 = false := by decide +kernel

/-- PRESENCE carries the RESTARTED flag one millisecond before its end and not at it. -/
theorem test_presence_flag :
    let s := { entry with sl := { entry.sl with runningAt := 90000 } }
    s.pv.restartedFlag = true ∧ s.presence.flags.getLsbD 0 = false ∧
    (before1 s).presence.flags.getLsbD 0 = true := by decide +kernel

/-- Silence of 3,000 ms and of 20,000 ms, of a drive and of a bay. -/
theorem test_silence :
    let f := fun (n : Nat) (st : PeerState) (at_ : Nat) => withPeer n (fun p => { p with state := st, lastHeard := at_ }) desk
    ((nxt (.peerStaleExpiry 5) (f 5 .fresh 97000)).peer 5).state = .stale ∧
    ((nxt (.peerStaleExpiry 5) (f 5 .fresh 97001)).peer 5).state = .fresh ∧
    ((nxt (.peerStaleExpiry 3) (f 3 .fresh 97000)).peer 3).state = .stale ∧
    ((nxt (.peerAbsentExpiry 5) (f 5 .stale 80000)).peer 5).state = .absent ∧
    ((nxt (.peerAbsentExpiry 3) (f 3 .foreign 80000)).peer 3).state = .absent ∧
    ((nxt (.peerAbsentExpiry 3) (f 3 .foreign 80001)).peer 3).state = .foreign ∧
    ((nxt (.peerStaleExpiry 4) (f 4 .fresh 0)).peer 4).state = .fresh := by decide +kernel

theorem test_link_conditions :
    let m := withPeer 5 (fun p => { p with state := .fresh, motion := some (⟨2, 300, 300, 0, 300, 0⟩, 99000) }) desk
    let b := withPeer 2 (fun p => { p with state := .fresh, bay := some (bay1, 97000) }) desk
    let r := { desk with hu := { desk.hu with cond := { desk.hu.cond with driveRestart := true }, driveRestartAt := 90000 } }
    desk.joined = true ∧ (m.peer 5).motion.isSome = true ∧
    (nxt (.motionPartAgeExpiry 5) m).hu.cond.drivesLow = true ∧
    (nxt (.bayPartAgeExpiry 2) b).hu.cond.baySilent = true ∧ (b.peer 2).role = .entry ∧
    (nxt .driveRestartExpiry r).hu.cond.driveRestart = false ∧
    (nxt .driveRestartExpiry (before1 r)).hu.cond.driveRestart = true := by decide +kernel

/-! ### The hold unit's own rows -/

def ownDesk : OwnHold := ⟨.desk, .halt, .host, 5, 99000⟩
def holdingOwn (rs : List HoldRec) : State :=
  { holding rs desk with hu := { (holding rs desk).hu with own := [ownDesk] } }

/-- An own hold refreshed at 1,000 ms with its record and without, and not one millisecond before. -/
theorem test_hold_refresh :
    let r : HoldRec := ⟨.desk, 4, .halt, .host, 5, 99000, .orphaned⟩
    (holdingOwn []).hu.own? .desk = some ownDesk ∧ (holdingOwn []).hu.find? .desk 4 = none ∧
    ((nxt (.holdRefreshPeriod .desk) (holdingOwn [])).hu.find? .desk 4).isSome = true ∧
    ((nxt (.holdRefreshPeriod .desk) (holdingOwn [r])).hu.find? .desk 4).map (·.state) = some .active ∧
    (nxt (.holdRefreshPeriod .desk) (before1 (holdingOwn [r]))).hu = (holdingOwn [r]).hu := by decide +kernel

/-- A record of 4,000 ms with its declarer fresh and absent, one of 3,999 ms, and the own one. -/
theorem test_lapse :
    let rs : List HoldRec := [⟨.bay, 3, .halt, .host, 0, 96000, .active⟩, ⟨.bay, 2, .halt, .host, 0, 96001, .active⟩,
      ⟨.link, 5, .halt, .drivesLow, 0, 96000, .active⟩, ⟨.desk, 4, .close, .host, 0, 0, .active⟩]
    let s := withPeer 3 (fun p => { p with state := .fresh }) (holding rs desk)
    let t := { s with hu := { s.hu with lapseAt := 99000 } }
    t.joined = true ∧ t.hu.lapseAt + 1000 ≤ t.clock.now ∧
    (nxt .lapseCheck t).hu.records.map (fun r => (r.declarer, r.state)) = [(2, .active), (5, .orphaned), (4, .active)] ∧
    (nxt .lapseCheck (before1 t)).hu = t.hu := by decide +kernel
theorem test_own_hold_form : desk.hu.Wf ∧ (holdingOwn []).hu.Wf ∧ entry.hu.Wf ∧ mast.hu.Wf := by
  unfold HoldUnit.Wf
  decide +kernel

theorem test_stop_in :
    let m := { mast with hu := { mast.hu with cond := { mast.hu.cond with button := true } } }
    entry.role = .entry ∧ entry.joined = true ∧ (nxt .stopIn entry).hu.effect = .stop ∧
    (nxt .stopIn exit_).hu.effect = .stop ∧ (nxt .stopIn desk).hu.effect = .stop ∧
    (nxt .stopIn drive).hu.effect = .stop ∧ mast.hu.overridden.button = false ∧ mast.hu.cond.button = false ∧
    mast.hu.own? .link = none ∧ (nxt .stopIn mast).hu.effect = .stop ∧ (nxt .stopIn m).hu = m.hu ∧
    (started .sheetFault entry).joined = false := by decide +kernel

/-- A LINK hold declared, its dwell begun and run out. -/
theorem test_link_monitor :
    let c := { desk with hu := { desk.hu with cond := { desk.hu.cond with baySilent := true } } }
    let l := { desk with hu := { desk.hu with own := [⟨.link, .halt, .baySilent, 0, 99000⟩] } }
    let d := { l with hu := { l.hu with dwellFrom := some 95000 } }
    linkContent c.linkCounted = some (.halt, .baySilent) ∧ (linkAct c).hu.effect = .halt ∧
    l.linkCounted = [] ∧ (linkAct l).hu.dwellFrom = some 100000 ∧
    (nxt .linkReleaseDwellExpiry d).hu.own = [] ∧ (before1 d).dwellDue = false := by decide +kernel

/-- A watch of two drives, one acknowledged, at the end of the ack window and at the braked limit. -/
theorem test_halt_watch :
    let w : Watch := ⟨[0, 5], [0], [], 99500, 500, some 100000, []⟩
    let s := fun m : MotionState => { drive with hu := { drive.hu with watch := some w }, mu := { drive.mu with motion := m } }
    let f := { desk with hu := { desk.hu with lampMode := .flashing, lampAt := 99500 } }
    ((nxt .ackWindowExpiry (s .driving)).peer 5).unanswered = 1 ∧ (nxt .ackWindowExpiry (s .driving)).mu.motion = .dragStop ∧
    (nxt .ackWindowExpiry (s .starting)).mu.motion = .dragStop ∧ (nxt .ackWindowExpiry (s .settling)).mu.motion = .dragStop ∧
    (nxt .ackWindowExpiry (s .stopping)).mu.motion = .dragStop ∧ (nxt .ackWindowExpiry (s .braked)).mu.motion = .braked ∧
    (nxt .brakedLimitExpiry (s .braked)).hu.watch = none ∧ drive.hu.watch = none ∧
    (∀ n ∈ [0, 5], n ∈ [0, 5]) ∧ (nxt .holdLampFlash f).hu.lampLit = true ∧ (before1 f).lampDue = false := by decide +kernel

/-! ### The drive -/

/-- An inverter answer as its bytes: sequence, load, measured speed and flags. -/
def answers (q : Byte) (load measured : Nat) (flags : Byte) : List Byte :=
  withCheck ([q] ++ be16n load ++ be16n measured ++ [flags])

/-- A drive whose update is due, after a frame of sequence 3. -/
def updating (m : MotionState) (a : Option (List Byte)) : State :=
  { drive with mu := { drive.mu with motion := m, sentSeq := some 3, answer := a, updateAt := 99900, mode := .run } }

/-- A drive in FAULT for the inverter, with a clear count. -/
def faulted (clear : Nat) (a : Option (List Byte)) : State :=
  { updating .fault a with mu := { (updating .fault a).mu with invCause := true, clear := clear } }

/-- The answer: taken, missed for the third time, flagged, and the counts of 30 and of 10. -/
theorem test_update_answer :
    let two := { updating .braked none with mu := { (updating .braked none).mu with missed := 2 } }
    let quiet := some (answers 3 0 4 0)
    let ten := fun m : MotionState => { updating m quiet with mu := { (updating m quiet).mu with still := 9, mode := .halt } }
    (inverterAnswerOf (answers 3 65000 5 1)) = some ⟨3, -536, 5, true⟩ ∧
    (nxt .motionUpdate (updating .braked (some (answers 3 100 7 0)))).mu.measured = 7 ∧
    (nxt .motionUpdate (updating .braked (some (answers 4 100 7 0)))).mu.missed = 1 ∧
    (nxt .inverterFault two).mu.motion = .fault ∧ two.suppressed .inverterFault = false ∧
    (nxt .motionUpdate (updating .braked (some (answers 3 0 0 1)))).mu.invCause = true ∧
    (nxt .motionUpdate (updating .driving none)).mu.invCause = false ∧
    (nxt .inverterFaultClear (faulted 29 quiet)).mu.invCause = false ∧
    (nxt .motionUpdate (faulted 28 quiet)).mu.clear = 29 ∧
    (nxt .motionUpdate (faulted 29 (some (answers 3 0 5 0)))).mu.clear = 0 ∧
    (nxt .stillCountComplete (ten .settling)).mu.motion = .braked ∧
    (nxt .stillCountComplete (ten .dragStop)).mu.motion = .braked ∧
    (nxt .motionUpdate { updating .stopping quiet with wv := { drive.wv with fused := .calm } }).mu.motion = .driving ∧
    (nxt .motionUpdate (ten .stopping)).mu.motion = .settling ∧ (nxt .motionUpdate (ten .stopping)).mu.still = 0 := by decide +kernel
theorem test_update_forms : (updating .braked none).mu.Wf ∧ (updating .driving none).mu.Wf ∧ (faulted 29 none).mu.Wf ∧
    (updating .settling none).mu.Wf ∧ (updating .dragStop none).mu.Wf := by
  unfold MotionUnit.Wf
  decide +kernel

/-- The caps in force one by one, and a drive that starts, runs up, waits at the interlock and is due or not. -/
theorem test_update_motion :
    let calm := fun m : MotionState => { updating m none with wv := { drive.wv with fused := .calm } }
    let bay := fun (c : Byte) (q : Byte) (idle : Half) =>
      withPeer 2 (fun p => { p with state := .fresh, bay := some (⟨0, 0, 0xFF, c, q, idle, 0, 0, 0, 0⟩, 99900) }) (calm .driving)
    let open_ := withPeer 2 (fun p => { p with state := .fresh, bay := some (⟨0, 1, 0xFF, 0, 1, 0, 0, 0, 0, 0⟩, 99900) }) (calm .driving)
    let held := holding [⟨.bay, 3, .stop, .host, 0, 99000, .active⟩] (calm .driving)
    let empties := holding [⟨.desk, 4, .empty, .host, 0, 99000, .active⟩] (calm .driving)
    (nxt .motionUpdate (calm .driving)).mu.target = 300 ∧ (nxt .motionUpdate (updating .driving none)).mu.target = 150 ∧
    (nxt .motionUpdate held).mu.target = 0 ∧ (nxt .motionUpdate empties).mu.target = 0 ∧
    (nxt .motionUpdate { empties with mu := { empties.mu with emptyState := .emptying } }).mu.target = 150 ∧
    (bay 0 0 60).entryBay.isSome = true ∧ (nxt .motionUpdate (bay 0 0 59)).mu.target = 300 ∧
    (nxt .motionUpdate (bay 0 0 60)).mu.target = 150 ∧ (nxt .motionUpdate (bay 0 0 300)).mu.target = 50 ∧
    (nxt .motionUpdate (bay 0 1 300)).mu.target = 300 ∧ (nxt .motionUpdate (calm .braked)).mu.motion = .starting ∧
    (nxt .motionUpdate { calm .starting with pins := { drive.pins with brakeReleased := true } }).mu.motion = .driving ∧
    (nxt .motionUpdate (calm .driving)).mu.reference = 5 ∧ (nxt .motionUpdate open_).mu.reference = 0 ∧
    (nxt .motionUpdate held).mu.motion = .settling ∧ (nxt .motionUpdate (calm .driving)).mu.frameSeq = 1 ∧
    (before1 (calm .driving)).updateDue = false ∧ (calm .driving).role = .drive := by decide +kernel

theorem test_brake :
    let s := { drive with mu := { drive.mu with motion := .driving, mismatchFrom := some 99000 } }
    (nxt (.brakeFbChange true) drive).mu.mismatchFrom = some 100000 ∧ (nxt (.brakeFbChange true) s).mu.mismatchFrom = none ∧
    let f := { drive with mu := { drive.mu with sentSeq := some 3 } }
    let kept := nxt (.inverterAnswer (answers 3 0 0 0)) f
    kept.mu.answer = some (answers 3 0 0 0) ∧ nxt (.inverterAnswer (answers 2 0 0 0)) kept = kept ∧
    nxt (.inverterAnswer [1]) kept = kept ∧ nxt (.inverterAnswer (answers 3 0 0 0)) drive = drive ∧ mast.role ≠ .drive ∧
    (nxt .brakeFault s).mu.motion = .fault ∧ s.suppressed .brakeFault = false ∧ s.mu.motion ≠ .fault ∧
    (before1 s).brakeFaultDue = false := by decide +kernel

/-- Empty-down at its limit, with an available drive and without. -/
theorem test_empty_down :
    let e := { desk with mu := { desk.mu with emptyState := .emptying, emptyAt := 0, mode := .slow }, clock := ⟨600000, 0⟩ }
    let d := withPeer 5 (fun p => { p with state := .fresh, motion := some (⟨2, 300, 300, 0, 300, 0⟩, 599001) }) e
    (nxt .emptydownTimeout e).mu.mode = .halt ∧ e.availableDrives = [] ∧ e.suppressed .emptydownTimeout = false ∧
    d.availableDrives ≠ [] ∧ ((nxt .emptydownTimeout d).hu.watch.map (·.list)) = some [5] ∧
    (before1 e).emptyLimitDue = false := by decide +kernel

/-! ### The bays -/

/-- A tag reader answer as its bytes. -/
def tagged (c : Byte) : List Byte := withCheck [c]

theorem test_field_lines :
    let p := { entry with bu := { entry.bu with pollAt := 99900 } }
    let d := { exit_ with bu := { exit_.bu with closeDeferred := true }, pins := { exit_.pins with gateClear := false } }
    let c := { entry with bu := { entry.bu with doorClose := true } }
    (nxt .tagPoll p).bu.tagTx = [1] ∧ (before1 p).tagPollDue = false ∧
    tagAnswerOf (tagged 3) = some 3 ∧ (nxt (.tagAnswer (tagged 3)) p).bu.tag = some (3, 100000) ∧
    tagAnswerOf [] = none ∧ (nxt (.tagAnswer []) p).bu.tag = none ∧
    (nxt (.gateClear true) d).bu.closeDeferred = false ∧ (nxt (.gateClear true) d).bu.doorClose = true ∧
    (nxt (.gateClear false) d).bu.closeDeferred = true ∧ (nxt (.doorLocked true) c).bu.doorClose = false ∧
    (nxt (.doorLocked false) c).bu.doorClose = true := by decide +kernel
theorem test_other_track_lines : drive.role ≠ .entry ∧ drive.role ≠ .exit ∧ (started .sheetFault entry).joined = false ∧
    nxt .arrive drive = drive ∧ nxt (.exitArrive true) entry = entry := by decide +kernel

/-- The head of the queue matched, skipped by its size, and stopping the walk when it is head-locked. -/
theorem test_matching :
    let a : Party := ⟨1, 6, .any, 0, false⟩
    let b : Party := ⟨2, 3, .any, 2, false⟩
    let c : Party := ⟨3, 2, .stepFree, 0, false⟩
    needFits .any .standard = true ∧ needFits .stepFree .standard = false ∧
    (matchWalk .standard true 3 10 [] [a, b, c]) = ([c], [a, b], 1) ∧
    (matchWalk .standard false 3 10 [] [a, b]) = ([b], [a], 4) ∧
    (matchWalk .standard true 3 2 [] [b, c]).1.map (·.locked) = [true, false] ∧
    (matchWalk .standard true 3 10 [] [{ c with locked := true }, a]).2.1 = [] := by decide +kernel

/-- Parties after the first one matched: matched too, skipped into head-lock, and past a need that does not fit. -/
theorem test_matching_goes_on :
    let p := fun (tag : Half) (size : Nat) (need : Need) (skips : Nat) => Party.mk tag size need skips false
    matchWalk .standard true 3 10 [] [p 1 4 .any 0, p 2 9 .any 0, p 3 1 .stepFree 0, p 4 5 .any 0] =
      ([p 2 9 .any 1, p 3 1 .stepFree 0], [p 1 4 .any 0, p 4 5 .any 0], 1) ∧
    (matchWalk .standard true 3 10 [] [p 1 4 .any 0, p 2 9 .any 2, p 4 5 .any 0]).2.1 = [p 1 4 .any 0] ∧
    (matchWalk .standard true 3 10 [] [p 1 4 .any 0, p 2 6 .any 0, p 4 5 .any 0]).2.2 = 0 ∧
    (matchWalk .standard true 3 10 [] ((List.range 5).map (fun n => p (BitVec.ofNat 16 n) 1 .any 0))).1.length = 1 := by
  decide +kernel

def anyParty : Party := ⟨1, 6, .any, 0, false⟩
def stepFreeParty : Party := ⟨2, 3, .stepFree, 0, false⟩

/-- The entry bay with boarding open, all cabins EMPTY, the tag of a cabin read, and a queue. -/
def boarding (cabin : Nat) (q : List Party) : State :=
  { entry with
    wv := { entry.wv with fused := .calm }
    mu := { entry.mu with mode := .run }
    ct := { entry.ct with cabins := entry.ct.cabins.map (fun c => { c with state := .empty }), occupied := 0 }
    bu := { entry.bu with boarding := true, tag := some (cabin, 99801), queue := q } }

/-- Each track event of a window in its turn. -/
def arrived (cabin : Nat) (q : List Party) : State := nxt .arrive (boarding cabin q)
def opened (cabin : Nat) (q : List Party) : State := nxt .align (arrived cabin q)
def closed (cabin : Nat) (q : List Party) : State := nxt .closeMark (opened cabin q)

theorem test_arrive :
    let w := (arrived 3 [anyParty]).bu.window
    (boarding 3 []).bu.window.state = .idle ∧ w.cabin = some 3 ∧ w.matched = [anyParty] ∧ w.remaining = 4 ∧
    (arrived 2 [stepFreeParty]).bu.creep = true ∧ (arrived 3 []).bu.window.grace = true ∧
    (boarding 3 []).suppressed .partyWanted = false ∧ (boarding 3 []).tagRead = some 3 ∧
    (nxt .arrive entry).bu.window.cabin = none ∧ (nxt .arrive entry).bu.window.boardable = false ∧
    (arrived 3 []).bu.window.state ≠ .idle ∧ (nxt .arrive (arrived 3 [])).bu.serial = 1 := by decide +kernel

theorem test_align_and_close :
    let a := arrived 3 [anyParty]
    let d := { opened 3 [anyParty] with pins := { entry.pins with gateClear := false } }
    a.bu.window.state = .arriving ∧ a.bu.window.aligned = false ∧ (opened 3 [anyParty]).bu.window.state = .opened ∧
    (nxt .align (arrived 3 [])).bu.window.state = .arriving ∧ (nxt .align (opened 3 [anyParty])).bu = (opened 3 [anyParty]).bu ∧
    (closed 3 [anyParty]).bu.window.state = .closing ∧ (closed 3 [anyParty]).bu.doorClose = true ∧
    (nxt .closeMark d).bu.closeDeferred = true ∧ (nxt .closeMark a).bu.queue = [anyParty] ∧
    (nxt .closeMark (arrived 3 [])).bu.window.grace = false ∧ (nxt .closeMark entry).bu = entry.bu := by decide +kernel

/-- Departures: boarded, passed, without a cabin, with a door not locked, with the gate not clear, and IDLE. -/
theorem test_depart :
    let c := closed 3 [anyParty]
    let t := nxt .departLimit c
    let u := { c with pins := { c.pins with doorLocked := false } }
    let g := { c with pins := { c.pins with gateClear := false } }
    c.bu.window.cabin = some 3 ∧ c.ct.entryCursor.serial ≠ some c.bu.serial ∧ t.bu.window = Window.idle ∧
    (t.cabin? 3).map (·.riders) = some (some 6) ∧ t.bu.idleStart = 100000 ∧ t.ct.entryCursor.cabin = some 3 ∧
    (nxt .departLimit (arrived 3 [])).bu.serial = 1 ∧ (nxt .departLimit (nxt .arrive entry)).bu.serial = 0 ∧
    (nxt .departLimit u).hu.effect = .stop ∧ (nxt .departLimit g).hu.effect = .halt ∧ g.hu.own? .bay = none ∧
    (nxt .departLimit entry).bu = entry.bu := by decide +kernel
/-- Boarding closed by a hold: the matched parties of an ARRIVING window go back to the queue, which EMPTY and
above flush; an OPEN window stays. -/
theorem test_boarding_closes :
    let rise := fun (e : Byte) (x : State) => nxt (.holdReceived 4 1 ⟨3, e, 6, 77⟩) x
    let a := arrived 3 [anyParty]
    takes a ⟨4, 1, .hold ⟨3, 1, 6, 77⟩⟩ = true ∧ a.bu.boarding = true ∧
    (rise 1 a).bu.queue = [anyParty] ∧ (rise 1 a).bu.window.matched = [] ∧ (rise 1 a).bu.boarding = false ∧
    (rise 2 a).bu.queue = [] ∧ .partyCancelled ∈ (rise 2 a).lu.queue.map (·.code) ∧
    a.suppressed .partyCancelled = false ∧
    (rise 3 (opened 3 [anyParty])).bu.window = (opened 3 [anyParty]).bu.window := by decide +kernel
theorem test_depart_known : (closed 3 [anyParty]).CabinsKnown :=
  cabinsKnown_of (by decide +kernel) ⟨by decide +kernel, fun b c h => by
    have he : (closed 3 [anyParty]).ct.entryCursor = .empty := by decide +kernel
    have hx : (closed 3 [anyParty]).ct.exitCursor = .empty := by decide +kernel
    cases b
    · simp only [CabinTable.cursor, he] at h; cases h
    · simp only [CabinTable.cursor, hx] at h; cases h⟩

/-- The telegram and the events of a departure from CLOSING, from OPEN and from ARRIVING. -/
theorem test_depart_hands_over :
    let d := fun s : State => nxt .departLimit { s with lc := .reset }
    let kinds := fun s : State => (d s).lc.queue.map (·.payload)
    let events := fun s : State => (d s).lu.queue.map (fun e => (e.code, e.param))
    let boarded : Payload := .passage ⟨0, 3, 4, 6, [1]⟩
    kinds (closed 3 [anyParty]) = [boarded] ∧
    (kinds (opened 3 [anyParty])).map payloadKind = [.bay, .passage] ∧ boarded ∈ kinds (opened 3 [anyParty]) ∧
    kinds (arrived 3 [anyParty]) = [.passage ⟨0, 3, 5, 0xFF, []⟩] ∧
    (.passage, 0x304) ∈ events (closed 3 [anyParty]) ∧ (.partyBoarded, 1) ∈ events (opened 3 [anyParty]) ∧
    (.passage, 0x305) ∈ events (arrived 3 [anyParty]) ∧
    entry.suppressed .passage = false ∧ entry.suppressed .partyBoarded = false := by decide +kernel

/-- The exit bay with a cabin in a state after a number of laps, its tag read. -/
def exiting (st : CabinState) (laps : Nat) : State :=
  { exit_ with
    ct := { exit_.ct with cabins := exit_.ct.cabins.map (fun c => { c with state := st, laps := laps }) }
    bu := { exit_.bu with tag := some (3, 99801) } }

theorem test_exit_opens :
    let a := nxt (.exitArrive false) (exiting .boarded 0)
    let e := nxt (.exitArrive true) (exiting .empty 0)
    exit_.bu.window.state = .idle ∧ a.bu.window.cabin = some 3 ∧ (nxt .exitAlign a).bu.window.state = .opened ∧
    (nxt .exitAlign e).bu.window.state = .arriving ∧ (nxt .exitAlign (nxt (.exitArrive false) exit_)).bu.window.state = .opened ∧
    (nxt .exitAlign exit_).bu = exit_.bu ∧ a.bu.window.contact = none ∧
    (nxt (.exitArrive false) a).bu.serial = 1 := by decide +kernel

/-- The four decisions, their departures, and the third lap of a held-over cabin. -/
theorem test_exit_departs :
    let a := fun (st : CabinState) (laps : Nat) => nxt .exitAlign (nxt (.exitArrive false) (exiting st laps))
    let r := fun (st : CabinState) (empty : Bool) => (nxt (.exitCloseMark empty) (a st 0)).bu.window.result
    let d := nxt (.exitDepartLimit false) (nxt (.exitCloseMark false) (a .boarded 2))
    let u := { a .boarded 0 with pins := { exit_.pins with gateClear := false } }
    r .boarded true = some .cleared ∧ r .boarded false = some .heldOver ∧ r .empty true = some .passedEmpty ∧
    r .empty false = some .loadedFound ∧ (nxt (.exitCloseMark true) exit_).bu = exit_.bu ∧
    (nxt (.exitCloseMark true) (a .boarded 0)).bu.window.state = .closing ∧
    (nxt (.exitCloseMark true) u).bu.closeDeferred = true ∧
    (nxt (.exitCloseMark false) (nxt (.exitCloseMark true) (a .boarded 0))).bu.window.contact = some true ∧
    d.bu.window = Window.idle ∧ d.bu.summary = some ⟨0, 3, .heldOver, none⟩ ∧ (d.cabin? 3).map (·.laps) = some 3 ∧
    d.hu.effect = .halt ∧ (nxt (.exitDepartLimit true) (a .boarded 0)).ct.occupied = 15 ∧
    (nxt (.exitDepartLimit true) (nxt (.exitArrive true) exit_)).bu.serial = 0 ∧
    (nxt (.exitDepartLimit true) (nxt (.exitArrive true) exit_)).bu.window.state = .arriving ∧
    (nxt (.exitDepartLimit true) exit_).bu = exit_.bu ∧ resultFits .exit .heldOver = true := by decide +kernel
/-- The departure tests at the exit bay: a door not locked, the gate not clear, and a loaded cabin found. -/
theorem test_exit_departure_tests :
    let a := fun st : CabinState => nxt .exitAlign (nxt (.exitArrive false) (exiting st 0))
    let u := { a .boarded with pins := { exit_.pins with doorLocked := false } }
    let g := { a .boarded with pins := { exit_.pins with gateClear := false } }
    let lone := nxt (.exitArrive true) exit_
    let cause := fun s : State => ((nxt (.exitDepartLimit true) s).hu.own? .bay).map (fun o => (o.effect, o.cause))
    cause u = some (.stop, .doorUnlocked) ∧ cause g = some (.halt, .gate) ∧ cause (a .boarded) = none ∧
    cause { lone with pins := { exit_.pins with gateClear := false } } = some (.halt, .gate) ∧
    lone.bu.window.cabin = none ∧ exit_.suppressed .loadedFound = false ∧
    .loadedFound ∈ (nxt (.exitDepartLimit false) (a .empty)).lu.queue.map (·.code) := by decide +kernel
theorem test_exit_known : (exiting .boarded 2).CabinsKnown :=
  cabinsKnown_of rfl ⟨by decide +kernel, fun b c h => by cases b <;> cases h⟩

/-- The telegrams and the event of an exit passage, carried round and not. -/
theorem test_exit_hands_over :
    let a := fun (st : CabinState) (laps : Nat) =>
      { nxt (.exitCloseMark false) (nxt .exitAlign (nxt (.exitArrive false) (exiting st laps))) with lc := .reset }
    let d := fun (st : CabinState) (laps : Nat) => nxt (.exitDepartLimit false) (a st laps)
    let sent_ := fun s : State => s.lc.queue.map (·.payload)
    sent_ (d .boarded 0) = [.passage ⟨0, 3, 1, 0xFF, []⟩] ∧
    (sent_ (d .heldOver 2)).map payloadKind = [.hold, .passage] ∧ (d .heldOver 3).hu.effect = .halt ∧
    (.passage, 0x301) ∈ (d .heldOver 2).lu.queue.map (fun e => (e.code, e.param)) ∧
    (a .heldOver 2).pins.doorLocked = true ∧ (a .heldOver 2).pins.gateClear = true ∧
    (a .heldOver 2).hu.own? .bay = none ∧ exit_.suppressed .passage = false := by decide +kernel

/-! ### The request port -/

theorem serves_of {s : State} (h1 : s.sl.resetHeld = false) (h2 : s.sl.start ≠ .loading) (h3 : s.rp.busy = false)
    (h4 : s.rp.rdy = false) : s.serves := ⟨h1, h2, h3, h4⟩
theorem test_serves : drive.serves ∧ mast.serves ∧ entry.serves ∧ exit_.serves ∧ desk.serves ∧ (boarding 3 []).serves ∧
    (arrived 3 []).serves ∧ (opened 3 [anyParty]).serves ∧ (started .sheetFault entry).serves ∧
    (started .listenOnly desk).serves := by
  refine ⟨?_, ?_, ?_, ?_, ?_, ?_, ?_, ?_, ?_, ?_⟩ <;> refine serves_of ?_ ?_ ?_ ?_ <;> decide +kernel

/-- A slot whose answer has two parts: 25 bytes of data. -/
def answered : State :=
  { entry with rp := { entry.rp with slot := some ⟨1, 9, 0, List.replicate 25 7, 0, false⟩ } }

theorem test_port :
    (nxt (.status 1) (started .loading entry)).rp.busy = true ∧ (started .loading entry).rp.rdy = false ∧
    (nxt (.status 1) answered).rp.refused = 1 ∧ answered.rp.rdy = true ∧ entry.rp.slot = none ∧
    requestLength 99 ≠ some 0 ∧ requestLength 1 ≠ some 1 ∧
    ((nxt (.putUnknownRequest 99 1 0) entry).rp.slot.map (·.result)) = some 3 ∧ nxt .putIncomplete entry = entry ∧
    (nxt (.get true) entry).rp.miso = [0, 0, 0, 1, 0] ∧ (nxt (.get false) answered).rp.slot = answered.rp.slot ∧
    ((nxt (.get true) answered).rp.slot.map (·.part)) = some 1 ∧ (nxt (.get true) answered).rp.miso.length = 29 ∧
    (nxt (.get true) (nxt (.get true) answered)).rp.rdy = false := by decide +kernel

/-- The bytes of transactions: a request with bytes after its parameters, a wrong length, one above 16, an
incomplete and a short one, a GET of a whole part and of less, and another first byte. -/
theorem test_transactions :
    let row := fun (bytes : List Byte) (s : State) => s.transactionRow ⟨4, 4⟩ bytes
    row [1, 9, 7, 4, 1, 2, 3, 0, 0xEE] entry = some (.submitParty 7 0x0102 3 0) ∧
    row [1, 17, 7, 0] entry = some (.restart 7 ⟨4, 4⟩) ∧
    row [1, 1, 7, 1, 5] entry = some (.putUnknownRequest 1 7 1) ∧
    row [1, 99, 7, 17] entry = some (.putUnknownRequest 99 7 17) ∧
    row [1, 2, 7, 1] entry = some .putIncomplete ∧ row [1, 2] entry = some .putIncomplete ∧
    row [2, 0, 0, 0, 0, 0] entry = some (.get true) ∧ row [2, 0, 0, 0, 0] entry = some (.get false) ∧
    row (2 :: List.replicate 29 0) answered = some (.get true) ∧
    row (2 :: List.replicate 28 0) answered = some (.get false) ∧
    row [3] entry = none ∧ row [] entry = none := by decide +kernel

/-- The result of a request. -/
def resultOfRequest (c : Instr) (s : State) : Option Nat := (nxt c s).rp.slot.map (·.result)

/-- The requests that read, at the ends of their ranges, and a taken fault record. -/
theorem test_reads :
    let f := withPeer 23 (fun p => { p with fault := some ⟨.order, true, 5, 0⟩ }) entry
    let sf := started .sheetFault entry
    entry.joined = true ∧ resultOfRequest (.status 1) entry = some 0 ∧
    resultOfRequest (.readPeer 1 23) entry = some 0 ∧ resultOfRequest (.readPeer 1 24) entry = some 3 ∧
    resultOfRequest (.readPeer 1 23) sf = some 13 ∧
    resultOfRequest (.readWind 1 0) entry = some 0 ∧ resultOfRequest (.readWind 1 3) entry = some 6 ∧
    resultOfRequest (.readWind 1 255) entry = some 0 ∧ resultOfRequest (.readWind 1 4) entry = some 3 ∧
    resultOfRequest (.readWind 1 254) entry = some 3 ∧ resultOfRequest (.readWind 1 255) sf = some 13 ∧
    resultOfRequest (.readHolds 1 15) entry = some 0 ∧ resultOfRequest (.readHolds 1 16) entry = some 3 ∧
    resultOfRequest (.readHolds 1 15) sf = some 13 ∧ resultOfRequest (.readCabin 1 1) entry = some 0 ∧
    resultOfRequest (.readCabin 1 16) entry = some 0 ∧ resultOfRequest (.readCabin 1 17) entry = some 3 ∧
    resultOfRequest (.readCabin 1 0) sf = some 13 ∧ resultOfRequest (.readLog 1 255 4) entry = some 0 ∧
    resultOfRequest (.readLog 1 0 0) entry = some 3 ∧ resultOfRequest (.readLog 1 0 5) entry = some 3 ∧
    resultOfRequest (.readLog 1 0 1) sf = some 13 ∧ resultOfRequest (.takePeerFault 1 23) f = some 0 ∧
    ((nxt (.takePeerFault 1 23) f).peer 23).fault = none ∧ resultOfRequest (.takePeerFault 1 23) entry = some 6 ∧
    resultOfRequest (.takePeerFault 1 24) entry = some 3 ∧ resultOfRequest (.takePeerFault 1 23) sf = some 13 := by decide +kernel

/-- A PUT held back in LOADING, answered at the end of LOADING from the state entered: JOINING with a good
sheet, SHEET_FAULT with none. -/
theorem test_deferred_put :
    let put := fun c : Instr => nxt c (loading 2 2)
    let answer := fun s : State => s.rp.slot.map (fun a => (a.code, a.num, a.result))
    let read := fun (image : Option (List Byte)) (s : State) => nxt (.sheetReadComplete image) s
    (put (.readCabin 9 1)).rp.deferred.isSome = true ∧ (put (.readCabin 9 1)).rp.slot = none ∧
    answer (read (some image) (put (.readCabin 9 1))) = some (6, 9, 0) ∧
    answer (read none (put (.readCabin 9 1))) = some (6, 9, 13) ∧
    (read none (put (.readCabin 9 1))).rp.deferred = none ∧
    answer (read (some image) (loading 2 2)) = none := by decide +kernel

/-- A full event queue. -/
def fullEvents : State :=
  { entry with lu := { entry.lu with
      queue := (List.range 32).map (fun n => ⟨.passage, BitVec.ofNat 16 n, 0⟩)
      overrun := true
      lost := 255 } }

theorem test_take_event : entry.lu.queue ≠ [] ∧ (nxt (.takeEvent 1) entry).lu.queue = [] ∧
    resultOfRequest (.takeEvent 1) entry = some 0 := by decide +kernel
theorem test_take_event_full : fullEvents.lu.queue.length = 32 ∧ fullEvents.suppressed .passage = false ∧
    (nxt (.takeEvent 1) fullEvents).lu.lost = 0 ∧
    resultOfRequest (.takeEvent 1) { entry with lu := { entry.lu with queue := [] } } = some 6 ∧
    (raise .passage 5 fullEvents).lu.queue.length = 32 ∧ (raise .passage 5 fullEvents).lu.lost = 255 ∧
    { entry with sl := { entry.sl with sheet := { sheet with eventMask := 0xFFFFFFFF } } }.suppressed .passage = true ∧
    entry.lu.queue.length < 32 := by decide +kernel
theorem test_event_queue_form : fullEvents.lu.Wf := by
  have h := LogUnit.powerOn_wf 0
  exact ⟨h.1, h.2.1, h.2.2.1, by decide +kernel, by decide, by decide +kernel, fun hq => by cases hq⟩

/-- A party submitted: queued, matched in a wanted grace, and each refusal. -/
theorem test_submit :
    let q := { entry with bu := { entry.bu with queue := [anyParty] } }
    let full := { entry with bu := { entry.bu with queue := (List.range 16).map (fun n => ⟨BitVec.ofNat 16 (n + 1), 1, .any, 0, false⟩) } }
    let s := holding [⟨.desk, 4, .empty, .host, 0, 99000, .active⟩] entry
    let g := arrived 3 []
    (nxt (.submitParty 1 7 10 0) entry).bu.queue.length = 1 ∧ resultOfRequest (.submitParty 1 7 11 0) entry = some 3 ∧
    resultOfRequest (.submitParty 1 7 5 1) entry = some 0 ∧ resultOfRequest (.submitParty 1 7 6 1) entry = some 3 ∧
    resultOfRequest (.submitParty 1 7 4 2) entry = some 0 ∧ resultOfRequest (.submitParty 1 7 5 2) entry = some 3 ∧
    resultOfRequest (.submitParty 1 7 1 3) entry = some 3 ∧ resultOfRequest (.submitParty 1 0 1 0) entry = some 3 ∧
    resultOfRequest (.submitParty 1 7 0 0) entry = some 3 ∧ resultOfRequest (.submitParty 1 7 1 0) desk = some 1 ∧
    resultOfRequest (.submitParty 1 7 1 0) (started .listenOnly entry) = some 13 ∧
    resultOfRequest (.submitParty 1 7 25 0) (started .sheetFault entry) = some 13 ∧
    resultOfRequest (.submitParty 1 7 1 0) s = some 8 ∧ resultOfRequest (.submitParty 1 1 1 0) q = some 5 ∧
    full.bu.placesTaken = 16 ∧ resultOfRequest (.submitParty 1 77 1 0) full = some 4 ∧
    g.bu.window.grace = true ∧ (nxt (.submitParty 1 7 10 0) g).bu.window.matched.length = 1 ∧
    (nxt (.submitParty 1 7 3 1) (arrived 2 [])).bu.creep = true ∧ needFits .stepFree .stepFree = true := by decide +kernel

theorem test_withdraw :
    let q := { entry with bu := { entry.bu with queue := [anyParty, stepFreeParty] } }
    (nxt (.withdrawParty 1 1) q).bu.queue = [stepFreeParty] ∧ q.suppressed .partyWithdrawn = false ∧
    resultOfRequest (.withdrawParty 1 1) (arrived 3 [anyParty]) = some 7 ∧
    resultOfRequest (.withdrawParty 1 9) q = some 6 ∧ resultOfRequest (.withdrawParty 1 0) q = some 3 ∧
    resultOfRequest (.withdrawParty 1 1) desk = some 1 ∧ resultOfRequest (.withdrawParty 1 1) (started .listenOnly q) = some 13 := by decide +kernel

/-- A count up to the capacity and above it, and a close from OPEN, CLOSING and ARRIVING. -/
theorem test_host_works_the_bay :
    let o := opened 3 [anyParty]
    let u := { o with pins := { o.pins with gateClear := false } }
    o.bu.window.state = .opened ∧ (nxt (.reportCount 1 10) o).bu.window.count = some 10 ∧ (nxt (.reportCount 1 10) o).hu = o.hu ∧
    (nxt (.reportCount 1 11) o).hu.effect = .halt ∧ o.hu.own? .bay = none ∧ resultOfRequest (.reportCount 1 1) entry = some 11 ∧
    resultOfRequest (.reportCount 1 1) exit_ = some 1 ∧ resultOfRequest (.reportCount 1 1) (started .listenOnly o) = some 13 ∧
    (nxt (.closeDoors 1) o).bu.window.state = .closing ∧ (nxt (.closeDoors 1) u).bu.closeDeferred = true ∧
    resultOfRequest (.closeDoors 1) (closed 3 [anyParty]) = some 0 ∧ resultOfRequest (.closeDoors 1) entry = some 11 ∧
    resultOfRequest (.closeDoors 1) desk = some 1 ∧ resultOfRequest (.closeDoors 1) (started .sheetFault o) = some 13 := by decide +kernel

theorem test_host_declares :
    let d := nxt (.declareHold 1 3 6) desk
    let free := { d with rp := desk.rp }
    resultOfRequest (.declareHold 1 3 6) drive = some 1 ∧ resultOfRequest (.declareHold 1 0 6) desk = some 3 ∧
    resultOfRequest (.declareHold 1 3 5) desk = some 3 ∧ resultOfRequest (.declareHold 1 2 6) entry = some 3 ∧
    resultOfRequest (.declareHold 1 3 6) (started .listenOnly desk) = some 13 ∧ desk.hu.own? .desk = none ∧
    effectOf 3 = some .halt ∧ causeOf 6 = some .host ∧ holdAllowed .desk .host .halt = true ∧
    (d.hu.own? .desk).map (·.effect) = some .halt ∧
    ((nxt (.declareHold 2 4 6) free).hu.own? .desk).map (·.effect) = some .stop ∧
    ((nxt (.declareHold 2 1 6) free).hu.own? .desk).map (·.effect) = some .halt := by decide +kernel

/-- Releases at a bay, a drive and a desk, and each refusal. -/
theorem test_host_releases :
    let b := { entry with hu := { entry.hu with own := [⟨.bay, .halt, .host, 0, 99000⟩] } }
    let m := { mast with hu := { mast.hu with own := [⟨.link, .stop, .button, 0, 99000⟩], cond := { mast.hu.cond with button := true } } }
    let d := holdingOwn [⟨.bay, 3, .halt, .host, 0, 99000, .active⟩, ⟨.storm, 1, .stop, .level, 0, 99000, .active⟩]
    let w := { d with wv := { d.wv with records := [⟨1, some (.storm, ⟨4, 0, 0, 0, 0, 0⟩), 99000, 0, true⟩] } }
    let l := { desk with hu := { desk.hu with own := [⟨.link, .halt, .baySilent, 0, 99000⟩] } }
    resultOfRequest (.releaseHold 1 5 0) desk = some 3 ∧ resultOfRequest (.releaseHold 1 4 24) desk = some 3 ∧
    resultOfRequest (.releaseHold 1 3 2) b = some 1 ∧ resultOfRequest (.releaseHold 1 2 0) m = some 1 ∧
    resultOfRequest (.releaseHold 1 2 2) (started .listenOnly b) = some 13 ∧ resultOfRequest (.releaseHold 1 2 2) entry = some 9 ∧
    (nxt (.releaseHold 1 2 2) b).hu.own = [] ∧ (nxt (.releaseHold 1 4 1) m).hu.cond.button = false ∧
    (nxt (.releaseHold 1 3 4) d).hu.own = [] ∧ (nxt (.releaseHold 1 4 4) l).hu.own = [] ∧
    (nxt (.releaseHold 1 2 3) d).hu.find? .bay 3 = none ∧ w.wv.stormStanding = true ∧
    resultOfRequest (.releaseHold 1 0 1) w = some 10 ∧ resultOfRequest (.releaseHold 1 0 1) d = some 0 := by decide +kernel

theorem test_desk :
    let h := holding [⟨.bay, 3, .halt, .host, 0, 99000, .active⟩] desk
    resultOfRequest (.orderRide 1 3) entry = some 1 ∧ resultOfRequest (.orderRide 1 4) desk = some 3 ∧
    resultOfRequest (.orderRide 1 3) (started .listenOnly desk) = some 13 ∧ resultOfRequest (.orderRide 1 3) h = some 12 ∧
    resultOfRequest (.orderRide 1 0) h = some 0 ∧ (nxt (.orderRide 1 3) desk).mu.deskSerial = 1 ∧
    resultOfRequest (.orderRide 1 1) { desk with sl := { desk.sl with settled := false } } = some 12 ∧
    resultOfRequest (.setService 1 1 1) entry = some 1 ∧ resultOfRequest (.setService 1 0 1) desk = some 3 ∧
    resultOfRequest (.setService 1 17 1) desk = some 3 ∧ resultOfRequest (.setService 1 16 2) desk = some 3 ∧
    (nxt (.setService 1 16 1) desk).ct.deskMarks = 0x8000 ∧ resultOfRequest (.setService 1 16 1) (started .listenOnly desk) = some 13 ∧
    resultOfRequest (.setService 1 64 1) (started .sheetFault desk) = some 13 := by decide +kernel

/-! ### The log unit, the invariants and the wire form -/

/-- The log at a write position. -/
def logAt (w : Nat) : State := { entry with lu := { entry.lu with writePos := w } }

theorem test_log_crossings : (writeEntry 2 .bu .localAction [1] (logAt 127)).lu.queue.map (·.code) = [.restarted, .logHalf] ∧
    (writeEntry 2 .bu .localAction [1] (logAt 255)).lu.queue.map (·.code) = [.restarted, .logWrap] ∧
    (writeEntry 2 .bu .localAction [1] (logAt 126)).lu.queue.map (·.code) = [.restarted] ∧
    (writeEntry 2 .bu .localAction [1] (logAt 255)).lu.writePos = 0 := by decide +kernel
theorem test_log_form (w : Nat) (h : w < 256) : (logAt w).lu.Wf := by
  obtain ⟨h1, _, h3, h4, h5, h6, h7⟩ := LogUnit.powerOn_wf 0
  exact ⟨h1, h, h3, h4, h5, h6, h7⟩

/-- The premises of the invariants hold in a station of these tests. -/
theorem test_invariants_met : (∃ t, step State.reset = .next t) ∧ State.reset.HeldIsReset ∧ held.HeldIsReset ∧
    State.reset.rp.Wf ∧ State.reset.lc.Wf :=
  ⟨⟨_, rfl⟩, (by intro h; cases h), (fun _ => by decide +kernel), Port.reset_wf, Link.reset_wf⟩

theorem test_telegram_ok : telegramOk ⟨23, 255, hold1 0xFFFFFFFF⟩ = true ∧
    telegramOk ⟨2, 0, .passage ⟨0, 1, 4, 5, [1, 2, 3, 4]⟩⟩ = true ∧
    telegramOf (telegramBytes ⟨2, 0, .passage ⟨0, 1, 4, 5, [1, 2, 3, 4]⟩⟩) = some ⟨2, 0, .passage ⟨0, 1, 4, 5, [1, 2, 3, 4]⟩⟩ := by
  decide +kernel

/-! ### Own echoes, telegrams turned away, the hold lamp, the log filter -/

/-- The station awaits a telegram as the echo of its own transmission. -/
def echoed (t : Telegram) (s : State) : State := { s with lc := { s.lc with echoDue := some t } }

/-- An own echo is accepted. -/
def takesEcho (t : Telegram) (s : State) : Bool :=
  let s := echoed t s
  !s.sl.resetHeld && s.joined && telegramOk t && t.sender.toNat == s.own && s.judge t == .accept

theorem takesEcho_accepts {s : State} {t : Telegram} (h : takesEcho t s = true) : (echoed t s).acceptsEcho t := by
  unfold takesEcho at h
  simp only [Bool.and_eq_true, Bool.not_eq_true', beq_iff_eq] at h
  obtain ⟨⟨⟨⟨h1, h2⟩, h3⟩, h4⟩, h5⟩ := h
  exact ⟨⟨h1, h2, h3, h4, rfl⟩, h5⟩

/-- An own echo of every kind is accepted. -/
theorem test_own_echoes : takesEcho ⟨4, 1, .hold ⟨3, 3, 6, 77⟩⟩ desk = true ∧
    takesEcho ⟨4, 1, .release ⟨3, 4, 0⟩⟩ desk = true ∧ takesEcho ⟨4, 1, .release ⟨2, 3, 1⟩⟩ desk = true ∧
    takesEcho ⟨0, 1, motion1⟩ drive = true ∧ takesEcho ⟨2, 1, .passage ⟨7, 1, 4, 3, [9]⟩⟩ entry = true ∧
    takesEcho ⟨2, 1, .bay bay1⟩ entry = true ∧ takesEcho ⟨1, 1, .wind ⟨1, 100, 100, 0, 2, 0⟩⟩ mast = true ∧
    takesEcho ⟨4, 1, .order ⟨3, 1⟩⟩ desk = true ∧ takesEcho ⟨4, 1, .service ⟨1, 1⟩⟩ desk = true ∧
    takesEcho ⟨2, 1, presence1⟩ entry = true ∧ takesEcho ⟨4, 1, .mark ⟨5⟩⟩ desk = true := by decide +kernel

/-- What own echoes leave: the hold set but for an override, the parts and the time. -/
theorem test_own_echoes_taken :
    let hear := fun (t : Telegram) (s : State) => nxt (arrival t) (echoed t s)
    let h := holding [⟨.bay, 3, .halt, .host, 0, 99000, .active⟩] desk
    (hear ⟨4, 1, .hold ⟨3, 3, 6, 77⟩⟩ desk).hu = desk.hu ∧ (hear ⟨4, 1, .release ⟨3, 4, 0⟩⟩ h).hu = h.hu ∧
    (hear ⟨4, 1, .release ⟨2, 3, 1⟩⟩ h).hu.records = [] ∧
    ((hear ⟨0, 1, motion1⟩ drive).peer 0).motion.isSome = true ∧
    ((hear ⟨0, 1, motion1⟩ drive).peer 0).state = (drive.peer 0).state ∧
    ((hear ⟨2, 9, presence1⟩ entry).peer 2).heard = some ⟨2, 2, false⟩ ∧
    ((hear ⟨2, 9, presence1⟩ entry).peer 2).lastSeq = 9 ∧
    (hear ⟨4, 1, .mark ⟨5⟩⟩ desk).clock = desk.clock ∧ (hear ⟨4, 1, .order ⟨3, 1⟩⟩ desk).mu.mode = .run ∧
    (hear ⟨1, 3, .wind ⟨1, 100, 100, 0, 2, 0⟩⟩ mast).wv.fused = .breeze ∧
    (hear ⟨2, 1, .bay bay1⟩ entry).lc.echoDue = none := by decide +kernel

/-- A refused own echo, a repeated refusal at the count's end, and telegrams discarded before their judgement. -/
theorem test_refused_and_discarded :
    let t : Telegram := ⟨2, 1, .bay bay1⟩
    let s := echoed t { entry with sl := { entry.sl with sheet := { sheet with refuseMask := 1 <<< 22 } } }
    let f := withPeer 1 (fun p => { p with fault := some ⟨.hold, false, 3, 255⟩ }) entry
    let same := fun s : State => let u := nxt (arrival t) s
      u.lu = s.lu ∧ u.pv = s.pv ∧ u.sl = s.sl ∧ u.lc = { s.lc with echoDue := none }
    telegramOk t = true ∧ t.sender.toNat = s.own ∧ s.judge t = .refuse true ∧
    ((nxt (arrival t) s).peer 2).fault = some ⟨.bay, true, 100000, 0⟩ ∧ s.suppressed .peerRefused = false ∧
    (.peerRefused, BitVec.ofNat 16 (512 + kindCode .bay)) ∈ (nxt (arrival t) s).lu.queue.map (fun e => (e.code, e.param)) ∧
    ((nxt (.orderReceived 1 0 ⟨3, 1⟩) f).peer 1).fault = some ⟨.hold, false, 3, 255⟩ ∧
    same (started .loading entry) ∧ same (started .loading desk) ∧ same (started .sheetFault desk) ∧
    same (started .sheetFault s) := by decide +kernel

/-- The first duplicate in JOINING and in RUNNING, and a later one. -/
theorem test_duplicate_event :
    let t : Telegram := ⟨0, 9, motion1⟩
    let d := { drive with lc := { drive.lc with duplicate := true } }
    let j := started .joining { drive with sl := { drive.sl with joinedAt := 99000 } }
    (.dupStation, 0) ∈ (nxt (arrival t) drive).lu.queue.map (fun e => (e.code, e.param)) ∧
    (nxt (arrival t) j).sl.runningAt = 101000 ∧ (nxt (arrival t) drive).sl.runningAt = drive.sl.runningAt ∧
    (nxt (arrival t) d).lu.queue = d.lu.queue ∧ (nxt (arrival t) d).mu = d.mu := by decide +kernel

/-- In JOINING and SHEET_FAULT nothing is sent while no PRESENCE waits. -/
theorem test_no_presence_waits :
    let s := sent [motion1] entry
    (∀ e ∈ s.lc.queue, payloadKind e.payload ≠ .presence) ∧ s.lc.queue ≠ [] ∧
    (nxt .transmissionStart (started .joining s)).lc.sending = none ∧
    (nxt .transmissionStart (started .sheetFault s)).lc.sending = none := by decide +kernel

/-- The hold lamp of a desk: steady, off, flashing; at another station it stays. -/
theorem test_hold_lamp :
    let h : HoldPayload := ⟨2, 3, 6, 77⟩
    let a := nxt (.holdReceived 3 1 h) desk
    let r := nxt (.releaseReceived 3 2 ⟨2, 3, 0⟩) a
    let o := { holding [⟨.link, 5, .halt, .drivesLow, 0, 96000, .active⟩] desk with
      hu := { (holding [⟨.link, 5, .halt, .drivesLow, 0, 96000, .active⟩] desk).hu with lapseAt := 99000, lampMode := .steady } }
    let lamp := fun s : State => (s.hu.lampMode, s.hu.lampLit, s.hu.lampAt)
    desk.role = .desk ∧ a.hu.records ≠ desk.hu.records ∧ lamp a = (.steady, true, 100000) ∧
    lamp r = (.off, false, 100000) ∧ r.hu.records ≠ a.hu.records ∧ lamp (nxt .lapseCheck o) = (.flashing, true, 100000) ∧
    drive.role ≠ .desk ∧ lamp (nxt (.holdReceived 3 1 h) drive) = lamp drive := by decide +kernel

/-- The LINK hold's content from several conditions, its raise, a change of its cause alone, an overridden
condition, and the conditions before the end of settling. -/
theorem test_link_content :
    let s := fun (c o : LinkFlags) (own : List OwnHold) => { desk with hu := { desk.hu with cond := c, overridden := o, own := own } }
    let content := fun x : State => ((linkAct x).hu.own? .link).map (fun o => (o.effect, o.cause, o.declaredAt))
    let no : LinkFlags := ⟨false, false, false, false, false⟩
    let young := fun x : State => { x with sl := { x.sl with settled := false } }
    content (s ⟨true, false, false, false, false⟩ no []) = some (.empty, .noWind, 100000) ∧
    content (s ⟨true, false, true, true, false⟩ no []) = some (.halt, .baySilent, 100000) ∧
    content (s ⟨true, true, true, true, true⟩ no []) = some (.stop, .button, 100000) ∧
    content (s ⟨true, true, false, false, false⟩ ⟨false, true, false, false, false⟩ []) = some (.empty, .noWind, 100000) ∧
    content (young (s ⟨true, false, false, false, true⟩ no [])) = some (.stop, .button, 100000) ∧
    linkAct (young (s ⟨true, false, false, false, false⟩ no [])) = young (s ⟨true, false, false, false, false⟩ no []) ∧
    content (s ⟨false, true, false, false, false⟩ no [⟨.link, .empty, .noWind, 5, 99000⟩]) = some (.halt, .drivesLow, 5) ∧
    (linkAct (s ⟨false, true, false, false, false⟩ no [⟨.link, .empty, .noWind, 5, 99000⟩])).lc.queue.map (·.payload) = [.hold ⟨4, 3, byteOf (causeCode .drivesLow), 5⟩] ∧
    content (s ⟨false, false, true, false, false⟩ no [⟨.link, .halt, .drivesLow, 5, 99000⟩]) = some (.halt, .baySilent, 5) ∧
    (linkAct (s ⟨false, false, true, false, false⟩ no [⟨.link, .halt, .drivesLow, 5, 99000⟩])).lc.queue = [] := by decide +kernel

/-- The events of a watch that runs out. -/
theorem test_watch_events :
    let w : Watch := ⟨[0, 5], [0], [], 99500, 500, some 100000, []⟩
    let s := { drive with hu := { drive.hu with watch := some w } }
    let events := fun c : Instr => (nxt c s).lu.queue.map (fun e => (e.code, e.param))
    w.list.length ≤ 24 ∧ s.suppressed .driveUnanswered = false ∧ s.suppressed .haltWatchDone = false ∧
    (.driveUnanswered, 5) ∈ events .ackWindowExpiry ∧ (.haltWatchDone, 2) ∈ events .brakedLimitExpiry := by decide +kernel

/-- A drive that stays in FAULT. -/
theorem test_update_in_fault :
    let t := nxt .motionUpdate (faulted 3 none)
    (faulted 3 none).role = .drive ∧ t.mu.motion = .fault ∧ t.mu.reference = 0 ∧ t.mu.trim = 0 ∧ t.mu.command = 0 ∧
    t.mu.brakeEnergised = false := by decide +kernel

/-- The telegrams that DECLARE HOLD and RELEASE HOLD hand over. -/
theorem test_host_hold_telegrams :
    let payloads := fun s : State => s.lc.queue.map (·.payload)
    let d := holdingOwn []
    let b := { entry with hu := { entry.hu with own := [⟨.bay, .halt, .host, 0, 99000⟩] } }
    let r := holding [⟨.bay, 2, .halt, .host, 0, 99000, .active⟩] entry
    payloads (nxt (.declareHold 1 3 6) desk) = [.hold ⟨3, 3, 6, 100000⟩] ∧
    payloads (nxt (.declareHold 1 4 6) d) = [.hold ⟨3, 4, 6, 5⟩] ∧ payloads (nxt (.declareHold 1 3 6) d) = [] ∧
    payloads (nxt (.declareHold 1 1 6) d) = [] ∧
    payloads (nxt (.releaseHold 1 2 2) b) = [.release ⟨2, 2, 0⟩] ∧ payloads (nxt (.releaseHold 1 3 4) d) = [.release ⟨3, 4, 0⟩] ∧
    resultOfRequest (.releaseHold 1 2 2) r = some 0 ∧ payloads (nxt (.releaseHold 1 2 2) r) = [] := by decide +kernel

/-- The log filter and the local-action mask, marked and not, and without a sheet. -/
theorem test_log_masks :
    let t : Telegram := ⟨4, 7, .order ⟨3, 1⟩⟩
    let f := fun (filter : BitVec 64) (mask : Byte) => { entry with sl := { entry.sl with sheet := { sheet with logFilter := filter, localMask := mask } } }
    let place := 10 * roleIndex .desk + kindCode .order
    entry.joined = true ∧ (f 0 0).sl.sheet.logFilter.getLsbD place = false ∧
    (logTelegram .desk t .accepted (f 0 0)).lu.writePos = entry.lu.writePos ∧
    (logTelegram .desk t .accepted (f (1 <<< place) 0)).lu.writePos = entry.lu.writePos + 1 ∧
    (logTelegram .desk t .accepted (started .sheetFault (f 0 0))).lu.writePos = entry.lu.writePos + 1 ∧
    (logLocal .bu 1 [] (f 0 0x80)).lu.writePos = entry.lu.writePos ∧
    (logLocal .bu 1 [] (f 0 0x7F)).lu.writePos = entry.lu.writePos + 1 ∧
    (logLocal .lc 1 [] (f 0 1)).lu.writePos = entry.lu.writePos ∧
    (logLocal .bu 1 [] (started .loading (f 0 0x80))).lu.writePos = entry.lu.writePos + 1 ∧
    (logLocal .sl 1 [] (f 0 0xFF)).lu.writePos = entry.lu.writePos + 1 ∧
    (nxt (arrival t) (f (1 <<< place) 0xFF)).lu.writePos = entry.lu.writePos + 1 := by decide +kernel

/-- The image with one byte changed and its digest formed again. -/
def imageWith (i : Nat) (b : Byte) : List Byte :=
  let head := (image.take 268).set i b
  head ++ be16 (digestSum head)

/-- A sheet at the ends of some ranges and just outside: K, cabins, a class code, the sharing byte, a roster
code, the skip limit, a digest that is not the sum, a length, and the straps. -/
theorem test_sheet_ranges :
    imageOk (imageWith 221 10) = true ∧ imageOk (imageWith 221 11) = false ∧ imageOk (imageWith 221 3) = false ∧
    imageOk (imageWith 27 15) = false ∧ imageOk (imageWith 28 3) = false ∧ imageOk (imageWith 76 2) = false ∧
    imageOk (imageWith 6 5) = false ∧ imageOk (imageWith 75 15) = true ∧ imageOk (imageWith 75 16) = false ∧
    imageOk (image.set 269 0) = false ∧ imageOk (image.take 269) = false := by decide +kernel
theorem test_straps :
    let sh := { sheet with roster := List.replicate 23 .unfitted ++ [.desk] }
    strapsOk 23 4 sh = true ∧ strapsOk 23 3 sh = false ∧ strapsOk 24 4 sh = false ∧ strapsOk 22 5 sh = false := by decide +kernel

/-! ### No row of the table has bits (log entry 5) -/

theorem test_no_word_decodes (nbits w : Nat) : decodeTableWord nbits w = none := rfl

end Sys2Proof.Tests
end

section
/-! SUPPORT. The event queue and its line: placing and taking an event, what the resets leave in the queue,
and a request that the port carries out at once. The statements on R184 to R187 follow from these. -/

namespace Sys2Proof.Machine

/-! ### Placing an event (R184, R185) -/

theorem LogUnit.place_below {u : LogUnit} (e : EventEntry) (h : u.queue.length < 32) :
    u.place e = { u with queue := u.queue ++ [e] } := if_pos h

theorem LogUnit.place_full {u : LogUnit} (e : EventEntry) (h : u.queue.length = 32) :
    u.place e = { u with
      queue := u.queue.tail ++ [e]
      overrun := true
      lost := min 255 (u.lost + 1) } := by
  unfold LogUnit.place
  rw [if_neg (by omega), List.drop_one]

theorem raise_suppressed {c : EventCode} {s : State} (n : Nat) (h : s.suppressed c = true) :
    raise c n s = s := if_pos h

theorem raise_placed {c : EventCode} {s : State} (n : Nat) (h : s.suppressed c = false) :
    raise c n s = s.onLu (·.place ⟨c, BitVec.ofNat 16 n, s.clock.station⟩) := by
  unfold raise
  rw [h]
  rfl

theorem raise_below {c : EventCode} {s : State} (n : Nat) (h : s.suppressed c = false)
    (hlen : s.lu.queue.length < 32) :
    raise c n s = { s with lu := { s.lu with
      queue := s.lu.queue ++ [⟨c, BitVec.ofNat 16 n, s.clock.station⟩] } } :=
  (raise_placed n h).trans (congrArg (fun u => { s with lu := u }) (LogUnit.place_below _ hlen))

theorem raise_full {c : EventCode} {s : State} (n : Nat) (h : s.suppressed c = false)
    (hlen : s.lu.queue.length = 32) :
    raise c n s = { s with lu := { s.lu with
      queue := s.lu.queue.tail ++ [⟨c, BitVec.ofNat 16 n, s.clock.station⟩]
      overrun := true
      lost := min 255 (s.lu.lost + 1) } } :=
  (raise_placed n h).trans (congrArg (fun u => { s with lu := u }) (LogUnit.place_full _ hlen))

theorem not_suppressed_of_unmaskable {c : EventCode} (s : State) (h : unmaskable c = true) :
    s.suppressed c = false := by
  simp [State.suppressed, h]

/-- Settles O53: the bound is the log unit's form kept, each case of the queue's length a rule of raise. -/
theorem fullQueueLosesTheOldest : Obligations.FullQueueLosesTheOldest := by
  intro s c n hwf e t
  refine ⟨?bound, raise_suppressed n, raise_below n, raise_full n, ?unmasked⟩
  case bound =>
    obtain ⟨-, -, -, hlen, -⟩ := raise_keeps c n s hwf
    exact hlen
  case unmasked =>
    rintro (rfl | rfl | rfl | rfl | rfl | rfl) <;> exact not_suppressed_of_unmaskable s rfl

/-! ### A request that the port carries out at once (R190) -/

theorem putRequest_serves {s : State} (h : s.serves) (num : Byte) (r : Request) :
    putRequest num r s = carryOut num r s := by
  obtain ⟨-, hstart, hbusy, hrdy⟩ := h
  have hfree : s.rp.free = true := by simp [Port.free, hbusy, hrdy]
  simp [putRequest, hfree, hstart]

theorem execPut_serves {s : State} (h : s.serves) (num : Byte) (r : Request) :
    execPut num r s = .next (carryOut num r s) := by
  have ⟨hup, _⟩ := h
  rw [execPut, whenUp_up hup, putRequest_serves h]

theorem exec_takeEvent_serves {s : State} (h : s.serves) (num : Byte) :
    exec (.takeEvent num) s = .next (carryOut num .takeEvent s) := execPut_serves h num .takeEvent

theorem exec_status_serves {s : State} (h : s.serves) (num : Byte) :
    exec (.status num) s = .next (carryOut num .status s) := execPut_serves h num .status

theorem carryOut_holds (num : Byte) (r : Request) (s : State) :
    (carryOut num r s).rp.holds (requestCode r) num (serve r s).2.code (serve r s).2.data := ⟨rfl, rfl⟩

theorem carryOut_lu (num : Byte) (r : Request) (s : State) :
    (carryOut num r s).lu = (serve r s).1.lu := by
  simp [carryOut]

theorem raise_serves {s : State} (h : s.serves) (c : EventCode) (n : Nat) : (raise c n s).serves := by
  simpa [State.serves] using h

/-! ### Taking an event (R186) -/

theorem serve_takeEvent_empty {s : State} (h : s.lu.queue = []) :
    serve .takeEvent s = (s, verdict 6) := by
  simp [serve, takeEvent, h]

theorem serve_takeEvent_cons {s : State} {e : EventEntry} {rest : List EventEntry}
    (h : s.lu.queue = e :: rest) :
    serve .takeEvent s = (s.onLu (fun u => { u with queue := rest, overrun := false, lost := 0 }),
      answer ([byteOf (eventNo e.code)] ++ be16 e.param ++ be32 e.time
        ++ [flagByte s.lu.overrun, byteOf s.lu.lost, byteOf rest.length])) := by
  simp [serve, takeEvent, h]

/-- A take leaves the queue without its oldest entry. -/
theorem carryOut_takeEvent_queue (num : Byte) (s : State) :
    (carryOut num .takeEvent s).lu.queue = s.lu.queue.tail := by
  rw [carryOut_lu]
  cases hq : s.lu.queue with
  | nil => rw [serve_takeEvent_empty hq, hq]; rfl
  | cons e rest => rw [serve_takeEvent_cons hq]; rfl

/-- The answer to TAKE EVENT at a queue that is not empty, and the log unit after it. -/
theorem carryOut_takeEvent_cons {s : State} {e : EventEntry} {rest : List EventEntry}
    (h : s.lu.queue = e :: rest) (num : Byte) :
    (carryOut num .takeEvent s).rp.holds 8 num 0 ([byteOf (eventNo e.code)] ++ be16 e.param ++ be32 e.time
        ++ [flagByte s.lu.overrun, byteOf s.lu.lost, byteOf rest.length]) ∧
      (carryOut num .takeEvent s).lu = { s.lu with queue := rest, overrun := false, lost := 0 } := by
  have hold := carryOut_holds num .takeEvent s
  have hlu := carryOut_lu num .takeEvent s
  rw [serve_takeEvent_cons h] at hold hlu
  exact ⟨hold, hlu⟩

/-- The answer to TAKE EVENT at an empty queue, and the log unit after it. -/
theorem carryOut_takeEvent_empty {s : State} (h : s.lu.queue = []) (num : Byte) :
    (carryOut num .takeEvent s).rp.holds 8 num 6 [] ∧ (carryOut num .takeEvent s).lu = s.lu := by
  have hold := carryOut_holds num .takeEvent s
  have hlu := carryOut_lu num .takeEvent s
  rw [serve_takeEvent_empty h] at hold hlu
  exact ⟨hold, hlu⟩

theorem LogUnit.Wf.empty_clear {u : LogUnit} (h : u.Wf) (hq : u.queue = []) :
    u.overrun = false ∧ u.lost = 0 := by
  obtain ⟨-, -, -, -, -, hflag, hempty⟩ := h
  have hlost := hempty hq
  exact ⟨by simpa [hlost] using hflag, hlost⟩

/-- An event placed in a full queue before a take: the next oldest is answered, with the overrun flag set. -/
theorem takeEvent_after_overrun {s : State} {c : EventCode} {x y : EventEntry} {rest : List EventEntry}
    (n : Nat) (num : Byte) (hs : s.serves) (hc : s.suppressed c = false)
    (hq : s.lu.queue = x :: y :: rest) (hlen : s.lu.queue.length = 32) :
    ∃ u, exec (.takeEvent num) (raise c n s) = .next u ∧ ∃ a, u.rp.slot = some a ∧ a.result = 0 ∧
      a.data.take 3 = [byteOf (eventNo y.code)] ++ be16 y.param ∧ a.data[7]? = some 1 := by
  have hqueue : (raise c n s).lu.queue = y :: (rest ++ [⟨c, BitVec.ofNat 16 n, s.clock.station⟩]) := by
    rw [raise_full n hc hlen, hq]
    rfl
  have hover : (raise c n s).lu.overrun = true := by rw [raise_full n hc hlen]
  obtain ⟨⟨hslot, -⟩, -⟩ := carryOut_takeEvent_cons hqueue num
  refine ⟨_, exec_takeEvent_serves (raise_serves hs c n) num, _, hslot, rfl, rfl, ?_⟩
  rw [hover]
  rfl

/-- An event placed after a take from a full queue finds room: it is placed last, without overrun. -/
theorem raise_after_take {s : State} {c : EventCode} {e : EventEntry} {rest : List EventEntry}
    (n : Nat) (num : Byte) (hc : s.suppressed c = false)
    (hq : s.lu.queue = e :: rest) (hlen : s.lu.queue.length = 32) :
    let t := carryOut num .takeEvent s
    (raise c n t).lu.overrun = false ∧
      (raise c n t).lu.queue.getLast? = some ⟨c, BitVec.ofNat 16 n, t.clock.station⟩ := by
  intro t
  obtain ⟨-, hlu⟩ := carryOut_takeEvent_cons hq num
  have hroom : t.lu.queue.length < 32 := by
    rw [carryOut_takeEvent_queue, List.length_tail, hlen]
    omega
  have hct : t.suppressed c = false := by
    have hsl : t.sl = s.sl := by simp [t]
    rw [suppressed_congr hsl]
    exact hc
  rw [raise_below n hct hroom]
  exact ⟨congrArg LogUnit.overrun hlu, List.getLast?_concat⟩

/-- Settles O46, by the two cases of the queue and the two orders of a take and a raise at a full one. -/
theorem takeEventTakesTheOldest : Obligations.TakeEventTakesTheOldest := by
  intro s num hs
  refine ⟨_, exec_takeEvent_serves hs num, ?empty, ?oldest, ?full⟩
  case empty =>
    intro hq
    obtain ⟨hold, hlu⟩ := carryOut_takeEvent_empty hq num
    refine ⟨hold, hlu, fun hwf => ?_⟩
    rw [hlu]
    exact hwf.empty_clear hq
  case oldest =>
    intro e rest hq
    exact carryOut_takeEvent_cons hq num
  case full =>
    intro c n x y rest hc hq hlen
    exact ⟨takeEvent_after_overrun n num hs hc hq hlen, raise_after_take n num hc hq hlen⟩

/-! ### The EVT line (R187) -/

theorem LogUnit.evt_iff (u : LogUnit) : u.evt = true ↔ u.queue ≠ [] := by
  simp [LogUnit.evt]

theorem LogUnit.evt_place (e : EventEntry) (u : LogUnit) : (u.place e).evt = true := by
  rw [LogUnit.evt_iff]
  unfold LogUnit.place
  split <;> simp

/-- After a restart the queue holds RESTARTED, and behind it the notice of a crossing (log entry 23). -/
theorem LogUnit.evt_restarted (station : Nat) (u : LogUnit) : (u.restarted station).evt = true := by
  unfold LogUnit.restarted
  dsimp only
  split
  · exact LogUnit.evt_place _ _
  · split
    · exact LogUnit.evt_place _ _
    · rfl

theorem exec_restart_up {s : State} (h : s.sl.resetHeld = false) (num : Byte) (lines : StrapLines) :
    exec (.restart num lines) s = .next (restartNow lines s) := whenUp_up h _

theorem exec_resetAsserted_up {s : State} (h : s.sl.resetHeld = false) :
    exec .resetAsserted s = .next (s.cleared s.straps true (s.lu.restarted s.own)) := whenUp_up h _

/-- Settles O55: after a placing, a reset and a take the queue is known, and EVT follows it. -/
theorem evtFollowsTheQueue : Obligations.EvtFollowsTheQueue := by
  intro s num lines
  refine ⟨s.lu.evt_iff, ?raised, ?powerOn, fun hup => ⟨?restart, ?reset⟩, fun hs => ⟨?take, ?status⟩⟩
  case raised =>
    intro c n hc
    rw [raise_placed n hc]
    exact LogUnit.evt_place _ _
  case powerOn =>
    rintro t ⟨⟩
    rfl
  case restart =>
    intro t ht
    rw [exec_restart_up hup] at ht
    cases ht
    exact LogUnit.evt_restarted _ _
  case reset =>
    intro t ht
    rw [exec_resetAsserted_up hup] at ht
    cases ht
    exact LogUnit.evt_restarted _ _
  case take =>
    intro t ht
    rw [exec_takeEvent_serves hs] at ht
    cases ht
    rw [LogUnit.evt_iff, carryOut_takeEvent_queue, ← List.length_pos_iff, List.length_tail]
    omega
  case status =>
    intro t ht
    rw [exec_status_serves hs] at ht
    cases ht
    obtain ⟨hslot, -⟩ := carryOut_holds num .status s
    exact ⟨_, hslot, rfl⟩

end Sys2Proof.Machine
end

section
/-! SUPPORT. Every command as a function of the state: what it does with RESET released and with RESET held. -/

namespace Sys2Proof.Machine

/-- What a command does with RESET released (R194). -/
def act (c : Instr) (s : State) : State :=
  match c with
  | .powerOn lines => s.cleared lines false (.powerOn lines.stn.toNat)
  | .resetAsserted => s.cleared s.straps true (s.lu.restarted s.own)
  | .resetReleased _ => s
  | .sheetReadComplete image => if s.sl.start = .loading then endLoading image s else s
  | .joiningEnd => if s.joiningDue then enterRunning s else s
  | .settlingEnd => if s.settlingDue then endSettling s else s
  | .restartedFlagClear => if s.flagDue then s.onPv (fun v => { v with restartedFlag := false }) else s
  | .cupPulse ch =>
    if s.role = .mast ∧ s.wmu.windowFrom.isSome ∧ (s.ownSlot.channel ch.val).enabled then
      s.onWmu (fun w => { w with
        channels := w.channels.modify ch.val (fun c => { c with counter := min 1023 (c.counter + 1) }) })
    else s
  | .windowClose vane => if s.windowDue then windowClose vane s else s
  | .warmUpEnd vane => closeWhen vane (fun w w' => decide (w.windows < 12) && w'.windows == 12) s
  | .levelDwellExpiry vane => closeWhen vane (fun w w' => decide (windCode w'.level < windCode w.level)) s
  | .stuckEntry ch vane => closeWhen vane (fun w w' =>
      w.channelState ch.val == .working && w'.channelState ch.val == .stuck) s
  | .stuckRecovery ch vane => closeWhen vane (fun w w' =>
      w.channelState ch.val == .stuck && w'.channelState ch.val == .working) s
  | .windReportPeriod vane => closeWhen vane (fun w w' =>
      w.windows == 12 && s.elapsed w.reportAt (w'.reportPeriod s.now)) s
  | .transmissionStart =>
    match s.lc.sending, s.sendable with
    | none, some e =>
      s.onLc (fun l => { l with sending := some { no := e.no, telegram := s.attempt e }, echoDue := none })
    | _, _ => s
  | .arbitrationLost => s.onLc (fun l => { l with sending := none })
  | .transmissionComplete intact =>
    match s.lc.sending with
    | some x => endTransmission intact x s
    | none => s
  | .lineDominantTimeout => if s.lc.waiting.isEmpty then s else lineFault 1 s
  | .telegramCheckFailed frame => if (telegramOf frame).isNone then s.onLc (·.countError) else s
  | .holdReceived sender seq p => receive ⟨sender, seq, .hold p⟩ s
  | .releaseReceived sender seq p => receive ⟨sender, seq, .release p⟩ s
  | .motionReceived sender seq p => receive ⟨sender, seq, .motion p⟩ s
  | .passageReceived sender seq p => receive ⟨sender, seq, .passage p⟩ s
  | .bayReceived sender seq p => receive ⟨sender, seq, .bay p⟩ s
  | .windReceived sender seq p => receive ⟨sender, seq, .wind p⟩ s
  | .orderReceived sender seq p => receive ⟨sender, seq, .order p⟩ s
  | .serviceReceived sender seq p => receive ⟨sender, seq, .service p⟩ s
  | .presenceReceived sender seq p => receive ⟨sender, seq, .presence p⟩ s
  | .markReceived sender seq p => receive ⟨sender, seq, .mark p⟩ s
  | .presencePeriod => if s.presenceDue then handPresence s else s
  | .markPeriod => if s.markDue then handMark s else s
  | .peerStaleExpiry n =>
    if s.staleDue n.val then recheckIfDrive n.val (setPeerState n.val .stale s) else s
  | .peerAbsentExpiry n =>
    if s.absentDue n.val then
      s.onPeer n.val (fun p => { p with heard := none, restartedSeen := false })
        |> setPeerState n.val .absent
        |> recheckIfDrive n.val
    else s
  | .motionPartAgeExpiry n => if s.motionPartAged n.val then recheckDrives s else s
  | .bayPartAgeExpiry n => if s.bayPartAged n.val then recheckBays s else s
  | .driveRestartExpiry => if s.driveRestartDue then setCond .driveRestart false s else s
  | .windRecordExpiry slot =>
    if s.windRecordDue slot.val then
      formFused (s.onWv (fun w => { w with
        records := w.records.modify slot.val (fun r => { r with fresh := false }) }))
    else s
  | .holdRefreshPeriod k => if s.refreshDue k then placeOwn k (sendOwn k true s) else s
  | .lapseCheck => if s.lapseDue then lapseAll s else s
  | .stopIn => if s.joined then stopIn s else s
  | .linkReleaseDwellExpiry =>
    if s.dwellDue then releaseOwn .link (s.onHu (fun h => { h with dwellFrom := none })) else s
  | .ackWindowExpiry => ackWindowExpiry s
  | .brakedLimitExpiry => brakedLimitExpiry s
  | .holdLampFlash =>
    if s.lampDue then s.onHu (fun h => { h with lampLit := !h.lampLit, lampAt := s.now }) else s
  | .motionUpdate => if s.updateDue then motionUpdate s else s
  | .inverterAnswer frame =>
    if s.role = .drive ∧ s.joined ∧ s.mu.answersLast frame then
      s.onMu (fun m => { m with answer := some frame })
    else s
  | .inverterFault => updateWhen (fun m m' => !m.invCause && m'.invCause && m'.missed == 3) s
  | .inverterFaultClear => updateWhen (fun m m' => m.invCause && !m'.invCause) s
  | .stillCountComplete => updateWhen (fun m m' =>
      (m.motion == .settling || m.motion == .dragStop) && m'.motion == .braked) s
  | .brakeFbChange released => refreshMismatch (s.onPins (fun p => { p with brakeReleased := released }))
  | .brakeFault => if s.brakeFaultDue then brakeFaultNow s else s
  | .emptydownTimeout => if s.emptyLimitDue then completeEmptyDown true s else s
  | .orderPeriod => if s.orderDue then handOrder s else s
  | .servicePeriod => if s.serviceDue then handService s else s
  | .tagPoll => if s.tagPollDue then s.onBu (fun b => { b with tagTx := [0x01], pollAt := s.now }) else s
  | .tagAnswer frame => if s.isBay ∧ s.joined then keepTag frame s else s
  | .arrive => if s.role = .entry ∧ s.joined then arriveEntry s else s
  | .align => if s.role = .entry ∧ s.joined then alignEntry s else s
  | .closeMark => if s.role = .entry ∧ s.joined then closeMarkEntry s else s
  | .departLimit => if s.role = .entry ∧ s.joined then departLimitEntry s else s
  | .gateClear clear =>
    if clear ∧ s.bu.closeDeferred then shutDoors (s.onPins (fun p => { p with gateClear := clear }))
    else s.onPins (fun p => { p with gateClear := clear })
  | .doorLocked locked =>
    if locked then (s.onPins (fun p => { p with doorLocked := locked })).onBu (fun b => { b with doorClose := false })
    else s.onPins (fun p => { p with doorLocked := locked })
  | .bayReportPeriod => if s.bayReportDue then handBay s else s
  | .exitArrive empty => if s.role = .exit ∧ s.joined then arriveExit empty s else s
  | .exitAlign => if s.role = .exit ∧ s.joined then alignExit s else s
  | .exitCloseMark empty => if s.role = .exit ∧ s.joined then closeMarkExit empty s else s
  | .exitDepartLimit empty => if s.role = .exit ∧ s.joined then departLimitExit empty s else s
  | .get complete => s.onRp (fun p => { p with
      miso := p.getBytes, slot := if complete then p.slot.map Answer.advance else p.slot })
  | .putUnknownRequest code num length =>
    if requestLength code.toNat = some length.toNat then s else putRequest num (.unknown code) s
  | .putIncomplete => s
  | .status num => putRequest num .status s
  | .readPeer num station => putRequest num (.readPeer station) s
  | .takePeerFault num station => putRequest num (.takePeerFault station) s
  | .readWind num selector => putRequest num (.readWind selector) s
  | .readHolds num start => putRequest num (.readHolds start) s
  | .readCabin num cabin => putRequest num (.readCabin cabin) s
  | .readLog num position count => putRequest num (.readLog position count) s
  | .takeEvent num => putRequest num .takeEvent s
  | .submitParty num tag size need => putRequest num (.submitParty tag size need) s
  | .withdrawParty num tag => putRequest num (.withdrawParty tag) s
  | .reportCount num riders => putRequest num (.reportCount riders) s
  | .closeDoors num => putRequest num .closeDoors s
  | .declareHold num effect cause => putRequest num (.declareHold effect cause) s
  | .releaseHold num kind declarer => putRequest num (.releaseHold kind declarer) s
  | .orderRide num mode => putRequest num (.orderRide mode) s
  | .setService num cabin state => putRequest num (.setService cabin state) s
  | .restart _ lines => restartNow lines s

/-- What a command does while RESET is held: two rows act, and three set the level of their pin (log entries 6
and 10). -/
def actHeld (c : Instr) (s : State) : State :=
  match c with
  | .powerOn lines => s.cleared lines true (.powerOn lines.stn.toNat)
  | .resetReleased lines => { s with sl := .reset lines false }
  | .brakeFbChange released => s.onPins (fun p => { p with brakeReleased := released })
  | .gateClear clear => s.onPins (fun p => { p with gateClear := clear })
  | .doorLocked locked => s.onPins (fun p => { p with doorLocked := locked })
  | _ => s

/-- Every command answers the state that it leaves, and it acts by `act` or by `actHeld`. -/
theorem exec_eq (c : Instr) (s : State) :
    exec c s = .next (if s.sl.resetHeld then actHeld c s else act c s) := by
  cases c
  case powerOn | resetReleased =>
    cases h : s.sl.resetHeld <;> simp [exec, execPowerOn, execResetReleased, act, actHeld, h]
  case brakeFbChange | gateClear | doorLocked =>
    simp only [exec, execBrakeFbChange, execGateClear, execDoorLocked, whenUp, act, actHeld, onPins_blocks]
  case transmissionStart | transmissionComplete =>
    simp only [exec, execTransmissionStart, execTransmissionComplete, whenUp, act, actHeld]
      <;> rfl
  all_goals simp only [exec, act, actHeld, whenUp, atBay, execPut, execReceive, execResetAsserted,
    execSheetReadComplete, execJoiningEnd, execSettlingEnd, execRestartedFlagClear, execCupPulse,
    execWindowClose, execWarmUpEnd, execLevelDwellExpiry, execStuckEntry, execStuckRecovery,
    execWindReportPeriod, execArbitrationLost,
    execLineDominantTimeout, execTelegramCheckFailed, execHoldReceived, execReleaseReceived,
    execMotionReceived, execPassageReceived, execBayReceived, execWindReceived, execOrderReceived,
    execServiceReceived, execPresenceReceived, execMarkReceived, execPresencePeriod, execMarkPeriod,
    execPeerStaleExpiry, execPeerAbsentExpiry, execMotionPartAgeExpiry, execBayPartAgeExpiry,
    execDriveRestartExpiry, execWindRecordExpiry, execHoldRefreshPeriod, execLapseCheck, execStopIn,
    execLinkReleaseDwellExpiry, execAckWindowExpiry, execBrakedLimitExpiry, execHoldLampFlash,
    execMotionUpdate, execInverterAnswer, execInverterFault, execInverterFaultClear, execStillCountComplete,
    execBrakeFault, execEmptydownTimeout, execOrderPeriod, execServicePeriod, execTagPoll, execTagAnswer,
    execArrive, execAlign, execCloseMark, execDepartLimit, execBayReportPeriod, execExitArrive,
    execExitAlign, execExitCloseMark, execExitDepartLimit, execGet, execPutUnknownRequest, execPutIncomplete, id,
    execStatus, execReadPeer, execTakePeerFault, execReadWind, execReadHolds, execReadCabin, execReadLog,
    execTakeEvent, execSubmitParty, execWithdrawParty, execReportCount, execCloseDoors, execDeclareHold,
    execReleaseHold, execOrderRide, execSetService, execRestart]

theorem exec_up {s : State} (h : s.sl.resetHeld = false) (c : Instr) : exec c s = .next (act c s) := by
  simp [exec_eq, h]

theorem exec_held {s : State} (h : s.sl.resetHeld = true) (c : Instr) : exec c s = .next (actHeld c s) := by
  simp [exec_eq, h]

end Sys2Proof.Machine
end

section
/-! SUPPORT. What every command and every step keeps: the form of each block, the tables of the sheet, a part
that RESET holds, and the blocks that a command may not change. -/

namespace Sys2Proof.Machine

/-! ### The forms of the blocks -/

/-- Every block of `t` has its form (Safety.lean) where the same block of `s` has. -/
def State.FormsKept (s t : State) : Prop :=
  (s.lu.Wf → t.lu.Wf) ∧ (s.lc.Wf → t.lc.Wf) ∧ (s.pv.Wf → t.pv.Wf) ∧ (s.hu.Wf → t.hu.Wf) ∧
    (s.mu.Wf → t.mu.Wf) ∧ (s.ct.Wf → t.ct.Wf) ∧ (s.bu.Wf → t.bu.Wf) ∧ (s.rp.Wf → t.rp.Wf) ∧
    (s.wmu.Wf → t.wmu.Wf)

/-- The same by the fields that the lemmas of Laws/Keep.lean speak of. -/
theorem formsKept_iff (s t : State) : s.FormsKept t ↔
    (s.lu.Wf → t.lu.Wf) ∧
    (LinkForm s.lc.queue s.lc.nextEntry s.lc.sending s.lc.rxErrors →
      LinkForm t.lc.queue t.lc.nextEntry t.lc.sending t.lc.rxErrors) ∧
    (PeerForm s.pv.table → PeerForm t.pv.table) ∧
    (HoldForm s.hu.records s.hu.effect s.hu.own → HoldForm t.hu.records t.hu.effect t.hu.own) ∧
    (MotionForm s.mu.motion s.mu.invCause s.mu.brakeCause s.mu.listenCause s.mu.reference s.mu.missed
        s.mu.still →
      MotionForm t.mu.motion t.mu.invCause t.mu.brakeCause t.mu.listenCause t.mu.reference t.mu.missed
        t.mu.still) ∧
    (CabinForm s.ct.occupied s.ct.cabins → CabinForm t.ct.occupied t.ct.cabins) ∧
    (PartyForm s.bu.queue s.bu.window.state s.bu.window.matched s.bu.window.grace →
      PartyForm t.bu.queue t.bu.window.state t.bu.window.matched t.bu.window.grace) ∧
    (s.rp.Wf → t.rp.Wf) ∧
    (WmuForm s.wmu.channels s.wmu.windows → WmuForm t.wmu.channels t.wmu.windows) := Iff.rfl

theorem State.FormsKept.refl (s : State) : s.FormsKept s := ⟨id, id, id, id, id, id, id, id, id⟩

theorem State.FormsKept.guarded {s t : State} {p : Prop} [Decidable p] (h : s.FormsKept t) :
    s.FormsKept (if p then t else s) := by
  split
  · exact h
  · exact .refl s

/-- A reset leaves every block in its form, the log unit in that of the one given (R194). -/
theorem cleared_formsKept {s : State} {lu : LogUnit} (lines : StrapLines) (held : Bool)
    (h : s.lu.Wf → lu.Wf) : s.FormsKept (s.cleared lines held lu) :=
  ⟨h, fun _ => Link.reset_wf, fun _ => PeerView.reset_wf, fun _ => HoldUnit.reset_wf,
    fun _ => MotionUnit.reset_wf, fun _ => CabinTable.reset_wf, fun _ => BayUnit.reset_wf,
    fun _ => Port.reset_wf, fun _ => Wmu.reset_wf⟩

theorem onLc_formsKept {s : State} {f : Link → Link} (h : s.lc.Wf → (f s.lc).Wf) :
    s.FormsKept (s.onLc f) := ⟨id, h, id, id, id, id, id, id, id⟩

theorem endLoading_formsKept (image : Option (List Byte)) (s : State) : s.FormsKept (endLoading image s) := by
  have htables := endLoading_tables image s
  simp +contextual [formsKept_iff, htables]

/-- The entry being tried stands in the queue (R25). -/
theorem sendable_mem {s : State} {e : QEntry} (h : s.sendable = some e) : e ∈ s.lc.queue := by
  have hwaits : e ∈ s.lc.waiting := by
    unfold State.sendable at h
    cases hs : s.sl.start <;> simp only [hs] at h
    case running => exact List.mem_of_head? h
    case joining => exact List.mem_of_find?_eq_some h
    case sheetFault =>
      split at h
      · cases h
      · exact List.mem_of_find?_eq_some h
    all_goals cases h
  exact List.mem_of_mem_filter hwaits

theorem Link.start_wf {l : Link} (h : l.Wf) {e : QEntry} (he : e ∈ l.queue) (t : Telegram) :
    Link.Wf { l with sending := some ⟨e.no, t⟩, echoDue := none } := by
  obtain ⟨hlen, hsorted, hnodup, hno, -, hrx⟩ := h
  refine ⟨hlen, hsorted, hnodup, hno, ?_, hrx⟩
  rintro x ⟨⟩
  exact ⟨e, he, rfl⟩

/-- Every command keeps the forms with RESET released: the resets and the small changes of one block by their
own lemmas, every other row by those of the operation that it runs (Laws/Keep.lean, Laws/Reach.lean). -/
theorem act_formsKept (c : Instr) (s : State) : s.FormsKept (act c s) := by
  cases c
  case powerOn => exact cleared_formsKept _ _ fun _ => LogUnit.powerOn_wf _
  case resetAsserted | restart => exact cleared_formsKept _ _ fun hlu => LogUnit.restarted_wf _ hlu
  case sheetReadComplete image => exact .guarded (endLoading_formsKept image s)
  case cupPulse ch => exact .guarded ⟨id, id, id, id, id, id, id, id, fun hw => count_wmu hw ch.val⟩
  case transmissionStart =>
    simp only [act]
    split
    · next e _ he => exact onLc_formsKept fun hl => Link.start_wf hl (sendable_mem he) _
    · exact .refl s
  case arbitrationLost => exact onLc_formsKept Link.idle_wf
  case transmissionComplete =>
    simp only [act]
    split
    · simp +contextual [formsKept_iff]
    · exact .refl s
  case lineDominantTimeout =>
    simp only [act]
    split
    · exact .refl s
    · simp +contextual [formsKept_iff]
  case telegramCheckFailed => exact .guarded (onLc_formsKept Link.countError_wf)
  case gateClear =>
    simp only [act]
    split <;> simp +contextual [formsKept_iff]
  case doorLocked =>
    simp only [act]
    split <;> exact .refl s
  case get complete => exact ⟨id, id, id, id, id, id, id, fun hp => Port.get_wf complete hp, id⟩
  case putUnknownRequest =>
    simp only [act]
    split
    · exact .refl s
    · simp +contextual [formsKept_iff]
  case resetReleased | putIncomplete => exact .refl s
  case joiningEnd | settlingEnd | restartedFlagClear | windowClose =>
    exact .guarded (by simp +contextual [formsKept_iff])
  case presencePeriod | markPeriod | peerStaleExpiry | peerAbsentExpiry | motionPartAgeExpiry
      | bayPartAgeExpiry | driveRestartExpiry | windRecordExpiry =>
    exact .guarded (by simp +contextual [formsKept_iff])
  case holdRefreshPeriod | lapseCheck | stopIn | linkReleaseDwellExpiry | holdLampFlash =>
    exact .guarded (by simp +contextual [formsKept_iff])
  case motionUpdate | inverterAnswer | brakeFault | emptydownTimeout | orderPeriod | servicePeriod =>
    exact .guarded (by simp +contextual [formsKept_iff])
  case tagPoll | tagAnswer | arrive | align | closeMark | departLimit | bayReportPeriod | exitArrive
      | exitAlign | exitCloseMark | exitDepartLimit =>
    exact .guarded (by simp +contextual [formsKept_iff])
  all_goals simp +contextual [act, formsKept_iff]

theorem actHeld_formsKept (c : Instr) (s : State) : s.FormsKept (actHeld c s) := by
  cases c
  case powerOn => exact cleared_formsKept _ _ fun _ => LogUnit.powerOn_wf _
  all_goals exact .refl s

theorem exec_formsKept {c : Instr} {s t : State} (h : exec c s = .next t) : s.FormsKept t := by
  rw [exec_eq] at h
  cases h
  split
  · exact actHeld_formsKept c s
  · exact act_formsKept c s

theorem tick_formsKept (s : State) : s.FormsKept (tick s) := by
  unfold tick
  split
  · exact .refl s
  · exact .refl s

/-- A step is a millisecond or the command at the front of the queue. -/
theorem step_cases {s t : State} (h : step s = .next t) :
    (s.pending = [] ∧ t = tick s) ∨
      ∃ c rest, s.pending = c :: rest ∧ exec c { s with pending := rest } = .next t := by
  unfold step at h
  cases hq : s.pending with
  | nil =>
    rw [hq] at h
    cases h
    exact .inl ⟨rfl, rfl⟩
  | cons c rest =>
    rw [hq] at h
    exact .inr ⟨c, rest, rfl, h⟩

/-- Settles O57: a step is a millisecond or a command, and each keeps the forms. -/
theorem stepKeepsEveryBlock : Obligations.StepKeepsEveryBlock := by
  intro s t h
  obtain ⟨-, rfl⟩ | ⟨c, rest, -, hc⟩ := step_cases h
  · exact tick_formsKept s
  · exact exec_formsKept (s := { s with pending := rest }) hc

/-! ### The blocks that a command may change -/

/-- `t` agrees with `s` on every block but those of a list. -/
def State.sameBut (bs : List Block) (s t : State) : Prop := ∀ b : Block, b ∉ bs → b.same s t

theorem sameBut_refl (bs : List Block) (s : State) : s.sameBut bs s := by
  intro b _
  cases b <;> rfl

theorem sameBut_ite {bs : List Block} {s t u : State} {p : Prop} [Decidable p] (ht : s.sameBut bs t)
    (hu : s.sameBut bs u) : s.sameBut bs (if p then t else u) := by
  split
  · exact ht
  · exact hu

/-- The same block by block: it is listed or it stands. -/
theorem sameBut_iff (bs : List Block) (s t : State) : s.sameBut bs t ↔
    (.clock ∉ bs → t.clock = s.clock) ∧ (.pins ∉ bs → t.pins = s.pins) ∧ (.lu ∉ bs → t.lu = s.lu) ∧
    (.lc ∉ bs → t.lc = s.lc) ∧ (.pv ∉ bs → t.pv = s.pv) ∧ (.wmu ∉ bs → t.wmu = s.wmu) ∧
    (.wv ∉ bs → t.wv = s.wv) ∧ (.hu ∉ bs → t.hu = s.hu) ∧ (.mu ∉ bs → t.mu = s.mu) ∧
    (.ct ∉ bs → t.ct = s.ct) ∧ (.bu ∉ bs → t.bu = s.bu) ∧ (.rp ∉ bs → t.rp = s.rp) ∧
    (.sl ∉ bs → t.sl = s.sl) ∧ (.pending ∉ bs → t.pending = s.pending) := by
  refine ⟨fun h => ⟨h _, h _, h _, h _, h _, h _, h _, h _, h _, h _, h _, h _, h _, h _⟩, ?_⟩
  rintro ⟨hclock, hpins, hlu, hlc, hpv, hwmu, hwv, hhu, hmu, hct, hbu, hrp, hsl, hpending⟩ b hb
  cases b
  exacts [hclock hb, hpins hb, hlu hb, hlc hb, hpv hb, hwmu hb, hwv hb, hhu hb, hmu hb, hct hb, hbu hb,
    hrp hb, hsl hb, hpending hb]

theorem State.sameBut.trans {bs : List Block} {s t u : State} (h : s.sameBut bs t) (k : t.sameBut bs u) :
    s.sameBut bs u := by
  intro b hb
  have ht := h b hb
  have hu := k b hb
  cases b <;> exact hu.trans ht

/-- A telegram changes what its owner changes, beyond what any telegram may (R37). -/
theorem receive_sameBut {bs : List Block} (t : Telegram) (s : State) (hbs : heardBlocks ⊆ bs)
    (howner : ∀ z : State, z.sameBut bs (giveOwner t z).1) : s.sameBut bs (receive t s) := by
  have heard : ∀ {z y : State}, z.sameBut heardBlocks y → z.sameBut bs y :=
    fun h b hb => h b fun hm => hb (hbs hm)
  have hjudged : ∀ z : State, z.sameBut bs (judgeTelegram t z) := by
    intro z
    unfold judgeTelegram
    split
    · exact sameBut_refl bs z
    · split
      · exact heard (by simp [sameBut_iff, heardBlocks, sentHoldBlocks, holdBlocks, ignoreTelegram])
      · exact heard (by simp [sameBut_iff, heardBlocks, sentHoldBlocks, holdBlocks])
      · have hpv : z.sameBut bs (pvTake t true z) :=
          heard (by simp [sameBut_iff, heardBlocks, sentHoldBlocks, holdBlocks])
        refine (hpv.trans (howner _)).trans (heard ?_)
        simp [sameBut_iff, heardBlocks, sentHoldBlocks, holdBlocks, acceptTelegram]
  unfold receive
  split
  · exact heard (by simp [sameBut_iff, heardBlocks, sentHoldBlocks])
  · have hecho : s.sameBut bs (s.onLc fun l => { l with echoDue := none }) :=
      heard (by simp [sameBut_iff, heardBlocks, sentHoldBlocks])
    refine hecho.trans (sameBut_ite (heard ?_) (hjudged _))
    simp [sameBut_iff, heardBlocks, sentHoldBlocks, holdBlocks]

/-- A request changes the port, and what its owner changes (R190). -/
theorem putRequest_sameBut {bs : List Block} (num : Byte) (r : Request) (s : State) (hrp : .rp ∈ bs)
    (howner : s.sameBut bs (serve r s).1) : s.sameBut bs (putRequest num r s) := by
  have hport : ∀ (z : State) (f : Port → Port), z.sameBut bs (z.onRp f) := by
    intro z f
    simp [sameBut_iff, hrp]
  unfold putRequest
  exact sameBut_ite (sameBut_ite (hport _ _) (howner.trans (hport _ _))) (hport _ _)

/-- Every command with RESET released leaves the blocks that Safety.lean does not list for it: a telegram by its
owner, a request by its owner, every other row by the frame of the operation that it runs (Laws/Frame.lean). -/
theorem act_sameBut (c : Instr) (s : State) : s.sameBut (mayChange c) (act c s) := by
  cases c
  case holdReceived | releaseReceived | motionReceived | passageReceived | bayReceived | windReceived
      | orderReceived | serviceReceived | presenceReceived | markReceived =>
    refine receive_sameBut _ s (by simp [mayChange]) fun z => ?_
    simp [sameBut_iff, mayChange, heardBlocks, sentHoldBlocks, holdBlocks, giveOwner, apply_ite Prod.fst]
  case status | readPeer | takePeerFault | readWind | readHolds | readCabin | readLog | takeEvent | submitParty
      | withdrawParty | reportCount | closeDoors | declareHold | releaseHold | orderRide | setService =>
    refine putRequest_sameBut _ _ s (by simp [mayChange]) ?_
    simp [sameBut_iff, mayChange, sentHoldBlocks, holdBlocks, serve]
  case putUnknownRequest =>
    refine sameBut_ite (sameBut_refl _ s) (putRequest_sameBut _ _ s (by simp [mayChange]) ?_)
    exact sameBut_refl _ s
  case transmissionStart | transmissionComplete =>
    simp only [act]
    split
    · simp [sameBut_iff, mayChange]
    · exact sameBut_refl _ s
  case powerOn | resetAsserted | restart =>
    simp [sameBut_iff, mayChange, act, restartNow, State.cleared]
  all_goals simp [sameBut_iff, mayChange, act, sentHoldBlocks, holdBlocks, passageBlocks]

theorem actHeld_sameBut (c : Instr) (s : State) : s.sameBut (mayChange c) (actHeld c s) := by
  cases c
  case powerOn => simp [sameBut_iff, mayChange, actHeld, State.cleared]
  case resetReleased | brakeFbChange | gateClear | doorLocked => simp [sameBut_iff, mayChange, actHeld]
  all_goals exact sameBut_refl _ s

/-- Settles O56. -/
theorem everyCommandSparesTheRest : Obligations.EveryCommandSparesTheRest := by
  intro c s t h
  rw [exec_eq] at h
  cases h
  exact sameBut_ite (actHeld_sameBut c s) (act_sameBut c s)

/-! ### The tables of the sheet, and a part that RESET holds -/

theorem act_same (c : Instr) (s : State) (b : Block) (h : b ∉ mayChange c) : b.same s (act c s) :=
  act_sameBut c s b h

theorem joined_congr {s t : State} (h : t.sl = s.sl) : t.joined = s.joined := by
  simp [State.joined, h]

/-- The wind fusion stands through every command (R65). -/
theorem act_windFused (c : Instr) {s : State} (h : s.WindFused) : (act c s).WindFused := by
  have kept : Block.wv ∉ mayChange c → (act c s).sl.sheet = s.sl.sheet → (act c s).WindFused :=
    fun hwv hsheet => h.of_eq (act_same c s .wv hwv) hsheet
  have stands : Block.wv ∉ mayChange c → Block.sl ∉ mayChange c → (act c s).WindFused :=
    fun hwv hsl => kept hwv (congrArg Loader.sheet (act_same c s .sl hsl))
  cases c
  case powerOn | resetAsserted | restart => exact (cleared_tables rfl rfl rfl rfl).1
  case resetReleased => exact h
  case sheetReadComplete image =>
    simp only [act]
    split
    · exact endLoading_fused image h
    · exact h
  case joiningEnd =>
    refine kept (by decide) ?_
    simp only [act]
    split
    · exact (enterRunning_sl s).1
    · rfl
  case settlingEnd =>
    refine kept (by decide) ?_
    simp only [act]
    split
    · rw [endSettling_sl]
    · rfl
  case windRecordExpiry slot =>
    simp only [act]
    split
    · exact (formFused_fused _).1
    · exact h
  case holdReceived | releaseReceived | motionReceived | passageReceived | bayReceived | windReceived
      | orderReceived | serviceReceived | presenceReceived | markReceived => exact receive_fused _ h
  all_goals refine stands ?_ ?_ <;> simp [mayChange, sentHoldBlocks, holdBlocks, passageBlocks]

/-- Before JOINING a telegram leaves the cabin table (R34). -/
theorem receive_unjoined_ct (t : Telegram) {s : State} (h : s.joined = false) : (receive t s).ct = s.ct := by
  unfold receive
  split
  · simp
  · dsimp only
    split
    · simp
    · have hj : (s.onLc fun l => { l with echoDue := none }).joined = false := h
      simp [judgeTelegram, hj]

/-- The cabin table stays that of the sheet when the sheet and JOINING stand, from JOINING on by its form and
before it by its cursors. -/
theorem State.CabinsKnown.of_kept {s t : State} (h : s.CabinsKnown) (hj : t.joined = s.joined)
    (hn : t.sl.sheet.n = s.sl.sheet.n)
    (hform : s.joined = true → KnownForm s.sl.sheet.n s.sl.sheet.n s.ct →
      KnownForm s.sl.sheet.n s.sl.sheet.n t.ct)
    (hbare : s.joined = false → ∀ b, t.ct.cursor b = s.ct.cursor b) : t.CabinsKnown := by
  cases hs : s.joined with
  | true => exact cabinsKnown_of (hj.trans hs) (hn ▸ hform hs (h.form hs))
  | false =>
    refine cabinsKnown_bare (hj.trans hs) fun b c => ?_
    rw [hbare hs b]
    exact h.bare hs b c

theorem State.CabinsKnown.of_eq {s t : State} (h : s.CabinsKnown) (hj : t.joined = s.joined)
    (hn : t.sl.sheet = s.sl.sheet) (hct : t.ct = s.ct) : t.CabinsKnown :=
  h.of_kept hj (by rw [hn]) (fun _ hk => hct ▸ hk) (fun _ _ => by rw [hct])

theorem receive_joined (t : Telegram) (s : State) : (receive t s).joined = s.joined := by
  obtain ⟨-, -, htrue, hfalse⟩ := receive_sl t s
  cases hj : s.joined with
  | true => exact htrue hj
  | false => exact hfalse hj

theorem receive_cabinsKnown (t : Telegram) {s : State} (h : s.CabinsKnown) : (receive t s).CabinsKnown :=
  h.of_kept (receive_joined t s) (by rw [(receive_sl t s).1]) (fun _ => receive_known t _ _ s rfl)
    (fun hj _ => by rw [receive_unjoined_ct t hj])

theorem putRequest_cabinsKnown (num : Byte) (r : Request) {s : State} (h : s.CabinsKnown) :
    (putRequest num r s).CabinsKnown :=
  have hsl : (putRequest num r s).sl = s.sl := by simp
  h.of_kept (joined_congr hsl) (by rw [hsl]) (fun _ => putRequest_known num r _ _ s rfl)
    (fun _ b => putRequest_cursor b num r s)

/-- An operation that runs from JOINING on and keeps the table's form. -/
theorem State.CabinsKnown.guarded {s t : State} {p : Prop} [Decidable p] (h : s.CabinsKnown)
    (hp : p → s.joined = true) (hsl : t.sl = s.sl)
    (hform : KnownForm s.sl.sheet.n s.sl.sheet.n s.ct → KnownForm s.sl.sheet.n s.sl.sheet.n t.ct) :
    (if p then t else s).CabinsKnown := by
  split
  · next hg =>
    exact h.of_kept (joined_congr hsl) (by rw [hsl]) (fun _ => hform) (fun hj => by simp [hp hg] at hj)
  · exact h

theorem joined_of_running {s : State} (h : s.sl.start = .running) : s.joined = true := by
  simp [State.joined, h]

theorem joined_of_joining {s : State} (h : s.sl.start = .joining) : s.joined = true := by
  simp [State.joined, h]

theorem enterRunning_cabinsKnown {s : State} (h : s.CabinsKnown) (hj : s.joined = true) :
    (enterRunning s).CabinsKnown := by
  obtain ⟨hsheet, -, hjoined⟩ := enterRunning_sl s
  refine cabinsKnown_of hjoined ?_
  rw [hsheet]
  exact enterRunning_known _ _ s rfl (h.form hj)

/-- The cabin table stays that of the sheet through every command (R127, R128, R139). -/
theorem act_cabinsKnown (c : Instr) {s : State} (h : s.CabinsKnown) : (act c s).CabinsKnown := by
  have stands : Block.ct ∉ mayChange c → Block.sl ∉ mayChange c → (act c s).CabinsKnown := fun hct hsl =>
    have hs : (act c s).sl = s.sl := act_same c s .sl hsl
    h.of_eq (joined_congr hs) (by rw [hs]) (act_same c s .ct hct)
  cases c
  case powerOn | resetAsserted | restart => exact (cleared_tables rfl rfl rfl rfl).2
  case resetReleased => exact h
  case sheetReadComplete image =>
    simp only [act]
    split
    · next hl => exact endLoading_known image h hl
    · exact h
  case joiningEnd =>
    simp only [act]
    split
    · next hdue =>
      refine enterRunning_cabinsKnown h (joined_of_joining ?_)
      simp only [State.joiningDue, Bool.and_eq_true, beq_iff_eq] at hdue
      exact hdue.1
    · exact h
  case settlingEnd =>
    have hsl : (act .settlingEnd s).sl.sheet = s.sl.sheet ∧ (act .settlingEnd s).joined = s.joined := by
      simp only [act]
      split
      · simp [State.joined, endSettling_sl]
      · exact ⟨rfl, rfl⟩
    exact h.of_eq hsl.2 hsl.1 (act_same .settlingEnd s .ct (by decide))
  case holdReceived | releaseReceived | motionReceived | passageReceived | bayReceived | windReceived
      | orderReceived | serviceReceived | presenceReceived | markReceived => exact receive_cabinsKnown _ h
  case arrive => exact h.guarded (·.2) (by simp) (arriveEntry_known _ _ s rfl)
  case departLimit => exact h.guarded (·.2) (by simp) (departLimitEntry_known _ _ s rfl)
  case exitArrive => exact h.guarded (·.2) (by simp) (arriveExit_known _ _ _ s rfl)
  case exitDepartLimit => exact h.guarded (·.2) (by simp) (departLimitExit_known _ _ _ s rfl)
  case servicePeriod =>
    refine h.guarded (fun hdue => joined_of_running ?_) (by simp) (handService_known _ _ s rfl)
    simp only [State.serviceDue, Bool.and_eq_true, beq_iff_eq] at hdue
    exact hdue.1.2
  case setService => exact putRequest_cabinsKnown _ _ h
  all_goals refine stands ?_ ?_ <;> simp [mayChange, sentHoldBlocks, holdBlocks]

/-- The mast level stays one of CALM to STORM through every command (R11). -/
theorem act_windLevel (c : Instr) {s : State} (h : windCode s.wmu.level ≤ 4) :
    windCode (act c s).wmu.level ≤ 4 := by
  have stands : Block.wmu ∉ mayChange c → windCode (act c s).wmu.level ≤ 4 := fun hw => by
    rw [show (act c s).wmu = s.wmu from act_same c s .wmu hw]
    exact h
  have closed : ∀ v o, windCode (closeWhen v o s).wmu.level ≤ 4 := by
    intro v o
    obtain hc | hc := closeWhen_eq v o s <;> rw [hc]
    · exact windowClose_level v h
    · exact h
  cases c
  case powerOn | resetAsserted | restart => exact Nat.zero_le _
  case sheetReadComplete image =>
    simp only [act]
    split
    · rw [(endLoading_held image s).2]
      exact h
    · exact h
  case cupPulse =>
    simp only [act]
    split
    · exact h
    · exact h
  case windowClose vane =>
    simp only [act]
    split
    · exact windowClose_level vane h
    · exact h
  case warmUpEnd | levelDwellExpiry | stuckEntry | stuckRecovery | windReportPeriod => exact closed _ _
  all_goals exact stands (by simp [mayChange, heardBlocks, sentHoldBlocks, holdBlocks, passageBlocks])

/-- With RESET released a command asserts RESET as RESET_ASSERTED alone does. -/
theorem act_resetHeld (c : Instr) {s : State} (h : s.sl.resetHeld = false) :
    (act c s).sl.resetHeld = true → c = .resetAsserted := by
  have stands : Block.sl ∉ mayChange c → (act c s).sl.resetHeld = false := fun hsl => by
    rw [show (act c s).sl = s.sl from act_same c s .sl hsl]
    exact h
  intro ht
  cases c
  case resetAsserted => rfl
  case powerOn | restart => cases ht
  case resetReleased => exact absurd (h.symm.trans ht) (by decide)
  case sheetReadComplete image =>
    simp only [act] at ht
    split at ht
    · rw [(endLoading_held image s).1, h] at ht
      cases ht
    · exact absurd (h.symm.trans ht) (by decide)
  case joiningEnd =>
    simp only [act] at ht
    split at ht
    · rw [(enterRunning_sl s).2.1, h] at ht
      cases ht
    · exact absurd (h.symm.trans ht) (by decide)
  case settlingEnd =>
    simp only [act] at ht
    split at ht
    · rw [endSettling_sl] at ht
      exact absurd (h.symm.trans ht) (by decide)
    · exact absurd (h.symm.trans ht) (by decide)
  case holdReceived | releaseReceived | motionReceived | passageReceived | bayReceived | windReceived
      | orderReceived | serviceReceived | presenceReceived | markReceived =>
    simp only [act] at ht
    rw [(receive_sl _ s).2.1, h] at ht
    cases ht
  all_goals
    rw [stands (by simp [mayChange, sentHoldBlocks, holdBlocks, passageBlocks])] at ht
    cases ht

/-- What RESET holds at its reset values, the line apart (R194). -/
theorem State.HeldIsReset.tables {s : State} (h : s.HeldIsReset) (hs : s.sl.resetHeld = true) :
    s.WindFused ∧ s.CabinsKnown := by
  obtain ⟨hsl, -, -, -, -, hwv, -, -, hct, -, -⟩ := h hs
  exact cleared_tables hwv hct (by rw [hsl]; rfl) (by rw [hsl]; rfl)

theorem actHeld_windFused (c : Instr) {s : State} (h : s.WindFused) (hw : s.HeldIsReset)
    (hs : s.sl.resetHeld = true) : (actHeld c s).WindFused := by
  obtain ⟨-, -, -, -, -, hwv, -⟩ := hw hs
  cases c
  case powerOn => exact (cleared_tables rfl rfl rfl rfl).1
  case resetReleased => exact h.of_eq rfl (by rw [(hw hs).1]; rfl)
  all_goals exact h

theorem actHeld_cabinsKnown (c : Instr) {s : State} (h : s.CabinsKnown) (hw : s.HeldIsReset)
    (hs : s.sl.resetHeld = true) : (actHeld c s).CabinsKnown := by
  cases c
  case powerOn => exact (cleared_tables rfl rfl rfl rfl).2
  case resetReleased =>
    obtain ⟨hsl, -⟩ := hw hs
    exact h.of_eq (by rw [State.joined, State.joined, hsl]; rfl) (by rw [hsl]; rfl) rfl
  all_goals exact h

theorem actHeld_windLevel (c : Instr) {s : State} (h : windCode s.wmu.level ≤ 4) :
    windCode (actHeld c s).wmu.level ≤ 4 := by
  cases c
  case powerOn => exact Nat.zero_le _
  all_goals exact h

/-- A reset leaves the part as RESET holds it (R194). -/
theorem cleared_heldIsReset (lines : StrapLines) (held : Bool) (lu : LogUnit) (s : State) :
    (s.cleared lines held lu).HeldIsReset := by
  rintro (rfl : held = true)
  refine ⟨?_, rfl, rfl, rfl, rfl, rfl, rfl, rfl, rfl, rfl, rfl⟩
  simp [State.cleared, State.straps, Loader.reset, State.own]

theorem actHeld_heldIsReset (c : Instr) {s : State} (h : s.HeldIsReset) : (actHeld c s).HeldIsReset := by
  cases c
  case powerOn => exact cleared_heldIsReset _ _ _ s
  case resetReleased => rintro ⟨⟩
  all_goals exact h

theorem act_heldIsReset (c : Instr) {s : State} (h : s.sl.resetHeld = false) : (act c s).HeldIsReset := by
  intro ht
  obtain rfl := act_resetHeld c h ht
  exact cleared_heldIsReset _ _ _ s ht

theorem exec_heldIsReset {c : Instr} {s t : State} (h : exec c s = .next t) (hs : s.HeldIsReset) :
    t.HeldIsReset := by
  cases hup : s.sl.resetHeld with
  | true =>
    rw [exec_held hup] at h
    cases h
    exact actHeld_heldIsReset c hs
  | false =>
    rw [exec_up hup] at h
    cases h
    exact act_heldIsReset c hup

theorem exec_tables {c : Instr} {s t : State} (h : exec c s = .next t) (hs : s.HeldIsReset) :
    (s.WindFused → t.WindFused) ∧ (s.CabinsKnown → t.CabinsKnown) ∧
      (windCode s.wmu.level ≤ 4 → windCode t.wmu.level ≤ 4) := by
  cases hup : s.sl.resetHeld with
  | true =>
    rw [exec_held hup] at h
    cases h
    exact ⟨fun hw => actHeld_windFused c hw hs hup, fun hc => actHeld_cabinsKnown c hc hs hup,
      actHeld_windLevel c⟩
  | false =>
    rw [exec_up hup] at h
    cases h
    exact ⟨act_windFused c, act_cabinsKnown c, act_windLevel c⟩

/-- A millisecond changes the clocks and the waiting commands alone (R56). -/
theorem tick_same (s : State) {b : Block} (hc : b ≠ .clock) (hp : b ≠ .pending) : b.same s (tick s) := by
  unfold tick
  split
  · cases b <;> rfl
  · cases b
    case clock => exact absurd rfl hc
    case pending => exact absurd rfl hp
    all_goals rfl

theorem tick_heldIsReset {s : State} (h : s.HeldIsReset) : (tick s).HeldIsReset := by
  intro ht
  have hsl : (tick s).sl = s.sl := tick_same s (b := .sl) (by decide) (by decide)
  rw [hsl] at ht
  rw [tick_held ht]
  exact h ht

/-- Settles O58: a step is a millisecond or a command, and each keeps the tables. -/
theorem stepKeepsTheTables : Obligations.StepKeepsTheTables := by
  intro s t h hs
  obtain ⟨-, rfl⟩ | ⟨c, rest, -, hc⟩ := step_cases h
  · have stands : ∀ b : Block, b ≠ .clock → b ≠ .pending → b.same s (tick s) := fun b => tick_same s
    have hsl : (tick s).sl = s.sl := stands .sl (by decide) (by decide)
    have hwv : (tick s).wv = s.wv := stands .wv (by decide) (by decide)
    have hct : (tick s).ct = s.ct := stands .ct (by decide) (by decide)
    have hwmu : (tick s).wmu = s.wmu := stands .wmu (by decide) (by decide)
    refine ⟨tick_heldIsReset hs, fun hw => hw.of_eq hwv (by rw [hsl]),
      fun hk => hk.of_eq (joined_congr hsl) (by rw [hsl]) hct, fun hl => ?_⟩
    rw [hwmu]
    exact hl
  · have hq : State.HeldIsReset { s with pending := rest } := hs
    exact ⟨exec_heldIsReset hc hq, exec_tables (s := { s with pending := rest }) hc hq⟩

/-- Settles O59: the reset values, block by block. -/
theorem resetHasEveryForm : Obligations.ResetHasEveryForm := by
  refine ⟨LogUnit.powerOn_wf 0, Link.reset_wf, PeerView.reset_wf, HoldUnit.reset_wf, MotionUnit.reset_wf,
    CabinTable.reset_wf, BayUnit.reset_wf, Port.reset_wf, Wmu.reset_wf, ?_, ?_, ?_, rfl⟩
  · rintro ⟨⟩
  · exact (cleared_tables rfl rfl rfl rfl).1
  · exact (cleared_tables rfl rfl rfl rfl).2

/-- Settles O1. -/
theorem stepRunsTheFrontCommand : Obligations.StepRunsTheFrontCommand := step_front

/-! ### Completion, and the resets -/

/-- Settles O3: a command answers the state that it leaves, and its frame spares the waiting commands. -/
theorem everyCommandAnswersNext : Obligations.EveryCommandAnswersNext := by
  refine ⟨fun c s => ?next, fun c s h hpower hrelease hbrake hgate hdoor => ?held, fun s v h => ?pins⟩
  case next =>
    refine ⟨_, exec_eq c s, ?_⟩
    refine everyCommandSparesTheRest c s _ (exec_eq c s) .pending ?_
    cases c <;> simp [mayChange, heardBlocks, sentHoldBlocks, holdBlocks, passageBlocks]
  case held =>
    rw [exec_held h]
    cases c
    case powerOn lines => exact absurd rfl (hpower lines)
    case resetReleased lines => exact absurd rfl (hrelease lines)
    case brakeFbChange v => exact absurd rfl (hbrake v)
    case gateClear v => exact absurd rfl (hgate v)
    case doorLocked v => exact absurd rfl (hdoor v)
    all_goals rfl
  case pins => exact ⟨exec_held h _, exec_held h _, exec_held h _⟩

/-- Settles O4. -/
theorem powerOnAndReleaseBeginLoading : Obligations.PowerOnAndReleaseBeginLoading := by
  refine ⟨fun lines s => ?powerOn, fun lines s => ⟨fun h => exec_held h _, fun h => exec_up h _⟩⟩
  case powerOn =>
    cases h : s.sl.resetHeld with
    | true => exact exec_held h _
    | false => exact exec_up h _

/-- A restart writes the start entry at the kept write position (R181, R188). -/
theorem restarted_ring (n : Nat) (u : LogUnit) :
    (u.restarted n).ring = u.ring.set u.writePos (some (startEntry u.writePos n 1)) ∧
      (u.restarted n).writePos = (u.writePos + 1) % 256 := by
  unfold LogUnit.restarted
  dsimp only
  (repeat' split) <;> exact ⟨rfl, by simp [LogUnit.write, LogUnit.place, restartedQueue, *]⟩

/-- A restart leaves RESTARTED first in the event queue, and behind it the notice of a crossing alone (R188, log
entry 23). -/
theorem restarted_queue (n : Nat) (u : LogUnit) :
    (u.restarted n).queue.head? = some { code := .restarted, param := 1, time := 0 } ∧
      (u.writePos ≠ 127 → u.writePos ≠ 255 → (u.restarted n).queue.length = 1) ∧
      (u.restarted n).overrun = false ∧ (u.restarted n).lost = 0 := by
  unfold LogUnit.restarted
  by_cases h127 : u.writePos = 127
  · simp [h127, LogUnit.write, LogUnit.place, restartedQueue]
  · by_cases h255 : u.writePos = 255 <;> simp [h127, h255, LogUnit.write, LogUnit.place, restartedQueue]

/-- Settles O5: both resets are one clearing of the state, with the log as a restart keeps it. -/
theorem restartKeepsTheLog : Obligations.RestartKeepsTheLog := by
  intro s num lines hup hlen hpos
  refine ⟨_, _, exec_up hup _, exec_up hup _, rfl, rfl, rfl, ?kept, ?started, ?asserted⟩
  case kept =>
    have log : ∀ n, (∀ i, i ≠ s.lu.writePos → (s.lu.restarted n).ring[i]? = s.lu.ring[i]?) ∧
        (s.lu.restarted n).writePos = (s.lu.writePos + 1) % 256 ∧ _ := fun n =>
      ⟨fun i hi => by rw [(restarted_ring n s.lu).1, List.getElem?_set_ne (Ne.symm hi)],
        (restarted_ring n s.lu).2, restarted_queue n s.lu⟩
    rintro r (rfl | rfl) <;>
      exact ⟨rfl, rfl, rfl, rfl, rfl, rfl, rfl, rfl, rfl, rfl, rfl, log _⟩
  case started =>
    show (s.lu.restarted lines.stn.toNat).ring[s.lu.writePos]? = _
    rw [(restarted_ring _ _).1, List.getElem?_set_self (by omega)]
  case asserted =>
    show (s.lu.restarted s.own).ring[s.lu.writePos]? = _
    rw [(restarted_ring _ _).1, List.getElem?_set_self (by omega)]
    rfl

/-! ### One millisecond (log entries 1 and 2) -/

theorem rowIf_append_nodup {b : Bool} {i : Instr} {l : List Instr} (hl : l.Nodup) (hi : i ∉ l) :
    (rowIf b i ++ l).Nodup := by
  refine List.nodup_append.mpr ⟨rowIf_nodup b i, hl, ?_⟩
  rintro a ha _ hb rfl
  exact hi ((mem_rowIf.mp ha).2 ▸ hb)

theorem rowsFor_append_nodup {n : Nat} {b : Nat → Bool} {i : Fin n → Instr} {l : List Instr}
    (hl : l.Nodup) (hinj : Function.Injective i) (hi : ∀ k, i k ∉ l) : (rowsFor n b i ++ l).Nodup := by
  refine List.nodup_append.mpr ⟨rowsFor_nodup hinj, hl, ?_⟩
  rintro a ha _ hb rfl
  obtain ⟨k, -, rfl⟩ := mem_rowsFor.mp ha
  exact hi k hb

/-- The refresh rows of the five kinds of hold (R79). -/
def State.refreshRows (s : State) : List Instr :=
  [HoldKind.storm, .wind, .bay, .desk, .link].flatMap (fun k => rowIf (s.refreshDue k) (.holdRefreshPeriod k))

theorem mem_refreshRows {s : State} {c : Instr} :
    c ∈ s.refreshRows ↔ ∃ k, s.refreshDue k = true ∧ c = .holdRefreshPeriod k := by
  simp only [State.refreshRows, List.mem_flatMap, mem_rowIf]
  refine ⟨fun ⟨k, _, h⟩ => ⟨k, h⟩, fun ⟨k, h⟩ => ⟨k, ?_, h⟩⟩
  cases k <;> simp

theorem refreshRows_append_nodup {s : State} {l : List Instr} (hl : l.Nodup)
    (hi : ∀ k, .holdRefreshPeriod k ∉ l) : (s.refreshRows ++ l).Nodup := by
  refine List.nodup_append.mpr ⟨?_, hl, ?_⟩
  · simp only [State.refreshRows, List.flatMap_cons, List.flatMap_nil]
    repeat' refine rowIf_append_nodup ?_ (by simp [mem_rowIf])
    exact List.nodup_nil
  · rintro a ha _ hb rfl
    obtain ⟨k, -, rfl⟩ := mem_refreshRows.mp ha
    exact hi k hb

/-- Each row stands in one group of the due timers. -/
theorem dueTimers_nodup (s : State) : s.dueTimers.Nodup := by
  simp only [State.dueTimers, State.viewTimers, State.holdTimers, State.machineTimers, List.append_assoc]
  iterate 6 refine rowIf_append_nodup ?_ (by simp [mem_rowIf, mem_rowsFor])
  iterate 5
    refine rowsFor_append_nodup ?_ (by intro j k h; cases h; rfl) (by simp [mem_rowIf, mem_rowsFor])
  refine rowIf_append_nodup ?_ (by simp [mem_rowIf])
  refine refreshRows_append_nodup ?_ (by simp [mem_rowIf])
  iterate 12 refine rowIf_append_nodup ?_ (by simp [mem_rowIf])
  exact rowIf_nodup _ _

/-- The rows that are due, as one disjunct for each row of the table that a timer brings about. -/
theorem mem_dueTimers (s : State) (c : Instr) : c ∈ s.dueTimers ↔
    match c with
    | .joiningEnd => s.joiningDue = true
    | .settlingEnd => s.settlingDue = true
    | .restartedFlagClear => s.flagDue = true
    | .windowClose vane => vane = Config.vaneLines s.now ∧ s.windowDue = true
    | .presencePeriod => s.presenceDue = true
    | .markPeriod => s.markDue = true
    | .peerStaleExpiry n => s.staleDue n.val = true
    | .peerAbsentExpiry n => s.absentDue n.val = true
    | .motionPartAgeExpiry n => s.motionAgeNow n.val = true
    | .bayPartAgeExpiry n => s.bayAgeNow n.val = true
    | .windRecordExpiry slot => s.windRecordDue slot.val = true
    | .driveRestartExpiry => s.driveRestartDue = true
    | .holdRefreshPeriod k => s.refreshDue k = true
    | .lapseCheck => s.lapseDue = true
    | .linkReleaseDwellExpiry => s.dwellDue = true
    | .ackWindowExpiry => s.ackDue = true
    | .brakedLimitExpiry => s.limitDue = true
    | .holdLampFlash => s.lampDue = true
    | .motionUpdate => s.updateDue = true
    | .brakeFault => s.brakeFaultDue = true
    | .emptydownTimeout => s.emptyLimitDue = true
    | .orderPeriod => s.orderDue = true
    | .servicePeriod => s.serviceDue = true
    | .tagPoll => s.tagPollDue = true
    | .bayReportPeriod => s.bayReportDue = true
    | .doorLocked locked => locked = true ∧ s.lockedDue = true
    | _ => False := by
  have hrows : [HoldKind.storm, .wind, .bay, .desk, .link].flatMap
      (fun k => rowIf (s.refreshDue k) (.holdRefreshPeriod k)) = s.refreshRows := rfl
  simp only [State.dueTimers, State.viewTimers, State.holdTimers, State.machineTimers, hrows, List.mem_append,
    mem_rowIf, mem_rowsFor, mem_refreshRows]
  cases c <;> simp [and_comm]

/-! Each timer's test as the state in which it runs, its start and its period. -/

theorem elapsed_iff (s : State) (since d : Nat) : s.elapsed since d = true ↔ since + d ≤ s.clock.now :=
  decide_eq_true_iff

theorem joiningDue_iff (s : State) :
    s.joiningDue = true ↔ s.sl.start = .joining ∧ s.sl.joinedAt + 2000 ≤ s.clock.now := by
  simp [State.joiningDue, elapsed_iff]

theorem settlingDue_iff (s : State) : s.settlingDue = true ↔
    (s.sl.start = .running ∨ s.sl.start = .listenOnly) ∧ s.sl.settled = false ∧
      s.sl.runningAt + 15000 ≤ s.clock.now := by
  simp [State.settlingDue, elapsed_iff, and_assoc]

theorem flagDue_iff (s : State) : s.flagDue = true ↔
    (s.sl.start = .running ∨ s.sl.start = .listenOnly) ∧ s.pv.restartedFlag = true ∧
      s.sl.runningAt + 10000 ≤ s.clock.now := by
  simp [State.flagDue, elapsed_iff, and_assoc]

theorem windowDue_iff (s : State) : s.windowDue = true ↔
    s.role = .mast ∧ s.joined = true ∧ ∃ t, s.wmu.windowFrom = some t ∧ t + 250 ≤ s.clock.now := by
  unfold State.windowDue
  cases s.wmu.windowFrom <;> simp [elapsed_iff, and_assoc]

theorem presenceDue_iff (s : State) :
    s.presenceDue = true ↔ s.sl.start ≠ .loading ∧ s.pv.presenceAt + 1000 ≤ s.clock.now := by
  simp [State.presenceDue, elapsed_iff]

theorem markDue_iff (s : State) : s.markDue = true ↔
    s.sl.start = .running ∧ s.sl.sheet.timeSource.getLsbD s.sl.station = true ∧
      s.pv.markAt + 10000 ≤ s.clock.now := by
  simp [State.markDue, State.isTimeSource, State.own, elapsed_iff, and_assoc]

theorem staleDue_iff (s : State) (n : Nat) : s.staleDue n = true ↔
    n ≠ s.sl.station ∧ (s.peer n).state = .fresh ∧ (s.peer n).lastHeard + 3000 ≤ s.clock.now := by
  simp [State.staleDue, State.own, elapsed_iff, and_assoc]

theorem absentDue_iff (s : State) (n : Nat) : s.absentDue n = true ↔
    n ≠ s.sl.station ∧ ((s.peer n).state = .stale ∨ (s.peer n).state = .foreign) ∧
      (s.peer n).lastHeard + 20000 ≤ s.clock.now := by
  simp [State.absentDue, State.own, elapsed_iff, and_assoc]

theorem motionAgeNow_iff (s : State) (n : Nat) : s.motionAgeNow n = true ↔
    s.joined = true ∧ ∃ m t, (s.peer n).motion = some (m, t) ∧ s.clock.now = t + 1000 := by
  unfold State.motionAgeNow
  rcases (s.peer n).motion with - | ⟨m, t⟩ <;> simp [State.now]

theorem bayAgeNow_iff (s : State) (n : Nat) : s.bayAgeNow n = true ↔
    s.joined = true ∧ ∃ b t, (s.peer n).bay = some (b, t) ∧ s.clock.now = t + 3000 := by
  unfold State.bayAgeNow
  rcases (s.peer n).bay with - | ⟨b, t⟩ <;> simp [State.now]

theorem windRecordDue_iff (s : State) (slot : Nat) : s.windRecordDue slot = true ↔
    ∃ r, s.wv.records[slot]? = some r ∧ r.fresh = true ∧ r.receipt + 10000 ≤ s.clock.now := by
  unfold State.windRecordDue
  cases s.wv.records[slot]? <;> simp [elapsed_iff]

theorem driveRestartDue_iff (s : State) : s.driveRestartDue = true ↔
    s.hu.cond.driveRestart = true ∧ s.hu.driveRestartAt + 10000 ≤ s.clock.now := by
  simp [State.driveRestartDue, elapsed_iff]

theorem refreshDue_iff (s : State) (k : HoldKind) : s.refreshDue k = true ↔
    s.joined = true ∧ ∃ o, s.hu.own? k = some o ∧ o.sentAt + 1000 ≤ s.clock.now := by
  unfold State.refreshDue
  cases s.hu.own? k <;> simp [elapsed_iff]

theorem lapseDue_iff (s : State) :
    s.lapseDue = true ↔ s.joined = true ∧ s.hu.lapseAt + 1000 ≤ s.clock.now := by
  simp [State.lapseDue, elapsed_iff]

theorem dwellDue_iff (s : State) :
    s.dwellDue = true ↔ ∃ t, s.hu.dwellFrom = some t ∧ t + 5000 ≤ s.clock.now := by
  unfold State.dwellDue
  cases s.hu.dwellFrom <;> simp [elapsed_iff]

theorem ackDue_iff (s : State) : s.ackDue = true ↔
    ∃ w t, s.hu.watch = some w ∧ w.ackUntil = some t ∧ t ≤ s.clock.now := by
  unfold State.ackDue
  rcases s.hu.watch with - | w
  · simp
  · rcases hw : w.ackUntil with - | t
    · simp [hw]
    · simp only [hw, Option.some.injEq, exists_and_left, exists_eq_left', decide_eq_true_eq]
      exact Iff.rfl

theorem limitDue_iff (s : State) : s.limitDue = true ↔
    ∃ w, s.hu.watch = some w ∧ w.startAt + w.limit ≤ s.clock.now := by
  unfold State.limitDue
  cases s.hu.watch <;> simp [elapsed_iff]

theorem lampDue_iff (s : State) : s.lampDue = true ↔
    s.role = .desk ∧ s.hu.lampMode = .flashing ∧ s.hu.lampAt + 500 ≤ s.clock.now := by
  simp [State.lampDue, elapsed_iff, and_assoc]

theorem updateDue_iff (s : State) : s.updateDue = true ↔
    s.role = .drive ∧ s.joined = true ∧ s.mu.updateAt + 100 ≤ s.clock.now := by
  simp [State.updateDue, elapsed_iff, and_assoc]

theorem brakeFaultDue_iff (s : State) : s.brakeFaultDue = true ↔
    s.role = .drive ∧ s.joined = true ∧ s.mu.brakeCause = false ∧
      ∃ t, s.mu.mismatchFrom = some t ∧ t + 1000 ≤ s.clock.now := by
  unfold State.brakeFaultDue
  cases s.mu.mismatchFrom <;> simp [elapsed_iff, and_assoc]

theorem emptyLimitDue_iff (s : State) : s.emptyLimitDue = true ↔
    s.mu.emptyState = .emptying ∧ s.mu.emptyAt + s.sl.sheet.emptyLimit * 1000 ≤ s.clock.now := by
  simp [State.emptyLimitDue, elapsed_iff]

theorem orderDue_iff (s : State) : s.orderDue = true ↔
    (s.role = .desk ∧ s.sl.start = .running) ∧ s.mu.orderAt + 1000 ≤ s.clock.now := by
  simp [State.orderDue, elapsed_iff]

theorem serviceDue_iff (s : State) : s.serviceDue = true ↔
    (s.role = .desk ∧ s.sl.start = .running) ∧ s.ct.serviceAt + 5000 ≤ s.clock.now := by
  simp [State.serviceDue, elapsed_iff]

theorem isBay_iff (s : State) : s.isBay = true ↔ s.role = .entry ∨ s.role = .exit := by simp [State.isBay]

theorem tagPollDue_iff (s : State) : s.tagPollDue = true ↔
    (s.joined = true ∧ (s.role = .entry ∨ s.role = .exit)) ∧ s.bu.pollAt + 100 ≤ s.clock.now := by
  simp [State.tagPollDue, elapsed_iff, isBay_iff, and_comm]

theorem bayReportDue_iff (s : State) : s.bayReportDue = true ↔
    (s.joined = true ∧ (s.role = .entry ∨ s.role = .exit)) ∧ s.bu.reportAt + 500 ≤ s.clock.now := by
  simp [State.bayReportDue, elapsed_iff, isBay_iff, and_comm]

theorem lockedDue_iff (s : State) :
    s.lockedDue = true ↔ s.bu.doorClose = true ∧ s.pins.doorLocked = true := by
  simp [State.lockedDue]

/-- Settles O2: the tick puts the due rows into the queue in a free order, and each row's test is its time. -/
theorem idleStepIsOneMillisecond : Obligations.IdleStepIsOneMillisecond := by
  intro s hq
  refine ⟨fun h => by rw [step_idle hq, tick_held h], fun h => ⟨_, step_idle hq, ?_⟩⟩
  have hpending : (tick s).pending.Perm s.advance.dueTimers := by
    rw [tick_up h]
    simpa [hq] using arrange_perm s.advance.now s.advance.dueTimers.length s.advance.dueTimers
  refine ⟨by rw [tick_up h]; rfl, by rw [tick_up h]; rfl, hpending,
    hpending.nodup_iff.mpr (dueTimers_nodup _), fun b hc hp => tick_same s hc hp, ?_⟩
  intro now past settles bay desk c
  rw [hpending.mem_iff, mem_dueTimers]
  cases c
  case joiningEnd => exact joiningDue_iff _
  case settlingEnd => exact settlingDue_iff _
  case restartedFlagClear => exact flagDue_iff _
  case windowClose vane => exact and_congr_right fun _ => windowDue_iff _
  case presencePeriod => exact presenceDue_iff _
  case markPeriod => exact markDue_iff _
  case peerStaleExpiry => exact staleDue_iff _ _
  case peerAbsentExpiry => exact absentDue_iff _ _
  case motionPartAgeExpiry => exact motionAgeNow_iff _ _
  case bayPartAgeExpiry => exact bayAgeNow_iff _ _
  case windRecordExpiry => exact windRecordDue_iff _ _
  case driveRestartExpiry => exact driveRestartDue_iff _
  case holdRefreshPeriod => exact refreshDue_iff _ _
  case lapseCheck => exact lapseDue_iff _
  case linkReleaseDwellExpiry => exact dwellDue_iff _
  case ackWindowExpiry => exact ackDue_iff _
  case brakedLimitExpiry => exact limitDue_iff _
  case holdLampFlash => exact lampDue_iff _
  case motionUpdate => exact updateDue_iff _
  case brakeFault => exact brakeFaultDue_iff _
  case emptydownTimeout => exact emptyLimitDue_iff _
  case orderPeriod => exact orderDue_iff _
  case servicePeriod => exact serviceDue_iff _
  case tagPoll => exact tagPollDue_iff _
  case bayReportPeriod => exact bayReportDue_iff _
  case doorLocked => exact and_congr_right fun _ => lockedDue_iff _
  all_goals exact Iff.rfl

end Sys2Proof.Machine
end

section
/-! SUPPORT. The close of a measuring window: the channels and the assessment that it leaves, the level that it
judges, and the report that it hands over. -/

namespace Sys2Proof.Machine

/-- Settles O8: CUP_PULSE is one guarded change of one channel. -/
theorem cupPulseIsCounted : Obligations.CupPulseIsCounted := by
  unfold Obligations.CupPulseIsCounted
  intro s ch hup
  rw [exec_up hup]
  simp only [act]
  refine ⟨fun hrole hopen hon => ?_, fun hnot => ?_⟩
  · rw [if_pos ⟨hrole, hopen, hon⟩]
    rfl
  · rw [if_neg]
    rintro ⟨hrole, hopen, hon⟩
    rcases hnot with h | h | h <;> simp_all

theorem exec_windowClose_due {s : State} (hup : s.sl.resetHeld = false) (hdue : s.windowDue = true)
    (vane : BitVec 4) : exec (.windowClose vane) s = .next (windowClose vane s) := by
  rw [exec_up hup]
  simp only [act]
  rw [if_pos hdue]

/-! ### Overrange marks, which a report clears (R18) -/

/-- A channel as a report leaves it. -/
def Channel.unmarked (c : Channel) : Channel := { c with overrangeMark := false }

/-- What stages 1 to 4 leave in the WMU of a state. -/
abbrev State.closedWmu (s : State) (vane : BitVec 4) : Wmu :=
  s.wmu.closed s.ownSlot s.sl.sheet vane s.clock.now

/-- A report either stays out or clears the marks and starts the period again. -/
theorem reportWind_cases (forced : Bool) (s : State) :
    (reportWind forced s).wmu = s.wmu ∨
      (reportWind forced s).wmu =
        { s.wmu with channels := s.wmu.channels.map Channel.unmarked, reportAt := s.clock.now } := by
  unfold reportWind
  split
  · right
    simp [sendWind, State.now, Channel.unmarked]
  · exact Or.inl rfl

/-- During warm-up a close stores what stages 1 to 4 give, over the fault reports of stage 3. -/
theorem windowClose_warmUp (vane : BitVec 4) (s : State) (hwarm : s.wmu.windows < 11) :
    ∃ z : State, windowClose vane s = z.onWmu (fun _ => s.closedWmu vane) ∧ z.hu = s.hu ∧ z.lc = s.lc ∧
      z.mu = s.mu ∧ z.bu = s.bu := by
  obtain ⟨-, -, hwindows, -⟩ := closed_facts s.ownSlot s.sl.sheet vane s.clock.now s.wmu
  refine ⟨reportFaults 0 (s.wmu.measured s.ownSlot s.sl.sheet.k vane s.clock.now).channels
    ((s.wmu.measured s.ownSlot s.sl.sheet.k vane s.clock.now).judged s.ownSlot).channels s, ?_, ?_⟩
  · have hlt : (s.closedWmu vane).windows < 12 := hwindows ▸ by omega
    rw [windowClose_eq]
    exact if_pos hlt
  · simp

/-- The channels after a close are those of stages 1 to 4, with the marks cleared when a report was queued. -/
theorem windowClose_channels (vane : BitVec 4) (s : State) :
    ((windowClose vane s).wmu.channels = (s.closedWmu vane).channels ∧
      (windowClose vane s).wmu.reportAt = s.wmu.reportAt) ∨
    ((windowClose vane s).wmu.channels = (s.closedWmu vane).channels.map Channel.unmarked ∧
      (windowClose vane s).wmu.reportAt = s.clock.now) := by
  obtain ⟨-, -, -, -, -, -, hreport, -⟩ := closed_facts s.ownSlot s.sl.sheet vane s.clock.now s.wmu
  by_cases hwarm : 11 ≤ s.wmu.windows
  · obtain ⟨y, hclose, hwmu, hclock, -, -, -⟩ := windowClose_warm vane s hwarm
    obtain ⟨-, hchannels, hat, -⟩ :=
      levelStage_eq s.ownSlot s.sl.sheet (s.wmu.closed s.ownSlot s.sl.sheet vane s.clock.now)
    obtain ⟨f, z, hz, hzw, hzc⟩ : ∃ f z, windowClose vane s = reportWind f z ∧ z.wmu = y.wmu ∧
        z.clock = s.clock := ⟨_, _, hclose, by simp, by simp [hclock]⟩
    rw [hz]
    rcases reportWind_cases f z with h | h
    · left
      simp [h, hzw, hwmu, hat, hreport]
    · right
      simp [h, hzw, hwmu, hzc]
  · left
    obtain ⟨z, hz, -⟩ := windowClose_warmUp vane s (by omega)
    rw [hz]
    simp [hreport]

theorem closedWmu_get_length (vane : BitVec 4) (s : State) :
    (s.closedWmu vane).channels.length = s.wmu.channels.length := closed_length ..

/-! ### Stages 1 and 2 of one channel (R2 to R7) -/

/-- Judging STUCK keeps what the window measured. -/
theorem judgeStuck_measured (wind : Bool) (c : Channel) :
    let d := c.judgeStuck wind
    d.p = c.p ∧ d.counter = c.counter ∧ d.sample = c.sample ∧ d.ring = c.ring ∧ d.ringSum = c.ringSum ∧
      d.gust = c.gust ∧ d.m16 = c.m16 ∧ d.meanStarted = c.meanStarted ∧ d.mean = c.mean ∧
      d.overrangeMark = c.overrangeMark := by
  unfold Channel.judgeStuck
  (repeat' split) <;> simp

/-- What a close measures on an enabled channel. -/
theorem measured_channel (k : Nat) (h : ChannelCfg) (weight : Nat) (wind : Bool) (c : Channel) (hc : c.Wf) :
    let d := (((c.latch.measure k h).judgeStuck wind).judgeOver h).expose weight
    d.p = c.counter ∧ d.counter = 0 ∧ d.sample = min 65535 (c.counter * h.cal / 250) ∧
      d.ring = (c.ring ++ [d.sample]).drop (c.ring.length + 1 - 12) ∧ d.ringSum = d.ring.sum ∧
      d.gust = d.ring.sum / 12 ∧ d.meanStarted = true ∧ d.mean = d.m16 / 16 ∧
      (c.meanStarted = false → d.m16 = 16 * d.sample) ∧
      (c.meanStarted = true → (d.m16 : Int) = c.m16 + (16 * (d.sample : Int) - c.m16) / 2 ^ k) ∧
      d.exposure = min 65535 (d.gust * weight / 128) ∧
      (d.overrange = true ↔ 65535 < c.counter * h.cal / 250 ∨ c.counter = 1023) ∧
      d.overrangeMark = (c.overrangeMark || d.overrange) := by
  obtain ⟨hcounter, -, hring, -, -⟩ := hc
  obtain ⟨hp, hcnt, hsample, hring', hsum, hgust, hm16, hstarted, hmean, hmark⟩ :=
    judgeStuck_measured wind (c.latch.measure k h)
  have hfull : (1023 ≤ c.counter) ↔ c.counter = 1023 := by omega
  simp only [Channel.expose, Channel.judgeOver, hp, hcnt, hsample, hring', hsum, hgust, hm16, hstarted,
    hmean, hmark]
  simp only [Channel.measure, Channel.latch, clamp16, Nat.min_comm _ 65535, windRun, overRange,
    joinRing_eq _ _ hring]
  refine ⟨trivial, trivial, trivial, trivial, trivial, trivial, trivial, trivial, ?_, ?_, trivial, ?_, trivial⟩
  · intro hfirst
    simp [nextMean, hfirst]
  · intro hmore
    rw [hmore]
    exact nextMean_eq ..
  · simp [hfull]

/-- Settles O9: the channels after a close are those that `closed_get` gives, overrange marks apart. -/
theorem windowCloseMeasuresEveryEnabledChannel : Obligations.WindowCloseMeasuresEveryEnabledChannel := by
  unfold Obligations.WindowCloseMeasuresEveryEnabledChannel
  intro s vane hup hdue hwf
  obtain ⟨hlength, hchannels, -⟩ := hwf
  obtain ⟨hsector, hfrom, hwindows, -⟩ := closed_facts s.ownSlot s.sl.sheet vane s.clock.now s.wmu
  obtain ⟨hsector', hfrom', hwindows', -⟩ := windowClose_wmu vane s
  refine ⟨_, exec_windowClose_due hup hdue vane, hsector'.trans hsector, hfrom'.trans hfrom,
    hwindows'.trans hwindows, ?_, ?_⟩
  · rcases windowClose_channels vane s with ⟨h, -⟩ | ⟨h, -⟩ <;> simp [h, closed_length, hlength]
  intro i c d hc hd
  dsimp only
  obtain ⟨er, wind, hget⟩ := closed_get s.ownSlot s.sl.sheet vane s.clock.now s.wmu i.val
  rw [hc, Option.map_some] at hget
  have hm := measured_channel s.sl.sheet.k (s.ownSlot.channel i.val)
    (s.ownSlot.exposure.getD (vaneSector vane) 0) wind c (hchannels c (List.mem_of_getElem? hc))
  obtain ⟨e, he, hed⟩ : ∃ e, (s.closedWmu vane).channels[i.val]? = some e ∧
      ((d = e ∧ (windowClose vane s).wmu.reportAt = s.wmu.reportAt) ∨
        (d = e.unmarked ∧ (windowClose vane s).wmu.reportAt = s.clock.now)) := by
    refine ⟨_, hget, ?_⟩
    rcases windowClose_channels vane s with ⟨h, hat⟩ | ⟨h, hat⟩
    · rw [h, hget] at hd
      exact Or.inl ⟨(Option.some.inj hd).symm, hat⟩
    · rw [h, List.getElem?_map, hget] at hd
      exact Or.inr ⟨(Option.some.inj hd).symm, hat⟩
  rw [hget] at he
  have he := Option.some.inj he
  by_cases hon : (s.ownSlot.channel i.val).enabled = true
  · simp only [hon, if_true] at he
    refine ⟨fun _ => ?_, fun hoff => by simp [hon] at hoff⟩
    obtain ⟨m1, m2, m3, m4, m5, m6, m7, m8, m9, m10, m11, m12, m13⟩ := hm
    rcases hed with ⟨rfl, hat⟩ | ⟨rfl, hat⟩ <;> subst he
    · exact ⟨m1, m2, m3, m4, m5, m6, m7, m8, m9, m10, m11, m12, fun _ => m13,
        fun hne hnow => absurd (hat.symm.trans hnow) hne⟩
    · exact ⟨m1, m2, m3, m4, m5, m6, m7, m8, m9, m10, m11, m12, fun hne => absurd hat hne, fun _ _ => rfl⟩
  · simp only [hon] at he
    refine ⟨fun h => absurd h hon, fun _ => ?_⟩
    rcases hed with ⟨rfl, -⟩ | ⟨rfl, -⟩ <;> subst he <;> rfl

/-! ### The assessed values (R8, R9, R16) -/

theorem referenceExposure_unmarked (g : SlotCfg) (cs : List Channel) :
    referenceExposure g (cs.map Channel.unmarked) = referenceExposure g cs := by
  unfold referenceExposure
  congr 1
  funext i
  rw [List.getElem?_map]
  cases cs[i]? <;> rfl

theorem mapIdx_unmarked {α : Type} (f : Nat → Channel → α) (cs : List Channel)
    (hf : ∀ i c, f i c.unmarked = f i c) : (cs.map Channel.unmarked).mapIdx f = cs.mapIdx f := by
  apply List.ext_getElem?
  intro i
  simp only [List.getElem?_mapIdx, List.getElem?_map, Option.map_map, Function.comp_def, hf]

theorem anyWorking_unmarked (g : SlotCfg) (cs : List Channel) :
    anyWorking g (cs.map Channel.unmarked) = anyWorking g cs := by
  unfold anyWorking
  rw [mapIdx_unmarked _ _ fun _ _ => rfl]

theorem greatestExposure_unmarked (g : SlotCfg) (cs : List Channel) :
    greatestExposure g (cs.map Channel.unmarked) = greatestExposure g cs := by
  unfold greatestExposure
  rw [mapIdx_unmarked _ _ fun _ _ => rfl]

theorem turbulence_unmarked (g : SlotCfg) (cs : List Channel) :
    turbulence g (cs.map Channel.unmarked) = turbulence g cs := by
  unfold turbulence
  rw [mapIdx_unmarked _ _ fun _ _ => rfl]

/-- The exposure that R8 refers to is that of a working reference channel. -/
theorem referenceExposure_some {g : SlotCfg} {cs : List Channel} {e : Nat}
    (h : referenceExposure g cs = some e) :
    ∃ (j : Fin 4) (r : Channel), cs[j.val]? = some r ∧ g.working j.val r = true ∧
      (g.channel j.val).reference = true ∧ r.exposure = e := by
  obtain ⟨j, hj, hr⟩ := List.exists_of_findSome?_eq_some h
  cases hc : cs[j]? with
  | none => simp [hc] at hr
  | some r =>
    simp only [hc, Option.ite_none_right_eq_some, Bool.and_eq_true, Option.some.injEq] at hr
    obtain ⟨⟨hworking, href⟩, rfl⟩ := hr
    exact ⟨⟨j, List.mem_range.mp hj⟩, r, hc, hworking, href, rfl⟩

theorem referenceExposure_none {g : SlotCfg} {cs : List Channel} (h : referenceExposure g cs = none)
    (j : Fin 4) (r : Channel) (hr : cs[j.val]? = some r) (hworking : g.working j.val r = true) :
    (g.channel j.val).reference = false := by
  have := List.findSome?_eq_none_iff.mp h j.val (List.mem_range.mpr j.isLt)
  simpa [hr, hworking] using this

/-- The adjusted exposures do not change the exposures that R8 refers to. -/
theorem exposeChannels_adjusted {g : SlotCfg} {sector : Nat} {cs : List Channel} {i : Nat} {c : Channel}
    (hc : (exposeChannels g sector cs)[i]? = some c) (hon : (g.channel i).enabled = true) :
    c.adjusted = adjust (referenceExposure g (exposeChannels g sector cs)) (g.channel i) c := by
  have href : referenceExposure g (exposeChannels g sector cs) = referenceExposure g
      (mapEnabled g (fun _ _ c => c.expose (g.exposure.getD sector 0)) cs) := by
    unfold referenceExposure
    congr 1
    funext j
    simp only [exposeChannels]
    generalize mapEnabled g (fun _ _ c => c.expose (g.exposure.getD sector 0)) cs = ds
    generalize ((List.range 4).findSome? _) = er
    simp only [mapEnabled, List.getElem?_mapIdx]
    cases ds[j]? with
    | none => rfl
    | some d => by_cases h : (g.channel j).enabled = true <;> simp [SlotCfg.working, h]
  rw [href]
  simp only [exposeChannels] at hc
  generalize mapEnabled g (fun _ _ c => c.expose (g.exposure.getD sector 0)) cs = ds at hc ⊢
  simp only [mapEnabled, List.getElem?_mapIdx] at hc
  cases hd : ds[i]? with
  | none => simp [hd] at hc
  | some d =>
    simp only [hd, Option.map_some, hon, if_true, Option.some.injEq] at hc
    subst hc
    rfl

/-- What a window close leaves for the assessment, told on the channels of the state after it. -/
theorem windowClose_assessment (vane : BitVec 4) (s : State) :
    let w := (windowClose vane s).wmu
    let g := s.ownSlot
    (∀ i c, w.channels[i]? = some c → (g.channel i).enabled = true →
      c.adjusted = adjust (referenceExposure g w.channels) (g.channel i) c) ∧
    (anyWorking g w.channels = true → w.a = greatestExposure g w.channels ∧ w.t = turbulence g w.channels ∧
      w.v = assessedValue s.sl.sheet.spread w.a w.t) ∧
    (anyWorking g w.channels = false → w.a = 0 ∧ w.t = 0 ∧ w.v = 0) := by
  obtain ⟨-, -, -, ha, ht, hv, -⟩ := windowClose_wmu vane s
  have hassess := closed_assessment s.ownSlot s.sl.sheet vane s.clock.now s.wmu
  obtain ⟨cs, hcs⟩ : ∃ cs, (s.closedWmu vane).channels = exposeChannels s.ownSlot (vaneSector vane) cs := by
    refine ⟨((s.wmu.measured s.ownSlot s.sl.sheet.k vane s.clock.now).judged s.ownSlot).channels, ?_⟩
    unfold State.closedWmu Wmu.closed Wmu.assess Wmu.judged Wmu.measured Wmu.latchAll
    dsimp only
    split <;> rfl
  have hadjusted : ∀ i c, (s.closedWmu vane).channels[i]? = some c → (s.ownSlot.channel i).enabled = true →
      c.adjusted = adjust (referenceExposure s.ownSlot (s.closedWmu vane).channels) (s.ownSlot.channel i) c := by
    intro i c hc hon
    rw [hcs] at hc ⊢
    exact exposeChannels_adjusted hc hon
  dsimp only at hassess ⊢
  rw [ha, ht, hv]
  rcases windowClose_channels vane s with ⟨h, -⟩ | ⟨h, -⟩ <;> rw [h]
  · exact ⟨hadjusted, hassess⟩
  · rw [referenceExposure_unmarked, anyWorking_unmarked, greatestExposure_unmarked, turbulence_unmarked]
    refine ⟨fun i c hc hon => ?_, hassess⟩
    rw [List.getElem?_map, Option.map_eq_some_iff] at hc
    obtain ⟨d, hd, rfl⟩ := hc
    exact hadjusted i d hd hon

theorem windowClose_length (vane : BitVec 4) (s : State) :
    (windowClose vane s).wmu.channels.length = s.wmu.channels.length := by
  rcases windowClose_channels vane s with ⟨h, -⟩ | ⟨h, -⟩ <;> simp [h, closed_length]

/-- A greatest value over four channels bounds each and, unless 0, is one of them. -/
theorem foldl_max_mapIdx (f : Nat → Channel → Nat) (cs : List Channel) (hlen : cs.length = 4) :
    (∀ (i : Fin 4) c, cs[i.val]? = some c → f i.val c ≤ (cs.mapIdx f).foldl max 0) ∧
    ((cs.mapIdx f).foldl max 0 ≠ 0 →
      ∃ (i : Fin 4) (c : Channel), cs[i.val]? = some c ∧ f i.val c = (cs.mapIdx f).foldl max 0) := by
  obtain ⟨-, hle, hmem⟩ := le_foldl_max (cs.mapIdx f) 0
  refine ⟨fun i c hc => hle _ ((mem_mapIdx_iff f cs _).mpr ⟨i.val, c, hc, rfl⟩), fun hne => ?_⟩
  obtain ⟨i, c, hc, hf⟩ := (mem_mapIdx_iff f cs _).mp (hmem hne)
  have hi : i < 4 := hlen ▸ (List.getElem?_eq_some_iff.mp hc).1
  exact ⟨⟨i, hi⟩, c, hc, hf⟩

/-- Settles O10: R8 by the cases of `adjust`, and A and T as greatest values over the channels. -/
theorem assessmentFollowsTheChannels : Obligations.AssessmentFollowsTheChannels := by
  unfold Obligations.AssessmentFollowsTheChannels
  intro s vane hup hdue hwf
  obtain ⟨hadjusted, hassess, hblind⟩ := windowClose_assessment vane s
  have hlen : (windowClose vane s).wmu.channels.length = 4 := (windowClose_length vane s).trans hwf.1
  refine ⟨_, exec_windowClose_due hup hdue vane, ?_, ?_, hblind⟩
  · intro i c hc hon
    have hadj := hadjusted i.val c hc hon
    dsimp only
    cases her : referenceExposure s.ownSlot (windowClose vane s).wmu.channels with
    | some e =>
      obtain ⟨j, r, hr, hworking, href, rfl⟩ := referenceExposure_some her
      rw [her] at hadj
      refine ⟨fun h => ?_, fun h _ => ⟨r, ⟨j, hr, hworking, href⟩, ?_⟩,
        fun _ hnone => absurd ⟨j, hr, hworking, href⟩ (hnone r)⟩
      · cases hst : c.state <;> simp [hadj, adjust, hst, h]
      · cases hst : c.state <;> simp [hadj, adjust, hst, h, clamp16, Nat.min_comm]
    | none =>
      rw [her] at hadj
      have hplain : c.adjusted = if c.state = .working then some c.exposure else none := by
        cases hst : c.state <;> simp [hadj, adjust, hst]
      refine ⟨fun _ => hplain, fun _ hsome => ?_, fun _ _ => hplain⟩
      obtain ⟨r, j, hr, hworking, href⟩ := hsome
      simp [referenceExposure_none her j r hr hworking] at href
  · intro hany
    obtain ⟨ha, ht, hv⟩ := hassess hany
    obtain ⟨hale, haex⟩ := foldl_max_mapIdx
      (fun i c => if (s.ownSlot.channel i).enabled then c.adjusted.getD 0 else 0) _ hlen
    obtain ⟨htle, htex⟩ := foldl_max_mapIdx
      (fun i c => if s.ownSlot.working i c then c.gust - c.mean else 0) _ hlen
    refine ⟨fun i c e hc hon hadj => ?_, fun hne => ?_, fun i c hc hworking => ?_, fun hne => ?_, hv⟩
    · rw [ha]
      simpa [hon, hadj, greatestExposure] using hale i c hc
    · rw [ha] at hne ⊢
      obtain ⟨i, c, hc, hf⟩ := haex hne
      change _ = greatestExposure s.ownSlot _ at hf
      have hon : (s.ownSlot.channel i.val).enabled = true := by
        by_contra hoff
        simp only [hoff] at hf
        exact hne hf.symm
      refine ⟨i, c, hc, hon, ?_⟩
      simp only [hon, if_true] at hf
      cases hadj : c.adjusted with
      | none => exact absurd (hf.symm.trans (by simp [hadj])) hne
      | some e => simpa [hadj] using hf
    · rw [ht]
      simpa [hworking, turbulence] using htle i c hc
    · rw [ht] at hne ⊢
      obtain ⟨i, c, hc, hf⟩ := htex hne
      change _ = turbulence s.ownSlot _ at hf
      have hworking : s.ownSlot.working i.val c = true := by
        by_contra hoff
        simp only [hoff] at hf
        exact hne hf.symm
      refine ⟨i, c, hc, hworking, ?_⟩
      simpa [hworking] using hf.symm

/-! ### The level after a close (R11, R12, R16) -/

theorem windowClose_anyWorking (vane : BitVec 4) (s : State) :
    anyWorking s.ownSlot (windowClose vane s).wmu.channels =
      anyWorking s.ownSlot (s.closedWmu vane).channels := by
  rcases windowClose_channels vane s with ⟨h, -⟩ | ⟨h, -⟩ <;> simp [h, anyWorking_unmarked]

theorem nextLevel_of_rise {sh : Sheet} {v cur dwell j : Nat} (hcur : cur < j) (hj : j ≤ 4)
    (hv : sh.enter.getD (j - 1) 0 ≤ v)
    (hmax : ∀ i, cur < i → i ≤ 4 → sh.enter.getD (i - 1) 0 ≤ v → i ≤ j) :
    nextLevel sh v cur dwell = (j, 0) := by
  obtain ⟨hsome, hnone⟩ := riseTo_spec sh v cur
  unfold nextLevel
  cases hrise : riseTo sh v cur with
  | none => exact absurd hv (hnone hrise j hcur hj)
  | some k =>
    obtain ⟨hk1, hk2, hk3, hk4⟩ := hsome k hrise
    rw [Nat.le_antisymm (hmax k hk1 hk2 hk3) (hk4 j hcur hj hv)]

theorem nextLevel_of_no_rise {sh : Sheet} {v cur dwell : Nat}
    (hno : ∀ j, cur < j → j ≤ 4 → ¬ sh.enter.getD (j - 1) 0 ≤ v) :
    nextLevel sh v cur dwell =
      if cur = 0 then (0, 0)
      else if sh.leave.getD (cur - 1) 0 ≤ v then (cur, 0)
      else if sh.dwell.getD (cur - 1) 0 * 1000 ≤ dwell + 250 then (cur - 1, 0)
      else (cur, dwell + 250) := by
  unfold nextLevel
  cases hrise : riseTo sh v cur with
  | none => rfl
  | some k =>
    obtain ⟨hk1, hk2, hk3, -⟩ := (riseTo_spec sh v cur).1 k hrise
    exact absurd hk3 (hno k hk1 hk2)

/-- The level and the holds that a close past warm-up leaves: those of the level stage. -/
theorem windowClose_levelStage (vane : BitVec 4) (s : State) (hwarm : 11 ≤ s.wmu.windows) :
    let u := (s.closedWmu vane).levelStage s.ownSlot s.sl.sheet
    (windowClose vane s).wmu.level = u.level ∧ (windowClose vane s).wmu.dwell = u.dwell ∧
      (windowClose vane s).wmu.blind = u.blind ∧
      ∃ y : State, y.hu = s.hu ∧ (windowClose vane s).hu = (handLevelHolds s.wmu.level u.level y).hu := by
  obtain ⟨y, hclose, hwmu, -, hhu, -, -⟩ := windowClose_warm vane s hwarm
  rw [hclose]
  obtain ⟨-, hlevel, hdwell, hblind, -⟩ := reportWind_wmu
    (levelChanged s.wmu ((s.closedWmu vane).levelStage s.ownSlot s.sl.sheet) || decide (s.wmu.windows < 12))
    (handLevelHolds s.wmu.level ((s.closedWmu vane).levelStage s.ownSlot s.sl.sheet).level y)
  refine ⟨hlevel.trans (by simp [hwmu]), hdwell.trans (by simp [hwmu]), hblind.trans (by simp [hwmu]),
    y, hhu, by simp⟩

theorem levelStage_blind {g : SlotCfg} {w : Wmu} (sh : Sheet) (h : anyWorking g w.channels = false) :
    w.levelStage g sh = { w with blind := true } := by
  simp [Wmu.levelStage, h]

theorem levelStage_sighted {g : SlotCfg} {w : Wmu} (sh : Sheet) (h : anyWorking g w.channels = true) :
    w.levelStage g sh = { w with
      level := levelAt (nextLevel sh w.v (windCode w.level) w.dwell).1
      dwell := (nextLevel sh w.v (windCode w.level) w.dwell).2
      blind := false } := by
  simp [Wmu.levelStage, h]

theorem declareHold_stands (k : HoldKind) (e : Effect) (c : Cause) (s : State) :
    ((declareHold k e c s).hu.own? k).isSome = true := by
  rw [declareHold_own, if_pos rfl]
  cases s.hu.own? k with
  | none => rfl
  | some o => dsimp only; (repeat' split) <;> rfl

theorem own?_of_hu {s t : State} (h : s.hu = t.hu) (k : HoldKind) : s.hu.own? k = t.hu.own? k := by rw [h]

/-- The mast's holds after a change of level (R20, R21). -/
theorem handLevelHolds_stand (old new : WindLevel) (y : State) :
    let t := handLevelHolds old new y
    (windCode old < windCode new →
      (new = .storm → (t.hu.own? .storm).isSome = true) ∧ (new = .hold → (t.hu.own? .wind).isSome = true)) ∧
    (old = .storm → new = .hold → (t.hu.own? .wind).isSome = true ∧ t.hu.own? .storm = none) ∧
    (old = .hold → new = .gusty → t.hu.own? .wind = none) := by
  refine ⟨fun hrise => ⟨?_, ?_⟩, ?_, ?_⟩
  · rintro rfl
    rw [handLevelHolds_storm _ _ hrise]
    exact declareHold_stands ..
  · rintro rfl
    rw [handLevelHolds_hold _ _ hrise]
    exact declareHold_stands ..
  · rintro rfl rfl
    rw [handLevelHolds_stormToHold]
    refine ⟨?_, ?_⟩
    · rw [releaseOwn_own, if_neg (by decide)]
      exact declareHold_stands ..
    · rw [releaseOwn_own, if_pos rfl]
  · rintro rfl rfl
    rw [handLevelHolds_holdToGusty, releaseOwn_own, if_pos rfl]

/-- Settles O11: `nextLevel` by its branches, and the holds by the change of level; during warm-up the close
stops before the level stage. -/
theorem levelRisesAndFalls : Obligations.LevelRisesAndFalls := by
  unfold Obligations.LevelRisesAndFalls
  refine ⟨fun s vane hup hdue hwarm hcode => ?_, fun s vane hup hdue hwarm => ?_⟩
  · obtain ⟨-, -, -, hlevel, hdwell, -⟩ := closed_facts s.ownSlot s.sl.sheet vane s.clock.now s.wmu
    obtain ⟨hlv, hdw, hbl, y, -, hhu⟩ := windowClose_levelStage vane s hwarm
    have hv : (windowClose vane s).wmu.v = (s.closedWmu vane).v := (windowClose_wmu vane s).2.2.2.2.2.1
    refine ⟨_, exec_windowClose_due hup hdue vane, ?_⟩
    dsimp only
    rw [windowClose_anyWorking, hv, hhu]
    refine ⟨fun hblind => ?_, fun hany => ?_⟩
    · rw [levelStage_blind _ hblind] at hlv hdw hbl
      exact ⟨hbl, hlv.trans hlevel, hdw.trans hdwell⟩
    · obtain ⟨hstand, hfall, hrelease⟩ := handLevelHolds_stand s.wmu.level
        ((s.closedWmu vane).levelStage s.ownSlot s.sl.sheet).level y
      rw [← hlv] at hstand hfall hrelease ⊢
      rw [levelStage_sighted _ hany] at hlv hdw hbl
      simp only [hlevel, hdwell] at hlv hdw
      refine ⟨hbl, fun j hj hmax => ?_, fun hno => ?_, hstand, hfall, hrelease⟩
      · obtain ⟨hj1, hj2, hj3⟩ := hj
        rw [nextLevel_of_rise hj1 hj2 hj3 fun i h1 h2 h3 => hmax i ⟨h1, h2, h3⟩] at hlv hdw
        rw [hlv, hdw]
        exact ⟨windCode_levelAt j hj2, rfl⟩
      · rw [nextLevel_of_no_rise fun j h1 h2 h3 => hno j ⟨h1, h2, h3⟩] at hlv hdw
        have hback : levelAt (windCode s.wmu.level) = s.wmu.level := levelAt_windCode _ hcode
        refine ⟨fun h0 => ?_, fun h0 hle => ?_, fun h0 hlt hwait => ?_, fun h0 hlt hfell => ?_⟩
        · simp only [h0, if_true] at hlv hdw
          exact ⟨hlv, hdw⟩
        · simp only [h0, hle, if_true, if_false] at hlv hdw
          exact ⟨hlv.trans hback, hdw⟩
        · simp only [h0, Nat.not_le.mpr hlt, Nat.not_le.mpr hwait, if_false] at hlv hdw
          exact ⟨hlv.trans hback, hdw⟩
        · simp only [h0, Nat.not_le.mpr hlt, hfell, if_true, if_false] at hlv hdw
          rw [hlv]
          exact ⟨windCode_levelAt _ (by omega), hdw⟩
  · obtain ⟨-, -, hwindows, hlevel, hdwell, hblind, hreport, -⟩ :=
      closed_facts s.ownSlot s.sl.sheet vane s.clock.now s.wmu
    obtain ⟨z, hclose, hhu, hlc, hmu, hbu⟩ := windowClose_warmUp vane s hwarm
    refine ⟨_, exec_windowClose_due hup hdue vane, ?_⟩
    rw [hclose]
    simp only [onWmu_blocks]
    exact ⟨hwindows.trans (by omega), hlevel, hdwell, hblind, hreport, hhu, hlc, hmu, hbu⟩

/-! ### The occasions of a close and its report (R18, R19) -/

/-- The fault bits of a report, channel by channel (11.6.2). -/
theorem windFaults_bits (stuck overs : List Bool) (i : Fin 4) :
    (windFaults stuck overs).getLsbD i.val = stuck.getD i.val false ∧
      (windFaults stuck overs).getLsbD (4 + i.val) = overs.getD i.val false := by
  have h : ∀ (i : Fin 4) (a b c d : Bool) (v w x y : Bool),
      let f := ((((0#8 ||| (flagByte a <<< 0) ||| (flagByte v <<< (4 + 0))) ||| (flagByte b <<< 1)
        ||| (flagByte w <<< (4 + 1))) ||| (flagByte c <<< 2) ||| (flagByte x <<< (4 + 2)))
        ||| (flagByte d <<< 3) ||| (flagByte y <<< (4 + 3)))
      f.getLsbD i.val = [a, b, c, d].getD i.val false ∧
        f.getLsbD (4 + i.val) = [v, w, x, y].getD i.val false := by
    unfold flagByte
    decide
  have hi : ∀ (l : List Bool), l.getD i.val false =
      [l.getD 0 false, l.getD 1 false, l.getD 2 false, l.getD 3 false].getD i.val false := by
    intro l
    fin_cases i <;> rfl
  rw [hi stuck, hi overs]
  exact h i _ _ _ _ _ _ _ _

/-- The channels after a close as stage 4 leaves those of stage 3. -/
theorem closed_channels (g : SlotCfg) (sh : Sheet) (vane : BitVec 4) (now : Nat) (w : Wmu) :
    (w.closed g sh vane now).channels =
      exposeChannels g (vaneSector vane) (judgeChannels g (w.measured g sh.k vane now).channels) := by
  unfold Wmu.closed Wmu.assess Wmu.judged Wmu.measured Wmu.latchAll
  dsimp only
  split <;> rfl

/-- A channel that is not enabled passes stages 1 to 4 unchanged (R3). -/
theorem closed_get_off {g : SlotCfg} {i : Nat} (hoff : (g.channel i).enabled = false) (sh : Sheet)
    (vane : BitVec 4) (now : Nat) (w : Wmu) : (w.closed g sh vane now).channels[i]? = w.channels[i]? := by
  obtain ⟨er, wind, h⟩ := closed_get g sh vane now w i
  rw [h]
  cases w.channels[i]? <;> simp [hoff]

/-- The fault state, its timers and the marks of an enabled channel after a close: stage 3 on what the window
measured (R13 to R15). -/
theorem closed_get_judged {g : SlotCfg} {i : Nat} (hon : (g.channel i).enabled = true) (sh : Sheet)
    (vane : BitVec 4) (now : Nat) {w : Wmu} {c : Channel} (hc : w.channels[i]? = some c) :
    ∃ d, (w.closed g sh vane now).channels[i]? = some d ∧
      let m := c.latch.measure sh.k (g.channel i)
      let j := m.judgeStuck (windElsewhere g (w.measured g sh.k vane now).channels i)
      d.state = j.state ∧ d.zeroTime = j.zeroTime ∧ d.recovery = j.recovery ∧
        d.overrangeMark = (c.overrangeMark || d.overrange) := by
  obtain ⟨er, h⟩ := exposeChannels_get g (vaneSector vane)
    (judgeChannels g (w.measured g sh.k vane now).channels) i
  have hj : (judgeChannels g (w.measured g sh.k vane now).channels)[i]? =
      some (((c.latch.measure sh.k (g.channel i)).judgeStuck
        (windElsewhere g (w.measured g sh.k vane now).channels i)).judgeOver (g.channel i)) := by
    simp only [judgeChannels]
    generalize windElsewhere g (w.measured g sh.k vane now).channels = wind
    simp [mapEnabled, Wmu.measured, List.getElem?_mapIdx, hc, hon]
  rw [closed_channels, h, hj, Option.map_some]
  refine ⟨_, rfl, ?_⟩
  obtain ⟨-, -, -, -, -, -, -, -, -, hmark⟩ := judgeStuck_measured
    (windElsewhere g (w.measured g sh.k vane now).channels i) (c.latch.measure sh.k (g.channel i))
  have hmark' : _ = c.overrangeMark := hmark
  simp [hon, Channel.expose, Channel.judgeOver, hmark']

/-- The fault state and its timers after a close are those of stages 1 to 4: a report clears the marks alone. -/
theorem windowClose_get {vane : BitVec 4} {s : State} {i : Nat} {e : Channel}
    (he : (s.closedWmu vane).channels[i]? = some e) :
    ∃ d, (windowClose vane s).wmu.channels[i]? = some d ∧ (d = e ∨ d = e.unmarked) := by
  rcases windowClose_channels vane s with ⟨h, -⟩ | ⟨h, -⟩
  · exact ⟨e, h ▸ he, Or.inl rfl⟩
  · exact ⟨e.unmarked, by rw [h, List.getElem?_map, he]; rfl, Or.inr rfl⟩

theorem channelState_of_get {w : Wmu} {i : Nat} {c : Channel} (h : w.channels[i]? = some c) :
    w.channelState i = c.state := by
  simp [Wmu.channelState, h]

/-- A close with its occasion does that close. -/
theorem closeWhen_occasion {s : State} (hdue : s.windowDue = true) {vane : BitVec 4}
    {occasion : Wmu → Wmu → Bool} (h : occasion s.wmu (windowClose vane s).wmu = true) :
    closeWhen vane occasion s = windowClose vane s := by
  simp [closeWhen, hdue, h]

/-- A row that names the close's occasion acts as the close does. -/
theorem exec_occasion {s : State} (hup : s.sl.resetHeld = false) (hdue : s.windowDue = true) {vane : BitVec 4}
    {c : Instr} {occasion : Wmu → Wmu → Bool} (hrow : act c s = closeWhen vane occasion s)
    (h : occasion s.wmu (windowClose vane s).wmu = true) :
    exec c s = .next (windowClose vane s) := by
  rw [exec_up hup, hrow, closeWhen_occasion hdue h]

/-- The close's own account of its report: it is made at a change of level, at the end of warm-up and when the
period has passed. -/
def State.reportsAtClose (vane : BitVec 4) (s : State) : Prop :=
  levelChanged s.wmu (windowClose vane s).wmu = true ∨ s.wmu.windows < 12 ∨
    s.elapsed s.wmu.reportAt ((windowClose vane s).wmu.reportPeriod s.clock.now) = true

/-- A close past warm-up queues a report exactly then, in a state whose WMU is that of the level stage. -/
theorem windowClose_report (vane : BitVec 4) (s : State) (hwarm : 11 ≤ s.wmu.windows) :
    let t := windowClose vane s
    let u := (s.closedWmu vane).levelStage s.ownSlot s.sl.sheet
    ∃ z : State, z.sl = s.sl ∧ z.clock = s.clock ∧ (t.wmu.level = s.wmu.level → z.lc = s.lc) ∧
      (s.reportsAtClose vane ∧ t = sendWind z ∨ ¬ s.reportsAtClose vane ∧ t = z) ∧
      (∃ n, z.wmu = { u with changeAt := n }) ∧
      t.wmu.changeAt =
        if levelChanged s.wmu t.wmu = true ∨ s.wmu.windows < 12 then s.clock.now else s.wmu.changeAt := by
  obtain ⟨y, hclose, hwmu, hclock, hhu, hsl, hlc⟩ := windowClose_warm vane s hwarm
  obtain ⟨hlevel, hdwell, hblind, -⟩ := windowClose_levelStage vane s hwarm
  obtain ⟨-, -, hat, -⟩ := levelStage_eq s.ownSlot s.sl.sheet (s.closedWmu vane)
  obtain ⟨-, -, -, -, -, -, hreport, -⟩ := closed_facts s.ownSlot s.sl.sheet vane s.clock.now s.wmu
  have hchanged : levelChanged s.wmu (windowClose vane s).wmu =
      levelChanged s.wmu ((s.closedWmu vane).levelStage s.ownSlot s.sl.sheet) := by
    simp only [levelChanged, hlevel, hblind]
  dsimp only at hwmu ⊢
  obtain ⟨z, hz, hzw, hzc, hzs, hzl⟩ : ∃ z : State,
      z = handLevelHolds s.wmu.level ((s.closedWmu vane).levelStage s.ownSlot s.sl.sheet).level y ∧
      z.wmu = y.wmu ∧ z.clock = s.clock ∧ z.sl = s.sl ∧
      ((windowClose vane s).wmu.level = s.wmu.level → z.lc = s.lc) := by
    refine ⟨_, rfl, by simp, by simp [hclock], by simp [hsl], fun hsame => ?_⟩
    rw [← hlevel, hsame]
    unfold handLevelHolds
    rw [if_neg (Nat.lt_irrefl _)]
    split
    · simp_all
    · simp_all
    · exact hlc
  rw [← hz, ← hchanged] at hclose
  rw [← hchanged] at hwmu
  have hchangeAt : (windowClose vane s).wmu.changeAt = z.wmu.changeAt := by
    rw [hclose]
    rcases reportWind_cases (levelChanged s.wmu (windowClose vane s).wmu || decide (s.wmu.windows < 12)) z
      with h | h <;> rw [h]
  have hperiod : ∀ now, z.wmu.reportPeriod now = (windowClose vane s).wmu.reportPeriod now := by
    intro now
    simp only [Wmu.reportPeriod, hchangeAt, hlevel, hblind]
    rw [hzw, hwmu]
  have hreportAt : z.wmu.reportAt = s.wmu.reportAt := by
    rw [hzw, hwmu]
    exact hat.trans hreport
  refine ⟨z, hzs, hzc, hzl, ?_, ⟨_, hzw.trans hwmu⟩, ?_⟩
  · have hfires : ((levelChanged s.wmu (windowClose vane s).wmu || decide (s.wmu.windows < 12)) = true ∨
        z.elapsed z.wmu.reportAt (z.wmu.reportPeriod z.now) = true) ↔ s.reportsAtClose vane := by
      simp only [State.reportsAtClose, elapsed_iff, State.now, hperiod, hreportAt, hzc, Bool.or_eq_true,
        decide_eq_true_iff, or_assoc]
    by_cases hr : s.reportsAtClose vane
    · refine Or.inl ⟨hr, ?_⟩
      conv_lhs => rw [hclose]
      exact if_pos (hfires.mpr hr)
    · refine Or.inr ⟨hr, ?_⟩
      conv_lhs => rw [hclose]
      exact if_neg fun h => hr (hfires.mp h)
  · rw [hchangeAt, hzw, hwmu]
    simp

theorem reportPeriod_eq (now : Nat) (w : Wmu) :
    w.reportPeriod now =
      if w.level ≠ .calm ∨ w.blind = true ∨ now < w.changeAt + 60000 then 1000 else 4000 := rfl

theorem levelChanged_iff (old new : Wmu) : levelChanged old new = true ↔
    new.level ≠ old.level ∨ (old.blind = false ∧ new.blind = true) := by
  rw [ne_comm]
  simp [levelChanged]

/-- A report due at a close stamps the period's start. -/
theorem windowClose_reportAt {vane : BitVec 4} {s : State} (hwarm : 11 ≤ s.wmu.windows)
    (hr : s.reportsAtClose vane) : (windowClose vane s).wmu.reportAt = s.clock.now := by
  obtain ⟨z, -, hclock, -, hcases, -, -⟩ := windowClose_report vane s hwarm
  rcases hcases with ⟨-, h⟩ | ⟨hno, -⟩
  · rw [h, (sendWind_wmu z).2.2.2.2, hclock]
  · exact absurd hr hno

theorem windowClose_windows {vane : BitVec 4} {s : State} :
    (windowClose vane s).wmu.windows = min 12 (s.wmu.windows + 1) :=
  (windowClose_wmu vane s).2.2.1.trans (closed_facts ..).2.2.1

/-- WIND_REPORT_PERIOD when the period that stands after the close has passed. -/
theorem windReportPeriod_does {vane : BitVec 4} {s : State} (hup : s.sl.resetHeld = false)
    (hdue : s.windowDue = true) (hwindows : s.wmu.windows = 12)
    (hpast : s.elapsed s.wmu.reportAt ((windowClose vane s).wmu.reportPeriod s.clock.now) = true) :
    exec (.windReportPeriod vane) s = .next (windowClose vane s) ∧
      (windowClose vane s).wmu.reportAt = s.clock.now := by
  refine ⟨exec_occasion hup hdue (by simp only [act]; rfl) ?_,
    windowClose_reportAt (by omega) (Or.inr (Or.inr hpast))⟩
  simp only [Bool.and_eq_true, beq_iff_eq]
  exact ⟨hwindows, hpast⟩

/-- The bits of a report that a close queues, channel by channel. -/
theorem closed_report_bits {s : State} {vane : BitVec 4} {i : Fin 4} {c d : Channel}
    (hc : s.wmu.channels[i.val]? = some c) (hd : (windowClose vane s).wmu.channels[i.val]? = some d)
    {w : Wmu} (hw : w.channels = (s.closedWmu vane).channels) :
    ((s.ownSlot.channel i.val).enabled = true →
      (w.report.faults.getLsbD i.val = true ↔ d.state = .stuck) ∧
      (w.report.faults.getLsbD (4 + i.val) = true ↔ c.overrangeMark = true ∨ d.overrange = true)) ∧
    ((s.ownSlot.channel i.val).enabled = false → c.state = .working → c.overrangeMark = false →
      w.report.faults.getLsbD i.val = false ∧ w.report.faults.getLsbD (4 + i.val) = false) := by
  obtain ⟨hstuck, hover⟩ := windFaults_bits (w.channels.map (fun c => c.state == .stuck))
    (w.channels.map (fun c => c.overrangeMark)) i
  rw [hw] at hstuck hover
  simp only [Wmu.report, hw, hstuck, hover, List.getD_eq_getElem?_getD, List.getElem?_map]
  refine ⟨fun hon => ?_, fun hoff hworking hmark => ?_⟩
  · obtain ⟨e, he, -, -, -, hmark⟩ := closed_get_judged hon s.sl.sheet vane s.clock.now hc
    obtain ⟨d', hd', hde⟩ := windowClose_get he
    obtain rfl := Option.some.inj (hd.symm.trans hd')
    rw [State.closedWmu, he]
    rcases hde with rfl | rfl <;> simp [hmark, Channel.unmarked]
  · rw [State.closedWmu, closed_get_off hoff, hc]
    simp [hworking, hmark]

/-- The occasions of a report, with the period told over the change before the close (R19). -/
theorem reportsAtClose_iff {vane : BitVec 4} {s : State} (hwarm : 11 ≤ s.wmu.windows)
    (hchange : (windowClose vane s).wmu.changeAt =
      if levelChanged s.wmu (windowClose vane s).wmu = true ∨ s.wmu.windows < 12 then s.clock.now
      else s.wmu.changeAt) :
    s.reportsAtClose vane ↔ s.wmu.windows = 11 ∨
      ((windowClose vane s).wmu.level ≠ s.wmu.level ∨
        (s.wmu.blind = false ∧ (windowClose vane s).wmu.blind = true)) ∨
      s.wmu.reportAt + (if (windowClose vane s).wmu.level ≠ .calm ∨ (windowClose vane s).wmu.blind = true ∨
        s.clock.now < s.wmu.changeAt + 60000 then 1000 else 4000) ≤ s.clock.now := by
  have hfirst : s.wmu.windows < 12 ↔ s.wmu.windows = 11 := by omega
  unfold State.reportsAtClose
  rw [← levelChanged_iff, reportPeriod_eq, hchange, elapsed_iff]
  by_cases hc : levelChanged s.wmu (windowClose vane s).wmu = true
  · exact iff_of_true (Or.inl hc) (Or.inr (Or.inl hc))
  by_cases hw : s.wmu.windows = 11
  · exact iff_of_true (Or.inr (Or.inl (hfirst.mpr hw))) (Or.inl hw)
  rw [if_neg (not_or.mpr ⟨hc, fun h => hw (hfirst.mp h)⟩), hfirst]
  simp only [hc, hw, false_or, Bool.false_eq_true]

/-- Settles O12: each occasion shows in the outcome of the close, and `windowClose_report` tells the report. -/
theorem windowOccasionsDoTheClose : Obligations.WindowOccasionsDoTheClose := by
  unfold Obligations.WindowOccasionsDoTheClose
  intro s vane ch hup hdue hwf
  dsimp only
  have hclose := exec_windowClose_due hup hdue vane
  refine ⟨fun hwindows => ?_, fun hwarm hany hlow hcode hno hleave hdwell => ?_,
    fun c hc hon hworking hzero htime hwind => ?_, fun c hc hon hstuck hpulse hnine => ?_,
    fun hwindows htime => ?_, fun hwindows htime t ht hshort => ?_, fun hwarm => ?_⟩
  · have htwelve : (windowClose vane s).wmu.windows = 12 := by rw [windowClose_windows, hwindows]; rfl
    refine ⟨_, exec_occasion hup hdue (by simp only [act]; rfl) ?_, hclose, htwelve,
      windowClose_reportAt (by omega) (Or.inr (Or.inl (by omega)))⟩
    simp [htwelve, hwindows]
  · obtain ⟨-, -, -, hlevel, hdwell', -⟩ := closed_facts s.ownSlot s.sl.sheet vane s.clock.now s.wmu
    obtain ⟨hlv, hdw, -⟩ := windowClose_levelStage vane s hwarm
    rw [levelStage_sighted _ hany] at hlv hdw
    simp only [hlevel, hdwell'] at hlv hdw
    rw [nextLevel_of_no_rise fun j h1 h2 => Nat.not_le.mpr (hno j h1 h2), if_neg (by omega),
      if_neg (Nat.not_le.mpr hleave), if_pos hdwell] at hlv hdw
    have hfell : windCode (windowClose vane s).wmu.level = windCode s.wmu.level - 1 := by
      rw [hlv]
      exact windCode_levelAt _ (by omega)
    refine ⟨_, exec_occasion hup hdue (by simp only [act]; rfl) ?_, hclose, hfell, hdw⟩
    exact decide_eq_true (by omega)
  · obtain ⟨e, he, hst, hzt, hrec, -⟩ := closed_get_judged hon s.sl.sheet vane s.clock.now hc
    obtain ⟨d, hd, hde⟩ := windowClose_get he
    rw [hwind] at hst hzt hrec
    simp only [Channel.judgeStuck, Channel.measure, Channel.latch, hworking, hzero, true_and, if_true,
      show 30000 ≤ c.zeroTime + 250 by omega] at hst hzt hrec
    have hd' : d.state = .stuck ∧ d.zeroTime = 0 ∧ d.recovery = 0 := by
      rcases hde with rfl | rfl <;> exact ⟨hst, hzt, hrec⟩
    refine ⟨_, exec_occasion hup hdue (by simp only [act]; rfl) ?_, hclose, d, hd, hd'⟩
    simp [channelState_of_get hc, channelState_of_get hd, hworking, hd']
  · obtain ⟨e, he, hst, hzt, hrec, -⟩ := closed_get_judged hon s.sl.sheet vane s.clock.now hc
    obtain ⟨d, hd, hde⟩ := windowClose_get he
    simp only [Channel.judgeStuck, Channel.measure, Channel.latch, hstuck, hnine, if_true,
      show c.counter ≠ 0 by omega, if_false, le_refl] at hst hzt hrec
    have hd' : d.state = .working ∧ d.zeroTime = 0 ∧ d.recovery = 0 := by
      rcases hde with rfl | rfl <;> exact ⟨hst, hzt, hrec⟩
    refine ⟨_, exec_occasion hup hdue (by simp only [act]; rfl) ?_, hclose, d, hd, hd'⟩
    simp [channelState_of_get hc, channelState_of_get hd, hstuck, hd']
  · obtain ⟨z, -, -, -, -, -, hchange⟩ := windowClose_report vane s (by omega)
    have hpast : s.elapsed s.wmu.reportAt ((windowClose vane s).wmu.reportPeriod s.clock.now) = true := by
      refine elapsed_true ?_
      rw [reportPeriod_eq]
      rcases htime with h | ⟨h, hnear⟩
      · split <;> omega
      · rw [if_pos (Or.inr (Or.inr ?_))]
        · exact h
        · rw [hchange]
          split <;> omega
    obtain ⟨hrow, hat⟩ := windReportPeriod_does hup hdue hwindows hpast
    exact ⟨_, hrow, hclose, hat⟩
  · obtain rfl : windowClose vane s = t := by
      rw [hclose] at ht
      injection ht
    refine windReportPeriod_does hup hdue hwindows (elapsed_true ?_)
    rw [reportPeriod_eq, if_pos (by tauto)]
    exact htime
  · obtain ⟨z, hsl, hclock, hlc, hcases, ⟨n, hz⟩, hchange⟩ := windowClose_report vane s hwarm
    obtain ⟨hsector, -, -, -, -, -, -, -⟩ := closed_facts s.ownSlot s.sl.sheet vane s.clock.now s.wmu
    obtain ⟨hagree, hchannels, hreport, -⟩ := levelStage_eq s.ownSlot s.sl.sheet (s.closedWmu vane)
    obtain ⟨hlevel, -, hblind, -⟩ := windowClose_levelStage vane s hwarm
    have hiff := reportsAtClose_iff hwarm hchange
    refine ⟨_, hclose, fun hno => ?_, fun hrep => ?_⟩
    · rcases hcases with ⟨hr, -⟩ | ⟨-, h⟩
      · exact absurd (hiff.mp hr) hno
      · rw [← hiff] at hno
        have hsame : (windowClose vane s).wmu.level = s.wmu.level := by
          by_contra hne
          exact hno (Or.inl ((levelChanged_iff _ _).mpr (Or.inl hne)))
        refine ⟨?_, ?_⟩
        · rw [h, hz]
          exact hreport.trans (closed_facts ..).2.2.2.2.2.2.1
        · rw [h]
          exact hlc hsame
    · have hrep' := hiff.mpr hrep
      rcases hcases with ⟨-, h⟩ | ⟨hno, -⟩
      · have hzlevel : z.wmu.level = (windowClose vane s).wmu.level := by rw [hz, hlevel]
        have hzblind : z.wmu.blind = (windowClose vane s).wmu.blind := by rw [hz, hblind]
        obtain ⟨hs1, -, -, ha, ht, hv, -⟩ := sendWind_wmu z |>.1
        rw [← h] at hs1 ha ht hv
        refine ⟨windowClose_reportAt hwarm hrep', ?_, z.onWmu (fun w => { w with
            channels := w.channels.map (fun c => { c with overrangeMark := false }), reportAt := z.now }),
          z.wmu.report, by simp [hsl], fun hsame => by simp [hlc hsame], ?_, ?_, ?_, ?_, ?_, ?_, ?_⟩
        · intro c hc
          rw [h] at hc
          simp only [sendWind, handOver_spares, onWmu_blocks, List.mem_map] at hc
          obtain ⟨d, -, rfl⟩ := hc
          rfl
        · rw [h]
          rfl
        · simp only [Wmu.report, Wmu.shown, hzlevel, hzblind]
          split <;> rfl
        · rw [hv]
          rfl
        · rw [ha]
          rfl
        · rw [ht]
          rfl
        · have hzs : z.wmu.sector = vaneSector vane := by
            rw [hz]
            exact hagree.1.trans hsector
          simp only [Wmu.report, hzs]
        · intro i c d hc hd
          exact closed_report_bits hc hd (by rw [hz]; exact hchannels)
      · exact absurd hrep' hno

end Sys2Proof.Machine
end

section
/-! SUPPORT. The ride link: what sending, the end of a transmission, handing over and turning away do. -/

namespace Sys2Proof.Machine

/-! ### Sending (R25, R28, R32, R40) -/

theorem waiting_of_idle {l : Link} (h : l.sending = none) : l.waiting = l.queue := by
  unfold Link.waiting
  refine List.filter_eq_self.mpr fun e _ => ?_
  simp [Link.isWaiting, h]

/-- TRANSMISSION_START with a telegram to try. -/
theorem exec_transmissionStart_some {s : State} (hup : s.sl.resetHeld = false) (hidle : s.lc.sending = none)
    {e : QEntry} (he : s.sendable = some e) :
    exec .transmissionStart s = .next (s.onLc (fun l => { l with
      sending := some { no := e.no, telegram := s.attempt e }, echoDue := none })) := by
  rw [exec_up hup]
  simp only [act, hidle, he]

/-- TRANSMISSION_START with nothing to try, or while one is being tried. -/
theorem exec_transmissionStart_none {s : State} (hup : s.sl.resetHeld = false)
    (h : s.lc.sending.isSome = true ∨ s.sendable = none) : exec .transmissionStart s = .next s := by
  rw [exec_up hup]
  congr 1
  simp only [act]
  split
  · next hidle he => simp [hidle, he] at h
  · rfl

theorem sendable_presence {s : State}
    (h : s.sl.start = .joining ∨ (s.sl.start = .sheetFault ∧ s.lc.duplicate = false)) :
    s.sendable = s.lc.waiting.find? (fun e => payloadKind e.payload == .presence) := by
  rcases h with h | ⟨h, hdup⟩
  · simp [State.sendable, h]
  · simp [State.sendable, h, hdup]

/-- Settles O13: what is tried is `sendable`, by the start state. -/
theorem transmissionStartsWithTheFirstWaiting : Obligations.TransmissionStartsWithTheFirstWaiting := by
  unfold Obligations.TransmissionStartsWithTheFirstWaiting
  intro s hup
  refine ⟨fun e rest hrun hidle hq => ?_, fun e rest hstart hidle hq => ?_, fun h => ?_, fun hstart hno => ?_, ?_⟩
  · refine exec_transmissionStart_some hup hidle ?_
    simp [State.sendable, hrun, waiting_of_idle hidle, hq]
  · refine exec_transmissionStart_some hup hidle ?_
    rw [sendable_presence hstart, waiting_of_idle hidle, ← List.head?_filter, hq]
    rfl
  · refine exec_transmissionStart_none hup ?_
    rcases h with h | h | h | h | ⟨h, hdup⟩
    · exact Or.inr (by simp [State.sendable, h])
    · exact Or.inr (by simp [State.sendable, h])
    · exact Or.inl h
    · refine Or.inr ?_
      have hw : s.lc.waiting = [] := by simp [Link.waiting, h]
      unfold State.sendable
      rw [hw]
      cases s.sl.start <;> simp
    · exact Or.inr (by simp [State.sendable, h, hdup])
  · refine exec_transmissionStart_none hup (Or.inr ?_)
    have hnone : s.lc.waiting.find? (fun e => payloadKind e.payload == .presence) = none := by
      refine List.find?_eq_none.mpr fun e he => ?_
      simpa using hno e (List.mem_of_mem_filter he)
    rcases hstart with h | h <;> simp [State.sendable, h, hnone]
  · rw [exec_up hup]
    rfl

theorem lineFault_lc (n : Nat) (s : State) : (lineFault n s).lc = { s.lc with lineFault := true } := by
  unfold lineFault
  split
  · next h => rw [← h]
  · simp

/-- The first line fault of an episode is told to the host. -/
theorem lineFault_event {s : State} (n : Nat) (hfirst : s.lc.lineFault = false)
    (hs : s.suppressed .lineFault = false) :
    EventEntry.mk .lineFault (BitVec.ofNat 16 n) s.clock.station ∈ (lineFault n s).lu.queue := by
  unfold lineFault
  rw [if_neg (by simp [hfirst])]
  have hs' : (s.onLc (fun l => { l with lineFault := true })).suppressed .lineFault = false :=
    (suppressed_congr rfl _).trans hs
  exact ((raise_recent hs').log (by omega) _ _ _).mem

theorem exec_transmissionComplete_sending {s : State} (hup : s.sl.resetHeld = false) {x : Sending}
    (hx : s.lc.sending = some x) (intact : Bool) :
    exec (.transmissionComplete intact) s = .next (endTransmission intact x s) := by
  rw [exec_up hup]
  simp only [act, hx]

theorem echoFailed_eq (x : Sending) (l : Link) : l.echoFailed x = { l with
    queue := if l.superseded x.no then l.queue.filter (fun e => e.no != x.no) else l.queue
    sending := none
    rxErrors := min 65535 (l.rxErrors + 1)
    echoFails := l.echoFails + 1 } := by
  unfold Link.echoFailed
  dsimp only
  split <;> rfl

/-- Settles O14: the two ends of a transmission, and a line fault at the first of an episode. -/
theorem transmissionEndsByItsEcho : Obligations.TransmissionEndsByItsEcho := by
  unfold Obligations.TransmissionEndsByItsEcho
  refine ⟨fun s x hup hx => ⟨?_, _, exec_transmissionComplete_sending hup hx false, ?_, ?_, ?_⟩,
    fun s frame hup => ⟨fun hwait hfirst => ?_, fun h => ?_, fun hframe => ?_⟩⟩
  · rw [exec_transmissionComplete_sending hup hx]
    rfl
  all_goals try simp only [endTransmission, Bool.false_eq_true, if_false, onLc_blocks, echoFailed_eq]
  · by_cases hthree : 3 ≤ s.lc.echoFails + 1
    · simp [hthree, lineFault_lc]
    · simp [hthree]
  · rintro (h | h)
    · split
      · simp [lineFault, h]
      · rfl
    · rw [if_neg (by omega)]
      rfl
  · intro hfirst hthree hs
    rw [if_pos hthree]
    exact lineFault_event 2 hfirst ((suppressed_congr rfl _).trans hs)
  · refine ⟨lineFault 1 s, ?_, lineFault_lc 1 s, lineFault_event 1 hfirst⟩
    rw [exec_up hup]
    simp [act, hwait]
  · rw [exec_up hup]
    rcases h with h | h
    · simp [act, h]
    · simp [act, lineFault, h]
  · rw [exec_up hup]
    simp only [act, hframe, Option.isNone_none, if_true]
    rfl

/-! ### Handing over (R30, R31, R39) -/

theorem overflow_lc (a : Nat) (p : Payload) (s : State) : (overflow a p s).lc = s.lc := by
  simp [overflow]

theorem replace_queue_length (n : Nat) (p : Payload) (r : Bool) (l : Link) :
    (l.replace n p r).queue.length ≤ l.queue.length := List.length_filterMap_le _ _

theorem mem_replace_same {l : Link} {old : QEntry} (h : old ∈ l.queue) (p : Payload) (r : Bool) :
    { old with payload := p } ∈ (l.replace old.no p r).queue :=
  List.mem_filterMap.mpr ⟨old, h, by simp⟩

/-- The entries of other numbers: a superseded waiting copy goes, the rest stays. -/
theorem mem_replace_other {l : Link} {n : Nat} {p : Payload} {r : Bool} {x : QEntry} (hx : x.no ≠ n) :
    x ∈ (l.replace n p r).queue ↔ x ∈ l.queue ∧ (l.isWaiting x && supersedes p r x) = false := by
  simp only [Link.replace, List.mem_filterMap]
  constructor
  · rintro ⟨e, he, h⟩
    split at h
    · next hn =>
      cases h
      exact absurd (by simpa using hn) hx
    · split at h
      · cases h
      · next hkeep =>
        cases h
        exact ⟨he, by simpa using hkeep⟩
  · rintro ⟨he, hkeep⟩
    exact ⟨x, he, by simp [hx, hkeep]⟩

/-- A telegram that joins a queue with room. -/
theorem addTelegram_room {s : State} (h : s.lc.queue.length < 8) (p : Payload) (r : Bool) :
    (addTelegram p r s).lc = s.lc.push p r := by
  unfold addTelegram
  rw [if_pos h]
  simp

/-- A class 0 telegram in a full queue with a waiting one of a higher class last. -/
theorem addTelegram_displaces {s : State} (h : s.lc.queue.length = 8) {p : Payload}
    (hp : kindClass (payloadKind p) = 0) {x : QEntry} (hx : s.lc.waiting.getLast? = some x) (hcls : x.cls ≠ 0)
    (r : Bool) : (addTelegram p r s).lc = (s.lc.dropEntry x.no).push p r := by
  unfold addTelegram
  rw [if_neg (by omega), if_pos hp, hx]
  dsimp only
  rw [if_neg hcls, overflow_lc]
  simp

/-- Any other telegram in a full queue is dropped. -/
theorem addTelegram_drops {s : State} (h : s.lc.queue.length = 8) {p : Payload}
    (hno : kindClass (payloadKind p) ≠ 0 ∨ ∀ x ∈ s.lc.waiting, x.cls = 0) (r : Bool) :
    (addTelegram p r s).lc = s.lc := by
  unfold addTelegram
  rw [if_neg (by omega)]
  split
  · next hp =>
    split
    · next e he =>
      rw [if_pos, overflow_lc]
      exact (hno.resolve_left (not_not.mpr hp)) e (List.mem_of_getLast? he)
    · rw [overflow_lc]
  · rw [overflow_lc]

/-- Handing over outside LISTEN_ONLY. -/
theorem handOver_joins {s : State} (h : s.sl.start ≠ .listenOnly) (p : Payload) (r : Bool) :
    (handOver p r s).lc = match (s.lc.beforeJoin p).waiting.find? (supersedes p r) with
      | some old => (s.lc.beforeJoin p).replace old.no p r
      | none => (addTelegram p r (s.onLc (·.beforeJoin p))).lc := by
  unfold handOver
  rw [if_neg h]
  dsimp only
  rw [show (s.onLc (·.beforeJoin p)).lc = s.lc.beforeJoin p from rfl]
  cases (s.lc.beforeJoin p).waiting.find? (supersedes p r) <;> rfl

theorem beforeJoin_kept (p : Payload) (l : Link) :
    (l.beforeJoin p).nextEntry = l.nextEntry ∧ (l.beforeJoin p).sending = l.sending := by
  unfold Link.beforeJoin Link.dropRefreshes
  split
  · split <;> simp
  · simp

/-- The waiting refreshes that a RELEASE with reason OWN ends. -/
def Link.endsRefresh (l : Link) (p : Payload) (x : QEntry) : Bool :=
  match p, x.payload with
  | .release r, .hold h => r.reason == 0 && l.isWaiting x && x.refresh && h.kind == r.kind
  | _, _ => false

theorem beforeJoin_eq (p : Payload) (l : Link) :
    l.beforeJoin p = { l with queue := l.queue.filter (fun x => !l.endsRefresh p x) } := by
  unfold Link.beforeJoin
  split
  · next r =>
    by_cases hr : r.reason = 0
    · have hends : ∀ x : QEntry, l.endsRefresh (.release r) x =
          (l.isWaiting x && x.refresh && (match x.payload with
            | .hold h => h.kind == r.kind
            | _ => false)) := by
        intro x
        unfold Link.endsRefresh
        cases x.payload <;> simp [hr]
      rw [if_pos (by simp [hr])]
      simp only [hends]
      rfl
    · have hr' : (r.reason == 0) = false := beq_eq_false_iff_ne.mpr hr
      have hends : ∀ x : QEntry, l.endsRefresh (.release r) x = false := by
        intro x
        unfold Link.endsRefresh
        cases x.payload <;> simp only [hr', Bool.false_and]
      rw [if_neg (by rw [hr']; decide)]
      simp [hends]
  · next hp =>
    have hends : ∀ x : QEntry, l.endsRefresh p x = false := by
      intro x
      unfold Link.endsRefresh
      cases p with
      | release r => exact absurd rfl (hp r)
      | _ => rfl
    simp [hends]

/-- A telegram handed over outside LISTEN_ONLY, over the queue that the ended refreshes have left. -/
theorem handOver_queue {s : State} (hwf : s.lc.Wf) (hstart : s.sl.start ≠ .listenOnly) (p : Payload)
    (refresh : Bool) :
    let l := s.lc.beforeJoin p
    let q := (handOver p refresh s).lc.queue
    let e : QEntry := { no := s.lc.nextEntry, payload := p, refresh := refresh }
    (∀ old, l.waiting.find? (supersedes p refresh) = some old →
      { old with payload := p } ∈ q ∧ q.length ≤ l.queue.length ∧
      (∀ x ∈ q, x.no ≠ old.no → x ∈ l.queue) ∧
      (∀ x ∈ l.queue, x.no ≠ old.no → l.isWaiting x = false ∨ supersedes p refresh x = false → x ∈ q)) ∧
    (l.waiting.find? (supersedes p refresh) = none →
      (l.queue.length < 8 → q.Perm (e :: l.queue) ∧ q.Pairwise (fun a b => a.before b = true)) ∧
      (l.queue.length = 8 → kindClass (payloadKind p) = 0 →
        ∀ x, l.waiting.getLast? = some x → x.cls ≠ 0 →
          q.Perm (e :: l.queue.filter (fun y => y.no != x.no))) ∧
      (l.queue.length = 8 →
        (kindClass (payloadKind p) ≠ 0 ∨ ∀ x ∈ l.waiting, x.cls = 0) → q = l.queue)) := by
  obtain ⟨hnext, -⟩ := beforeJoin_kept p s.lc
  have hlwf := Link.beforeJoin_wf p hwf
  dsimp only
  rw [handOver_joins hstart, ← hnext]
  refine ⟨fun old hold => ?_, fun hnone => ⟨fun hroom => ?_, fun hfull hcls x hx hxcls => ?_, fun hfull hno => ?_⟩⟩
  · rw [hold]
    dsimp only
    refine ⟨mem_replace_same (List.mem_of_mem_filter (List.mem_of_find?_eq_some hold)) p refresh,
      replace_queue_length .., fun x hx hne => ((mem_replace_other hne).mp hx).1, fun x hx hne hkeep => ?_⟩
    refine (mem_replace_other hne).mpr ⟨hx, ?_⟩
    rcases hkeep with h | h <;> simp [h]
  · rw [hnone]
    dsimp only
    rw [addTelegram_room (by exact hroom)]
    obtain ⟨-, hsorted, -, hno, -⟩ := hlwf
    exact ⟨insertEntry_perm _ _, insertEntry_sorted _ (fun x hx => Nat.ne_of_lt (hno x hx)) hsorted⟩
  · rw [hnone]
    dsimp only
    rw [addTelegram_displaces (s := s.onLc (·.beforeJoin p)) hfull hcls hx hxcls]
    exact insertEntry_perm _ _
  · rw [hnone]
    dsimp only
    rw [addTelegram_drops (s := s.onLc (·.beforeJoin p)) hfull hno]
    rfl

/-- Settles O15: LISTEN_ONLY discards, and `handOver_queue` tells the rest over the queue of `beforeJoin_eq`. -/
theorem handingOverATelegram : Obligations.HandingOverATelegram := by
  unfold Obligations.HandingOverATelegram
  intro s p refresh hwf
  refine ⟨fun hlisten => ?_, fun hstart => ?_⟩
  · simp [handOver, hlisten]
  · have h := handOver_queue hwf hstart p refresh
    rw [beforeJoin_eq] at h
    exact h

/-! ### Telegrams that no owner takes (R33, R34, R37 to R39) -/

theorem exec_arrival {s : State} (hup : s.sl.resetHeld = false) (t : Telegram) :
    exec (arrival t) s = .next (receive t s) := by rw [arrival_exec, whenUp_up hup]

theorem telegramOk_sender {t : Telegram} (h : telegramOk t = true) : t.sender.toNat < 24 := by
  simp only [telegramOk, Bool.and_eq_true, decide_eq_true_eq] at h
  omega

theorem receive_malformed {s : State} {t : Telegram} (h : telegramOk t = false) :
    receive t s = s.onLc (·.countError) := by
  unfold receive
  rw [if_pos h]

/-- A telegram is judged unless it shows a duplicate (R34, R38). -/
theorem receive_judges {s : State} {t : Telegram} (hok : telegramOk t = true)
    (h : t.sender.toNat ≠ s.sl.station ∨ s.lc.echoDue = some t ∨ s.sl.start = .loading) :
    receive t s = judgeTelegram t (clearEcho s) := by
  unfold receive
  rw [if_neg (by simp [hok])]
  refine if_neg ?_
  rintro ⟨hown, hecho, hstart⟩
  rcases h with h | h | h
  · exact h hown
  · have hown' : t.sender.toNat = s.own := hown
    simp [State.isEcho, hown', h] at hecho
  · exact hstart h

theorem receive_duplicate {s : State} {t : Telegram} (hok : telegramOk t = true)
    (hown : t.sender.toNat = s.sl.station) (hecho : s.lc.echoDue ≠ some t) (hstart : s.sl.start ≠ .loading) :
    receive t s = receiveDuplicate t (clearEcho s) := by
  unfold receive
  rw [if_neg (by simp [hok])]
  exact if_pos ⟨hown, by simp [State.isEcho, hecho], hstart⟩

theorem not_joined_of_start {s : State} (h : s.sl.start = .loading ∨ s.sl.start = .sheetFault) :
    s.joined = false := by
  rcases h with h | h <;> simp [State.joined, h]

theorem Recent.logTelegram {n : Nat} {e : EventEntry} {s : State} (h : Recent n e s) (hn : n < 31) (r : Role)
    (t : Telegram) (o : LogOutcome) : Recent (n + 1) e (logTelegram r t o s) := by
  unfold Sys2Proof.Machine.logTelegram
  dsimp only
  split
  · exact h.write hn _ _ _ _
  · exact h.mono (by omega)

/-- The peer view's share of an ignored telegram of a FOREIGN station: its record, and the log unit untouched
(R45, R50). -/
theorem pvTake_foreign {s : State} {t : Telegram} (hp : ∀ q, t.payload ≠ .presence q)
    (hown : t.sender.toNat ≠ s.own) (hf : (s.peer t.sender.toNat).state = .foreign)
    (hlen : s.pv.table.length = 24) (hn : t.sender.toNat < 24) :
    (∀ m, (pvTake t false s).peer m = if m = t.sender.toNat then
      { (s.peer t.sender.toNat).judgeSeq t.seq with lastHeard := s.clock.now } else s.peer m) ∧
    (pvTake t false s).lu = s.lu := by
  have hcontent : ∀ p : Peer, p.takeContent t.payload false s.clock.now = p := by
    intro p
    cases hq : t.payload with
    | presence q => exact absurd hq (hp q)
    | _ => rfl
  rw [pvTake_other _ _ _ hown]
  refine ⟨fun m => ?_, ?_⟩
  · rw [pvTakeOther_peer t false s hp hlen hn, hcontent, hf]
    have hstate := (judgeSeq_same t.seq (s.peer t.sender.toNat)).1
    rw [hf] at hstate
    simp only [← hstate]
  · rw [pvTakeOther_notPresence t false s hp]
    dsimp only
    generalize hz : State.onPeer _ _ (State.onPeer _ _ s) = z
    have hzlu : z.lu = s.lu := by simp [← hz, State.onPeer]
    have hzstate : (z.peer t.sender.toNat).state = .foreign := by
      rw [← hz, onPeer_at _ _ _ _ (by rw [onPeer_length, hlen]) hn, if_pos rfl,
        onPeer_at _ _ _ _ hlen hn, if_pos rfl]
      exact (takeContent_same _ _ _ _).1.trans ((judgeSeq_same _ _).1.trans hf)
    have hafter : (s.onPeer t.sender.toNat (·.judgeSeq t.seq)).stateAfter t.sender.toNat t.payload
        = .foreign := by
      unfold State.stateAfter
      rw [onPeer_at _ _ _ _ hlen hn, if_pos rfl, (judgeSeq_same _ _).1, hf]
      cases hq : t.payload with
      | presence q => exact absurd hq (hp q)
      | _ => rfl
    rw [hafter, hf]
    have hstay : setPeerState t.sender.toNat .foreign z = z := by simp [setPeerState, hzstate]
    rw [hstay, afterParts_id _ _ _ _ _ (by simp) (by simp), hzlu]

theorem judge_ignore {s : State} {t : Telegram} (h : s.judge t = .ignore) :
    (s.peer t.sender.toNat).state = .foreign ∧ ∀ q, t.payload ≠ .presence q := by
  unfold State.judge at h
  dsimp only at h
  split at h
  · next hf =>
    obtain ⟨hstate, hkind⟩ := hf
    refine ⟨hstate, fun q hq => hkind ?_⟩
    rw [hq]
    rfl
  · (repeat' split at h) <;> cases h

theorem judgeSeq_eq {p : Peer} (hf : p.state ≠ .absent) (seq : Byte) : p.judgeSeq seq = { p with
    lastSeq := seq
    gaps := if seq = p.lastSeq ∨ seq = p.lastSeq + 1 then p.gaps else min 255 (p.gaps + 1) } := by
  unfold Peer.judgeSeq
  rw [if_neg hf]
  by_cases h1 : seq = p.lastSeq
  · rw [if_pos h1, if_pos (Or.inl h1), h1]
  · rw [if_neg h1]
    by_cases h2 : seq = p.lastSeq + 1
    · rw [if_pos h2, if_pos (Or.inr h2)]
    · rw [if_neg h2, if_neg (not_or.mpr ⟨h1, h2⟩)]

/-- Settles O16: malformed telegrams, those of a state that judges none, refusals, and those ignored. -/
theorem telegramsTurnedAway : Obligations.TelegramsTurnedAway := by
  unfold Obligations.TelegramsTurnedAway
  intro s t hup
  dsimp only
  refine ⟨fun hbad => ?_, fun hok hstart => ?_, fun byMask hheard hjudge hwf => ?_, fun hheard hjudge => ?_⟩
  · rw [exec_arrival hup, receive_malformed hbad]
    rfl
  · have hnot : (clearEcho s).joined = false := by
      refine not_joined_of_start (hstart.imp id ?_)
      rintro ⟨h, -⟩
      exact h
    rw [exec_arrival hup, receive_judges hok (by tauto)]
    simp only [judgeTelegram, hnot, if_true]
    rfl
  · have hlen : s.pv.table.length = 24 := hwf.1
    have hok : telegramOk t = true := by rcases hheard with ⟨-, -, h, -⟩ | ⟨-, -, h, -⟩ <;> exact h
    have hn := telegramOk_sender hok
    have hlu : (refuseTelegram t byMask (clearEcho s)).lu = (logTelegram (s.sl.sheet.roleAt t.sender.toNat) t
        .refused (raise .peerRefused (t.sender.toNat * 256 + kindCode (payloadKind t.payload)) s)).lu :=
      logTelegram_lu _ _ _ (raise_lu _ _ (by simp [State.onPeer, clearEcho])
        (by simp [State.onPeer, clearEcho]) (by simp [State.onPeer, clearEcho]))
        (by simp [State.onPeer, clearEcho]) (by simp [State.onPeer, clearEcho])
    refine ⟨refuseTelegram t byMask (clearEcho s), ?_, ?_, ?_, ?_, ?_, hlu, fun hs => ?_⟩
    · rw [exec_arrival hup, receive_judged t s hheard, hjudge]
    · simp [refuseTelegram, State.onPeer, clearEcho]
    · intro b hlc hpv hlu
      cases b <;> simp [Block.same, refuseTelegram, State.onPeer, clearEcho] at *
    · unfold refuseTelegram
      dsimp only
      rw [peer_of_pv (t := (clearEcho s).onPeer t.sender.toNat _) (by simp; rfl),
        onPeer_at _ _ _ _ (by exact hlen) hn, if_pos rfl]
      rfl
    · intro m _ hne
      unfold refuseTelegram
      dsimp only
      rw [peer_of_pv (t := (clearEcho s).onPeer t.sender.toNat _) (by simp; rfl),
        onPeer_at _ _ _ _ (by exact hlen) hn, if_neg hne]
      rfl
    · rw [hlu]
      exact ((raise_recent hs).logTelegram (by omega) _ t .refused).mem
  · obtain ⟨hforeign, hpres⟩ := judge_ignore hjudge
    obtain ⟨-, hjoined, hok, hown⟩ := hheard
    have hn := telegramOk_sender hok
    have hq := pv_quiet t false (clearEcho s) hpres (by simp) hown (Or.inr (Or.inl hforeign))
    refine ⟨ignoreTelegram t (clearEcho s), ?_, ?_, ?_, ?_⟩
    · rw [exec_arrival hup, receive_hears t s ⟨hup, hjoined, hok, hown⟩, hjudge]
    · have hlc : (pvTake t false (clearEcho s)).lc = (clearEcho s).lc := hq .lc (by decide) (by decide)
      simp only [ignoreTelegram, logTelegram_spares, hlc]
      rfl
    · intro b hlc hpv hlu
      have h := hq b hpv hlu
      cases b <;> simp only [Block.same, ignoreTelegram, logTelegram_spares] at h ⊢ <;>
        first | exact h | exact absurd rfl hlu | exact absurd rfl hlc
    · intro hwf
      obtain ⟨hpeers, hlu⟩ := pvTake_foreign (s := clearEcho s) hpres hown hforeign hwf.1 hn
      have hrec : ∀ m, (ignoreTelegram t (clearEcho s)).peer m = (pvTake t false (clearEcho s)).peer m :=
        fun m => peer_of_pv (by simp [ignoreTelegram]) m
      have hsl := hq .sl (by decide) (by decide)
      have hclock := hq .clock (by decide) (by decide)
      refine ⟨?_, hforeign, fun m _ hne => ?_, logTelegram_lu _ _ _ hlu hsl hclock⟩
      · have habsent : ((clearEcho s).peer t.sender.toNat).state ≠ .absent := by
          rw [show ((clearEcho s).peer t.sender.toNat).state = .foreign from hforeign]
          decide
        rw [hrec, hpeers, if_pos rfl, judgeSeq_eq habsent]
        rfl
      · rw [hrec, hpeers, if_neg hne]
        rfl

/-! ### The duplicate station (R38, R39, R41, R193) -/

theorem listenFault_mu {s : State} (h : s.role = .drive) :
    (listenFault s).mu.motion = .fault ∧ (listenFault s).mu.listenCause = true := by
  simp [listenFault, h]

theorem Recent.onMu {n : Nat} {e : EventEntry} {s : State} (h : Recent n e s)
    (f : MotionUnit → MotionUnit) : Recent n e (s.onMu f) := h.lu (by simp)

theorem Recent.goFault {n : Nat} {e : EventEntry} {s : State} (h : Recent n e s) (hn : n < 31) :
    Recent (n + 1) e (goFault s) := by
  unfold Sys2Proof.Machine.goFault
  split
  · exact h.mono (by omega)
  · exact (h.onMu _).setMotion hn _

theorem Recent.listenFault {n : Nat} {e : EventEntry} {s : State} (h : Recent n e s) (hn : n < 31) :
    Recent (n + 1) e (listenFault s) := by
  unfold Sys2Proof.Machine.listenFault
  split
  · exact (h.onMu _).goFault hn
  · exact h.mono (by omega)

theorem Recent.enterListenOnly {n : Nat} {e : EventEntry} {s : State} (h : Recent n e s) (hn : n < 29) :
    Recent (n + 3) e (enterListenOnly s) := by
  unfold Sys2Proof.Machine.enterListenOnly setStart
  dsimp only
  refine recent_formBoarding ((Recent.log ?_ (by omega) _ _ _).listenFault (by omega)) (by omega)
  refine h.lu ?_
  split <;> rfl

/-- The entry into LISTEN_ONLY (R39, R193). -/
theorem enterListenOnly_facts (s : State) :
    let u := enterListenOnly s
    u.sl = { s.sl with
      start := .listenOnly
      runningAt := if s.sl.start = .joining then s.sl.joinedAt + 2000 else s.sl.runningAt } ∧
    u.lc = { s.lc with queue := [], sending := none } ∧
    (s.role = .drive → u.mu.motion = .fault ∧ u.mu.listenCause = true) := by
  unfold Sys2Proof.Machine.enterListenOnly
  dsimp only
  generalize hz : setStart .listenOnly _ = z
  have hzsl : z.sl = { s.sl with
      start := .listenOnly
      runningAt := if s.sl.start = .joining then s.sl.joinedAt + 2000 else s.sl.runningAt } := by
    rw [← hz]
    by_cases h : s.sl.start = .joining <;> simp [h]
  have hzlc : z.lc = { s.lc with queue := [], sending := none } := by
    rw [← hz]
    by_cases h : s.sl.start = .joining <;> simp [h, setStart]
  refine ⟨by simp [hzsl], by simp [hzlc], fun hrole => ?_⟩
  have hzrole : z.role = .drive := by
    rw [← hrole]
    simp [State.role, hzsl]
  simpa using listenFault_mu hzrole

/-- What the first telegram of a duplicate station does before its start states are judged (R38). -/
def markDuplicate (s : State) : State :=
  logLocal .lc 2 [byteOf s.own]
    (raise .dupStation s.own (s.onLc (fun l => { l with duplicate := true })))

theorem foundDuplicate_eq (s : State) : foundDuplicate s =
    if s.sl.start = .joining ∨ s.sl.start = .running then enterListenOnly (markDuplicate s)
    else markDuplicate s := by
  have hsl : (markDuplicate s).sl = s.sl := by simp [markDuplicate]
  rw [← hsl]
  rfl

theorem markDuplicate_recent (s : State) :
    Recent 1 (EventEntry.mk .dupStation (BitVec.ofNat 16 s.sl.station) s.clock.station) (markDuplicate s) :=
  (raise_recent (s := s.onLc (fun l => { l with duplicate := true }))
    (not_suppressed_of_unmaskable _ rfl)).log (by omega) _ _ _

/-- DUP_STATION stays in the queue through what follows it. -/
theorem foundDuplicate_recent (s : State) :
    Recent 4 (EventEntry.mk .dupStation (BitVec.ofNat 16 s.sl.station) s.clock.station) (foundDuplicate s) := by
  rw [foundDuplicate_eq]
  split
  · exact (markDuplicate_recent s).enterListenOnly (by omega)
  · exact (markDuplicate_recent s).mono (by omega)

/-- Settles O17: the first telegram of a duplicate by `foundDuplicate`, a later one by its log entry. -/
theorem duplicateStationIsFound : Obligations.DuplicateStationIsFound := by
  unfold Obligations.DuplicateStationIsFound
  intro s t hup hok hown hecho hstart
  refine ⟨receiveDuplicate t (clearEcho s), ?_, ?_⟩
  · rw [exec_arrival hup, receive_duplicate hok hown hecho hstart]
  cases hdup : s.lc.duplicate with
  | true =>
    have hdup' : (clearEcho s).lc.duplicate = true := hdup
    have heq : receiveDuplicate t (clearEcho s) =
        logTelegram ((clearEcho s).sl.sheet.roleAt t.sender.toNat) t .refused (clearEcho s) := by
      simp [receiveDuplicate, hdup']
    rw [heq]
    refine ⟨by simp [hdup'], fun h => by simp at h, fun h => by simp at h,
      fun _ => by simp [clearEcho], fun _ => ⟨fun b hlc hlu => ?_, ?_⟩⟩
    · cases b <;> simp [Block.same, clearEcho] at *
    · rw [hown]
      exact logTelegram_lu _ _ _ rfl rfl rfl
  | false =>
    have hdup' : (clearEcho s).lc.duplicate = false := hdup
    have heq : receiveDuplicate t (clearEcho s) = logTelegram
        ((foundDuplicate (clearEcho s)).sl.sheet.roleAt t.sender.toNat) t .refused (foundDuplicate (clearEcho s)) := by
      simp [receiveDuplicate, hdup']
    rw [heq]
    obtain ⟨hsl, hlc, hmu⟩ := enterListenOnly_facts (markDuplicate (clearEcho s))
    have hmsl : (markDuplicate (clearEcho s)).sl = s.sl := by simp [markDuplicate, clearEcho]
    have hmlc : (markDuplicate (clearEcho s)).lc.duplicate = true := by simp [markDuplicate]
    have hmrole : (markDuplicate (clearEcho s)).role = s.role := by simp [State.role, hmsl]
    refine ⟨?_, fun _ => ((foundDuplicate_recent (clearEcho s)).logTelegram (by omega) _ _ _).mem, ?_, ?_,
      fun h => by simp at h⟩
    · simp only [logTelegram_spares, foundDuplicate_eq]
      split
      · rw [hlc]
        exact hmlc
      · exact hmlc
    · intro _ hst
      have hst' : (clearEcho s).sl.start = .joining ∨ (clearEcho s).sl.start = .running := hst
      simp only [logTelegram_spares, foundDuplicate_eq, if_pos hst']
      rw [hmsl] at hsl
      rw [hmrole] at hmu
      exact ⟨hsl, by rw [hlc], by rw [hlc], hmu⟩
    · rintro (h | h)
      · have hst' : ¬ ((clearEcho s).sl.start = .joining ∨ (clearEcho s).sl.start = .running) := by
          rw [show (clearEcho s).sl.start = .sheetFault from h]
          decide
        simp only [logTelegram_spares, foundDuplicate_eq, if_neg hst']
        exact hmsl
      · simp at h

end Sys2Proof.Machine
end

section
/-! SUPPORT. Timers of the peer view, of the reports and of the hold unit. -/

namespace Sys2Proof.Machine

/-- A row with a guard that holds. -/
theorem exec_due {s t : State} {c : Instr} {b : Bool} (hup : s.sl.resetHeld = false)
    (hrow : act c s = if b = true then t else s) (hb : b = true) : exec c s = .next t := by
  rw [exec_up hup, hrow, if_pos hb]

/-- A row with a guard that does not hold (log entry 3). -/
theorem exec_early {s t : State} {c : Instr} {b : Bool} (hup : s.sl.resetHeld = false)
    (hrow : act c s = if b = true then t else s) (hb : b = false) : exec c s = .next s := by
  rw [exec_up hup, hrow, if_neg (by simp [hb])]

/-! ### The periodic reports (R47, R58, R104, R136, R160) -/

theorem presenceFlags_restarted (a b : Bool) : (presenceFlags a b).getLsbD 0 = a := by
  cases a <;> cases b <;> decide

/-- Settles O25: each row is guarded by its period, and the RESTARTED flag by its 10,000 ms. -/
theorem periodicReportsAreHandedOver : Obligations.PeriodicReportsAreHandedOver := by
  unfold Obligations.PeriodicReportsAreHandedOver
  intro s hup
  refine ⟨fun h1 h2 => ?_, ?_, fun h1 h2 h3 => ?_, fun h1 h2 h3 => ?_, fun h1 h2 h3 => ?_, fun h1 h2 h3 => ?_,
    fun h => ?_, fun h => ?_, fun h => ?_, fun h => ?_, fun h => ?_⟩
  · exact exec_due hup (by simp only [act]; rfl) ((presenceDue_iff s).mpr ⟨h1, h2⟩)
  · have hflag : s.presence.flags.getLsbD 0 = s.flagSent := presenceFlags_restarted _ _
    have hdue := flagDue_iff s
    rw [hflag, State.flagSent, Bool.and_eq_true, Bool.not_eq_true', Bool.eq_false_iff, ne_eq, hdue,
      ← Nat.not_le]
    tauto
  · exact exec_due hup (by simp only [act]; rfl) ((markDue_iff s).mpr ⟨h1, h2, h3⟩)
  · exact exec_due hup (by simp only [act]; rfl) ((orderDue_iff s).mpr ⟨⟨h1, h2⟩, h3⟩)
  · exact exec_due hup (by simp only [act]; rfl) ((serviceDue_iff s).mpr ⟨⟨h1, h2⟩, h3⟩)
  · exact exec_due hup (by simp only [act]; rfl) ((bayReportDue_iff s).mpr ⟨⟨h2, h1⟩, h3⟩)
  · exact exec_early hup (by simp only [act]; rfl) h
  · exact exec_early hup (by simp only [act]; rfl) h
  · exact exec_early hup (by simp only [act]; rfl) h
  · exact exec_early hup (by simp only [act]; rfl) h
  · exact exec_early hup (by simp only [act]; rfl) h

/-! ### Silence (R46) -/

theorem recheckIfDrive_peer (n m : Nat) (s : State) : (recheckIfDrive n s).peer m = s.peer m :=
  peer_of_pv (by simp) m

/-- DRIVES_LOW after it was judged for a drive alone (R90). -/
theorem recheckIfDrive_low (n : Nat) (s : State) :
    ((s.peer n).role = .drive → ((recheckIfDrive n s).hu.cond.drivesLow = true ↔
      (recheckIfDrive n s).availableDrives.length < s.sl.sheet.minDrives)) ∧
    ((s.peer n).role ≠ .drive → (recheckIfDrive n s).hu = s.hu) := by
  unfold recheckIfDrive
  refine ⟨fun h => ?_, fun h => by rw [if_neg h]⟩
  rw [if_pos h, recheckDrives_ok, decide_eq_true_iff]
  simp

/-- Settles O26: the two silence rows, and DRIVES_LOW judged after a drive's change. -/
theorem silencePassesThroughStaleToAbsent : Obligations.SilencePassesThroughStaleToAbsent := by
  unfold Obligations.SilencePassesThroughStaleToAbsent
  intro s n hup hwf
  have hlen := hwf.1
  dsimp only
  refine ⟨fun h1 h2 h3 => ?_, fun h1 h2 h3 => ?_, fun h => ?_, fun h => ?_⟩
  · have hz := setPeerState_at n.val .stale s hlen n.isLt
    obtain ⟨hlow, hno⟩ := recheckIfDrive_low n.val (setPeerState n.val .stale s)
    rw [setPeerState_peer] at hlow hno
    refine ⟨_, exec_due hup (by simp only [act]; rfl) ((staleDue_iff s n.val).mpr ⟨h1, h2, h3⟩), ?_,
      fun m hm => ?_, ?_, ?_⟩
    · rw [recheckIfDrive_peer, hz, if_pos rfl]
    · rw [recheckIfDrive_peer, hz, if_neg hm]
    · simpa using hlow
    · simpa using hno
  · have hz := setPeerState_at n.val .absent
      (s.onPeer n.val (fun p => { p with heard := none, restartedSeen := false }))
      ((onPeer_length _ _ _).trans hlen) n.isLt
    have hrole : ((s.onPeer n.val (fun p => { p with heard := none, restartedSeen := false })).peer n.val).role
        = (s.peer n.val).role := by rw [onPeer_at _ _ _ _ hlen n.isLt, if_pos rfl]
    obtain ⟨hlow, hno⟩ := recheckIfDrive_low n.val (setPeerState n.val .absent
      (s.onPeer n.val (fun p => { p with heard := none, restartedSeen := false })))
    rw [setPeerState_peer, hrole] at hlow hno
    refine ⟨_, exec_due hup (by simp only [act]; rfl) ((absentDue_iff s n.val).mpr ⟨h1, h2, h3⟩), ?_,
      fun m hm => ?_, ?_, ?_⟩
    · rw [recheckIfDrive_peer, hz, if_pos rfl, onPeer_at _ _ _ _ hlen n.isLt, if_pos rfl]
    · rw [recheckIfDrive_peer, hz, if_neg hm, onPeer_at _ _ _ _ hlen n.isLt, if_neg hm]
    · simpa [State.onPeer] using hlow
    · simpa [State.onPeer] using hno
  · refine exec_early hup (b := s.staleDue n.val) (by simp only [act]; rfl) (Bool.eq_false_iff.mpr fun hdue => ?_)
    obtain ⟨h1, h2, h3⟩ := (staleDue_iff s n.val).mp hdue
    rcases h with h | h | h
    · exact h1 h
    · exact h h2
    · omega
  · refine exec_early hup (b := s.absentDue n.val) (by simp only [act]; rfl) (Bool.eq_false_iff.mpr fun hdue => ?_)
    obtain ⟨h1, h2, h3⟩ := (absentDue_iff s n.val).mp hdue
    rcases h with h | h | h | h
    · exact h1 h
    · simp [h] at h2
    · simp [h] at h2
    · omega

/-! ### LINK conditions that change with time (R90) -/

theorem recheckDrives_cond (s : State) : (recheckDrives s).hu.cond =
    { s.hu.cond with drivesLow := decide (s.availableDrives.length < s.sl.sheet.minDrives) } :=
  (setCond_conds _ _ _).1

theorem recheckBays_cond (s : State) :
    (recheckBays s).hu.cond = { s.hu.cond with baySilent := s.baySilentNow } := (setCond_conds _ _ _).1

theorem peer_mem {s : State} (h : s.pv.table.length = 24) (n : Fin 24) : s.peer n.val ∈ s.pv.table := by
  have hn : n.val < s.pv.table.length := by rw [h]; exact n.isLt
  simp only [State.peer, List.getD_eq_getElem?_getD, List.getElem?_eq_getElem hn, Option.getD_some]
  exact List.getElem_mem hn

/-- Settles O27: the three rows judge one condition each. -/
theorem linkConditionsChangeWithTime : Obligations.LinkConditionsChangeWithTime := by
  unfold Obligations.LinkConditionsChangeWithTime
  intro s n hup hjoined
  refine ⟨fun m at_ hpart hage => ?_, fun b at_ hpart hage => ?_, fun hcond hage => ?_⟩
  · refine ⟨_, exec_due hup (by simp only [act]) (b := s.motionPartAged n.val) ?_, by simp,
      recheckDrives_cond s⟩
    simp [State.motionPartAged, hjoined, hpart, elapsed_iff, hage]
  · refine ⟨_, exec_due hup (by simp only [act]) (b := s.bayPartAged n.val) ?_, by simp,
      recheckBays_cond s, fun hrole hwf => ?_⟩
    · simp [State.bayPartAged, hjoined, hpart, elapsed_iff, hage]
    · rw [recheckBays_cond]
      refine List.any_eq_true.mpr ⟨s.peer n.val, peer_mem hwf.1 n, ?_⟩
      rcases hrole with h | h <;> simp [h, hpart, elapsed_iff, hage]
  · exact ⟨_, exec_due hup (by simp only [act]; rfl) ((driveRestartDue_iff s).mpr ⟨hcond, hage⟩), by simp,
      (setCond_conds _ _ _).1⟩

/-! ### Refreshing an own hold (R79) -/

/-- A change that keeps every key, seen through the search for one. -/
theorem find?_map_hasKey (k j : HoldKind) (d e : Nat) (f : HoldRec → HoldRec)
    (hf : ∀ r, (f r).kind = r.kind ∧ (f r).declarer = r.declarer) (rs : List HoldRec) :
    (rs.map (fun r => if r.hasKey k d then f r else r)).find? (·.hasKey j e) =
      if j = k ∧ e = d then (rs.find? (·.hasKey j e)).map f else rs.find? (·.hasKey j e) := by
  have hkey : ∀ r : HoldRec, (if r.hasKey k d then f r else r).hasKey j e = r.hasKey j e := by
    intro r
    split
    · simp [HoldRec.hasKey, hf]
    · rfl
  rw [List.find?_map]
  simp only [Function.comp_def, hkey]
  cases hr : rs.find? (·.hasKey j e) with
  | none => simp
  | some r =>
    have hrk := List.find?_some hr
    simp only [hasKey_iff, Prod.mk.injEq] at hrk
    by_cases hsame : j = k ∧ e = d
    · simp [hsame, (hasKey_iff k d r).mpr (by rw [hrk.1, hrk.2, hsame.1, hsame.2])]
    · have hno : r.hasKey k d = false := by
        rw [Bool.eq_false_iff, ne_eq, hasKey_iff, hrk.1, hrk.2]
        simpa using hsame
      simp [hsame, hno]

theorem updateRecord_find? (k : HoldKind) (d : Nat) (f : HoldRec → HoldRec)
    (hf : ∀ r, (f r).kind = r.kind ∧ (f r).declarer = r.declarer) (s : State) :
    (updateRecord k d f s).hu.find? k d = (s.hu.find? k d).map f := by
  simp only [HoldUnit.find?, updateRecord_set, find?_map_hasKey k k d d f hf, and_self, if_true]

/-- A new record in a set with room. -/
theorem admitHold_find? {r : HoldRec} {s : State} (hnew : s.hu.find? r.kind r.declarer = none)
    (hroom : s.hu.records.length < 16) : (admitHold r s).hu.find? r.kind r.declarer = some r := by
  obtain ⟨-, ⟨-, hr, -⟩ | ⟨h, -⟩ | ⟨h, -⟩⟩ := admitHold_set r s
  · have hself : r.hasKey r.kind r.declarer = true := (hasKey_iff _ _ _).mpr rfl
    unfold HoldUnit.find? at hnew ⊢
    rw [hr, List.find?_append, hnew]
    simp [hself]
  · omega
  · omega

theorem sendOwn_kept (k : HoldKind) (b : Bool) (s : State) :
    (sendOwn k b s).hu.records = s.hu.records ∧ (sendOwn k b s).clock = s.clock ∧
      (sendOwn k b s).sl = s.sl := by
  unfold sendOwn
  split <;> simp [HoldUnit.setOwn]

/-- What placing an own hold leaves under its key (R78, R79). -/
theorem placeOwn_find? {k : HoldKind} {o : OwnHold} {s : State} (ho : s.hu.own? k = some o) :
    (∀ r, s.hu.find? k s.sl.station = some r → (placeOwn k s).hu.find? k s.sl.station = some { r with
      effect := o.effect, cause := o.cause, refreshed := s.clock.now, state := .active }) ∧
    (s.hu.find? k s.sl.station = none → s.hu.records.length < 16 →
      (placeOwn k s).hu.find? k s.sl.station =
        some (HoldRec.mk k s.sl.station o.effect o.cause o.declaredAt s.clock.now .active)) := by
  rw [show s.sl.station = s.own from rfl]
  unfold placeOwn
  rw [ho]
  dsimp only
  refine ⟨fun r hr => ?_, fun hnone hroom => ?_⟩
  · rw [if_pos (by rw [hr]; rfl), updateRecord_find?, hr]
    · rfl
    · exact fun _ => ⟨rfl, rfl⟩
  · rw [if_neg (by simp [hnone])]
    exact admitHold_find? (r := HoldRec.mk k s.own o.effect o.cause o.declaredAt s.clock.now .active)
      hnone hroom

/-- Settles O28: the refresh is sent, then the record placed. -/
theorem ownHoldsAreRefreshed : Obligations.OwnHoldsAreRefreshed := by
  unfold Obligations.OwnHoldsAreRefreshed
  intro s k o hup hjoined ho
  refine ⟨fun hage => ?_, fun hearly => ?_⟩
  · have hown : ∀ j, (sendOwn k true s).hu.own? j =
        if j = k then some { o with sentAt := s.clock.now } else s.hu.own? j := by
      intro j
      rw [sendOwn_own, ho]
      rfl
    obtain ⟨hrecords, hclock, hsl⟩ := sendOwn_kept k true s
    have hfind : ∀ j d, (sendOwn k true s).hu.find? j d = s.hu.find? j d := by
      intro j d
      rw [HoldUnit.find?, hrecords]
      rfl
    obtain ⟨hupdated, hadmitted⟩ := placeOwn_find? (s := sendOwn k true s) ((hown k).trans (if_pos rfl))
    rw [hsl, hclock, hfind] at hupdated hadmitted
    rw [hrecords] at hadmitted
    refine ⟨_, exec_due hup (by simp only [act]) ((refreshDue_iff s k).mpr ⟨hjoined, o, ho, hage⟩), ?_,
      fun j hj => ?_, ?_, hupdated, hadmitted⟩
    · rw [placeOwn_own?, hown, if_pos rfl]
    · rw [placeOwn_own?, hown, if_neg hj]
    · simp only [placeOwn_spares]
      unfold sendOwn
      rw [ho]
      exact handOver_lc _ _ rfl rfl
  · refine exec_early hup (b := s.refreshDue k) (by simp only [act]; rfl) (Bool.eq_false_iff.mpr fun hdue => ?_)
    obtain ⟨-, p, hp, hage⟩ := (refreshDue_iff s k).mp hdue
    rw [ho] at hp
    cases hp
    omega

/-! ### STOP_IN (R81) -/

theorem effectCode_le_stop (e : Effect) : effectCode e ≤ effectCode .stop := by cases e <;> decide

/-- A set that holds a STOP has the effective effect STOP. -/
theorem severest_stop {rs : List HoldRec} {r : HoldRec} (hr : r ∈ rs) (hstop : r.effect = .stop) :
    severest rs = .stop := severest_eq rs .stop (fun x _ => effectCode_le_stop x.effect) ⟨r, hr, hstop⟩

/-- A STOP offered for admission leaves the effect STOP, whether or not it finds room. -/
theorem admitHold_stop {r : HoldRec} {s : State} (hstop : r.effect = .stop)
    (hform : s.hu.effect = severest s.hu.records) : (admitHold r s).hu.effect = .stop := by
  obtain ⟨-, ⟨-, -, he⟩ | ⟨-, m, -, -, -, he⟩ | ⟨hfull, hmild, -, he⟩⟩ := admitHold_set r s
  · rw [he]
    exact severest_stop (List.mem_append_right _ (List.mem_singleton_self r)) hstop
  · rw [he]
    exact severest_stop (List.mem_append_right _ (List.mem_singleton_self r)) hstop
  · cases hm : mildest s.hu.records with
    | none =>
      cases hrs : s.hu.records with
      | nil => simp [hrs] at hfull
      | cons x xs =>
        rw [hrs] at hm
        unfold mildest at hm
        cases hxs : mildest xs with
        | none => simp [hxs] at hm
        | some y =>
          simp only [hxs] at hm
          split at hm <;> cases hm
    | some m =>
      have hle := hmild m hm
      rw [hstop] at hle
      rw [he, hform]
      exact severest_stop (mildest_mem hm)
        (effectCode_injective _ _ (Nat.le_antisymm (effectCode_le_stop _) hle))

/-- Placing an own STOP hold leaves the effect STOP (R78). -/
theorem placeOwn_stop {k : HoldKind} {o : OwnHold} {s : State} (ho : s.hu.own? k = some o)
    (hstop : o.effect = .stop) (hform : s.hu.effect = severest s.hu.records) :
    (placeOwn k s).hu.effect = .stop := by
  unfold placeOwn
  rw [ho]
  dsimp only
  split
  · next hsome =>
    obtain ⟨r, hr⟩ := Option.isSome_iff_exists.mp hsome
    rw [(updateRecord_set ..).2.2]
    refine severest_stop (r := { r with
      effect := o.effect, cause := o.cause, refreshed := s.now, state := .active }) ?_ hstop
    refine List.mem_map.mpr ⟨r, List.mem_of_find?_eq_some hr, ?_⟩
    rw [if_pos (by simpa using List.find?_some hr)]
  · exact admitHold_stop hstop hform

theorem sendOwn_effect (k : HoldKind) (b : Bool) (s : State) : (sendOwn k b s).hu.effect = s.hu.effect := by
  unfold sendOwn
  split <;> simp [HoldUnit.setOwn]

theorem newOwn_set (k : HoldKind) (e : Effect) (c : Cause) (s : State) :
    (newOwn k e c s).hu.records = s.hu.records ∧ (newOwn k e c s).hu.effect = s.hu.effect := by
  simp [newOwn]

theorem changeOwn_set (k : HoldKind) (e : Effect) (c : Cause) (s : State) :
    (changeOwn k e c s).hu.records = s.hu.records ∧ (changeOwn k e c s).hu.effect = s.hu.effect := by
  simp [changeOwn, HoldUnit.setOwn]

/-- Declaring STOP for a kind leaves the effective effect STOP (R78, R81). -/
theorem declareHold_stop_effect (k : HoldKind) {s : State} (c : Cause)
    (hform : s.hu.effect = severest s.hu.records) : (declareHold k .stop c s).hu.effect = .stop := by
  have hchange : (changeOwn k .stop c s).hu.own? k =
      (s.hu.own? k).map (fun o => { o with effect := .stop, cause := c }) :=
    (changeOwn_own k k .stop c s).trans (if_pos rfl)
  obtain ⟨hnr, hne⟩ := newOwn_set k .stop c s
  obtain ⟨hcr, hce⟩ := changeOwn_set k .stop c s
  unfold declareHold
  cases ho : s.hu.own? k with
  | none =>
    dsimp only
    rw [sendOwn_effect]
    exact placeOwn_stop ((newOwn_own k k .stop c s ho).trans (if_pos rfl)) rfl (by rw [hne, hnr, hform])
  | some o =>
    rw [ho] at hchange
    dsimp only
    split
    · rw [sendOwn_effect]
      exact placeOwn_stop hchange rfl (by rw [hce, hcr, hform])
    · next hlt =>
      have hstop : o.effect = .stop :=
        effectCode_injective _ _ (Nat.le_antisymm (effectCode_le_stop _) (Nat.le_of_not_lt hlt))
      rw [if_pos hstop]
      split
      · exact placeOwn_stop ho hstop hform
      · exact placeOwn_stop hchange rfl (by rw [hce, hcr, hform])

/-! ### What the monitor declares (R91) -/

theorem linkContent_mem {l : List LinkCond} {e : Effect} {k : Cause} (h : linkContent l = some (e, k)) :
    ∃ x ∈ l, condEffect x = e ∧ condCause x = k := by
  induction l generalizing e k with
  | nil => cases h
  | cons x xs ih =>
    unfold linkContent at h
    cases hxs : linkContent xs with
    | none =>
      rw [hxs] at h
      cases h
      exact ⟨x, List.mem_cons_self, rfl, rfl⟩
    | some p =>
      rw [hxs] at h
      dsimp only at h
      split at h
      · cases h
        obtain ⟨y, hy, h1, h2⟩ := ih hxs
        exact ⟨y, List.mem_cons_of_mem _ hy, h1, h2⟩
      · cases h
        exact ⟨x, List.mem_cons_self, rfl, rfl⟩

/-- The content is that of a condition which the earlier ones fall short of and no later one exceeds (R91). -/
theorem linkContent_first {c : LinkCond} {pre post : List LinkCond}
    (hpre : ∀ x ∈ pre, effectCode (condEffect x) < effectCode (condEffect c))
    (hpost : ∀ x ∈ post, effectCode (condEffect x) ≤ effectCode (condEffect c)) :
    linkContent (pre ++ c :: post) = some (condEffect c, condCause c) := by
  induction pre with
  | nil =>
    simp only [List.nil_append, linkContent]
    cases hp : linkContent post with
    | none => rfl
    | some p =>
      obtain ⟨x, hx, h1, h2⟩ := linkContent_mem hp
      have hle := hpost x hx
      rw [h1] at hle
      exact if_neg (Nat.not_lt.mpr hle)
  | cons x xs ih =>
    rw [List.cons_append, linkContent, ih fun y hy => hpre y (List.mem_cons_of_mem _ hy)]
    exact if_pos (hpre x List.mem_cons_self)

/-- The conditions with what each carries, in the order of R91. -/
def linkRows : List (LinkCond × Effect × Cause) :=
  [(.noWind, .empty, .noWind), (.drivesLow, .halt, .drivesLow), (.baySilent, .halt, .baySilent),
    (.driveRestart, .halt, .driveRestart), (.button, .stop, .button)]

theorem linkRows_get {i : Nat} {c : LinkCond} {e : Effect} {d : Cause} :
    linkRows[i]? = some (c, e, d) ↔ linkOrder[i]? = some c ∧ condEffect c = e ∧ condCause c = d := by
  have hmap : linkRows = linkOrder.map (fun c => (c, condEffect c, condCause c)) := rfl
  rw [hmap, List.getElem?_map, Option.map_eq_some_iff]
  constructor
  · rintro ⟨x, hx, h⟩
    cases h
    exact ⟨hx, rfl, rfl⟩
  · rintro ⟨hc, rfl, rfl⟩
    exact ⟨c, hc, rfl⟩

/-- The first of the most severe rows among some of the conditions is the content (R91). -/
theorem linkContent_filter {counts : LinkCond → Bool} {i : Nat} {c : LinkCond} {e : Effect} {d : Cause}
    (hrow : linkRows[i]? = some (c, e, d)) (hc : counts c = true)
    (hfirst : ∀ (j : Nat) x f g, linkRows[j]? = some (x, f, g) → counts x = true →
      effectCode f < effectCode e ∨ (f = e ∧ i ≤ j)) :
    linkContent (linkOrder.filter counts) = some (e, d) := by
  obtain ⟨hi, rfl, rfl⟩ := linkRows_get.mp hrow
  obtain ⟨hlt, hget⟩ := List.getElem?_eq_some_iff.mp hi
  have hsplit : linkOrder = linkOrder.take i ++ c :: linkOrder.drop (i + 1) := by
    rw [← hget, List.cons_getElem_drop_succ, List.take_append_drop]
  have hjudge : ∀ (j : Nat) x, linkOrder[j]? = some x → counts x = true →
      effectCode (condEffect x) < effectCode (condEffect c) ∨ (condEffect x = condEffect c ∧ i ≤ j) :=
    fun j x hx => hfirst j x _ _ (linkRows_get.mpr ⟨hx, rfl, rfl⟩)
  rw [hsplit, List.filter_append, List.filter_cons_of_pos hc]
  refine linkContent_first (fun x hx => ?_) (fun x hx => ?_)
  · obtain ⟨hx, hcx⟩ := List.mem_filter.mp hx
    obtain ⟨j, hj⟩ := List.mem_iff_getElem?.mp hx
    rw [List.getElem?_take] at hj
    split at hj
    · next hji =>
      rcases hjudge j x hj hcx with h | ⟨-, h⟩
      · exact h
      · omega
    · cases hj
  · obtain ⟨hx, hcx⟩ := List.mem_filter.mp hx
    obtain ⟨j, hj⟩ := List.mem_iff_getElem?.mp hx
    rw [List.getElem?_drop] at hj
    rcases hjudge _ x hj hcx with h | ⟨h, -⟩
    · exact Nat.le_of_lt h
    · exact h ▸ Nat.le_refl _

/-- The LINK entry after the monitor declared it (R91). -/
theorem declareLink_entry (e : Effect) (c : Cause) (s : State) :
    (declareLink e c s).hu.own? .link = some (match s.hu.own? .link with
      | none => { kind := .link, effect := e, cause := c, declaredAt := s.clock.station, sentAt := s.clock.now }
      | some o =>
        if o.effect = e then { o with cause := c }
        else { o with effect := e, cause := c, sentAt := s.clock.now }) := by
  have hchange : (changeOwn .link e c s).hu.own? .link =
      (s.hu.own? .link).map (fun o => { o with effect := e, cause := c }) :=
    (changeOwn_own .link .link e c s).trans (if_pos rfl)
  have hnow : ∀ t : State, (placeOwn .link t).now = t.now := fun t => by simp [State.now]
  unfold declareLink
  cases ho : s.hu.own? .link with
  | none =>
    dsimp only
    rw [sendOwn_own, if_pos rfl, placeOwn_own?, newOwn_own _ _ _ _ _ ho, if_pos rfl, hnow]
    simp [newOwn, State.now, State.time]
  | some o =>
    rw [ho] at hchange
    dsimp only
    by_cases he : o.effect = e
    · subst he
      by_cases hc : o.cause = c
      · subst hc
        simp [ho]
      · simp [hc, hchange]
    · simp only [he, if_false]
      rw [sendOwn_own, if_pos rfl, placeOwn_own?, hchange, hnow]
      simp [changeOwn, State.now]

/-- What the monitor hands over: a HOLD for a new hold or another effect (R91). -/
theorem declareLink_sends (e : Effect) (c : Cause) (s : State) :
    (declareLink e c s).lc = (match s.hu.own? .link with
      | none => (handOver (.hold ⟨4, byteOf (effectCode e), byteOf (causeCode c), s.clock.station⟩) false s).lc
      | some o =>
        if o.effect = e then s.lc
        else (handOver (.hold ⟨4, byteOf (effectCode e), byteOf (causeCode c), o.declaredAt⟩) false s).lc) := by
  unfold declareLink
  cases ho : s.hu.own? .link with
  | none =>
    dsimp only
    have hown := (newOwn_own .link .link e c s ho).trans (if_pos rfl)
    rw [sendOwn_sends _ _ _ _ ((placeOwn_own? ..).trans hown)]
    exact handOver_lc _ _ (by simp [newOwn]) (by simp [newOwn])
  | some o =>
    dsimp only
    have hown := (changeOwn_own .link .link e c s).trans (if_pos rfl)
    rw [ho] at hown
    split
    · split <;> simp [changeOwn]
    · rw [sendOwn_sends _ _ _ _ ((placeOwn_own? ..).trans hown)]
      exact handOver_lc _ _ (by simp [changeOwn]) (by simp [changeOwn])

theorem linkAct_declares {s : State} {e : Effect} {c : Cause} (h : linkContent s.linkCounted = some (e, c)) :
    linkAct s = declareLink e c (s.onHu (fun u => { u with dwellFrom := none })) := by
  unfold linkAct
  rw [h]

theorem linkAct_quiet {s : State} (h : s.linkCounted = []) :
    linkAct s = if (s.hu.own? .link).isSome = true
      then { s with hu := { s.hu with dwellFrom := some (s.hu.dwellFrom.getD s.clock.now) } } else s := by
  unfold linkAct
  rw [h]
  rfl

theorem setCond_same {c : LinkCond} {v : Bool} {s : State} (h : s.hu.cond.get c = v) : setCond c v s = s := by
  unfold setCond
  rw [if_pos h]

/-- A condition that begins is judged by the monitor at once, past settling or for BUTTON (R91). -/
theorem setCond_begins {c : LinkCond} {s : State} (h : s.hu.cond.get c = false)
    (hacts : s.sl.settled = true ∨ c = .button) :
    setCond c true s = linkAct (logLocal .hu 9 [byteOf (causeCode (condCause c)), 1]
      (s.onHu (fun u => { u with cond := u.cond.put c true }))) := by
  unfold setCond
  rw [if_neg (by simp [h])]
  dsimp only
  exact if_pos (by simpa using hacts)

theorem declareLink_stop_effect {s : State} (c : Cause) (hnone : s.hu.own? .link = none)
    (hform : s.hu.effect = severest s.hu.records) : (declareLink .stop c s).hu.effect = .stop := by
  obtain ⟨hnr, hne⟩ := newOwn_set .link .stop c s
  unfold declareLink
  rw [hnone]
  dsimp only
  rw [sendOwn_effect]
  exact placeOwn_stop ((newOwn_own .link .link .stop c s hnone).trans (if_pos rfl)) rfl (by rw [hne, hnr, hform])

/-- BUTTON outranks every other condition (R91). -/
theorem linkContent_button {s : State} (hcond : s.hu.cond.button = true)
    (hover : s.hu.overridden.button = false) : linkContent s.linkCounted = some (.stop, .button) := by
  refine linkContent_filter (i := 4) (c := .button) rfl (by simp [LinkFlags.get, hcond, hover]) ?_
  intro j x f g hrow _
  obtain ⟨-, rfl, -⟩ := linkRows_get.mp hrow
  cases x
  case button =>
    obtain ⟨hj, -⟩ := linkRows_get.mp hrow
    refine Or.inr ⟨rfl, ?_⟩
    by_contra hlt
    have : j = 0 ∨ j = 1 ∨ j = 2 ∨ j = 3 := by omega
    rcases this with rfl | rfl | rfl | rfl <;> cases hj
  all_goals exact Or.inl (by decide)

/-- Settles O30: at a bay or a desk by `declareHold`, at a drive or a mast by the monitor. -/
theorem stopButtonStops : Obligations.StopButtonStops := by
  unfold Obligations.StopButtonStops
  intro s hup hwf
  have hform : s.hu.effect = severest s.hu.records := hwf.2.2.1
  refine ⟨fun hjoined k hk => ?_, fun hjoined hrole hover hcond => ?_, fun hjoined hrole hcond => ?_,
    fun hjoined => ?_⟩
  · have hrow : act .stopIn s = if s.joined = true then declareHold k .stop .button s else s := by
      simp only [act, stopIn]
      rcases hk with ⟨rfl, h | h⟩ | ⟨rfl, h⟩ <;> simp [h]
    obtain ⟨o, ho, heffect, hcause⟩ := declareHold_stop_own k .button s
    exact ⟨_, o, exec_due hup hrow hjoined, ho, heffect, hcause, declareHold_stop_effect k .button hform⟩
  · have hrow : act .stopIn s = if s.joined = true then setCond .button true s else s := by
      simp only [act, stopIn]
      rcases hrole with h | h <;> simp [h]
    have hbegins := setCond_begins (c := .button) hcond (Or.inr rfl)
    obtain ⟨z, hz⟩ : ∃ z, z = logLocal .hu 9 [byteOf (causeCode (condCause .button)), 1]
        (s.onHu (fun u => { u with cond := u.cond.put .button true })) := ⟨_, rfl⟩
    have hzu : z.hu = { s.hu with cond := s.hu.cond.put .button true } := by simp [hz]
    have hcontent : linkContent z.linkCounted = some (.stop, .button) :=
      linkContent_button (by simp [hzu, LinkFlags.put]) (by simp [hzu, hover])
    have hentry := declareLink_entry .stop .button (z.onHu (fun u => { u with dwellFrom := none }))
    have hacted := (hbegins.trans (by rw [← hz])).trans (linkAct_declares hcontent)
    have hown : (z.onHu (fun u => { u with dwellFrom := none })).hu.own? .link = s.hu.own? .link := by
      simp [HoldUnit.own?, hzu]
    rw [← hacted, hown] at hentry
    refine ⟨_, _, exec_due hup hrow hjoined, (setCond_conds _ _ _).1, hentry, ?_, ?_, fun hnone => ?_⟩
    · cases s.hu.own? .link with
      | none => rfl
      | some o =>
        dsimp only
        split
        · assumption
        · rfl
    · cases s.hu.own? .link with
      | none => rfl
      | some o => dsimp only; split <;> rfl
    · rw [hacted]
      exact declareLink_stop_effect .button (hown.trans hnone) (by simpa [hzu] using hform)
  · have hrow : act .stopIn s = if s.joined = true then setCond .button true s else s := by
      simp only [act, stopIn]
      rcases hrole with h | h <;> simp [h]
    exact (exec_due hup hrow hjoined).trans (by rw [setCond_same (c := .button) hcond])
  · exact exec_early hup (by simp only [act]; rfl) hjoined

/-! ### The LINK monitor (R91, R92) -/

theorem releaseOwn_find? {k : HoldKind} {o : OwnHold} {s : State} (ho : s.hu.own? k = some o) :
    (releaseOwn k s).hu.find? k s.sl.station = none := by
  have hgone : ∀ rs : List HoldRec,
      (rs.filter (fun r => !r.hasKey k s.sl.station)).find? (·.hasKey k s.sl.station) = none := by
    intro rs
    refine List.find?_eq_none.mpr fun r hr => ?_
    simpa using (List.mem_filter.mp hr).2
  unfold releaseOwn
  rw [ho]
  dsimp only
  generalize hz : logLocal .hu 2 [byteOf (holdKindCode k)] _ = z
  have hzsl : z.own = s.sl.station := by simp [← hz, State.own]
  simp only [handOver_spares]
  split
  · rw [hzsl, HoldUnit.find?, (removeRecord_set ..).1]
    exact hgone _
  · next hno => simpa [hzsl] using hno

/-- Settles O31: the content of the conditions that count by `linkContent_filter`, the dwell by `releaseOwn`. -/
theorem linkMonitorDeclaresAndReleases : Obligations.LinkMonitorDeclaresAndReleases := by
  unfold Obligations.LinkMonitorDeclaresAndReleases
  intro s
  dsimp only
  have hcounts : ∀ c, (s.hu.cond.get c && !(s.hu.overridden.get c) && (s.sl.settled || c == .button)) = true ↔
      s.hu.cond.get c = true ∧ s.hu.overridden.get c = false ∧ (s.sl.settled = true ∨ c = .button) := by
    intro c
    simp [and_assoc]
  refine ⟨fun i c e d hrow hc hfirst => ?_, fun hno => ?_, fun from_ o hup hfrom hage ho => ?_,
    fun hup hnot => ?_⟩
  · have hcontent : linkContent s.linkCounted = some (e, d) :=
      linkContent_filter hrow ((hcounts c).mpr hc) fun j x f g hj hx => hfirst j x f g hj ((hcounts x).mp hx)
    have hentry := declareLink_entry e d (s.onHu (fun u => { u with dwellFrom := none }))
    have hsends := declareLink_sends e d (s.onHu (fun u => { u with dwellFrom := none }))
    have hsame : ∀ p : Payload, (handOver p false (s.onHu (fun u => { u with dwellFrom := none }))).lc =
        (handOver p false s).lc := fun p => handOver_lc _ _ rfl rfl
    rw [show (s.onHu (fun u => { u with dwellFrom := none })).hu.own? .link = s.hu.own? .link from rfl]
      at hentry hsends
    simp only [hsame] at hsends
    rw [linkAct_declares hcontent]
    refine ⟨by simp, _, hentry, ?_, ?_, ?_, fun hother => ?_, fun p hp hsamee => ?_⟩
    · cases s.hu.own? .link with
      | none => rfl
      | some p =>
        dsimp only
        split
        · assumption
        · rfl
    · cases s.hu.own? .link with
      | none => rfl
      | some p => dsimp only; split <;> rfl
    · cases s.hu.own? .link with
      | none => rfl
      | some p => dsimp only; split <;> rfl
    · rw [hsends]
      cases hp : s.hu.own? .link with
      | none => rfl
      | some p =>
        dsimp only
        rw [if_neg (hother p hp), if_neg (hother p hp)]
    · rw [hsends, hp]
      dsimp only
      rw [if_pos hsamee]
      rfl
  · refine linkAct_quiet (List.filter_eq_nil_iff.mpr fun c _ hc => hno c ((hcounts c).mp hc))
  · refine ⟨_, exec_due hup (by simp only [act]; rfl) ((dwellDue_iff s).mpr ⟨from_, hfrom, hage⟩), by simp, ?_,
      fun j hj => ?_, ?_, ?_⟩
    · rw [releaseOwn_own, if_pos rfl]
    · rw [releaseOwn_own, if_neg hj]
      rfl
    · exact releaseOwn_find? (s := s.onHu (fun u => { u with dwellFrom := none })) ho
    · rw [releaseOwn_sends, show (s.onHu (fun u => { u with dwellFrom := none })).hu.own? .link = some o from ho]
      exact handOver_lc _ _ rfl rfl
  · exact exec_early hup (by simp only [act]; rfl) hnot

/-! ### The halt watch's expiries (R95, R96, R98, R99) -/

theorem setPeer_peer_lt {n m : Nat} {p : Peer} {s : State} (h : s.pv.table.length = 24) (hm : m < 24) :
    (s.setPeer n p).peer m = if m = n then p else s.peer m := by
  by_cases hn : n < 24
  · exact setPeer_peer n m p s h hn
  · have hne : m ≠ n := by omega
    rw [if_neg hne]
    simp [State.peer, State.setPeer, List.getD_eq_getElem?_getD, Ne.symm hne]

/-- What counting some drives unanswered leaves: the counted set, each drive's count, once (R95). -/
theorem countUnanswered_all (ns : List Nat) : ∀ (s : State) (w : Watch), s.hu.watch = some w →
    s.pv.table.length = 24 → ∃ c, let t := ns.foldl countUnanswered s
      t.hu = { s.hu with watch := some { w with counted := c } } ∧
      (∀ n, n ∈ c ↔ n ∈ w.counted ∨ n ∈ ns) ∧
      (∀ m, m < 24 → t.peer m = { s.peer m with unanswered :=
        (if m ∈ ns ∧ m ∉ w.counted then min 15 ((s.peer m).unanswered + 1) else (s.peer m).unanswered) }) ∧
      t.mu = s.mu ∧ t.sl = s.sl ∧ t.clock = s.clock := by
  induction ns with
  | nil =>
    intro s w hw _
    refine ⟨w.counted, ?_, by simp, by simp, rfl, rfl, rfl⟩
    rw [List.foldl_nil, ← hw]
  | cons n ns ih =>
    intro s w hw hlen
    rw [List.foldl_cons]
    by_cases hn : n ∈ w.counted
    · have hskip : countUnanswered s n = s := by simp [countUnanswered, hw, hn]
      rw [hskip]
      obtain ⟨c, hhu, hc, hpeer, hrest⟩ := ih s w hw hlen
      refine ⟨c, hhu, fun m => ?_, fun m hm => ?_, hrest⟩
      · rw [hc, List.mem_cons]
        constructor
        · tauto
        · rintro (h | rfl | h)
          · exact Or.inl h
          · exact Or.inl hn
          · exact Or.inr h
      · rw [hpeer m hm]
        by_cases hmn : m = n
        · simp [hmn, hn]
        · simp [hmn]
    · have hcount : countUnanswered s n = raise .driveUnanswered n
          ((s.setPeer n { s.peer n with unanswered := min 15 ((s.peer n).unanswered + 1) }).onHu
            (fun h => { h with watch := some { w with counted := w.counted ++ [n] } })) := by
        simp [countUnanswered, hw, hn]
      have hz : ∀ m, m < 24 → (countUnanswered s n).peer m =
          if m = n then { s.peer n with unanswered := min 15 ((s.peer n).unanswered + 1) } else s.peer m := by
        intro m hm
        rw [hcount, peer_of_pv (t := s.setPeer n _) (by simp; rfl)]
        exact setPeer_peer_lt hlen hm
      have hzhu : (countUnanswered s n).hu =
          { s.hu with watch := some { w with counted := w.counted ++ [n] } } := by
        rw [hcount]
        simp [State.setPeer]
      obtain ⟨c, hhu, hc, hpeer, hmu, hsl, hclock⟩ := ih (countUnanswered s n)
        { w with counted := w.counted ++ [n] } (by rw [hzhu]) (by rw [hcount]; simp [State.setPeer, hlen])
      refine ⟨c, hhu.trans (by rw [hzhu]), fun m => ?_, fun m hm => ?_, hmu.trans (by simp),
        hsl.trans (by simp), hclock.trans (by simp)⟩
      · rw [hc]
        simp only [List.mem_append, List.mem_cons]
        tauto
      · rw [hpeer m hm, hz m hm]
        by_cases hmn : m = n
        · subst hmn
          simp [hn]
        · simp [hmn]

theorem Recent.countUnanswered {n : Nat} {e : EventEntry} {s : State} (h : Recent n e s) (hn : n < 31)
    (d : Nat) : Recent (n + 1) e (countUnanswered s d) := by
  unfold Sys2Proof.Machine.countUnanswered
  split
  · exact h.mono (by omega)
  · split
    · exact h.mono (by omega)
    · exact Recent.raise (h.lu (by simp [State.setPeer])) hn _ _

theorem Recent.countUnanswered_all (ns : List Nat) : ∀ {n : Nat} {e : EventEntry} {s : State},
    Recent n e s → n + ns.length ≤ 31 → Recent (n + ns.length) e (ns.foldl Machine.countUnanswered s) := by
  induction ns with
  | nil => exact fun h _ => h
  | cons d ns ih =>
    intro n e s h hlen
    rw [List.length_cons] at hlen ⊢
    exact (ih (h.countUnanswered (by omega) d) (by omega)).mono (by omega)

/-- Each drive newly counted is told to the host, and the event stays while the others are counted. -/
theorem countUnanswered_events (ns : List Nat) : ∀ (s : State) (w : Watch), s.hu.watch = some w →
    s.suppressed .driveUnanswered = false → ns.length ≤ 31 → ∀ n ∈ ns, n ∉ w.counted →
    Recent ns.length (EventEntry.mk .driveUnanswered (BitVec.ofNat 16 n) s.clock.station)
      (ns.foldl countUnanswered s) := by
  induction ns with
  | nil => simp
  | cons d ns ih =>
    intro s w hw hs hlen n hn hnew
    rw [List.length_cons] at hlen ⊢
    rw [List.foldl_cons]
    by_cases hd : d ∈ w.counted
    · have hskip : countUnanswered s d = s := by simp [countUnanswered, hw, hd]
      rw [hskip]
      have hmem : n ∈ ns := by
        rcases List.mem_cons.mp hn with rfl | h
        · exact absurd hd hnew
        · exact h
      exact (ih s w hw hs (by omega) n hmem hnew).mono (by omega)
    · have hcount : countUnanswered s d = raise .driveUnanswered d
          ((s.setPeer d { s.peer d with unanswered := min 15 ((s.peer d).unanswered + 1) }).onHu
            (fun h => { h with watch := some { w with counted := w.counted ++ [d] } })) := by
        simp [countUnanswered, hw, hd]
      by_cases hnd : n = d
      · subst hnd
        have hraised : Recent 0 (EventEntry.mk .driveUnanswered (BitVec.ofNat 16 n) s.clock.station)
            (countUnanswered s n) := by
          rw [hcount]
          have h := raise_recent (c := .driveUnanswered) (n := n)
            (s := (s.setPeer n { s.peer n with unanswered := min 15 ((s.peer n).unanswered + 1) }).onHu
              (fun h => { h with watch := some { w with counted := w.counted ++ [n] } }))
            ((suppressed_congr (by simp [State.setPeer]) _).trans hs)
          simpa [State.setPeer] using h
        exact (Recent.countUnanswered_all ns hraised (by omega)).mono (by omega)
      · have hmem : n ∈ ns := (List.mem_cons.mp hn).resolve_left hnd
        have h := ih (countUnanswered s d) { w with counted := w.counted ++ [d] }
          (by rw [hcount]; simp) ((suppressed_congr (by simp) _).trans hs) (by omega) n hmem
          (by simp [hnew, hnd])
        have hclock : (countUnanswered s d).clock = s.clock := by simp
        rw [hclock] at h
        exact h.mono (by omega)

theorem refreshMismatch_mu_eq (s : State) :
    ∃ x, (refreshMismatch s).mu = { s.mu with mismatchFrom := x } := by
  unfold refreshMismatch
  (repeat' split)
  · exact ⟨none, rfl⟩
  · exact ⟨_, rfl⟩
  · exact ⟨s.mu.mismatchFrom, rfl⟩

/-- A change of motion state changes that state and the mismatch's beginning alone (R111). -/
theorem setMotion_mu_eq (st : MotionState) (s : State) :
    ∃ x, (setMotion st s).mu = { s.mu with motion := st, mismatchFrom := x } := by
  unfold setMotion
  split
  · next h => exact ⟨s.mu.mismatchFrom, by rw [← h]⟩
  · obtain ⟨x, hx⟩ := refreshMismatch_mu_eq (logLocal .mu 1 ([byteOf (motionCode s.mu.motion),
      byteOf (motionCode st)] ++ be16n s.mu.target) (s.onMu (fun m => { m with motion := st })))
    exact ⟨x, hx.trans (by simp)⟩

/-- DRAG_STOP from a moving state (R113). -/
theorem dragStop_moving {s : State} (h : s.mu.motion = .starting ∨ s.mu.motion = .driving ∨
    s.mu.motion = .stopping ∨ s.mu.motion = .settling) :
    let m := (dragStop s).mu
    m.motion = .dragStop ∧ m.reference = 0 ∧ m.trim = 0 ∧ m.command = 0 ∧ m.still = 0 ∧
      m.brakeEnergised = false := by
  have hdrag : dragStop s = logLocal .mu 5 [byteOf (motionCode .dragStop)]
      (setMotion .dragStop (s.onMu (fun m => { m.still0 with still := 0 }))) := by
    unfold dragStop
    rcases h with h | h | h | h <;> simp [h]
  obtain ⟨x, hx⟩ := setMotion_mu_eq .dragStop (s.onMu (fun m => { m.still0 with still := 0 }))
  have hmu : (dragStop s).mu = (setMotion .dragStop (s.onMu (fun m => { m.still0 with still := 0 }))).mu := by
    rw [hdrag]
    simp
  dsimp only
  rw [hmu, hx]
  exact ⟨rfl, rfl, rfl, rfl, rfl, rfl⟩

theorem Recent.dragStop {n : Nat} {e : EventEntry} {s : State} (h : Recent n e s) (hn : n < 30) :
    Recent (n + 2) e (dragStop s) := by
  unfold Sys2Proof.Machine.dragStop
  split
  all_goals first
    | exact ((h.onMu _).setMotion (by omega) _).log (by omega) _ _ _
    | exact h.mono (by omega)

/-- The drives that an ack window finds unanswered. -/
theorem mem_failed {w : Watch} {n : Nat} :
    n ∈ w.list.filter (fun n => !(w.acked.contains n)) ↔ n ∈ w.list ∧ n ∉ w.acked := by
  simp

theorem exec_ackWindowExpiry {s : State} (hup : s.sl.resetHeld = false) {w : Watch} {until_ : Nat}
    (hw : s.hu.watch = some w) (hu : w.ackUntil = some until_) (hage : until_ ≤ s.clock.now) :
    exec .ackWindowExpiry s = .next (endAckWindow w s) := by
  rw [exec_up hup]
  simp only [act, ackWindowExpiry, hw, hu]
  rw [if_pos (show until_ ≤ s.now from hage)]

/-- The end of an ack window, up to the demand that it may make of a drive (R95). -/
theorem endAckWindow_eq (w : Watch) (s : State) :
    let failed := w.list.filter (fun n => !(w.acked.contains n))
    let t := failed.foldl countUnanswered (s.onHu (fun h => { h with watch := some { w with ackUntil := none } }))
    endAckWindow w s = if t.role = .drive ∧ failed ≠ [] then dragStop t else t := rfl

/-- Settles O32: the window by `countUnanswered_all`, the limit by the watch's end, the lamp by its guard. -/
theorem haltWatchRunsOut : Obligations.HaltWatchRunsOut := by
  unfold Obligations.HaltWatchRunsOut
  intro s hup hwf
  have hlen : s.pv.table.length = 24 := hwf.1
  refine ⟨fun w until_ hw hu hage => ?_, fun w hw hage => ?_, fun hnone => ⟨?_, ?_⟩, fun h1 h2 h3 => ?_,
    fun hnot => ?_⟩
  · have hacts := exec_ackWindowExpiry hup hw hu hage
    have heq := endAckWindow_eq w s
    dsimp only at heq
    obtain ⟨c, hhu, hc, hpeer, hmu, hsl, hclock⟩ := countUnanswered_all
      (w.list.filter (fun n => !(w.acked.contains n)))
      (s.onHu (fun h => { h with watch := some { w with ackUntil := none } })) { w with ackUntil := none } rfl hlen
    have hevents := countUnanswered_events (w.list.filter (fun n => !(w.acked.contains n)))
      (s.onHu (fun h => { h with watch := some { w with ackUntil := none } })) { w with ackUntil := none } rfl
    have hshort := List.length_filter_le (fun n => !(w.acked.contains n)) w.list
    generalize hz : (w.list.filter (fun n => !(w.acked.contains n))).foldl countUnanswered
      (s.onHu (fun h => { h with watch := some { w with ackUntil := none } })) = z at heq hhu hpeer hmu hsl hclock hevents
    have hrole : z.role = s.role := by
      unfold State.role
      rw [hsl]
      rfl
    have hkeep : (endAckWindow w s).hu = z.hu ∧ (endAckWindow w s).pv = z.pv := by
      rw [heq]
      split <;> simp
    refine ⟨_, { w with ackUntil := none, counted := c }, hacts, hkeep.1.trans hhu, rfl, rfl, rfl, rfl, rfl,
      fun n => ?_, fun n hn => ?_, fun hlist hs n hn hno hnew => ?_, fun hdrive hsome hmoving => ?_, fun hstill => ?_⟩
    · rw [hc, mem_failed]
    · rw [peer_of_pv hkeep.2, hpeer n hn]
      simp only [mem_failed, and_assoc]
      rfl
    · have h := hevents ((suppressed_congr rfl _).trans hs) (by omega) n (mem_failed.mpr ⟨hn, hno⟩) hnew
      rw [heq]
      split
      · exact (h.dragStop (by omega)).mem
      · exact h.mem
    · have hne : w.list.filter (fun n => !(w.acked.contains n)) ≠ [] := by
        obtain ⟨n, hn, hno⟩ := hsome
        exact List.ne_nil_of_mem (mem_failed.mpr ⟨hn, hno⟩)
      rw [heq, if_pos ⟨hrole.trans hdrive, hne⟩]
      exact dragStop_moving (by rw [hmu]; exact hmoving)
    · have hnot : ¬ (z.role = .drive ∧ w.list.filter (fun n => !(w.acked.contains n)) ≠ []) := by
        rintro ⟨hdrive, hne⟩
        rcases hstill with h | h
        · exact h (hrole.symm.trans hdrive)
        · obtain ⟨n, hn⟩ := List.exists_mem_of_ne_nil _ hne
          exact (mem_failed.mp hn).2 (h n (mem_failed.mp hn).1)
      rw [heq, if_neg hnot, hmu]
      rfl
  · have hrow : act .brakedLimitExpiry s = if s.limitDue = true then
        endWatch (w.list.filter (fun n => !(w.braked.contains n))).length w.counted s else s := by
      simp only [act, brakedLimitExpiry, State.limitDue, hw]
    refine ⟨_, exec_due hup hrow ((limitDue_iff s).mpr ⟨w, hw, hage⟩), by simp [endWatch], fun hs => ?_⟩
    have hcount : w.list.countP (fun n => decide (n ∉ w.braked)) =
        (w.list.filter (fun n => !(w.braked.contains n))).length := by
      rw [List.countP_eq_length_filter]
      simp
    rw [hcount]
    have hs' : (s.onHu (fun h => { h with watch := none })).suppressed .haltWatchDone = false :=
      (suppressed_congr rfl _).trans hs
    exact ((raise_recent hs').log (by omega) _ _ _).mem
  · rw [exec_up hup]
    simp only [act, ackWindowExpiry, hnone]
  · rw [exec_up hup]
    simp only [act, brakedLimitExpiry, hnone]
  · exact exec_due hup (by simp only [act]; rfl) ((lampDue_iff s).mpr ⟨h1, h2, h3⟩)
  · exact exec_early hup (by simp only [act]; rfl) hnot

/-! ### Going through the set, record by record (R85, R86) -/

/-- The key of a record. -/
def HoldRec.key (r : HoldRec) : HoldKind × Nat := (r.kind, r.declarer)

theorem hasKey_false_of_nodup {pre rs : List HoldRec} {r : HoldRec}
    (h : ((pre ++ r :: rs).map HoldRec.key).Nodup) (x : HoldRec) (hx : x ∈ pre ∨ x ∈ rs) :
    x.hasKey r.kind r.declarer = false := by
  rw [Bool.eq_false_iff, ne_eq, hasKey_iff]
  intro hkey
  have hkey : x.key = r.key := hkey
  rw [List.map_append, List.map_cons, List.nodup_append, List.nodup_cons] at h
  obtain ⟨-, ⟨hr, -⟩, hcross⟩ := h
  rcases hx with hx | hx
  · exact hcross _ (List.mem_map_of_mem hx) _ List.mem_cons_self hkey
  · exact hr (hkey ▸ List.mem_map_of_mem hx)

theorem filter_other_keys {pre rs : List HoldRec} {r : HoldRec} (h : ((pre ++ r :: rs).map HoldRec.key).Nodup) :
    (pre ++ r :: rs).filter (fun x => !x.hasKey r.kind r.declarer) = pre ++ rs := by
  have hself : r.hasKey r.kind r.declarer = true := (hasKey_iff _ _ _).mpr rfl
  have hkeep : ∀ l : List HoldRec, (∀ x ∈ l, x ∈ pre ∨ x ∈ rs) →
      l.filter (fun x => !x.hasKey r.kind r.declarer) = l := by
    intro l hl
    refine List.filter_eq_self.mpr fun x hx => ?_
    rw [hasKey_false_of_nodup h x (hl x hx)]
    rfl
  rw [List.filter_append, List.filter_cons_of_neg (by simp [hself]), hkeep pre fun _ => Or.inl,
    hkeep rs fun _ => Or.inr]

theorem map_own_key {pre rs : List HoldRec} {r : HoldRec} (h : ((pre ++ r :: rs).map HoldRec.key).Nodup)
    (f : HoldRec → HoldRec) :
    (pre ++ r :: rs).map (fun x => if x.hasKey r.kind r.declarer then f x else x) = pre ++ f r :: rs := by
  have hself : r.hasKey r.kind r.declarer = true := (hasKey_iff _ _ _).mpr rfl
  have hkeep : ∀ l : List HoldRec, (∀ x ∈ l, x ∈ pre ∨ x ∈ rs) →
      l.map (fun x => if x.hasKey r.kind r.declarer then f x else x) = l := by
    intro l hl
    refine (List.map_congr_left fun x hx => ?_).trans (List.map_id l)
    rw [hasKey_false_of_nodup h x (hl x hx)]
    rfl
  rw [List.map_append, List.map_cons, hkeep pre fun _ => Or.inl, hkeep rs fun _ => Or.inr, if_pos hself]

/-- What a passage through the set does not touch: the own list, and what a record is judged by. -/
def State.besidesRecords (s t : State) : Prop :=
  t.hu.own = s.hu.own ∧ t.hu.lapseAt = s.hu.lapseAt ∧ t.pv = s.pv ∧ t.clock = s.clock ∧ t.sl = s.sl ∧
    t.hu.effect = severest t.hu.records

/-- A passage that deals with each record by its key: what it makes of each record, in the order of the set. -/
theorem foldl_records {step : State → HoldRec → State} {g : HoldRec → Option HoldRec} {s : State}
    (hg : ∀ r x, g r = some x → x.key = r.key)
    (hstep : ∀ z pre r rs, s.besidesRecords z → z.hu.records = pre ++ r :: rs →
      ((pre ++ r :: rs).map HoldRec.key).Nodup →
      (step z r).hu.records = pre ++ (g r).toList ++ rs ∧ s.besidesRecords (step z r))
    (rs : List HoldRec) : ∀ (z : State) (pre : List HoldRec), s.besidesRecords z → z.hu.records = pre ++ rs →
      ((pre ++ rs).map HoldRec.key).Nodup →
      (rs.foldl step z).hu.records = pre ++ rs.filterMap g ∧ s.besidesRecords (rs.foldl step z) := by
  induction rs with
  | nil => exact fun z pre hz hr _ => ⟨by simpa using hr, hz⟩
  | cons r rs ih =>
    intro z pre hz hr hnodup
    obtain ⟨hnext, hnz⟩ := hstep z pre r rs hz hr hnodup
    rw [List.foldl_cons]
    have hsub : ((pre ++ (g r).toList ++ rs).map HoldRec.key).Sublist ((pre ++ r :: rs).map HoldRec.key) := by
      rw [List.append_assoc, List.map_append, List.map_append, List.map_append]
      refine (List.Sublist.refl _).append ?_
      cases hgr : g r with
      | none => simp
      | some x => simp [hg r x hgr]
    obtain ⟨hrec, hbes⟩ := ih (step z r) (pre ++ (g r).toList) hnz hnext (hnodup.sublist hsub)
    refine ⟨hrec.trans ?_, hbes⟩
    rw [List.append_assoc]
    cases hgr : g r <;> simp [hgr]

theorem orphan_step {s z : State} {pre rs : List HoldRec} {r : HoldRec} (hz : s.besidesRecords z)
    (hr : z.hu.records = pre ++ r :: rs) (hnodup : ((pre ++ r :: rs).map HoldRec.key).Nodup) :
    (orphan r.kind r.declarer z).hu.records = pre ++ { r with state := .orphaned } :: rs ∧
      s.besidesRecords (orphan r.kind r.declarer z) := by
  have hset := updateRecord_set r.kind r.declarer (fun x => { x with state := .orphaned }) z
  rw [hr, map_own_key hnodup] at hset
  obtain ⟨hrec, hown, heff⟩ := hset
  obtain ⟨h1, h2, h3, h4, h5, -⟩ := hz
  unfold orphan
  simp only [State.besidesRecords, logLocal_spares, raise_spares, updateRecord_spares, updateRecord_marks]
  exact ⟨hrec, hown.trans h1, h2, h3, h4, h5, by rw [hrec, heff]⟩

theorem lapse_step {s z : State} {pre rs : List HoldRec} {r : HoldRec} (hz : s.besidesRecords z)
    (hr : z.hu.records = pre ++ r :: rs) (hnodup : ((pre ++ r :: rs).map HoldRec.key).Nodup) :
    (lapse r.kind r.declarer z).hu.records = pre ++ rs ∧ s.besidesRecords (lapse r.kind r.declarer z) := by
  unfold lapse
  generalize hy : logLocal .hu 3 _ (raise .holdLapsed _ z) = y
  have hyhu : y.hu = z.hu := by simp [← hy]
  have hypv : y.pv = z.pv ∧ y.clock = z.clock ∧ y.sl = z.sl := by simp [← hy]
  have hset := removeRecord_set r.kind r.declarer y
  rw [hyhu, hr, filter_other_keys hnodup] at hset
  obtain ⟨hrec, hown, heff⟩ := hset
  obtain ⟨h1, h2, h3, h4, h5, -⟩ := hz
  simp only [State.besidesRecords, removeRecord_spares, removeRecord_marks, hyhu, hypv]
  exact ⟨hrec, hown.trans h1, h2, h3, h4, h5, by rw [hrec, heff]⟩

/-- What the lapse check makes of a record (R85). -/
def State.afterLapse (s : State) (r : HoldRec) : Option HoldRec :=
  if r.declarer ≠ s.sl.station ∧ r.state = .active ∧ r.refreshed + 4000 ≤ s.clock.now then
    (if (s.peer r.declarer).state = .fresh then none else some { r with state := .orphaned })
  else some r

theorem lapseOne_step {s z : State} {pre rs : List HoldRec} {r : HoldRec} (hz : s.besidesRecords z)
    (hr : z.hu.records = pre ++ r :: rs) (hnodup : ((pre ++ r :: rs).map HoldRec.key).Nodup) :
    (lapseOne z r).hu.records = pre ++ (s.afterLapse r).toList ++ rs ∧ s.besidesRecords (lapseOne z r) := by
  have hz' := hz
  obtain ⟨-, -, hpv, hclock, hsl, -⟩ := hz'
  have hcond : (r.declarer ≠ z.own ∧ r.state = .active ∧ z.elapsed r.refreshed 4000 = true) ↔
      (r.declarer ≠ s.sl.station ∧ r.state = .active ∧ r.refreshed + 4000 ≤ s.clock.now) := by
    rw [elapsed_iff, hclock, State.own, hsl]
  have hpeer := peer_of_pv hpv r.declarer
  unfold lapseOne State.afterLapse
  by_cases hdue : r.declarer ≠ s.sl.station ∧ r.state = .active ∧ r.refreshed + 4000 ≤ s.clock.now
  · rw [if_pos (hcond.mpr hdue), if_pos hdue, hpeer]
    split
    · simpa using lapse_step hz hr hnodup
    · simpa using orphan_step hz hr hnodup
  · rw [if_neg (fun h => hdue (hcond.mp h)), if_neg hdue]
    exact ⟨by simpa using hr, hz⟩

theorem afterLapse_key (s : State) (r x : HoldRec) (h : s.afterLapse r = some x) : x.key = r.key := by
  unfold State.afterLapse at h
  (repeat' split at h) <;> cases h <;> rfl

theorem lapseAll_set {s : State} (hwf : s.hu.Wf) :
    (lapseAll s).hu.records = s.hu.records.filterMap s.afterLapse ∧ (lapseAll s).hu.lapseAt = s.clock.now ∧
      (lapseAll s).hu.own = s.hu.own ∧ (lapseAll s).hu.effect = severest (lapseAll s).hu.records := by
  obtain ⟨-, hnodup, heffect, -⟩ := hwf
  have hjudge : (s.onHu (fun h => { h with lapseAt := s.now })).afterLapse = s.afterLapse := rfl
  have h := foldl_records (step := lapseOne) (s := s.onHu (fun h => { h with lapseAt := s.now }))
    (afterLapse_key _) (fun z pre r rs => lapseOne_step) s.hu.records (s.onHu (fun h => { h with lapseAt := s.now }))
    [] ⟨rfl, rfl, rfl, rfl, rfl, heffect⟩ rfl hnodup
  obtain ⟨hrec, hown, hat, -, -, -, heff⟩ := h
  exact ⟨hrec, hat, hown, heff⟩

/-- What a declarer's restart makes of a record (R86). -/
def orphanedBy (n : Nat) (r : HoldRec) : HoldRec :=
  if r.declarer = n ∧ r.state = .active then { r with state := .orphaned } else r

theorem orphanDeclarer_set {s : State} (n : Nat) (hnodup : (s.hu.records.map HoldRec.key).Nodup)
    (heffect : s.hu.effect = severest s.hu.records) :
    (orphanDeclarer n s).hu.records = s.hu.records.map (orphanedBy n) := by
  have hkey : ∀ r x, some (orphanedBy n r) = some x → x.key = r.key := by
    rintro r x ⟨⟩
    unfold orphanedBy
    split <;> rfl
  have h := foldl_records (s := s) (g := fun r => some (orphanedBy n r)) hkey
    (step := fun s r => if r.declarer = n ∧ r.state = .active then orphan r.kind r.declarer s else s)
    (fun z pre r rs hz hr hnd => by
      dsimp only [orphanedBy]
      split
      · simpa using orphan_step hz hr hnd
      · exact ⟨by simpa using hr, hz⟩)
    s.hu.records s [] ⟨rfl, rfl, rfl, rfl, rfl, heffect⟩ rfl hnodup
  rw [orphanDeclarer, h.1, List.nil_append, List.filterMap_eq_map']

/-! ### Records of other declarers under the monitor's actions (R77, R91) -/

/-- From `s` to `t` the set gains no record of another declarer, grows by at most one record, and with room left
keeps every record of another declarer. -/
def State.othersKept (s t : State) : Prop :=
  (∀ r ∈ t.hu.records, r.declarer ≠ s.sl.station → r ∈ s.hu.records) ∧
    t.hu.records.length ≤ s.hu.records.length + 1 ∧
    (s.hu.records.length < 16 → ∀ k d, d ≠ s.sl.station → t.hu.find? k d = s.hu.find? k d)

theorem othersKept_of_records {s t : State} (h : t.hu.records = s.hu.records) : s.othersKept t := by
  refine ⟨fun r hr _ => h ▸ hr, by rw [h]; omega, fun _ k d _ => ?_⟩
  rw [HoldUnit.find?, h]
  rfl

theorem admitHold_others {r : HoldRec} {s : State} (hr : r.declarer = s.sl.station) :
    s.othersKept (admitHold r s) := by
  have hnot : ∀ k d, d ≠ s.sl.station → r.hasKey k d = false := by
    intro k d hd
    rw [Bool.eq_false_iff, ne_eq, hasKey_iff, Prod.mk.injEq, hr]
    exact fun h => hd h.2.symm
  obtain ⟨-, ⟨hroom, hrec, -⟩ | ⟨hfull, m, -, -, hrec, -⟩ | ⟨-, -, hrec, -⟩⟩ := admitHold_set r s
  · refine ⟨fun x hx hne => ?_, by rw [hrec]; simp, fun _ k d hd => ?_⟩
    · rw [hrec, List.mem_append, List.mem_singleton] at hx
      rcases hx with hx | rfl
      · exact hx
      · exact absurd hr hne
    · rw [HoldUnit.find?, hrec, List.find?_append]
      simp [hnot k d hd, HoldUnit.find?]
  · refine ⟨fun x hx hne => ?_, ?_, fun hroom => by omega⟩
    · rw [hrec, List.mem_append, List.mem_singleton] at hx
      rcases hx with hx | rfl
      · exact List.mem_of_mem_filter hx
      · exact absurd hr hne
    · rw [hrec, List.length_append]
      exact Nat.add_le_add_right (List.length_filter_le _ _) 1
  · exact othersKept_of_records hrec

theorem placeOwn_others (k : HoldKind) (s : State) : s.othersKept (placeOwn k s) := by
  unfold placeOwn
  split
  · next o ho =>
    split
    · refine ⟨fun x hx hne => ?_, ?_, fun _ j d hd => ?_⟩
      · rw [(updateRecord_set ..).1, List.mem_map] at hx
        obtain ⟨r, hr, rfl⟩ := hx
        by_cases hkey : r.hasKey k s.own = true
        · rw [if_pos hkey] at hne
          rw [hasKey_iff, Prod.mk.injEq] at hkey
          exact absurd hkey.2 hne
        · rw [if_neg hkey]
          exact hr
      · rw [(updateRecord_set ..).1, List.length_map]
        omega
      · unfold HoldUnit.find?
        rw [(updateRecord_set ..).1, find?_map_hasKey, if_neg fun h => hd h.2]
        exact fun r => ⟨rfl, rfl⟩
    · exact admitHold_others rfl
  · exact othersKept_of_records rfl

/-- The monitor touches the set by placing the LINK hold alone (R91). -/
theorem linkAct_records (s : State) : (linkAct s).hu.records = s.hu.records ∨
    ∃ z : State, z.hu.records = s.hu.records ∧ z.sl = s.sl ∧
      (linkAct s).hu.records = (placeOwn .link z).hu.records := by
  unfold linkAct
  split
  · unfold declareLink
    split
    · exact Or.inr ⟨_, by simp [newOwn], by simp [newOwn], (sendOwn_kept ..).1⟩
    · split
      · left
        split
        · rfl
        · simp [changeOwn, HoldUnit.setOwn]
      · exact Or.inr ⟨_, by simp [changeOwn, HoldUnit.setOwn], by simp [changeOwn], (sendOwn_kept ..).1⟩
  · left
    split <;> rfl

theorem linkAct_others (s : State) : s.othersKept (linkAct s) := by
  rcases linkAct_records s with h | ⟨z, hz, hsl, h⟩
  · exact othersKept_of_records h
  · obtain ⟨h1, h2, h3⟩ := placeOwn_others .link z
    unfold State.othersKept HoldUnit.find? at *
    rw [h, ← hz, ← hsl]
    exact ⟨h1, h2, h3⟩

/-- A condition's change, past settling or for BUTTON, has the monitor act; else it leaves the set (R91). -/
theorem setCond_records (c : LinkCond) (v : Bool) (s : State) : (setCond c v s).hu.records = s.hu.records ∨
    (s.sl.settled = true ∨ c = .button) ∧ ∃ z : State, z.hu.records = s.hu.records ∧ z.sl = s.sl ∧
      (setCond c v s).hu.records = (linkAct z).hu.records := by
  unfold setCond
  split
  · exact Or.inl rfl
  · dsimp only
    generalize hz : logLocal .hu 9 _ _ = z
    have hrec : z.hu.records = s.hu.records := by simp [← hz]
    have hsl : z.sl = s.sl := by simp [← hz]
    by_cases h : z.sl.settled = true ∨ c = .button
    · rw [if_pos h]
      exact Or.inr ⟨hsl ▸ h, z, hrec, hsl, rfl⟩
    · rw [if_neg h]
      exact Or.inl hrec

theorem setCond_others (c : LinkCond) (v : Bool) (s : State) : s.othersKept (setCond c v s) := by
  rcases setCond_records c v s with h | ⟨-, z, hz, hsl, h⟩
  · exact othersKept_of_records h
  · obtain ⟨h1, h2, h3⟩ := linkAct_others z
    unfold State.othersKept HoldUnit.find? at *
    rw [h, ← hz, ← hsl]
    exact ⟨h1, h2, h3⟩

theorem setCond_unsettled {c : LinkCond} {s : State} (hs : s.sl.settled = false) (hc : c ≠ .button) (v : Bool) :
    (setCond c v s).hu.records = s.hu.records := by
  rcases setCond_records c v s with h | ⟨h, -⟩
  · exact h
  · simp [hs, hc] at h

theorem Recent.setCond {n : Nat} {e : EventEntry} {s : State} (h : Recent n e s) (hn : n < 31) {c : LinkCond}
    (hs : s.sl.settled = false) (hc : c ≠ .button) (v : Bool) : Recent (n + 1) e (setCond c v s) := by
  unfold Sys2Proof.Machine.setCond
  split
  · exact h.mono (by omega)
  · dsimp only
    rw [if_neg (by simp [hs, hc])]
    exact Recent.log (h.lu (by simp)) hn _ _ _

/-! ### A restarted peer (R51, R52, R86) -/

theorem rimTurning_iff (s : State) : s.rimTurning = true ↔
    ∃ d m at_, (s.peer d).role = .drive ∧ (s.peer d).motion = some (m, at_) ∧
      s.clock.now < at_ + 1000 ∧ m.measured ≠ 0 := by
  have hpos : ∀ x : Half, 0 < x.toNat ↔ x ≠ 0 := by
    intro x
    rw [Nat.pos_iff_ne_zero, ne_eq, ne_eq, ← BitVec.toNat_inj]
    rfl
  simp only [State.rimTurning, List.any_eq_true, Bool.and_eq_true, beq_iff_eq]
  constructor
  · rintro ⟨p, hp, hrole, hturns⟩
    obtain ⟨d, hd⟩ := List.mem_iff_getElem?.mp hp
    have hpeer : s.peer d = p := by simp [State.peer, List.getD_eq_getElem?_getD, hd]
    cases hm : p.motion with
    | none => simp [hm] at hturns
    | some x =>
      obtain ⟨m, at_⟩ := x
      simp only [hm, State.within, Bool.and_eq_true, decide_eq_true_eq, hpos] at hturns
      exact ⟨d, m, at_, hpeer ▸ hrole, hpeer ▸ hm, hturns.1, hturns.2⟩
  · rintro ⟨d, m, at_, hrole, hm, hrecent, hne⟩
    cases hd : s.pv.table[d]? with
    | none => simp [State.peer, List.getD_eq_getElem?_getD, hd, Peer.blank] at hm
    | some p =>
      have hpeer : s.peer d = p := by simp [State.peer, List.getD_eq_getElem?_getD, hd]
      rw [hpeer] at hrole hm
      refine ⟨p, List.mem_of_getElem? hd, hrole, ?_⟩
      simp only [hm, State.within, Bool.and_eq_true, decide_eq_true_eq, hpos]
      exact ⟨hrecent, hne⟩

theorem exec_accepts {s : State} {t : Telegram} (h : s.accepts t) :
    exec (arrival t) s = .next (acceptTelegram t (clearEcho s)) := takes_exec t s (Or.inl h)

/-- An accepted PRESENCE of another station: the peer view takes it and it is logged (R37, R48). -/
theorem acceptTelegram_presence {s : State} {t : Telegram} {q : PresencePayload} (hq : t.payload = .presence q)
    (hown : t.sender.toNat ≠ s.own) : acceptTelegram t s =
      logTelegram (s.sl.sheet.roleAt t.sender.toNat) t .accepted (pvTakeOther t true s) := by
  have howner : giveOwner t (pvTake t true s) = (pvTake t true s, .accepted) := by
    unfold giveOwner
    rw [hq]
  rw [acceptTelegram_eq, howner, pvTake_other _ _ _ hown]

/-- The stages of R45 for a PRESENCE: the RESTARTED test, the record, and DRIVES_LOW where a drive's state
changed. -/
theorem pvTakeOther_presence {s : State} {t : Telegram} {q : PresencePayload} (hq : t.payload = .presence q)
    (acc : Bool) : ∃ (z : State) (low : Bool),
      pvTakeOther t acc s = (if low = true then recheckDrives z else z) ∧
      (low = true → (z.peer t.sender.toNat).role = .drive) ∧
      ∃ x, z = setPeerState t.sender.toNat x ((restartTest t.sender.toNat q
        (s.onPeer t.sender.toNat (·.judgeSeq t.seq))).onPeer t.sender.toNat
          (fun p => { p.takeContent t.payload acc s.clock.now with lastHeard := s.clock.now })) := by
  unfold pvTakeOther
  rw [hq]
  dsimp only
  have hnow : (restartTest t.sender.toNat q (s.onPeer t.sender.toNat (·.judgeSeq t.seq))).now = s.clock.now := by
    simp [State.now, State.onPeer]
  rw [hnow]
  generalize hx : State.stateAfter _ _ _ = x
  generalize hz : setPeerState _ x _ = z
  refine ⟨z, _, rfl, fun hlow => ?_, x, hz.symm⟩
  simpa using (Bool.and_eq_true_iff.mp hlow).2

theorem restartFound_iff {p : Peer} {q : PresencePayload} : restartFound p q = true ↔
    (p.state = .fresh ∨ p.state = .stale) ∧ (p.restartedSeen = false ∨
      ((q.start = 0 ∨ q.start = 1) ∧ ∃ h, p.heard = some h ∧ h.start = 2)) := by
  unfold restartFound
  cases p.heard <;> simp [or_comm]

theorem judgeSeq_kept (seq : Byte) (p : Peer) :
    (p.judgeSeq seq).restartedSeen = p.restartedSeen ∧ (p.judgeSeq seq).heard = p.heard := by
  unfold Peer.judgeSeq
  (repeat' split) <;> simp

theorem orphanedBy_state {n : Nat} {r : HoldRec} (h : (orphanedBy n r).declarer = n) :
    (orphanedBy n r).state = .orphaned := by
  unfold orphanedBy at h ⊢
  split
  · rfl
  · next hno =>
    rw [if_neg hno] at h
    cases hs : r.state with
    | active => exact absurd ⟨h, hs⟩ hno
    | orphaned => rfl

theorem orphanedBy_key (n : Nat) (r : HoldRec) : (orphanedBy n r).key = r.key := by
  unfold orphanedBy
  split <;> rfl

theorem find?_map_orphanedBy (n : Nat) (k : HoldKind) (d : Nat) (rs : List HoldRec) :
    (rs.map (orphanedBy n)).find? (·.hasKey k d) = (rs.find? (·.hasKey k d)).map (orphanedBy n) := by
  rw [List.find?_map]
  congr 1
  congr 1
  funext r
  have hkey : (orphanedBy n r).kind = r.kind ∧ (orphanedBy n r).declarer = r.declarer := by
    have h := orphanedBy_key n r
    simpa [HoldRec.key] using h
  simp [HoldRec.hasKey, hkey]

theorem orphanDeclarer_marks (n : Nat) (s : State) : (orphanDeclarer n s).hu.cond = s.hu.cond ∧
    (orphanDeclarer n s).hu.driveRestartAt = s.hu.driveRestartAt := by
  unfold orphanDeclarer
  refine List.foldlRecOn (motive := fun t : State =>
    t.hu.cond = s.hu.cond ∧ t.hu.driveRestartAt = s.hu.driveRestartAt) s.hu.records _ ⟨rfl, rfl⟩ ?_
  intro y hy r _
  split
  · simpa [orphan] using hy
  · exact hy

/-- What a peer's restart sets off (R51, R52, R86). -/
theorem handleRestart_facts {s : State} (n : Nat) (hwf : s.hu.Wf) :
    let t := handleRestart n s
    let turns := (s.peer n).role = .drive ∧ s.rimTurning = true
    (∃ z : State, z.hu.records = s.hu.records.map (orphanedBy n) ∧ z.sl = s.sl ∧
      (t.hu.records = z.hu.records ∨ (turns ∧ z.othersKept t))) ∧
    (turns → t.hu.cond.driveRestart = true ∧ t.hu.driveRestartAt = s.clock.now) ∧
    (¬ turns → t.hu.cond.driveRestart = s.hu.cond.driveRestart ∧ t.hu.driveRestartAt = s.hu.driveRestartAt) ∧
    (¬ turns ∨ s.sl.settled = false → t.hu.records = s.hu.records.map (orphanedBy n) ∧
      (s.suppressed .peerRestarted = false →
        Recent 2 (EventEntry.mk .peerRestarted (BitVec.ofNat 16 n) s.clock.station) t)) := by
  obtain ⟨-, hnodup, heffect, -⟩ := hwf
  have hset := orphanDeclarer_set n hnodup heffect
  dsimp only
  unfold handleRestart
  dsimp only
  obtain ⟨z, hz⟩ : ∃ z, z = logLocal .pv 1 [byteOf n] (raise .peerRestarted n (orphanDeclarer n s)) := ⟨_, rfl⟩
  rw [← hz]
  have hrec : z.hu.records = s.hu.records.map (orphanedBy n) := by rw [← hset]; simp [hz]
  have hsl : z.sl = s.sl := by simp [hz]
  have hclock : z.clock = s.clock := by simp [hz]
  have hpv : z.pv = s.pv := by simp [hz]
  have hmarks : z.hu.cond = s.hu.cond ∧ z.hu.driveRestartAt = s.hu.driveRestartAt := by
    simpa [hz] using orphanDeclarer_marks n s
  have hevent : s.suppressed .peerRestarted = false →
      Recent 1 (EventEntry.mk .peerRestarted (BitVec.ofNat 16 n) s.clock.station) z := by
    intro hs
    have h := raise_recent (n := n) (s := orphanDeclarer n s)
      ((suppressed_congr (by simp) .peerRestarted).trans hs)
    rw [hz]
    have hclk : (orphanDeclarer n s).clock = s.clock := by simp
    rw [hclk] at h
    exact h.log (by omega) _ _ _
  have hturn : (z.peer n).role = .drive ∧ z.rimTurning = true ↔ (s.peer n).role = .drive ∧ s.rimTurning = true := by
    simp only [rimTurning_iff, peer_of_pv hpv, hclock]
  by_cases h : (s.peer n).role = .drive ∧ s.rimTurning = true
  · rw [if_pos (hturn.mpr h)]
    unfold handDriveRestart
    refine ⟨⟨z, hrec, hsl, Or.inr ⟨h, setCond_others ..⟩⟩, fun _ => ?_, fun hno => absurd h hno, fun hno => ?_⟩
    · rw [(setCond_conds _ _ _).1, (setCond_conds _ _ _).2.1]
      exact ⟨rfl, by simp [State.now, hclock]⟩
    · have hun : (z.onHu (fun u => { u with driveRestartAt := z.now })).sl.settled = false := by
        rcases hno with hno | hno
        · exact absurd h hno
        · rw [show (z.onHu (fun u => { u with driveRestartAt := z.now })).sl = z.sl from rfl, hsl]
          exact hno
      refine ⟨(setCond_unsettled hun (by decide) true).trans hrec, fun hs => ?_⟩
      refine Recent.setCond (c := .driveRestart) (n := 1) ?_ (by omega) hun (by decide) true
      exact (hevent hs).lu rfl
  · rw [if_neg fun hz => h (hturn.mp hz)]
    exact ⟨⟨z, hrec, hsl, Or.inl rfl⟩, fun hyes => absurd hyes h, fun _ => ⟨by rw [hmarks.1], hmarks.2⟩,
      fun _ => ⟨hrec, fun hs => (hevent hs).mono (by omega)⟩⟩

theorem restartTest_restarts {s : State} {n : Nat} {q : PresencePayload} (hflag : q.flags.getLsbD 0 = true)
    (hfound : restartFound (s.peer n) q = true) : (restartTest n q s).hu = (handleRestart n s).hu ∧
      (restartTest n q s).lu = (handleRestart n s).lu := by
  have hflag' : flagRestarted q.flags = true := hflag
  simp [restartTest, hflag', hfound, State.onPeer, State.setPeer]

theorem Recent.setPeerState {n : Nat} {e : EventEntry} {s : State} (h : Recent n e s) (hn : n < 30) (d : Nat)
    (st : PeerState) : Recent (n + 2) e (setPeerState d st s) := by
  unfold Sys2Proof.Machine.setPeerState
  dsimp only
  split
  · exact h.mono (by omega)
  · exact (Recent.raise (h.lu (by simp [State.onPeer, State.setPeer])) (by omega) _ _).log (by omega) _ _ _

/-- Another declarer's record, looked up after one or two actions of the monitor. -/
theorem othersKept_find {s t : State} (h : s.othersKept t) (hroom : s.hu.records.length < 16) {d : Nat}
    (hd : d ≠ s.sl.station) (k : HoldKind) : t.hu.find? k d = s.hu.find? k d := h.2.2 hroom k d hd

/-- A sender's restart, with what DRIVES_LOW adds: the set of other declarers and the marks (R51, R52, R86). -/
theorem restart_taken {s : State} {t : Telegram} {q : PresencePayload} (hq : t.payload = .presence q)
    (hwf : s.hu.Wf) (hpv : s.pv.Wf) (hn : t.sender.toNat < 24) (hother : t.sender.toNat ≠ s.own)
    (hflag : q.flags.getLsbD 0 = true) (hfound : restartFound (s.peer t.sender.toNat) q = true) :
    let n := t.sender.toNat
    let u := pvTakeOther t true s
    let turns := (s.peer n).role = .drive ∧ s.rimTurning = true
    (∀ r ∈ u.hu.records, r.declarer = n → r.state = .orphaned) ∧
    (s.hu.records.length ≤ 14 → ∀ k, u.hu.find? k n = (s.hu.find? k n).map (orphanedBy n)) ∧
    ((s.peer n).role ≠ .drive ∨ s.sl.settled = false → u.hu.records = s.hu.records.map (orphanedBy n) ∧
      (s.suppressed .peerRestarted = false →
        Recent 5 (EventEntry.mk .peerRestarted (BitVec.ofNat 16 n) s.clock.station) u)) ∧
    (turns → u.hu.cond.driveRestart = true ∧ u.hu.driveRestartAt = s.clock.now) ∧
    (¬ turns → u.hu.cond.driveRestart = s.hu.cond.driveRestart ∧ u.hu.driveRestartAt = s.hu.driveRestartAt) := by
  obtain ⟨z, low, hu, hlow, x, hz⟩ := pvTakeOther_presence (s := s) hq true
  have hlen : s.pv.table.length = 24 := hpv.1
  obtain ⟨s1, hs1⟩ : ∃ s1, s1 = s.onPeer t.sender.toNat (·.judgeSeq t.seq) := ⟨_, rfl⟩
  have hs1hu : s1.hu = s.hu := by simp [hs1, State.onPeer, State.setPeer]
  have hs1sl : s1.sl = s.sl := by simp [hs1, State.onPeer, State.setPeer]
  have hs1clock : s1.clock = s.clock := by simp [hs1, State.onPeer, State.setPeer]
  have hs1peer : ∀ d, s1.peer d = if d = t.sender.toNat then (s.peer t.sender.toNat).judgeSeq t.seq
      else s.peer d := fun d => hs1 ▸ onPeer_at _ _ _ _ hlen hn
  obtain ⟨hj1, hj2, hj3, -⟩ := judgeSeq_same t.seq (s.peer t.sender.toNat)
  obtain ⟨hj4, hj5⟩ := judgeSeq_kept t.seq (s.peer t.sender.toNat)
  have hfound1 : restartFound (s1.peer t.sender.toNat) q = true := by
    rw [restartFound_iff] at hfound ⊢
    rw [hs1peer, if_pos rfl, hj1, hj4, hj5]
    exact hfound
  have hparts : ∀ d, (s1.peer d).role = (s.peer d).role ∧ (s1.peer d).motion = (s.peer d).motion := by
    intro d
    rw [hs1peer]
    split
    · next hd => rw [hd]; exact ⟨hj2, hj3⟩
    · exact ⟨rfl, rfl⟩
  have hrim : s1.rimTurning = s.rimTurning := by
    rw [Bool.eq_iff_iff, rimTurning_iff, rimTurning_iff, hs1clock]
    simp only [hparts]
  obtain ⟨hset, hturn, hno, hsteady⟩ := handleRestart_facts t.sender.toNat (hs1hu ▸ hwf : s1.hu.Wf)
  obtain ⟨htest, htestlu⟩ := restartTest_restarts hflag hfound1
  rw [← hs1] at hz
  have hzhu : z.hu = (handleRestart t.sender.toNat s1).hu := by
    rw [hz, ← htest]
    simp [State.onPeer, State.setPeer]
  have hzsl : z.sl = s.sl := by
    rw [hz, ← hs1sl]
    simp [State.onPeer, State.setPeer]
  have hzrole : (z.peer t.sender.toNat).role = (s.peer t.sender.toNat).role := by
    rw [hz, setPeerState_peer]
    have htp : (restartTest t.sender.toNat q s1).pv.table.length = 24 := by
      rw [hs1]
      unfold restartTest
      simp only [onPeer_length]
      split <;> simp [onPeer_length, hlen]
    rw [onPeer_at _ _ _ _ htp hn, if_pos rfl]
    have hkeep : ((restartTest t.sender.toNat q s1).peer t.sender.toNat).role = (s1.peer t.sender.toNat).role := by
      unfold restartTest
      rcases onPeer_peer t.sender.toNat (fun p => { p with restartedSeen := flagRestarted q.flags })
        (if flagRestarted q.flags && restartFound (s1.peer t.sender.toNat) q then handleRestart t.sender.toNat s1
          else s1) with h | h <;> rw [h] <;> split <;> simp [State.peer]
    exact ((takeContent_same _ _ _ _).2.trans hkeep).trans (hparts _).1
  rw [hs1hu, hs1sl, (hparts _).1, hrim] at hset
  rw [(hparts _).1, hrim, hs1clock] at hturn
  rw [(hparts _).1, hrim, hs1hu] at hno
  rw [(hparts _).1, hrim, hs1hu, hs1sl, hs1clock, suppressed_congr hs1sl] at hsteady
  obtain ⟨y, hyrec, hysl, hy⟩ := hset
  have hzothers : y.othersKept z := by
    unfold State.othersKept
    rw [hzhu]
    rcases hy with h | ⟨-, h⟩
    · exact othersKept_of_records h
    · exact h
  have huothers : z.othersKept (pvTakeOther t true s) := by
    rw [hu]
    split
    · exact setCond_others ..
    · exact othersKept_of_records rfl
  have hmarks : (pvTakeOther t true s).hu.cond.driveRestart = z.hu.cond.driveRestart ∧
      (pvTakeOther t true s).hu.driveRestartAt = z.hu.driveRestartAt := by
    rw [hu]
    split
    · rw [recheckDrives_cond]
      exact ⟨rfl, (setCond_conds _ _ _).2.1⟩
    · exact ⟨rfl, rfl⟩
  rw [hzhu] at hmarks
  have hown : t.sender.toNat ≠ s.sl.station := hother
  dsimp only
  refine ⟨fun r hr hd => ?_, fun hlen14 k => ?_, fun hquiet => ?_, fun h => ?_, fun h => ?_⟩
  · have hr1 := huothers.1 r hr (by rw [hd, hzsl]; exact hown)
    have hr2 := hzothers.1 r hr1 (by rw [hd, hysl]; exact hown)
    rw [hyrec, List.mem_map] at hr2
    obtain ⟨r0, -, rfl⟩ := hr2
    exact orphanedBy_state hd
  · have hylen : y.hu.records.length = s.hu.records.length := by rw [hyrec, List.length_map]
    have hzlen := hzothers.2.1
    rw [othersKept_find huothers (by omega) (by rw [hzsl]; exact hown),
      othersKept_find hzothers (by omega) (by rw [hysl]; exact hown)]
    rw [HoldUnit.find?, hyrec, find?_map_orphanedBy]
    rfl
  · have hcase : ¬ ((s.peer t.sender.toNat).role = .drive ∧ s.rimTurning = true) ∨ s.sl.settled = false := by
      rcases hquiet with h | h
      · exact Or.inl fun hd => h hd.1
      · exact Or.inr h
    obtain ⟨hrec, hevent⟩ := hsteady hcase
    have hzrec : z.hu.records = s.hu.records.map (orphanedBy t.sender.toNat) := by rw [hzhu, hrec]
    have hzevent : s.suppressed .peerRestarted = false → Recent 4 (EventEntry.mk .peerRestarted
        (BitVec.ofNat 16 t.sender.toNat) s.clock.station) z := by
      intro hs
      rw [hz]
      have h1 : Recent 2 _ (restartTest t.sender.toNat q s1) := (hevent hs).lu (by rw [htestlu])
      exact Recent.setPeerState (h1.lu (by simp [State.onPeer, State.setPeer])) (by omega) _ _
    rw [hu]
    split
    · next hl =>
      have hun : z.sl.settled = false := by
        rw [hzsl]
        rcases hquiet with h | h
        · exact absurd (hzrole ▸ hlow hl) h
        · exact h
      exact ⟨(setCond_unsettled hun (by decide) _).trans hzrec,
        fun hs => (hzevent hs).setCond (by omega) hun (c := .drivesLow) (by decide) _⟩
    · exact ⟨hzrec, fun hs => (hzevent hs).mono (by omega)⟩
  · rw [hmarks.1, hmarks.2]
    exact hturn h
  · rw [hmarks.1, hmarks.2]
    exact hno h

/-- Settles O29: the lapse check by `lapseAll_set`, a restart by `restart_taken`. -/
theorem holdsLapseOrAreOrphaned : Obligations.HoldsLapseOrAreOrphaned := by
  unfold Obligations.HoldsLapseOrAreOrphaned
  refine ⟨fun s hup hwf => ⟨fun hjoined hage => ?_, fun hnot => ?_⟩,
    fun s t q hacc hq hwf hpv hflag => ?_⟩
  · obtain ⟨hrec, hat, hown, heff⟩ := lapseAll_set hwf
    exact ⟨_, exec_due hup (by simp only [act]) ((lapseDue_iff s).mpr ⟨hjoined, hage⟩), hat,
      lampFollows_step (lapseAll_lamp s), hown, heff, hrec⟩
  · refine exec_early hup (b := s.lapseDue) (by simp only [act]; rfl) (Bool.eq_false_iff.mpr fun hdue => ?_)
    obtain ⟨h1, h2⟩ := (lapseDue_iff s).mp hdue
    rcases hnot with h | h
    · simp [h] at h1
    · omega
  · dsimp only
    intro hstate hseen
    have hother : t.sender.toNat ≠ s.own := hacc.1.2.2.2
    have hn := takes_num t s (Or.inl hacc)
    obtain ⟨h1, h2, h3, h4, h5⟩ := restart_taken (s := clearEcho s) hq hwf hpv hn hother hflag
      (restartFound_iff.mpr ⟨hstate, hseen⟩)
    refine ⟨_, (exec_accepts hacc).trans (by rw [acceptTelegram_presence (s := clearEcho s) hq hother]), ?_⟩
    simp only [logTelegram_spares]
    refine ⟨h1, fun hlen k r hr => ?_, fun hquiet => ?_, fun hdrive hturns => ?_, fun hno => ?_⟩
    · rw [h2 hlen k, show (clearEcho s).hu.find? k t.sender.toNat = some r from hr]
      rfl
    · obtain ⟨hrec, hevent⟩ := h3 hquiet
      exact ⟨hrec, fun hs => ((hevent ((suppressed_congr rfl _).trans hs)).logTelegram (by omega) _ _ _).mem⟩
    · exact h4 ⟨hdrive, (rimTurning_iff (clearEcho s)).mpr hturns⟩
    · refine h5 fun hyes => ?_
      rcases hno with h | h
      · exact h hyes.1
      · exact h ((rimTurning_iff (clearEcho s)).mp hyes.2)

end Sys2Proof.Machine
end

section
/-! SUPPORT. The drive: the motion update stage by stage, the brake, and the end of empty-down. -/

namespace Sys2Proof.Machine

/-! ### Stages of the motion update (R107 to R120) -/

theorem goFault_mu_eq (s : State) : ∃ x, (goFault s).mu =
    if s.mu.motion = .fault then s.mu
    else { s.mu with reference := 0, trim := 0, command := 0, motion := .fault, mismatchFrom := x } := by
  unfold goFault
  split
  · exact ⟨none, rfl⟩
  · exact setMotion_mu_eq ..

/-- Stage 2 on the motion unit alone (R109). -/
def afterInverter (j : Judgement) (m : MotionUnit) : MotionUnit :=
  if m.invCause then
    let c := if quietAnswer j m.measured then m.clear + 1 else 0
    if 30 ≤ c then { m with
      invCause := false, clear := 0, motion := if m.brakeCause || m.listenCause then m.motion else .braked }
    else { m with clear := c }
  else if m.missed = 3 ∨ j = .flagged then
    if m.motion = .fault then { m with invCause := true, clear := 0 }
    else { m with
      invCause := true, clear := 0, reference := 0, trim := 0, command := 0, motion := .fault }
  else m

theorem enterInverter_mu (n : Nat) (s : State) : ∃ x, (enterInverter n s).mu =
    { (if s.mu.motion = .fault then { s.mu with invCause := true, clear := 0 }
      else { s.mu with
        invCause := true, clear := 0, reference := 0, trim := 0, command := 0, motion := .fault }) with
      mismatchFrom := x } := by
  obtain ⟨x, hx⟩ := goFault_mu_eq (s.onMu (fun m => { m with invCause := true, clear := 0 }))
  have hmu : (enterInverter n s).mu = (goFault (s.onMu (fun m => { m with invCause := true, clear := 0 }))).mu := by
    simp [enterInverter]
  rw [hmu, hx]
  by_cases h : s.mu.motion = .fault
  · exact ⟨s.mu.mismatchFrom, by simp [h]⟩
  · exact ⟨x, by simp [h]⟩

theorem clearInverter_mu (s : State) : ∃ x, (clearInverter s).mu = { s.mu with
    invCause := false, clear := 0
    motion := if s.mu.brakeCause || s.mu.listenCause then s.mu.motion else .braked
    mismatchFrom := x } := by
  unfold clearInverter
  dsimp only
  generalize hz : logLocal .mu 3 [] (s.onMu (fun m => { m with invCause := false, clear := 0 })) = z
  have hzmu : z.mu = { s.mu with invCause := false, clear := 0 } := by simp [← hz]
  rw [show (z.mu.brakeCause || z.mu.listenCause) = (s.mu.brakeCause || s.mu.listenCause) by rw [hzmu]]
  split
  · exact ⟨s.mu.mismatchFrom, hzmu⟩
  · obtain ⟨x, hx⟩ := setMotion_mu_eq .braked z
    exact ⟨x, hx.trans (by rw [hzmu])⟩

theorem inverterStage_mu (j : Judgement) (s : State) :
    ∃ x, (inverterStage j s).mu = { afterInverter j s.mu with mismatchFrom := x } := by
  unfold inverterStage afterInverter
  split
  · dsimp only
    by_cases hc : 30 ≤ (if quietAnswer j s.mu.measured = true then s.mu.clear + 1 else 0)
    · rw [if_pos hc, if_pos hc]
      obtain ⟨x, hx⟩ := clearInverter_mu (s.onMu (fun m => { m with
        clear := if quietAnswer j s.mu.measured = true then s.mu.clear + 1 else 0 }))
      exact ⟨x, hx⟩
    · rw [if_neg hc, if_neg hc]
      exact ⟨s.mu.mismatchFrom, rfl⟩
  · split
    · next h =>
      obtain ⟨x, hx⟩ := enterInverter_mu 1 s
      rw [if_pos (Or.inl h)]
      exact ⟨x, hx⟩
    · next h =>
      split
      · next hj =>
        obtain ⟨x, hx⟩ := enterInverter_mu 2 s
        rw [if_pos (Or.inr hj)]
        exact ⟨x, hx⟩
      · next hj =>
        rw [if_neg (not_or.mpr ⟨h, hj⟩)]
        exact ⟨s.mu.mismatchFrom, rfl⟩

/-- Stage 5 on the motion unit (R112, R118). -/
theorem rampStage_mu (s : State) :
    let r := rampStep s.sl.sheet s.hu.effect s.interlock s.mu.target s.mu.reference
    ∃ x, (rampStage s).mu = { s.mu with
      reference := if s.mu.motion = .driving ∨ s.mu.motion = .stopping then r else 0
      motion := if s.mu.motion = .stopping ∧ r = 0 then .settling else s.mu.motion
      still := if s.mu.motion = .stopping ∧ r = 0 then 0 else s.mu.still
      mismatchFrom := x } := by
  unfold rampStage
  dsimp only
  cases hm : s.mu.motion with
  | stopping =>
    by_cases hr : rampStep s.sl.sheet s.hu.effect s.interlock s.mu.target s.mu.reference = 0
    · obtain ⟨x, hx⟩ := setMotion_mu_eq .settling ((s.onMu (fun m => { m with
        reference := rampStep s.sl.sheet s.hu.effect s.interlock s.mu.target s.mu.reference })).onMu
          (fun m => { m with still := 0 }))
      refine ⟨x, ?_⟩
      simp only [hr, if_true] at hx ⊢
      exact hx.trans (by simp)
    · refine ⟨s.mu.mismatchFrom, ?_⟩
      simp [hr, hm]
  | _ => exact ⟨s.mu.mismatchFrom, by simp [hm]⟩

/-- Stage 6 and 7 on the motion unit (R119, R120, R123). -/
theorem loadAndReport_mu (s : State) :
    let t := reportStage (loadStage s)
    ∃ (mean trim : Int) (command : Nat), t.mu = { s.mu with
      counted := s.countedLoads.length, mean := mean, trim := trim, command := command
      invTx := commandFrame s.mu.frameSeq command, sentSeq := some s.mu.frameSeq
      frameSeq := s.mu.frameSeq + 1, updateAt := s.clock.now } ∧
    mean = meanOf (Config.meanOfNone s.now) s.countedLoads ∧
    trim = (if s.mu.reference = 0 ∨ ¬ s.mu.moving = true ∨ s.countedLoads.length = 1 then 0
      else trimOf s.sl.sheet s.mu.load mean) ∧
    command = commandOf s.sl.sheet s.mu.reference trim ∧
    t.lc = (handOver (.motion t.mu.report) false s).lc := by
  refine ⟨_, _, _, ?_, rfl, rfl, rfl, ?_⟩
  · simp [reportStage, loadStage, State.now]
  · unfold reportStage
    dsimp only
    rw [show (handOver _ false _).mu.report = _ from by simp; rfl]
    exact handOver_lc _ _ (by simp) (by simp)

/-! ### The update as a whole (R107) -/

/-- What stages 1 and 2 make of the motion unit. -/
def State.judgedUnit (s : State) : MotionUnit := afterInverter s.mu.judge.1 (takeAnswer s.mu)

/-- The motion state that stage 4 gives from that unit and the target. -/
def State.motionGiven (s : State) : MotionState :=
  State.nextMotion { s with mu := { s.judgedUnit with target := s.targetNow } }

/-- The reference that stage 5's ramp gives. -/
def State.rampGiven (s : State) : Nat :=
  rampStep s.sl.sheet s.hu.effect s.interlock s.targetNow s.judgedUnit.reference

theorem afterInverter_kept (j : Judgement) (m : MotionUnit) :
    let a := afterInverter j m
    a.mode = m.mode ∧ a.emptyState = m.emptyState ∧ a.still = m.still ∧ a.load = m.load ∧
      a.measured = m.measured ∧ a.missed = m.missed ∧ a.answer = m.answer ∧ a.frameSeq = m.frameSeq ∧
      a.brakeCause = m.brakeCause ∧ a.listenCause = m.listenCause := by
  unfold afterInverter
  dsimp only
  (repeat' split) <;> simp

/-- The caps are those before stage 1: neither the mode nor empty-down changes in an update. -/
theorem targetNow_of {s t : State} (hsl : t.sl = s.sl) (hwv : t.wv = s.wv) (hhu : t.hu = s.hu)
    (hpv : t.pv = s.pv) (hmode : t.mu.mode = s.mu.mode) (hempty : t.mu.emptyState = s.mu.emptyState) :
    t.targetNow = s.targetNow := by
  have hbay : t.entryBay = s.entryBay := by simp [State.entryBay, State.peer, hsl, hpv]
  simp [State.targetNow, State.caps, State.pastSettling, hsl, hwv, hhu, hmode, hempty, hbay]

theorem nextMotion_of {s t : State} (hsl : t.sl = s.sl) (hhu : t.hu = s.hu) (hpins : t.pins = s.pins)
    (hmu : ∃ x, t.mu = { s.mu with mismatchFrom := x }) : t.nextMotion = s.nextMotion := by
  obtain ⟨x, hx⟩ := hmu
  simp [State.nextMotion, State.releaseAllowed, State.pastSettling, hsl, hhu, hpins, hx]

theorem interlock_of {s t : State} (hpv : t.pv = s.pv) : t.interlock = s.interlock := by
  simp [State.interlock, hpv]

theorem countedLoads_of {s t : State} (hpv : t.pv = s.pv) (hclock : t.clock = s.clock) (hsl : t.sl = s.sl)
    (hmoving : t.mu.moving = s.mu.moving) (hload : t.mu.load = s.mu.load) :
    t.countedLoads = s.countedLoads := by
  have hpeer : t.peerLoad = s.peerLoad := by
    funext n
    have hwithin : ∀ at_ d, t.within at_ d = s.within at_ d := by
      intro at_ d
      unfold State.within State.now
      rw [hclock]
    have hown : t.own = s.own := by simp [State.own, hsl]
    unfold State.peerLoad
    simp only [peer_of_pv hpv n, hwithin, hown]
  simp [State.countedLoads, hmoving, hload, hpeer]

/-- The motion unit after an update, in terms of what stages 1 and 2 leave, the target and the ramp. -/
theorem motionUpdate_mu (s : State) :
    let a := s.judgedUnit
    let m := s.motionGiven
    let r := s.rampGiven
    let t := motionUpdate s
    ∃ (mean trim : Int) (command : Nat) (x : Option Nat), t.mu = { a with
      target := s.targetNow
      reference := if m = .driving ∨ m = .stopping then r else 0
      motion := if m = .stopping ∧ r = 0 then .settling else m
      still := if m = .stopping ∧ r = 0 then 0 else a.still
      mismatchFrom := x, counted := t.countedLoads.length, mean := mean, trim := trim, command := command
      invTx := commandFrame a.frameSeq command, sentSeq := some a.frameSeq
      frameSeq := a.frameSeq + 1, updateAt := s.clock.now } ∧
    mean = meanOf (Config.meanOfNone s.now) t.countedLoads ∧
    trim = (if t.mu.reference = 0 ∨ ¬ t.mu.moving = true ∨ t.countedLoads.length = 1 then 0
      else trimOf s.sl.sheet t.mu.load mean) ∧
    command = commandOf s.sl.sheet t.mu.reference trim ∧
    t.lc = (handOver (.motion t.mu.report) false s).lc := by
  dsimp only
  obtain ⟨x2, h2⟩ := inverterStage_mu s.mu.judge.1 (s.onMu takeAnswer)
  change _ = { s.judgedUnit with mismatchFrom := x2 } at h2
  obtain ⟨z2, hz2⟩ : ∃ z, z = inverterStage s.mu.judge.1 (s.onMu takeAnswer) := ⟨_, rfl⟩
  rw [← hz2] at h2
  have hk := afterInverter_kept s.mu.judge.1 (takeAnswer s.mu)
  have htarget : z2.targetNow = s.targetNow :=
    targetNow_of (by simp [hz2]) (by simp [hz2]) (by simp [hz2]) (by simp [hz2])
      (by rw [h2]; exact hk.1) (by rw [h2]; exact hk.2.1)
  obtain ⟨z3, hz3⟩ : ∃ z, z = z2.onMu (fun m => { m with target := z2.targetNow }) := ⟨_, rfl⟩
  have h3 : z3.mu = { s.judgedUnit with mismatchFrom := x2, target := s.targetNow } := by
    have hset : z3.mu = { z2.mu with target := z2.targetNow } := by
      rw [hz3]
      rfl
    rw [hset, htarget, h2]
  have hnext : z3.nextMotion = s.motionGiven :=
    nextMotion_of (by simp [hz3, hz2]) (by simp [hz3, hz2]) (by simp [hz3, hz2]) ⟨x2, h3⟩
  obtain ⟨z4, hz4⟩ : ∃ z, z = setMotion z3.nextMotion z3 := ⟨_, rfl⟩
  obtain ⟨x4, h4⟩ := setMotion_mu_eq z3.nextMotion z3
  rw [← hz4, hnext, h3] at h4
  obtain ⟨x5, h5⟩ := rampStage_mu z4
  have hramp : rampStep z4.sl.sheet z4.hu.effect z4.interlock z4.mu.target z4.mu.reference = s.rampGiven := by
    have h1 : z4.sl = s.sl := by simp [hz4, hz3, hz2]
    have h2 : z4.hu = s.hu := by simp [hz4, hz3, hz2]
    have h3 : z4.interlock = s.interlock := interlock_of (by simp [hz4, hz3, hz2])
    rw [h1, h2, h3, h4]
    rfl
  dsimp only at h5
  rw [hramp, h4] at h5
  obtain ⟨z5, hz5⟩ : ∃ z, z = rampStage z4 := ⟨_, rfl⟩
  rw [← hz5] at h5
  have hz5all : z5.sl = s.sl ∧ z5.clock = s.clock ∧ z5.pv = s.pv ∧ z5.lc = s.lc := by
    simp [hz5, hz4, hz3, hz2]
  obtain ⟨hsl, hclock, hpv, hlc⟩ := hz5all
  have hupdate : motionUpdate s = reportStage (loadStage z5) := by
    rw [hz5, hz4, hz3, hz2]
    rfl
  obtain ⟨mean, trim, command, hmu, hmean, htrim, hcommand, hsent⟩ := loadAndReport_mu z5
  rw [← hupdate] at hmu hsent
  have hcounted : (motionUpdate s).countedLoads = z5.countedLoads := by
    refine countedLoads_of (by simp [hpv]) (by simp [hclock]) (by simp [hsl]) ?_ (by rw [hmu])
    rw [hmu]
    rfl
  have href : (motionUpdate s).mu.reference = z5.mu.reference := by rw [hmu]
  have hmov : (motionUpdate s).mu.moving = z5.mu.moving := by rw [hmu]; rfl
  have hload : (motionUpdate s).mu.load = z5.mu.load := by rw [hmu]
  rw [← hcounted, hsl] at htrim
  rw [← hcounted] at hmean
  rw [hsl] at hcommand
  refine ⟨mean, trim, command, x5, ?_, ?_, ?_, ?_, ?_⟩
  · rw [hcounted, hmu, h5, hclock]
  · rw [hmean]
    simp [State.now, hclock]
  · rw [href, hmov, hload]
    exact htrim
  · rw [href]
    exact hcommand
  · exact hsent.trans (handOver_lc _ _ hlc (by rw [hsl]))

/-! ### Stages 1 and 2: the answer and the INVERTER cause (R108, R109) -/

/-- The answer to the last command frame, when one was kept (R108). -/
def State.takenAnswer (s : State) (q : Byte) (a : InverterAnswer) : Prop :=
  s.mu.answer.bind inverterAnswerOf = some a ∧ a.seq = q

theorem takenAnswer_unique {s : State} {q : Byte} {a b : InverterAnswer} (ha : s.takenAnswer q a)
    (hb : s.takenAnswer q b) : a = b := by
  obtain ⟨ha, -⟩ := ha
  obtain ⟨hb, -⟩ := hb
  exact Option.some.inj (ha.symm.trans hb)

theorem judge_taken {s : State} {q : Byte} {a : InverterAnswer} (hq : s.mu.sentSeq = some q)
    (ha : s.takenAnswer q a) :
    s.mu.judge = (if a.fault then .flagged else .good, clampInt (-1500) 1500 a.load, a.measured) := by
  obtain ⟨h, hseq⟩ := ha
  simp [MotionUnit.judge, hq, h, hseq]

theorem judge_missed {s : State} {q : Byte} (hq : s.mu.sentSeq = some q) (hno : ∀ a, ¬ s.takenAnswer q a) :
    s.mu.judge = (.missed, s.mu.load, s.mu.measured) := by
  unfold MotionUnit.judge
  rw [hq]
  cases h : s.mu.answer.bind inverterAnswerOf with
  | none => rfl
  | some a =>
    dsimp only
    rw [if_neg fun hseq => hno a ⟨h, hseq⟩]

/-- A taken answer that is quiet (R108, R109). -/
def State.quietTaken (s : State) (q : Byte) : Prop :=
  ∃ a, s.takenAnswer q a ∧ a.fault = false ∧ a.measured < 5

theorem quietAnswer_iff {s : State} {q : Byte} (hq : s.mu.sentSeq = some q) :
    quietAnswer s.mu.judge.1 s.mu.judge.2.2 = true ↔ s.quietTaken q := by
  by_cases h : ∃ a, s.takenAnswer q a
  · obtain ⟨a, ha⟩ := h
    rw [judge_taken hq ha]
    have hiff : s.quietTaken q ↔ a.fault = false ∧ a.measured < 5 := by
      refine ⟨fun ⟨b, hb, h⟩ => ?_, fun h => ⟨a, ha, h⟩⟩
      rwa [takenAnswer_unique ha hb]
    rw [hiff]
    cases a.fault <;> simp [quietAnswer]
  · have hno : ∀ a, ¬ s.takenAnswer q a := fun a ha => h ⟨a, ha⟩
    rw [judge_missed hq hno]
    refine ⟨fun h => by simp [quietAnswer] at h, fun ⟨a, ha, _⟩ => absurd ha (hno a)⟩

theorem takeAnswer_still (s : State) : (takeAnswer s.mu).still =
    if quietAnswer s.mu.judge.1 s.mu.judge.2.2 = true then min 10 (s.mu.still + 1) else 0 := rfl

/-! ### The motion states that stage 4 leads to -/

theorem afterInverter_motion (j : Judgement) (m : MotionUnit) :
    (afterInverter j m).motion = m.motion ∨ (afterInverter j m).motion = .braked ∨
      (afterInverter j m).motion = .fault := by
  unfold afterInverter
  dsimp only
  (repeat' split) <;> simp

theorem nextMotion_settling {s : State} (h : s.nextMotion = .settling) : s.mu.motion = .settling := by
  unfold State.nextMotion at h
  cases hm : s.mu.motion <;> simp only [hm] at h <;> (repeat' split at h) <;> cases h
  rfl

theorem nextMotion_stopping {s : State} (h : s.nextMotion = .stopping) :
    s.mu.motion = .driving ∨ s.mu.motion = .stopping := by
  unfold State.nextMotion at h
  cases hm : s.mu.motion <;> simp only [hm] at h <;> (repeat' split at h) <;> cases h <;> simp

theorem nextMotion_fault {s : State} : s.nextMotion = .fault ↔ s.mu.motion = .fault := by
  refine ⟨fun h => ?_, fun h => by simp [State.nextMotion, h]⟩
  unfold State.nextMotion at h
  cases hm : s.mu.motion <;> simp only [hm] at h <;> (repeat' split at h) <;> cases h
  rfl

theorem motionGiven_fault {s : State} : s.motionGiven = .fault ↔ s.judgedUnit.motion = .fault :=
  nextMotion_fault

/-- The drive comes to SETTLING in an update exactly by the ramp's end (R112). -/
theorem settles_iff {s : State} (hm : (motionUpdate s).mu.motion =
    if s.motionGiven = .stopping ∧ s.rampGiven = 0 then .settling else s.motionGiven) :
    (s.mu.motion ≠ .settling ∧ (motionUpdate s).mu.motion = .settling) ↔
      (s.motionGiven = .stopping ∧ s.rampGiven = 0) := by
  have hjudged := afterInverter_motion s.mu.judge.1 (takeAnswer s.mu)
  change s.judgedUnit.motion = s.mu.motion ∨ s.judgedUnit.motion = _ ∨ s.judgedUnit.motion = _ at hjudged
  rw [hm]
  refine ⟨fun ⟨hne, ht⟩ => ?_, fun h => ⟨fun hs => ?_, if_pos h⟩⟩
  · by_contra hramp
    rw [if_neg hramp] at ht
    have hj : s.judgedUnit.motion = .settling := nextMotion_settling ht
    rw [hj] at hjudged
    simp only [reduceCtorEq, or_self, or_false] at hjudged
    exact hne hjudged.symm
  · have hj : s.judgedUnit.motion = .driving ∨ s.judgedUnit.motion = .stopping := nextMotion_stopping h.1
    rw [hs] at hjudged
    rcases hj with hj | hj <;> simp [hj] at hjudged

/-- In FAULT the reference, the trim and the command are 0 and the brake is set (R114). -/
theorem motionUpdate_fault {s : State} (h : (motionUpdate s).mu.motion = .fault) :
    let m := (motionUpdate s).mu
    m.reference = 0 ∧ m.trim = 0 ∧ m.command = 0 ∧ m.brakeEnergised = false := by
  obtain ⟨mean, trim, command, x, hmu, -, htrim, hcommand, -⟩ := motionUpdate_mu s
  have hgiven : s.motionGiven = .fault := by
    rw [hmu] at h
    dsimp only at h
    split at h
    · cases h
    · exact h
  have href : (motionUpdate s).mu.reference = 0 := by
    rw [hmu]
    simp [hgiven]
  rw [href] at htrim hcommand
  rw [if_pos (Or.inl rfl)] at htrim
  have ht : (motionUpdate s).mu.trim = 0 := by
    rw [hmu]
    exact htrim
  have hc : (motionUpdate s).mu.command = 0 := by
    rw [hmu]
    simpa [commandOf] using hcommand
  exact ⟨href, ht, hc, by simp [MotionUnit.brakeEnergised, h]⟩

/-! ### The INVERTER cause after an update -/

theorem judgedUnit_cleared {s : State} (hinv : s.mu.invCause = true)
    (hquiet : quietAnswer s.mu.judge.1 s.mu.judge.2.2 = true) (hclear : 29 ≤ s.mu.clear) :
    s.judgedUnit = { takeAnswer s.mu with
      invCause := false, clear := 0
      motion := if s.mu.brakeCause || s.mu.listenCause then s.mu.motion else .braked } := by
  have hq : quietAnswer s.mu.judge.1 (takeAnswer s.mu).measured = true := hquiet
  unfold State.judgedUnit afterInverter
  rw [if_pos (show (takeAnswer s.mu).invCause = true from hinv)]
  dsimp only
  rw [if_pos hq, if_pos (show 30 ≤ (takeAnswer s.mu).clear + 1 from Nat.succ_le_succ hclear)]
  rfl

theorem judgedUnit_counts {s : State} (hinv : s.mu.invCause = true)
    (hnot : ¬ (quietAnswer s.mu.judge.1 s.mu.judge.2.2 = true ∧ 29 ≤ s.mu.clear)) :
    s.judgedUnit = { takeAnswer s.mu with
      clear := if quietAnswer s.mu.judge.1 s.mu.judge.2.2 = true then s.mu.clear + 1 else 0 } := by
  unfold State.judgedUnit afterInverter
  rw [if_pos (show (takeAnswer s.mu).invCause = true from hinv)]
  refine if_neg ?_
  change ¬ 30 ≤ (if quietAnswer s.mu.judge.1 s.mu.judge.2.2 = true then s.mu.clear + 1 else 0)
  split
  · next hq =>
    have : ¬ 29 ≤ s.mu.clear := fun h => hnot ⟨hq, h⟩
    omega
  · omega

theorem judgedUnit_entered {s : State} (hinv : s.mu.invCause = false)
    (henters : missedAfter s.mu.judge.1 s.mu.missed = 3 ∨ s.mu.judge.1 = .flagged) :
    s.judgedUnit.invCause = true ∧ s.judgedUnit.clear = 0 ∧ s.judgedUnit.motion = .fault := by
  unfold State.judgedUnit afterInverter
  rw [if_neg (show ¬ (takeAnswer s.mu).invCause = true by simp [takeAnswer, hinv]),
    if_pos (show (takeAnswer s.mu).missed = 3 ∨ _ from henters)]
  split
  · next h => exact ⟨rfl, rfl, h⟩
  · exact ⟨rfl, rfl, rfl⟩

theorem judgedUnit_quiet {s : State} (hinv : s.mu.invCause = false)
    (hno : ¬ (missedAfter s.mu.judge.1 s.mu.missed = 3 ∨ s.mu.judge.1 = .flagged)) :
    s.judgedUnit = takeAnswer s.mu := by
  unfold State.judgedUnit afterInverter
  rw [if_neg (show ¬ (takeAnswer s.mu).invCause = true by simp [takeAnswer, hinv]), if_neg (by exact hno)]

theorem Recent.motionStages {n : Nat} {e : EventEntry} {s z : State} (h : Recent n e z) (hn : n < 26)
    (hz : z = inverterStage s.mu.judge.1 (s.onMu takeAnswer)) : Recent (n + 4) e (motionUpdate s) := by
  have htarget : Recent n e (z.onMu (fun m => { m with target := z.targetNow })) := h.onMu _
  have hramp : ∀ y : State, Recent (n + 1) e y → Recent (n + 2) e (rampStage y) := by
    intro y hy
    unfold rampStage
    dsimp only
    split
    · exact (hy.onMu _).mono (by omega)
    · split
      · exact ((hy.onMu _).onMu _).setMotion (by omega) _
      · exact (hy.onMu _).mono (by omega)
    all_goals exact (hy.onMu _).mono (by omega)
  have hfinal := hramp _ (htarget.setMotion (by omega)
    (z.onMu (fun m => { m with target := z.targetNow })).nextMotion)
  subst hz
  exact recent_handOver _ _ (hfinal.lu (by simp)) (by omega)

/-- Entering the INVERTER cause is told to the host, and the event stays through the rest of the update. -/
theorem inverterFault_event {s : State} {n : Nat} (hinv : s.mu.invCause = false)
    (hn : (missedAfter s.mu.judge.1 s.mu.missed = 3 ∧ n = 1) ∨
      (missedAfter s.mu.judge.1 s.mu.missed ≠ 3 ∧ s.mu.judge.1 = .flagged ∧ n = 2))
    (hs : s.suppressed .inverterFault = false) :
    EventEntry.mk .inverterFault (BitVec.ofNat 16 n) s.clock.station ∈ (motionUpdate s).lu.queue := by
  have hstage : inverterStage s.mu.judge.1 (s.onMu takeAnswer) = enterInverter n (s.onMu takeAnswer) := by
    unfold inverterStage
    rw [if_neg (show ¬ (s.onMu takeAnswer).mu.invCause = true by simp [takeAnswer, hinv])]
    rcases hn with ⟨h, rfl⟩ | ⟨h, hflag, rfl⟩
    · exact if_pos h
    · rw [if_neg (by exact h), if_pos hflag]
  have hentered : Recent 1 (EventEntry.mk .inverterFault (BitVec.ofNat 16 n) s.clock.station)
      (enterInverter n (s.onMu takeAnswer)) := by
    unfold enterInverter
    have h := raise_recent (c := .inverterFault) (n := n)
      (s := goFault ((s.onMu takeAnswer).onMu (fun m => { m with invCause := true, clear := 0 })))
      ((suppressed_congr (by simp) _).trans hs)
    have hclock : (goFault ((s.onMu takeAnswer).onMu
        (fun m => { m with invCause := true, clear := 0 }))).clock = s.clock := by simp
    rw [hclock] at h
    exact h.log (by omega) _ _ _
  exact (hentered.motionStages (by omega) hstage.symm).mem

/-- A row that names the update's occasion acts as the update does. -/
theorem exec_updateOccasion {s : State} (hup : s.sl.resetHeld = false) (hdue : s.updateDue = true) {c : Instr}
    {occasion : MotionUnit → MotionUnit → Bool} (hrow : act c s = updateWhen occasion s)
    (h : occasion s.mu (motionUpdate s).mu = true) : exec c s = .next (motionUpdate s) := by
  rw [exec_up hup, hrow]
  simp [updateWhen, hdue, h]

theorem missedAfter_lt {j : Judgement} {n : Nat} :
    missedAfter j n = 3 ↔ (j = .missed ∧ 2 ≤ n) ∨ (j = .noFrame ∧ n = 3) := by
  cases j <;> simp [missedAfter]

/-- Where a frame was sent, what enters the INVERTER cause (R109). -/
theorem inverterEnters_iff {s : State} {q : Byte} (hq : s.mu.sentSeq = some q) :
    (missedAfter s.mu.judge.1 s.mu.missed = 3 ↔ (∀ a, ¬ s.takenAnswer q a) ∧ 2 ≤ s.mu.missed) ∧
    (s.mu.judge.1 = .flagged ↔ ∃ a, s.takenAnswer q a ∧ a.fault = true) := by
  rw [missedAfter_lt]
  by_cases h : ∃ a, s.takenAnswer q a
  · obtain ⟨a, ha⟩ := h
    rw [judge_taken hq ha]
    have hsome : ¬ ∀ b, ¬ s.takenAnswer q b := fun hno => hno a ha
    have hflag : (∃ b, s.takenAnswer q b ∧ b.fault = true) ↔ a.fault = true := by
      refine ⟨fun ⟨b, hb, h⟩ => ?_, fun h => ⟨a, ha, h⟩⟩
      rwa [takenAnswer_unique ha hb]
    rw [hflag]
    cases a.fault <;> simp [hsome]
  · have hno : ∀ a, ¬ s.takenAnswer q a := fun a ha => h ⟨a, ha⟩
    rw [judge_missed hq hno]
    simp [hno]

theorem foldl_min_le (l : List Nat) (n : Nat) :
    l.foldl min n ≤ n ∧ ∀ c ∈ l, l.foldl min n ≤ c := by
  induction l generalizing n with
  | nil => simp
  | cons a l ih =>
    obtain ⟨hstart, hall⟩ := ih (min n a)
    have hle : l.foldl min (min n a) ≤ n ∧ l.foldl min (min n a) ≤ a := by omega
    refine ⟨hle.1, fun c hc => ?_⟩
    rcases List.mem_cons.mp hc with rfl | hc
    · exact hle.2
    · exact hall c hc

theorem foldl_min_mem (l : List Nat) (n : Nat) : l.foldl min n = n ∨ l.foldl min n ∈ l := by
  induction l generalizing n with
  | nil => exact Or.inl rfl
  | cons a l ih =>
    rcases ih (min n a) with h | h
    · rcases Nat.le_total n a with hna | hna
      · exact Or.inl (h.trans (Nat.min_eq_left hna))
      · exact Or.inr (List.mem_cons.mpr (Or.inl (h.trans (Nat.min_eq_right hna))))
    · exact Or.inr (List.mem_cons_of_mem a h)

theorem speed_mem_caps (s : State) : s.sl.sheet.speed s.mu.mode ∈ s.caps := by
  simp [State.caps]

/-- The target is a cap in force, and the least of them (R115). -/
theorem targetNow_mem (s : State) : s.targetNow ∈ s.caps := by
  rcases foldl_min_mem s.caps (s.sl.sheet.speed s.mu.mode) with h | h
  · exact (show s.targetNow = _ from h) ▸ speed_mem_caps s
  · exact h

theorem targetNow_le {s : State} {c : Nat} (hc : c ∈ s.caps) : s.targetNow ≤ c :=
  (foldl_min_le _ _).2 c hc

/-- A quiet answer enters no INVERTER cause. -/
theorem not_enters_of_quiet {s : State} (hquiet : quietAnswer s.mu.judge.1 s.mu.judge.2.2 = true) :
    ¬ (missedAfter s.mu.judge.1 s.mu.missed = 3 ∨ s.mu.judge.1 = .flagged) := by
  have hgood : s.mu.judge.1 = .good := by
    simp only [quietAnswer, Bool.and_eq_true, beq_iff_eq] at hquiet
    exact hquiet.1
  simp [hgood, missedAfter]

/-- The tenth quiet answer sets the brake, from DRAG_STOP, and from SETTLING where the order is HALT
(R112, R113). -/
theorem motionGiven_braked {s : State} (hinv : s.mu.invCause = false)
    (hquiet : quietAnswer s.mu.judge.1 s.mu.judge.2.2 = true) (hstill : 9 ≤ s.mu.still)
    (hm : s.mu.motion = .dragStop ∨ (s.mu.motion = .settling ∧ s.mu.mode = .halt)) :
    s.motionGiven = .braked := by
  have hten : (takeAnswer s.mu).still = 10 := by
    rw [takeAnswer_still, if_pos hquiet]
    omega
  unfold State.motionGiven
  rw [judgedUnit_quiet hinv (not_enters_of_quiet hquiet)]
  rcases hm with hm | ⟨hm, hmode⟩
  · have htaken : (takeAnswer s.mu).motion = .dragStop := hm
    simp [State.nextMotion, htaken, hten]
  · have htaken : (takeAnswer s.mu).motion = .settling := hm
    have hzero : s.targetNow = 0 := by
      have hle := targetNow_le (speed_mem_caps s)
      rw [hmode] at hle
      exact Nat.le_zero.mp hle
    simp [State.nextMotion, htaken, hten, hzero]

/-- Settles O33: stages 1 and 2 by `judgedUnit` and its cases, carried through the update by
`motionUpdate_mu`. -/
theorem updateJudgesTheAnswer : Obligations.UpdateJudgesTheAnswer := by
  unfold Obligations.UpdateJudgesTheAnswer
  intro s q hup hrole hjoined hwf hage hq
  dsimp only
  obtain ⟨hfaultiff, -⟩ := hwf
  have hdue : s.updateDue = true := (updateDue_iff s).mpr ⟨hrole, hjoined, hage⟩
  obtain ⟨mean, trim, command, x, hmu, -⟩ := motionUpdate_mu s
  have hkept := afterInverter_kept s.mu.judge.1 (takeAnswer s.mu)
  obtain ⟨-, -, kstill, kload, kmeasured, kmissed, kanswer, -, kbrake, klisten⟩ := hkept
  have hanswer : (motionUpdate s).mu.answer = none := by rw [hmu]; exact kanswer
  have hload : (motionUpdate s).mu.load = s.mu.judge.2.1 := by rw [hmu]; exact kload
  have hmeasured : (motionUpdate s).mu.measured = s.mu.judge.2.2 := by rw [hmu]; exact kmeasured
  have hmissed : (motionUpdate s).mu.missed = missedAfter s.mu.judge.1 s.mu.missed := by
    rw [hmu]
    exact kmissed
  have hinvt : (motionUpdate s).mu.invCause = s.judgedUnit.invCause := by rw [hmu]
  have hcleart : (motionUpdate s).mu.clear = s.judgedUnit.clear := by rw [hmu]
  have hmotion : (motionUpdate s).mu.motion =
      if s.motionGiven = .stopping ∧ s.rampGiven = 0 then .settling else s.motionGiven := by rw [hmu]
  have hstill : (motionUpdate s).mu.still = if s.motionGiven = .stopping ∧ s.rampGiven = 0 then 0
      else (if quietAnswer s.mu.judge.1 s.mu.judge.2.2 = true then min 10 (s.mu.still + 1) else 0) := by
    rw [hmu, ← takeAnswer_still, ← kstill]
    rfl
  have hsettles := settles_iff hmotion
  have hquiet := quietAnswer_iff hq
  have hfault_of : s.judgedUnit.motion = .fault → (motionUpdate s).mu.motion = .fault := by
    intro h
    have hg := motionGiven_fault.mpr h
    rw [hmotion, hg]
    simp
  have hfault_iff : (motionUpdate s).mu.motion = .fault ↔ s.judgedUnit.motion = .fault := by
    refine ⟨fun h => motionGiven_fault.mp ?_, hfault_of⟩
    rw [hmotion] at h
    split at h
    · cases h
    · exact h
  obtain ⟨henters3, hflagged⟩ := inverterEnters_iff hq
  have hentered : s.mu.invCause = false →
      (missedAfter s.mu.judge.1 s.mu.missed = 3 ∨ s.mu.judge.1 = .flagged) →
      (motionUpdate s).mu.invCause = true ∧ (motionUpdate s).mu.clear = 0 ∧
        (motionUpdate s).mu.motion = .fault ∧ (motionUpdate s).mu.reference = 0 ∧
        (motionUpdate s).mu.trim = 0 ∧ (motionUpdate s).mu.command = 0 := by
    intro hinv h
    obtain ⟨h1, h2, h3⟩ := judgedUnit_entered hinv h
    have hf := hfault_of h3
    obtain ⟨href, htrim, hcommand, -⟩ := motionUpdate_fault hf
    exact ⟨hinvt.trans h1, hcleart.trans h2, hf, href, htrim, hcommand⟩
  refine ⟨_, exec_due hup (by simp only [act]) hdue, hanswer, fun a ha => ?_, fun hno => ?_, fun hs => ?_,
    fun hs hqt => ?_, fun hs hqt => ?_, fun hinv hm hno => ?_, fun hinv a ha hf => ?_, fun hinv hf hm => ?_,
    fun hinv hqt hc => ?_, fun hinv hqt hc => ?_, fun hinv hqt => ?_, fun hqt h9 hm => ?_⟩
  · rw [hload, hmeasured, hmissed, judge_taken hq ha]
    refine ⟨rfl, rfl, ?_⟩
    dsimp only
    split <;> rfl
  · rw [hload, hmeasured, hmissed, judge_missed hq hno]
    exact ⟨rfl, rfl, rfl⟩
  · rw [hstill, if_pos (hsettles.mp hs)]
  · rw [hstill, if_neg (fun h => hs (hsettles.mpr h)), if_pos (hquiet.mpr hqt)]
  · rw [hstill, if_neg (fun h => hs (hsettles.mpr h)), if_neg (fun h => hqt (hquiet.mp h))]
  · have h3 := henters3.mpr ⟨hno, hm⟩
    obtain ⟨h1, h2, hf, href, htrim, hcommand⟩ := hentered hinv (Or.inl h3)
    refine ⟨exec_updateOccasion hup hdue (by simp only [act]; rfl) ?_, h1, h2, hf, href, htrim, hcommand,
      inverterFault_event hinv (Or.inl ⟨h3, rfl⟩)⟩
    simp [hinv, h1, hmissed, h3]
  · have hflag := hflagged.mpr ⟨a, ha, hf⟩
    have hne : missedAfter s.mu.judge.1 s.mu.missed ≠ 3 := fun h => (henters3.mp h).1 a ha
    obtain ⟨h1, h2, hf, href, htrim, hcommand⟩ := hentered hinv (Or.inr hflag)
    exact ⟨h1, h2, hf, href, htrim, hcommand, inverterFault_event hinv (Or.inr ⟨hne, hflag, rfl⟩)⟩
  · have hno : ¬ (missedAfter s.mu.judge.1 s.mu.missed = 3 ∨ s.mu.judge.1 = .flagged) := by
      rintro (h | h)
      · obtain ⟨h1, h2⟩ := henters3.mp h
        have := hm h1
        omega
      · obtain ⟨a, ha, h⟩ := hflagged.mp h
        simp [hf a ha] at h
    rw [hinvt, judgedUnit_quiet hinv hno]
    exact hinv
  · have hj := judgedUnit_cleared hinv (hquiet.mpr hqt) hc
    have hfault : s.mu.motion = .fault := hfaultiff.mpr (by simp [hinv])
    have h1 : (motionUpdate s).mu.invCause = false := by rw [hinvt, hj]
    refine ⟨exec_updateOccasion hup hdue (by simp only [act]; rfl) (by simp [hinv, h1]), h1,
      by rw [hcleart, hj], ?_⟩
    rw [hfault_iff, hj, hfault]
    dsimp only
    split <;> simp_all
  · have hj := judgedUnit_counts hinv (fun h => by omega)
    have hfault : s.mu.motion = .fault := hfaultiff.mpr (by simp [hinv])
    rw [hinvt, hcleart, hfault_iff, hj, if_pos (hquiet.mpr hqt)]
    exact ⟨hinv, rfl, hfault⟩
  · have hnq : ¬ quietAnswer s.mu.judge.1 s.mu.judge.2.2 = true := fun h => hqt (hquiet.mp h)
    have hj := judgedUnit_counts hinv (fun h => hnq h.1)
    have hfault : s.mu.motion = .fault := hfaultiff.mpr (by simp [hinv])
    rw [hinvt, hcleart, hfault_iff, hj, if_neg hnq]
    exact ⟨hinv, rfl, hfault⟩
  · have hne : s.mu.motion ≠ .fault := by rcases hm with h | ⟨h, -⟩ <;> simp [h]
    have hinv : s.mu.invCause = false := by
      rw [Ne, hfaultiff] at hne
      simp_all
    have hgiven := motionGiven_braked hinv (hquiet.mpr hqt) h9 hm
    have hbraked : (motionUpdate s).mu.motion = .braked := by
      rw [hmotion, hgiven]
      rfl
    refine ⟨exec_updateOccasion hup hdue (by simp only [act]; rfl) ?_, hbraked⟩
    rcases hm with h | ⟨h, -⟩ <;> simp [h, hbraked]

/-! ### Stage 3: the caps in force (R115, R116) -/

theorem targetNow_zero {s : State}
    (h : s.pastSettling = false ∨ s.hu.effect = .halt ∨ s.hu.effect = .stop ∨
      (s.hu.effect = .empty ∧ s.mu.emptyState ≠ .emptying)) : s.targetNow = 0 := by
  refine Nat.le_zero.mp (targetNow_le ?_)
  rcases h with h | h | h | ⟨h, hne⟩
  · simp [State.caps, h]
  · simp [State.caps, holdCap, h]
  · simp [State.caps, holdCap, h]
  · simp [State.caps, holdCap, h, hne]

theorem targetNow_slow {s : State} (h : s.wv.capped = true ∨ s.hu.effect = .empty) :
    s.targetNow ≤ s.sl.sheet.slow := by
  rcases h with h | h
  · exact targetNow_le (by simp [State.caps, h])
  · by_cases hempty : s.mu.emptyState = .emptying
    · exact targetNow_le (by simp [State.caps, holdCap, h, hempty])
    · exact (targetNow_zero (Or.inr (Or.inr (Or.inr ⟨h, hempty⟩)))).le.trans (Nat.zero_le _)

theorem targetNow_entryBay {s : State} {b : BayPayload} (hb : s.entryBay = some b) :
    (flagCreep b.flags = true → s.targetNow ≤ s.sl.sheet.creep) ∧
    (b.queueLen = 0 → s.sl.sheet.idleOne ≤ b.idle.toNat → b.idle.toNat < s.sl.sheet.idleTwo →
      s.targetNow ≤ s.sl.sheet.slow) ∧
    (b.queueLen = 0 → s.sl.sheet.idleTwo ≤ b.idle.toNat → s.targetNow ≤ s.sl.sheet.creep) := by
  refine ⟨fun h => targetNow_le ?_, fun hlen h1 h2 => targetNow_le ?_, fun hlen h => targetNow_le ?_⟩
  · simp [State.caps, hb, h]
  · simp [State.caps, hb, idleCap, hlen, h1, Nat.not_le.mpr h2]
  · simp [State.caps, hb, idleCap, hlen, h]

/-! ### Stages 4 to 6 -/

/-- A drive that the update leaves out of FAULT is moved on from the state and reference it had, and from
BRAKED where the update ended the last cause (R109, R114). -/
theorem judgedUnit_moves {s : State} (hwf : s.mu.Wf) (h : s.judgedUnit.motion ≠ .fault) :
    s.judgedUnit.motion = (if s.mu.motion = .fault then .braked else s.mu.motion) ∧
      s.judgedUnit.reference = s.mu.reference := by
  obtain ⟨hfault, -⟩ := hwf
  cases hinv : s.mu.invCause with
  | true =>
    have hm : s.mu.motion = .fault := hfault.mpr (by simp [hinv])
    by_cases hclear : quietAnswer s.mu.judge.1 s.mu.judge.2.2 = true ∧ 29 ≤ s.mu.clear
    · rw [judgedUnit_cleared hinv hclear.1 hclear.2, hm] at h ⊢
      dsimp only at h ⊢
      split at h
      · exact absurd rfl h
      · next hcauses => exact ⟨if_neg hcauses, rfl⟩
    · rw [judgedUnit_counts hinv hclear] at h
      exact absurd hm h
  | false =>
    by_cases henters : missedAfter s.mu.judge.1 s.mu.missed = 3 ∨ s.mu.judge.1 = .flagged
    · exact absurd (judgedUnit_entered hinv henters).2.2 h
    · rw [judgedUnit_quiet hinv henters] at h ⊢
      exact ⟨(if_neg h).symm, rfl⟩

theorem releaseAllowed_iff (s : State) : s.releaseAllowed = true ↔
    s.pastSettling = true ∧ s.hu.effect ≠ .halt ∧ s.hu.effect ≠ .stop ∧ s.mu.mode ≠ .halt := by
  unfold State.releaseAllowed
  cases s.hu.effect <;> simp [Effect.atLeast, effectCode, and_comm]

theorem rampStep_up {sh : Sheet} {e : Effect} {i : Bool} {x r : Nat} (h : r < x) :
    rampStep sh e i x r = if i = true then r else min (r + sh.aUp) x := by
  rw [rampStep, if_pos h]
  split
  · rfl
  · omega

theorem rampStep_down {sh : Sheet} {e : Effect} {i : Bool} {x r : Nat} (h : ¬ r < x) :
    rampStep sh e i x r = max x (r - (if e = .stop then sh.aStop else sh.aDn)) := by
  rw [rampStep, if_neg h]
  generalize (if e = .stop then sh.aStop else sh.aDn) = d
  split <;> omega

theorem commandOf_cast {sh : Sheet} {r : Nat} (trim : Int) (h : r ≠ 0) :
    (commandOf sh r trim : Int) = clampInt 0 ((sh.run : Int) + sh.trimLimit) ((r : Int) - trim) := by
  rw [commandOf, if_neg h, Int.toNat_of_nonneg]
  exact le_max_left _ _

/-- Settles O34: stages 3 to 7 by `motionUpdate_mu`; a drive left out of FAULT by `judgedUnit_moves`. -/
theorem updateMovesTheDrive : Obligations.UpdateMovesTheDrive := by
  unfold Obligations.UpdateMovesTheDrive
  intro s hup
  refine ⟨fun hrole hjoined hwf hage => ?_, fun hdue => exec_early (b := s.updateDue) hup (by simp only [act]; rfl) hdue⟩
  have hdue : s.updateDue = true := (updateDue_iff s).mpr ⟨hrole, hjoined, hage⟩
  obtain ⟨mean, trim, command, x, hmu, hmean, htrim, hcommand, hlc⟩ := motionUpdate_mu s
  obtain ⟨kmode, -, -, -, -, -, -, kframe, -⟩ := afterInverter_kept s.mu.judge.1 (takeAnswer s.mu)
  have hmode : s.judgedUnit.mode = s.mu.mode := kmode
  have hframe : s.judgedUnit.frameSeq = s.mu.frameSeq := kframe
  have htarget : (motionUpdate s).mu.target = s.targetNow := by rw [hmu]
  have hreference : (motionUpdate s).mu.reference =
      if s.motionGiven = .driving ∨ s.motionGiven = .stopping then s.rampGiven else 0 := by rw [hmu]
  have hmotion : (motionUpdate s).mu.motion =
      if s.motionGiven = .stopping ∧ s.rampGiven = 0 then .settling else s.motionGiven := by rw [hmu]
  have hstill : (motionUpdate s).mu.still =
      if s.motionGiven = .stopping ∧ s.rampGiven = 0 then 0 else s.judgedUnit.still := by rw [hmu]
  have hcounted : (motionUpdate s).mu.counted = (motionUpdate s).countedLoads.length := by
    rw [hmu]
  have ktrim : (motionUpdate s).mu.trim = trim := by rw [hmu]
  have kmean : (motionUpdate s).mu.mean = mean := by rw [hmu]
  have kcommand : (motionUpdate s).mu.command = command := by rw [hmu]
  have kinv : (motionUpdate s).mu.invTx = commandFrame s.mu.frameSeq command := by
    rw [hmu, ← hframe]
  have ksent : (motionUpdate s).mu.sentSeq = some s.mu.frameSeq := by
    rw [hmu, ← hframe]
  have kseq : (motionUpdate s).mu.frameSeq = s.mu.frameSeq + 1 := by
    rw [hmu, ← hframe]
  have kat : (motionUpdate s).mu.updateAt = s.clock.now := by rw [hmu]
  refine ⟨_, s.motionGiven, exec_due hup (by simp only [act]; rfl) hdue, ?_⟩
  dsimp only
  rw [htarget, hcounted, ktrim, kmean, kcommand]
  refine ⟨targetNow_zero, targetNow_slow, fun b hb => targetNow_entryBay hb, targetNow_le (speed_mem_caps s),
    targetNow_mem s, fun hne => ?_, fun hfault => ?_, rfl, fun hloads => ?_, fun h => ?_, fun h0 hmov hone => ?_,
    fun h0 => ?_, fun h0 => ?_, kinv, ksent, kseq, kat, hlc⟩
  · have hleft : s.judgedUnit.motion ≠ .fault := fun h => by
      rw [hmotion, motionGiven_fault.mpr h] at hne
      simp at hne
    have hstays : s.judgedUnit.motion = .settling ∨ s.judgedUnit.motion = .dragStop →
        (motionUpdate s).mu.still = s.judgedUnit.still := fun h => by
      rw [hstill, if_neg fun hs => ?_]
      have hfrom : s.judgedUnit.motion = .driving ∨ s.judgedUnit.motion = .stopping :=
        nextMotion_stopping hs.1
      rcases h with h | h <;> simp [h] at hfrom
    obtain ⟨hm, hr⟩ := judgedUnit_moves hwf hleft
    refine ⟨?_, fun h => ?_, fun h1 h2 => ?_, ?_⟩
    · rw [← hm]
      have hallowed : ∀ m, State.releaseAllowed
          { s with mu := { s.judgedUnit with target := s.targetNow, motion := m } } = true ↔
          s.pastSettling = true ∧ s.hu.effect ≠ .halt ∧ s.hu.effect ≠ .stop ∧ s.mu.mode ≠ .halt := by
        intro m
        rw [releaseAllowed_iff, ← hmode]
        rfl
      unfold State.motionGiven State.nextMotion
      dsimp only
      cases hfrom : s.judgedUnit.motion with
      | braked => simp only [hallowed]
      | starting => rfl
      | driving => rfl
      | stopping => rfl
      | settling =>
        rw [hstays (Or.inl hfrom)]
      | dragStop =>
        rw [hstays (Or.inr hfrom)]
      | fault => rfl
    · rw [hreference, if_pos h, State.rampGiven, hr]
      split
      · next hup => exact rampStep_up hup
      · next hdown => exact rampStep_down hdown
    · rw [hreference, if_neg (by simp [h1, h2])]
    · rw [hmotion, hreference]
      by_cases h : s.motionGiven = .stopping <;> simp [h]
  · obtain ⟨h1, h2, h3, h4⟩ := motionUpdate_fault hfault
    exact ⟨h1, ktrim ▸ h2, kcommand ▸ h3, h4⟩
  · rw [hmean, meanOf, if_neg (by simpa using hloads)]
  · rw [htrim, if_pos (by simpa using h)]
  · rw [htrim, if_neg (by simp [h0, hmov, hone]), hmean, trimOf]
  · rw [hcommand, commandOf, if_pos h0]
  · rw [hcommand, commandOf_cast trim h0]

/-! ### The brake (R108, R110) -/

theorem answersLast_iff (m : MotionUnit) (frame : List Byte) : m.answersLast frame = true ↔
    ∃ q a, m.sentSeq = some q ∧ inverterAnswerOf frame = some a ∧ a.seq = q := by
  unfold MotionUnit.answersLast
  cases m.sentSeq <;> cases inverterAnswerOf frame <;> simp
  exact eq_comm

theorem exec_inverterAnswer_drive {s : State} (hup : s.sl.resetHeld = false) (hrole : s.role = .drive)
    (hjoined : s.joined = true) (frame : List Byte) : exec (.inverterAnswer frame) s = .next
      (if s.mu.answersLast frame = true then s.onMu (fun m => { m with answer := some frame }) else s) := by
  rw [exec_up hup]
  simp [act, hrole, hjoined]

/-- The BRAKE cause is latched: what it leaves of the motion unit (R110, R114). -/
theorem brakeFaultNow_mu (s : State) : ∃ x, (brakeFaultNow s).mu = { s.mu with
    brakeCause := true
    reference := if s.mu.motion = .fault then s.mu.reference else 0
    trim := if s.mu.motion = .fault then s.mu.trim else 0
    command := if s.mu.motion = .fault then s.mu.command else 0
    motion := .fault
    mismatchFrom := x } := by
  obtain ⟨x, hx⟩ := goFault_mu_eq (s.onMu (fun m => { m with brakeCause := true }))
  have hmu : (brakeFaultNow s).mu = (goFault (s.onMu (fun m => { m with brakeCause := true }))).mu := by
    simp [brakeFaultNow]
  rw [hmu, hx]
  by_cases h : s.mu.motion = .fault
  · exact ⟨s.mu.mismatchFrom, by simp [h]⟩
  · exact ⟨x, by simp [h]⟩

theorem brakeFaultNow_event {s : State} (hs : s.suppressed .brakeFault = false) :
    EventEntry.mk .brakeFault (if s.mu.brakeEnergised = true then 1 else 2) s.clock.station
      ∈ (brakeFaultNow s).lu.queue := by
  unfold brakeFaultNow
  have h := raise_recent (c := .brakeFault) (n := if s.mu.brakeEnergised = true then 1 else 2)
    (s := goFault (s.onMu (fun m => { m with brakeCause := true })))
    ((suppressed_congr (by simp) _).trans hs)
  have hlog := (h.log (by omega) .mu 4 [byteOf (if s.mu.brakeEnergised = true then 1 else 2)]).mem
  simp only [goFault_spares, State.onMu] at hlog
  rwa [apply_ite (BitVec.ofNat 16)] at hlog

/-- Settles O35: the lines by their arms, the latched cause by `brakeFaultNow_mu`. -/
theorem brakeFeedbackIsWatched : Obligations.BrakeFeedbackIsWatched := by
  unfold Obligations.BrakeFeedbackIsWatched
  intro s frame released hup
  refine ⟨fun hrole hjoined => ⟨fun q a hq ha hseq => ?_, fun hno => ?_, ?_⟩, fun hother => ⟨?_, ?_⟩,
    fun since hrole hjoined hcause hfrom hage => ?_, fun hdue => ?_⟩
  · rw [exec_inverterAnswer_drive hup hrole hjoined,
      if_pos ((answersLast_iff ..).mpr ⟨q, a, hq, ha, hseq⟩)]
    rfl
  · rw [exec_inverterAnswer_drive hup hrole hjoined, if_neg fun h => ?_]
    obtain ⟨q, a, hq, ha, hseq⟩ := (answersLast_iff ..).mp h
    exact hno q a hq ha hseq
  · rw [exec_up hup]
    simp only [act]
    unfold refreshMismatch
    rw [if_pos ⟨hrole, hjoined⟩]
    dsimp only [State.onPins, State.onMu]
    by_cases h : s.mu.brakeEnergised = released
    · simp [h]
    · simp [h, State.now]
  · rw [exec_up hup]
    rcases hother with h | h <;> simp [act, h]
  · rw [exec_up hup]
    simp only [act]
    unfold refreshMismatch
    rw [if_neg fun h => ?_]
    · rfl
    · obtain ⟨hrole, hjoined⟩ := h
      rcases hother with h | h
      · exact h hrole
      · simp [State.joined, State.onPins] at hjoined h
        simp [hjoined] at h
  · have hdue : s.brakeFaultDue = true :=
      (brakeFaultDue_iff s).mpr ⟨hrole, hjoined, hcause, since, hfrom, hage⟩
    obtain ⟨x, hmu⟩ := brakeFaultNow_mu s
    refine ⟨_, exec_due hup (by simp only [act]) hdue, by rw [hmu], by rw [hmu], ?_, fun hne => ?_,
      brakeFaultNow_event⟩
    · simp [hmu, MotionUnit.brakeEnergised]
    · simp [hmu, hne]
  · exact exec_early (b := s.brakeFaultDue) hup (by simp only [act]; rfl) hdue

/-! ### Empty-down's limit (R122) -/

theorem completeEmptyDown_mu (timeout : Bool) (s : State) :
    (completeEmptyDown timeout s).mu = { s.mu with emptyState := .done, mode := .halt } := by
  unfold completeEmptyDown
  cases timeout <;> simp [latchHalt_mu]

theorem completeEmptyDown_watch (timeout : Bool) (s : State) :
    (completeEmptyDown timeout s).hu = (startWatch s).hu := by
  unfold completeEmptyDown
  dsimp only
  simp only [logLocal_spares]
  cases timeout <;> exact startWatch_congr (by simp) (by simp) (by simp) (by simp) (by simp [latchHalt_mu])

theorem emptydownTimeout_event {s : State} (hs : s.suppressed .emptydownTimeout = false) :
    EventEntry.mk .emptydownTimeout (BitVec.ofNat 16 s.ct.occupied) s.clock.station
      ∈ (completeEmptyDown true s).lu.queue := by
  unfold completeEmptyDown
  dsimp only
  rw [if_pos rfl]
  have h := raise_recent (c := .emptydownTimeout) (n := s.ct.occupied)
    (s := latchHalt 1 (s.onMu (fun m => { m with emptyState := .done })))
    ((suppressed_congr (by simp) _).trans hs)
  simp only [latchHalt_spares] at h
  exact ((recent_startWatch h (by omega)).log (by omega) _ _ _).mem

/-- Settles O36: the limit completes empty-down, and `startWatch` says what the watch starts with. -/
theorem emptyDownEndsAtItsLimit : Obligations.EmptyDownEndsAtItsLimit := by
  unfold Obligations.EmptyDownEndsAtItsLimit
  intro s hup
  refine ⟨fun hstate hage => ?_, fun hdue => exec_early (b := s.emptyLimitDue) hup (by simp only [act]; rfl) hdue⟩
  have hdue : s.emptyLimitDue = true := (emptyLimitDue_iff s).mpr ⟨hstate, hage⟩
  refine ⟨_, exec_due hup (by simp only [act]) hdue, completeEmptyDown_mu true s,
    emptydownTimeout_event, fun hnone => ?_, fun hsome => ?_⟩
  · rw [completeEmptyDown_watch, startWatch_hu, if_pos hnone]
  · rw [completeEmptyDown_watch, startWatch_hu, if_neg hsome]
    exact ⟨_, rfl, rfl, rfl, rfl, rfl, rfl, rfl⟩

end Sys2Proof.Machine
end

section
/-! SUPPORT. The bays: the field lines (R143, R153), the matching walk (R149), and the windows of both bays
(chapters 8 and 9). -/

namespace Sys2Proof.Machine

/-! ### The report and the doors (R151, R153) -/

theorem handBay_bu (s : State) : (handBay s).bu = { s.bu with reportAt := s.clock.now } := by
  simp [handBay, State.now]

/-- The report does not read the time of the last one. -/
theorem bayReport_of {s t : State} {at_ : Nat} (hbu : t.bu = { s.bu with reportAt := at_ }) (hsl : t.sl = s.sl)
    (hclock : t.clock = s.clock) : t.bayReport = s.bayReport := by
  have hrole : t.role = s.role := by simp [State.role, hsl]
  have hjoined : t.joined = s.joined := by simp [State.joined, hsl]
  have hnow : t.now = s.now := congrArg Clock.now hclock
  unfold State.bayReport State.ownBay State.idleSeconds BayUnit.cabinAtBay
  rw [hrole, hjoined, hnow, hbu]

theorem handBay_bayReport (s : State) : (handBay s).bayReport = s.bayReport := by
  have hsl : (handBay s).sl = s.sl := by simp [handBay]
  have hclock : (handBay s).clock = s.clock := by simp [handBay]
  exact bayReport_of (handBay_bu s) hsl hclock

/-- The report that goes is that of the state it leaves (R160). -/
theorem handBay_lc {z s : State} (hlc : z.lc = s.lc) (hsl : z.sl = s.sl) :
    (handBay z).lc = (handOver (.bay (handBay z).bayReport) false s).lc := by
  rw [handBay_bayReport]
  exact handOver_lc _ _ hlc (congrArg Loader.start hsl)

theorem shutDoors_bu (s : State) : (shutDoors s).bu = { s.bu with
    doorRelease := false, gateOpen := false, doorClose := true, closeDeferred := false,
    doorsOpen := false, reportAt := s.clock.now } := handBay_bu _

/-- A row whose condition does not hold does nothing, under RESET neither. -/
theorem exec_ignored {s t : State} {c : Instr} {p : Prop} [Decidable p] (hact : act c s = if p then t else s)
    (hheld : actHeld c s = s) (hp : ¬ p) : exec c s = .next s := by
  rw [exec_eq, hact, hheld, if_neg hp, ite_self]

/-- Settles O37: every row by its arm; the deferred close by `shutDoors_bu` and `handBay_lc`. -/
theorem bayFieldLines : Obligations.BayFieldLines := by
  unfold Obligations.BayFieldLines
  refine ⟨fun s frame v hup => ⟨fun hrole hjoined => ⟨fun hage => ?_, fun c hc => ?_⟩, fun hother => ?_,
    fun hdue => exec_early (b := s.tagPollDue) hup (by simp only [act]; rfl) hdue, fun hdef => ?_, fun hkeep => ?_, ?_⟩,
    fun s empty => ⟨fun hother c hc => ?_, fun hother c hc => ?_⟩⟩
  · have hdue : s.tagPollDue = true := (tagPollDue_iff s).mpr ⟨⟨hjoined, hrole⟩, hage⟩
    exact exec_due hup (by simp only [act]; rfl) hdue
  · rw [exec_up hup]
    have hbay : s.isBay = true := by rcases hrole with h | h <;> simp [State.isBay, h]
    simp only [act, keepTag, hc]
    rw [if_pos ⟨hbay, hjoined⟩]
    rfl
  · rw [exec_up hup]
    simp only [act]
    split
    · next h =>
      obtain ⟨hbay, hjoined⟩ := h
      rcases hother with hnone | ⟨h1, h2⟩ | hj
      · simp [keepTag, hnone]
      · simp [State.isBay, h1, h2] at hbay
      · simp [hj] at hjoined
    · rfl
  · refine ⟨shutDoors (s.onPins (fun p => { p with gateClear := true })), ?_, ?_⟩
    · rw [exec_up hup]
      simp only [act]
      rw [if_pos ⟨trivial, hdef⟩]
    · rw [shutDoors_bu]
      refine ⟨by simp [shutDoors, handBay, State.onPins], rfl, rfl, rfl, rfl, rfl, rfl, ?_⟩
      exact handBay_lc (by simp) (by simp)
  · rw [exec_up hup]
    simp only [act]
    rw [if_neg (by rcases hkeep with h | h <;> simp [h])]
    rfl
  · rw [exec_up hup]
    simp only [act]
    cases v <;> simp [State.onPins, State.onBu]
  · have hoff : ¬ (s.role = .entry ∧ s.joined = true) := by rintro ⟨h1, h2⟩; simp [h1, h2] at hother
    simp only [List.mem_cons, List.not_mem_nil, or_false] at hc
    rcases hc with rfl | rfl | rfl | rfl
    all_goals exact exec_ignored rfl rfl hoff
  · have hoff : ¬ (s.role = .exit ∧ s.joined = true) := by rintro ⟨h1, h2⟩; simp [h1, h2] at hother
    simp only [List.mem_cons, List.not_mem_nil, or_false] at hc
    rcases hc with rfl | rfl | rfl | rfl
    all_goals exact exec_ignored rfl rfl hoff

/-! ### The matching walk, party by party (R149) -/

section
variable {cls : CabinClass} {sharing : Bool} {limit left : Nat} {got ps : List Party} {p : Party}

theorem matchWalk_fitting (hfits : needFits p.need cls = true) (hsize : p.size ≤ left) :
    matchWalk cls sharing limit left got (p :: ps) =
      if left = p.size ∨ got.length = 3 ∨ cls = .priv ∨ sharing = false then (ps, got ++ [p], left - p.size)
      else matchWalk cls sharing limit (left - p.size) (got ++ [p]) ps := by
  have hstops : walkStops cls sharing (left - p.size) (got ++ [p]) = true ↔
      left = p.size ∨ got.length = 3 ∨ cls = .priv ∨ sharing = false := by
    have hfull : left - p.size = 0 ↔ left = p.size := by omega
    simp [walkStops, hfull, or_assoc]
  rw [matchWalk, if_pos (by simp [hfits, hsize])]
  simp only [hstops]

theorem matchWalk_locked (hnot : ¬ (needFits p.need cls = true ∧ p.size ≤ left)) (hlocked : p.locked = true) :
    matchWalk cls sharing limit left got (p :: ps) = (p :: ps, got, left) := by
  rw [matchWalk, if_neg (by simpa using hnot), if_pos hlocked]

theorem matchWalk_tooLarge (hfits : needFits p.need cls = true) (hsize : left < p.size) (hlocked : p.locked = false) :
    matchWalk cls sharing limit left got (p :: ps) =
      if limit ≤ min 15 (p.skips + 1) then (p.skip limit :: ps, got, left)
      else (p.skip limit :: (matchWalk cls sharing limit left got ps).1,
        (matchWalk cls sharing limit left got ps).2) := by
  have hskip : (p.skip limit).locked = true ↔ limit ≤ min 15 (p.skips + 1) := decide_eq_true_iff
  rw [matchWalk, if_neg (by simp [Nat.not_le.mpr hsize]), if_neg (by simp [hlocked]), if_pos hfits]
  simp only [hskip]

theorem matchWalk_unfit (hfits : ¬ needFits p.need cls = true) (hlocked : p.locked = false) :
    matchWalk cls sharing limit left got (p :: ps) =
      (p :: (matchWalk cls sharing limit left got ps).1, (matchWalk cls sharing limit left got ps).2) := by
  rw [matchWalk, if_neg (by simp [hfits]), if_neg (by simp [hlocked]), if_neg hfits]

end

/-- Settles O38: what the walk keeps by `matchWalk_keeps`, each step by its equation. -/
theorem matchingFollowsTheQueue : Obligations.MatchingFollowsTheQueue := by
  unfold Obligations.MatchingFollowsTheQueue
  intro cls sharing limit cap q
  dsimp only
  obtain ⟨new, hmatched, hsub, hneeds, hseats, hfour, hone, htags, hperm⟩ :=
    matchWalk_keeps cls sharing limit q cap [] (by simp) (by simp)
  rw [List.nil_append] at hmatched hfour hone
  rw [hmatched]
  refine ⟨hsub, hneeds, hseats, hfour, hone, htags, hperm, fun left got => rfl, fun left got p ps =>
    ⟨fun hfits hsize => ⟨fun hstops => ?_, fun hgo => ?_⟩, matchWalk_locked, fun hfits hsize hlocked =>
      ⟨fun hlimit => ?_, fun hlimit => ?_⟩, matchWalk_unfit⟩, fun p ps hq => ⟨fun hfits hsize => ?_,
    fun hnot hlocked => ?_, fun hfits hsize hlocked => ?_, fun hfits hlocked => ?_⟩⟩
  · rw [matchWalk_fitting hfits hsize, if_pos hstops]
  · rw [matchWalk_fitting hfits hsize, if_neg hgo]
  · rw [matchWalk_tooLarge hfits hsize hlocked, if_pos hlimit]
    rfl
  · rw [matchWalk_tooLarge hfits hsize hlocked, if_neg (Nat.not_le.mpr hlimit)]
    rfl
  · rw [← hmatched, hq, matchWalk_fitting hfits hsize]
    split
    · rfl
    · exact matchWalk_head ..
  · have hno : ¬ (needFits p.need cls = true ∧ p.size ≤ cap) := by
      rintro ⟨hfits, hsize⟩
      rcases hnot with h | h
      · simp [hfits] at h
      · omega
    rw [hq, matchWalk_locked hno hlocked]
  · rw [hq, matchWalk_tooLarge hfits hsize hlocked]
    split <;> rfl
  · rw [hq, matchWalk_unfit (by simp [hfits]) hlocked]
    rfl

end Sys2Proof.Machine
end

section
/-! SUPPORT. What the owners do with accepted telegrams: orders and service (R105, R137), MARK and PRESENCE
(R48, R59), and what the peer view keeps of every one (R44, R45, R50). -/

namespace Sys2Proof.Machine

/-! ### Orders and service (R105, R137) -/

theorem takeOrder_ignored {n : Nat} {p : OrderPayload} {s : State}
    (h : s.mu.serials.getD n none = some p.serial ∨ modeOf p.mode.toNat = none) :
    (takeOrder n p s).1 = s := by
  unfold takeOrder
  cases hmode : modeOf p.mode.toNat with
  | none => rfl
  | some m =>
    have hserial : s.mu.serials.getD n none = some p.serial := by simpa [hmode] using h
    simp only [hserial, if_true]

theorem takeOrder_mu {n : Nat} {p : OrderPayload} {s : State} {m : OrderMode}
    (hserial : s.mu.serials.getD n none ≠ some p.serial) (hmode : modeOf p.mode.toNat = some m) :
    (takeOrder n p s).1.mu = { s.mu with
      serials := s.mu.serials.set n (some p.serial)
      mode := if m ≠ .halt ∧ (s.hu.effect.atLeast .halt = true ∨ s.sl.settled = false) then s.mu.mode else m } := by
  unfold takeOrder
  rw [hmode]
  dsimp only
  rw [if_neg hserial]
  by_cases hheld : m ≠ .halt ∧ (s.hu.effect.atLeast .halt = true ∨ s.sl.settled = false)
  · rw [if_pos hheld, if_pos (by simpa using hheld)]
    simp
  · rw [if_neg hheld, if_neg (by simpa using hheld)]
    simp

theorem takeService_ct (n : Nat) (p : ServicePayload) (s : State) : (takeService n p s).1.ct =
    if s.ct.serviceSerials.getD n none = some p.serial then s.ct
    else { s.ct with
      serviceSerials := s.ct.serviceSerials.set n (some p.serial)
      cabins := s.ct.cabins.mapIdx (fun i c => { c with outOfService := p.marks.getLsbD i }) } := by
  unfold takeService
  split <;> rfl

/-- Settles O23: the owner's share by `takeOrder_mu` and `takeService_ct`; the peer view leaves what it reads. -/
theorem receivedOrderAndService : Obligations.ReceivedOrderAndService := by
  unfold Obligations.ReceivedOrderAndService
  intro s t htakes
  refine ⟨_, takes_exec t s htakes, fun p hp hsteady => ?_, fun p hp => ?_⟩
  · have hstays := pvTake_quiet t s (by simp [hp]) (by simp [hp]) (by simp [hp]) hsteady
    generalize hx : pvTake t true (clearEcho s) = x at hstays
    have hmu : x.mu = s.mu := hstays .mu (by simp) (by simp) (by simp)
    have hhu : x.hu = s.hu := hstays .hu (by simp) (by simp) (by simp)
    have hsl : x.sl = s.sl := hstays .sl (by simp) (by simp) (by simp)
    have howner : (acceptTelegram t (clearEcho s)).mu = (takeOrder t.sender.toNat p x).1.mu := by
      simp [acceptTelegram_eq, giveOwner, hp, hx]
    rw [howner, ← hmu]
    refine ⟨fun h => by rw [takeOrder_ignored h], fun m hserial hmode => ?_⟩
    rw [takeOrder_mu hserial hmode, hhu, hsl]
    exact ⟨rfl, rfl⟩
  · have hct : (pvTake t true (clearEcho s)).ct = s.ct := by simp [clearEcho]
    have howner : (acceptTelegram t (clearEcho s)).ct =
        (takeService t.sender.toNat p (pvTake t true (clearEcho s))).1.ct := by
      simp [acceptTelegram_eq, giveOwner, hp]
    rw [howner, takeService_ct, hct]
    exact ⟨fun h => if_pos h, fun h => if_neg h⟩

/-! ### The sender's record and station time (R44, R45, R48, R50, R59) -/

theorem acceptTelegram_peer (t : Telegram) (s : State) (n : Nat) :
    (acceptTelegram t s).peer n = (pvTake t true s).peer n :=
  peer_of_pv (by simp [acceptTelegram_eq]) n

theorem judgeSeq_counts (seq : Byte) (p : Peer) : (p.judgeSeq seq).lastSeq = seq ∧
    (p.judgeSeq seq).gaps =
      if p.state = .absent ∨ seq = p.lastSeq ∨ seq = p.lastSeq + 1 then p.gaps else min 255 (p.gaps + 1) := by
  by_cases hstate : p.state = .absent
  · simp [Peer.judgeSeq, hstate]
  · rw [judgeSeq_eq hstate]
    simp [hstate]

theorem takeContent_counts (c : Payload) (accepted : Bool) (now : Nat) (p : Peer) :
    (p.takeContent c accepted now).lastSeq = p.lastSeq ∧ (p.takeContent c accepted now).gaps = p.gaps := by
  unfold Peer.takeContent
  (repeat' split) <;> exact ⟨rfl, rfl⟩

/-- The RESTARTED test leaves of the records only the sender's mark (R51). -/
theorem restartTest_peer (q : PresencePayload) {s : State} (hlen : s.pv.table.length = 24) {n : Nat} (hn : n < 24)
    (m : Nat) : (restartTest n q s).peer m =
      if m = n then { s.peer n with restartedSeen := flagRestarted q.flags } else s.peer m := by
  unfold restartTest
  dsimp only
  generalize hz : (if (flagRestarted q.flags && restartFound (s.peer n) q) = true then handleRestart n s else s) = z
  have hpv : z.pv = s.pv := by
    rw [← hz]
    split <;> simp
  rw [onPeer_at _ _ _ _ (by rw [hpv]; exact hlen) hn, peer_of_pv hpv, peer_of_pv hpv]

/-- The records after a PRESENCE of another station (R45, R48). -/
theorem pvTakeOther_presence_peer {s : State} {t : Telegram} {q : PresencePayload} (hq : t.payload = .presence q)
    (acc : Bool) (hlen : s.pv.table.length = 24) (hn : t.sender.toNat < 24) (m : Nat) :
    (pvTakeOther t acc s).peer m = if m = t.sender.toNat then
      { (s.peer t.sender.toNat).judgeSeq t.seq with
        restartedSeen := flagRestarted q.flags
        heard := some (heardOf q)
        lastHeard := s.clock.now
        state := if s.presenceMatches t.sender.toNat q = true then .fresh else .foreign }
    else s.peer m := by
  unfold pvTakeOther
  rw [hq]
  dsimp only
  rw [peer_of_pv (afterParts_pv _ _ _ _ _)]
  obtain ⟨a, ha⟩ : ∃ a, a = s.onPeer t.sender.toNat (·.judgeSeq t.seq) := ⟨_, rfl⟩
  rw [← ha]
  have hlena : a.pv.table.length = 24 := by rw [ha, onPeer_length, hlen]
  have hpeera : ∀ d, a.peer d = if d = t.sender.toNat then (s.peer t.sender.toNat).judgeSeq t.seq
      else s.peer d := fun d => ha ▸ onPeer_at _ _ _ _ hlen hn
  obtain ⟨b, hb⟩ : ∃ b, b = restartTest t.sender.toNat q a := ⟨_, rfl⟩
  rw [← hb]
  have hpeerb : ∀ d, b.peer d = if d = t.sender.toNat then
      { a.peer t.sender.toNat with restartedSeen := flagRestarted q.flags } else a.peer d :=
    fun d => hb ▸ restartTest_peer q hlena hn d
  have hlenb : b.pv.table.length = 24 := by
    rw [hb]
    unfold restartTest
    dsimp only
    rw [onPeer_length]
    split <;> simp [hlena]
  have hslb : b.sl = s.sl := by simp [hb, ha, State.onPeer]
  have hnowb : b.now = s.clock.now := by simp [hb, ha, State.onPeer, State.now]
  have hmatches : b.presenceMatches t.sender.toNat q = s.presenceMatches t.sender.toNat q := by
    have hrole : (b.peer t.sender.toNat).role = (s.peer t.sender.toNat).role := by
      rw [hpeerb, if_pos rfl, hpeera, if_pos rfl]
      exact (judgeSeq_same _ _).2.1
    simp only [State.presenceMatches, hrole, hslb]
  have hstate : b.stateAfter t.sender.toNat (.presence q) =
      if s.presenceMatches t.sender.toNat q = true then .fresh else .foreign := by
    simp only [State.stateAfter, hmatches]
  rw [setPeerState_at _ _ _ (by rw [onPeer_length, hlenb]) hn, onPeer_at _ _ _ _ hlenb hn,
    onPeer_at _ _ _ _ hlenb hn, hstate, hnowb, hpeerb, hpeerb]
  by_cases hm : m = t.sender.toNat
  · simp only [hm, if_true, hpeera, Peer.takeContent]
  · simp only [hm, if_false, hpeera]

theorem takeMark_clock {n : Nat} {p : MarkPayload} {s : State} (hn : n ≠ s.own) :
    (takeMark n p s).1.clock = { s.clock with station := if s.timeSourceNow = some n ∧
      ¬ (-4 ≤ (p.time - s.clock.station).toInt ∧ (p.time - s.clock.station).toInt ≤ 4)
      then p.time else s.clock.station } := by
  unfold takeMark
  rw [if_neg hn]
  by_cases hsource : s.timeSourceNow = some n
  · rw [if_neg (by simp [hsource])]
    by_cases hclose : -4 ≤ (p.time - s.clock.station).toInt ∧ (p.time - s.clock.station).toInt ≤ 4
    · rw [if_pos (by exact hclose), if_neg (fun h => h.2 hclose)]
    · rw [if_neg (by exact hclose), if_pos ⟨hsource, hclose⟩]
      rfl
  · rw [if_pos hsource, if_neg (fun h => hsource h.1)]

theorem timeSourceNow_of {s t : State} (hpv : t.pv = s.pv) (hsl : t.sl = s.sl) :
    t.timeSourceNow = s.timeSourceNow := by
  have hqualifies : t.sourceQualifies = s.sourceQualifies := by
    funext n
    simp only [State.sourceQualifies, State.peer, hpv, hsl]
  rw [State.timeSourceNow, State.timeSourceNow, hqualifies]

/-- No owner but MARK's sets station time, and MARK's not for an own echo (R59). -/
theorem giveOwner_clock {t : Telegram} {s : State} (h : (∀ p, t.payload ≠ .mark p) ∨ t.sender.toNat = s.own) :
    (giveOwner t s).1.clock = s.clock := by
  unfold giveOwner
  cases hpay : t.payload with
  | mark p =>
    have hown : t.sender.toNat = s.own := by simpa [hpay] using h
    simp [takeMark, hown]
  | release p =>
    dsimp only
    split <;> simp
  | _ => simp

/-- Settles O24: the records by `pvTakeOther_peer`, `pvTakeOther_presence_peer` and `pvTakeOwn_peer`, station
time by `takeMark_clock`. -/
theorem receivedPresenceAndMark : Obligations.ReceivedPresenceAndMark := by
  unfold Obligations.ReceivedPresenceAndMark
  refine ⟨fun s t haccepts hwf => ?_, fun s t hecho hwf => ?_⟩
  · have hn := takes_num t s (Or.inl haccepts)
    have hother : t.sender.toNat ≠ s.own := haccepts.1.2.2.2
    have hpeer : ∀ m, (acceptTelegram t (clearEcho s)).peer m = (pvTakeOther t true (clearEcho s)).peer m := by
      intro m
      rw [acceptTelegram_peer, pvTake_other _ _ _ (by exact hother)]
    obtain ⟨hseq, hgaps⟩ := judgeSeq_counts t.seq (s.peer t.sender.toNat)
    have hlen : (clearEcho s).pv.table.length = 24 := hwf.1
    refine ⟨_, exec_accepts haccepts, ?_⟩
    simp only [hpeer]
    by_cases hpres : ∃ q, t.payload = .presence q
    · obtain ⟨q, hq⟩ := hpres
      have hrecord := pvTakeOther_presence_peer hq true hlen hn
      simp only [hrecord, if_true]
      refine ⟨hseq, hgaps, fun q' hq' => ?_, fun p hp => by simp [hq] at hp⟩
      obtain rfl : q = q' := by simpa [hq] using hq'
      refine ⟨rfl, rfl, rfl, rfl, fun m hm => ?_⟩
      rw [if_neg hm]
      rfl
    · have hp : ∀ q, t.payload ≠ .presence q := fun q hq => hpres ⟨q, hq⟩
      have hrecord := pvTakeOther_peer t true (clearEcho s) hp hlen hn
      simp only [hrecord, if_true]
      obtain ⟨hseq', hgaps'⟩ := takeContent_counts t.payload true s.clock.now ((s.peer t.sender.toNat).judgeSeq t.seq)
      refine ⟨hseq'.trans hseq, hgaps'.trans hgaps, fun q hq => absurd hq (hp q), fun p hp' => ⟨?_, rfl, ?_⟩⟩
      · have hfresh := takes_fresh t s (Or.inl haccepts) hp
        cases hs : (s.peer t.sender.toNat).state
        case foreign => exact absurd hs hfresh
        all_goals rw [show ((clearEcho s).peer t.sender.toNat).state = (s.peer t.sender.toNat).state from rfl, hs]
      · obtain ⟨x, hx⟩ : ∃ x, x = pvTake t true (clearEcho s) := ⟨_, rfl⟩
        have hclock : x.clock = s.clock := by simp [hx, clearEcho]
        have hsl : x.sl = s.sl := by simp [hx, clearEcho]
        have hu : (acceptTelegram t (clearEcho s)).clock = (takeMark t.sender.toNat p x).1.clock := by
          simp [acceptTelegram_eq, giveOwner, hp', hx]
        have hsource : (acceptTelegram t (clearEcho s)).timeSourceNow = x.timeSourceNow :=
          timeSourceNow_of (by simp [acceptTelegram_eq, hx]) (by simp [acceptTelegram_eq, hx])
        rw [hu, takeMark_clock (by simpa [State.own, hsl] using hother), hsource, hclock]
  · have hn := takes_num t s (Or.inr hecho)
    have hown : t.sender.toNat = s.own := hecho.1.2.2.2.1
    have htake : pvTake t true (clearEcho s) = pvTakeOwn t true (clearEcho s) := if_pos hown
    have hpeer : ∀ m, (acceptTelegram t (clearEcho s)).peer m = _ := fun m => by
      rw [acceptTelegram_peer, htake, pvTakeOwn_peer t true (clearEcho s) (by exact hwf.1) hn m]
    refine ⟨_, takes_exec t s (Or.inr hecho), ?_, fun m hm => ?_, ?_⟩
    · rw [acceptTelegram_eq, (logTelegram_spares ..).1, giveOwner_clock (Or.inr ?_)]
      · simp [clearEcho]
      · simpa [State.own, clearEcho] using hown
    · rw [hpeer, if_neg (by rw [hown]; exact hm)]
      rfl
    · dsimp only
      have hstation : t.sender.toNat = s.sl.station := hown
      rw [hpeer, if_pos hstation.symm, hstation]
      unfold Peer.takeContent
      cases t.payload <;> rfl

end Sys2Proof.Machine
end

section
/-! SUPPORT. Accepted telegrams: releases and overrides (R83, R84), reports of wind (R62), passages (R128), holds (R82), the
parts of a peer (R53, R90, R95, R96). -/

namespace Sys2Proof.Machine

/-! ### Releases and overrides (R83, R84, R93) -/

/-- The records left when a key is taken out (R76). -/
def HoldUnit.without (u : HoldUnit) (k : HoldKind) (d : Nat) : List HoldRec :=
  u.records.filter (fun x => !x.hasKey k d)

theorem without_of_absent {u : HoldUnit} {k : HoldKind} {d : Nat} (h : (u.find? k d).isSome = false) :
    u.without k d = u.records := by
  rw [Option.isSome_eq_false_iff, Option.isNone_iff_eq_none, HoldUnit.find?, List.find?_eq_none] at h
  rw [HoldUnit.without, List.filter_eq_self]
  intro r hr
  simpa using h r hr

/-- Take a key out of the set, where it is held. -/
def dropRecord (k : HoldKind) (d : Nat) (s : State) : State :=
  if (s.hu.find? k d).isSome then removeRecord k d s else s

theorem dropRecord_set {s : State} (heffect : s.hu.effect = severest s.hu.records) (k : HoldKind) (d : Nat) :
    (dropRecord k d s).hu.records = s.hu.without k d ∧ (dropRecord k d s).hu.own = s.hu.own ∧
      (dropRecord k d s).hu.effect = severest (s.hu.without k d) := by
  unfold dropRecord
  split
  · exact removeRecord_set k d s
  · next h =>
    rw [without_of_absent (by simpa using h)]
    exact ⟨rfl, rfl, heffect⟩

theorem dropRecord_lamp (k : HoldKind) (d : Nat) (s : State) : s.lampStep (dropRecord k d s) := by
  unfold dropRecord
  split
  · exact removeRecord_lamp k d s
  · exact lampStep_quiet rfl rfl rfl

theorem dropRecord_marks (k : HoldKind) (d : Nat) (s : State) : (dropRecord k d s).hu.cond = s.hu.cond ∧
    (dropRecord k d s).hu.overridden = s.hu.overridden ∧ (dropRecord k d s).hu.dwellFrom = s.hu.dwellFrom := by
  unfold dropRecord
  split <;> simp

theorem find?_of_without {u v : HoldUnit} {k : HoldKind} {d : Nat} (h : v.records = u.without k d) :
    v.find? k d = none := by
  rw [HoldUnit.find?, h, HoldUnit.without, List.find?_eq_none]
  intro r hr
  simpa using (List.mem_filter.mp hr).2

theorem takeRelease_drops {n : Nat} {p : ReleasePayload} {k : HoldKind} {s : State} (hn : n ≠ s.own)
    (hk : holdKindOf p.kind.toNat = some k) : (takeRelease n p s).1 = dropRecord k p.declarer.toNat s := by
  unfold takeRelease dropRecord
  rw [if_neg hn, hk]
  dsimp only
  split <;> rfl

theorem takeOverride_eq {p : ReleasePayload} {k : HoldKind} {s : State} (hk : holdKindOf p.kind.toNat = some k) :
    (takeOverride p s).1 =
      if k = .storm ∧ s.wv.stormStanding = true then s
      else if p.declarer.toNat = s.own ∧
          ((s.hu.find? k p.declarer.toNat).isSome = true ∨ (s.hu.own? k).isSome = true) then overrideOwn k s
      else dropRecord k p.declarer.toNat s := by
  unfold takeOverride dropRecord
  rw [hk]
  dsimp only
  (repeat' split) <;> simp_all

/-- What an override of an own hold leaves of the list and the conditions, before its record goes (R84, R93). -/
def overridden (k : HoldKind) (s : State) : State :=
  let s := s.onHu (fun h => { h with own := h.own.filter (fun o => o.kind != k) })
  if k = .link then overrideLink s else s

theorem overrideOwn_eq (k : HoldKind) (s : State) : overrideOwn k s = dropRecord k s.own (overridden k s) := by
  have hown : (overridden k s).own = s.own := by
    unfold overridden
    dsimp only
    split <;> simp [State.own]
  rw [← hown]
  rfl

theorem overrideLink_hu (s : State) : (overrideLink s).hu = { s.hu with
    cond := { s.hu.cond with button := false }
    overridden := { s.hu.cond with button := false }
    dwellFrom := none } := by
  unfold overrideLink
  dsimp only
  split <;> simp [LinkFlags.put]

theorem overridden_hu (k : HoldKind) (s : State) :
    let v := overridden k s
    v.hu.records = s.hu.records ∧ v.hu.effect = s.hu.effect ∧
    v.hu.own = s.hu.own.filter (fun o => o.kind != k) ∧ s.hu.lampSame v.hu ∧
    (k = .link → v.hu.cond = { s.hu.cond with button := false } ∧
      v.hu.overridden = { s.hu.cond with button := false } ∧ v.hu.dwellFrom = none) := by
  unfold overridden
  dsimp only
  split
  · rw [overrideLink_hu]
    exact ⟨rfl, rfl, rfl, ⟨rfl, rfl, rfl⟩, fun _ => ⟨rfl, rfl, rfl⟩⟩
  · next hk => exact ⟨rfl, rfl, rfl, ⟨rfl, rfl, rfl⟩, fun h => absurd h hk⟩

theorem overridden_lamp (k : HoldKind) (s : State) : s.lampStep (overridden k s) := by
  obtain ⟨hrecords, heffect, -, hlamp, -⟩ := overridden_hu k s
  have hsl : (overridden k s).sl = s.sl ∧ (overridden k s).clock = s.clock := by
    unfold overridden
    dsimp only
    split <;> simp
  exact ⟨by simp [State.role, hsl], by rw [hsl.2], fun _ => hlamp, fun _ => Or.inl ⟨hlamp, hrecords, heffect⟩⟩

/-- An override of an own hold (R84, R93). -/
theorem overrideOwn_facts {s : State} (heffect : s.hu.effect = severest s.hu.records) (k : HoldKind) :
    let u := overrideOwn k s
    u.hu.records = s.hu.without k s.own ∧ u.hu.own? k = none ∧ (∀ j, j ≠ k → u.hu.own? j = s.hu.own? j) ∧
    u.hu.effect = severest (s.hu.without k s.own) ∧
    (k = .link → u.hu.cond = { s.hu.cond with button := false } ∧
      u.hu.overridden = { s.hu.cond with button := false } ∧ u.hu.dwellFrom = none) := by
  dsimp only
  rw [overrideOwn_eq]
  obtain ⟨hrecords, hformed, hown, -, hlink⟩ := overridden_hu k s
  obtain ⟨drecords, down, deffect⟩ :=
    dropRecord_set (s := overridden k s) (by rw [hrecords, hformed, heffect]) k s.own
  obtain ⟨dcond, doverridden, ddwell⟩ := dropRecord_marks k s.own (overridden k s)
  have hwithout : (overridden k s).hu.without k s.own = s.hu.without k s.own := by
    simp only [HoldUnit.without, hrecords]
  have hown? : ∀ j, (dropRecord k s.own (overridden k s)).hu.own? j = if j = k then none else s.hu.own? j := by
    intro j
    rw [HoldUnit.own?, down, hown]
    exact own?_filter k j s.hu
  refine ⟨drecords.trans hwithout, by rw [hown?, if_pos rfl], fun j hj => by rw [hown?, if_neg hj],
    by rw [deffect, hwithout], fun hk => ?_⟩
  rw [dcond, doverridden, ddwell]
  exact hlink hk

theorem takeOverride_lamp (p : ReleasePayload) {k : HoldKind} {s : State} (hk : holdKindOf p.kind.toNat = some k) :
    s.lampStep (takeOverride p s).1 := by
  rw [takeOverride_eq hk]
  split
  · exact lampStep_quiet rfl rfl rfl
  · split
    · rw [overrideOwn_eq]
      exact (overridden_lamp k s).trans (dropRecord_lamp ..)
    · exact dropRecord_lamp ..

/-- An accepted RELEASE acts on the hold unit by its reason (R83, R84). -/
theorem acceptTelegram_release {s : State} {t : Telegram} {p : ReleasePayload} (hp : t.payload = .release p) :
    ∃ (r : Role) (o : LogOutcome), acceptTelegram t s = logTelegram r t o
      (if p.reason = 1 then (takeOverride p (pvTake t true s)).1
        else (takeRelease t.sender.toNat p (pvTake t true s)).1) := by
  refine ⟨s.sl.sheet.roleAt t.sender.toNat, (giveOwner t (pvTake t true s)).2, ?_⟩
  rw [acceptTelegram_eq]
  congr 1
  unfold giveOwner
  rw [hp]
  dsimp only
  split <;> rfl

/-- Settles O19: the state that the owner takes is `pvTake_quiet`'s, and what it leaves by `dropRecord_set` and
`overrideOwn_facts`. -/
theorem receivedReleaseEndsTheHold : Obligations.ReceivedReleaseEndsTheHold := by
  unfold Obligations.ReceivedReleaseEndsTheHold
  intro s t p k hp htakes hwf hk
  obtain ⟨-, -, heffect, -⟩ := hwf
  dsimp only
  obtain ⟨r, o, hu⟩ := acceptTelegram_release (s := clearEcho s) hp
  obtain ⟨x, hx⟩ : ∃ x, x = pvTake t true (clearEcho s) := ⟨_, rfl⟩
  rw [← hx] at hu
  have hxsl : x.sl = s.sl := by simp [hx, clearEcho]
  have hxown : x.own = s.own := by simp [State.own, hxsl]
  have hstays : s.steady t.sender.toNat → x.hu = s.hu ∧ x.wv = s.wv ∧ x.clock = s.clock := by
    intro hsteady
    have hquiet := pvTake_quiet t s (by simp [hp]) (by simp [hp]) (by simp [hp]) hsteady
    rw [← hx] at hquiet
    exact ⟨hquiet .hu (by simp) (by simp) (by simp), hquiet .wv (by simp) (by simp) (by simp),
      hquiet .clock (by simp) (by simp) (by simp)⟩
  have hrelease : s.accepts t → p.reason = 0 →
      (acceptTelegram t (clearEcho s)).hu = (dropRecord k p.declarer.toNat x).hu := by
    intro haccepts hreason
    have hother : t.sender.toNat ≠ x.own := by rw [hxown]; exact haccepts.1.2.2.2
    rw [hu, if_neg (by simp [hreason]), takeRelease_drops hother hk]
    simp
  have hoverride : p.reason = 1 → (acceptTelegram t (clearEcho s)).hu = (takeOverride p x).1.hu := by
    intro hreason
    rw [hu, if_pos hreason]
    simp
  refine ⟨_, takes_exec t s htakes, fun haccepts hreason => ?_, fun hecho hreason b h1 h2 h3 => ?_,
    fun hsteady => lampFollows_step ?_, fun haccepts hsteady hreason => ?_, fun hsteady hreason hstorm hstands => ?_,
    fun hsteady hreason hno => ⟨fun hd hheld => ?_, fun hnone hown => ?_, fun hd => ?_⟩⟩
  · rw [hrelease haccepts hreason]
    unfold dropRecord
    split
    · exact find?_of_without (removeRecord_set k p.declarer.toNat x).1
    · next h => simpa using h
  · have hown : t.sender.toNat = s.own := hecho.1.2.2.2.1
    have hquiet := pvTake_quiet t s (by simp [hp]) (by simp [hp]) (by simp [hp]) (Or.inl hown) b h2 h3 h1
    rw [← hx] at hquiet
    have hsame : (if p.reason = 1 then (takeOverride p x).1 else (takeRelease t.sender.toNat p x).1) = x := by
      rw [if_neg (by simp [hreason]), takeRelease, if_pos (by rw [hown, hxown])]
    rw [hu, hsame]
    cases b <;> simp [Block.same] at hquiet h1 h2 h3 ⊢ <;> exact hquiet
  · obtain ⟨hhu, -, hclock⟩ := hstays hsteady
    rw [hu]
    refine lampStep_log ((lampStep_quiet hhu hclock hxsl).trans ?_) r t o
    split
    · exact takeOverride_lamp p hk
    · by_cases hown : t.sender.toNat = x.own
      · rw [takeRelease, if_pos hown]
        exact lampStep_quiet rfl rfl rfl
      · rw [takeRelease_drops hown hk]
        exact dropRecord_lamp ..
  · obtain ⟨hhu, -, -⟩ := hstays hsteady
    rw [hrelease haccepts hreason]
    have h := dropRecord_set (s := x) (by rw [hhu, heffect]) k p.declarer.toNat
    rw [hhu] at h
    exact h
  · obtain ⟨hhu, hwv, -⟩ := hstays hsteady
    rw [hoverride hreason, takeOverride_eq hk, if_pos ⟨hstorm, by rw [hwv]; exact hstands⟩, hhu]
  all_goals
    obtain ⟨hhu, hwv, -⟩ := hstays hsteady
    rw [hoverride hreason, takeOverride_eq hk, if_neg (by rw [hwv]; exact hno)]
  · have hd' : p.declarer.toNat = x.own := by rw [hxown]; exact hd
    have h := overrideOwn_facts (s := x) (by rw [hhu, heffect]) k
    rw [if_pos ⟨hd', by rw [hhu]; exact hheld⟩]
    dsimp only at h
    rw [← hd', hhu] at h
    exact h
  · have hnot : ¬ (p.declarer.toNat = x.own ∧
        ((x.hu.find? k p.declarer.toNat).isSome = true ∨ (x.hu.own? k).isSome = true)) := by
      rintro ⟨hd, hheld⟩
      rw [hhu, hnone, hown (by rw [hd, hxown]; rfl)] at hheld
      simp at hheld
    rw [if_neg hnot, dropRecord, hhu, if_neg (by simp [hnone]), hhu]
  · rw [if_neg (fun h => hd (h.1.trans (by rw [hxown]; rfl)))]
    have h := dropRecord_set (s := x) (by rw [hhu, heffect]) k p.declarer.toNat
    rw [hhu] at h
    exact h

/-! ### Parts of a peer and the halt watch (R44, R53, R90, R95, R96) -/

theorem motionAcks_iff (b : Byte) : motionAcks b.toNat = true ↔ b ∈ [(0 : Byte), 3, 4, 5] := by
  have hcode : ∀ n : Nat, n < 256 → ((b.toNat == n) = true ↔ b = BitVec.ofNat 8 n) := by
    intro n hn
    rw [beq_iff_eq, ← BitVec.toNat_inj, BitVec.toNat_ofNat, Nat.mod_eq_of_lt hn]
  simp only [motionAcks, Bool.or_eq_true, hcode 3 (by omega), hcode 4 (by omega), hcode 0 (by omega),
    hcode 5 (by omega), List.mem_cons, List.not_mem_nil, or_false]
  tauto

theorem toNat_beq_zero (b : Byte) : (b.toNat == 0) = true ↔ b = 0 := by
  rw [beq_iff_eq, ← BitVec.toNat_inj]
  rfl

/-- The lists of the watch after a MOTION of a listed drive (R95, R96). -/
def Watch.ackedBy (w : Watch) (n : Nat) (state : Byte) : List Nat :=
  if (w.ackUntil.isSome = true ∧ state ∈ [(0 : Byte), 3, 4, 5]) ∧ n ∉ w.acked then w.acked ++ [n] else w.acked

def Watch.brakedBy (w : Watch) (n : Nat) (state : Byte) : List Nat :=
  if state = 0 ∧ n ∉ w.braked then w.braked ++ [n] else w.braked

/-- The watch after a MOTION of a listed drive. -/
def Watch.shown (w : Watch) (n : Nat) (state : Byte) : Watch :=
  { w with acked := w.ackedBy n state, braked := w.brakedBy n state }

theorem watchMotion_eq {s : State} {w : Watch} {n : Nat} (hw : s.hu.watch = some w) (hn : n ∈ w.list)
    (state : Byte) : watchMotion n state.toNat s =
      if ∀ d ∈ w.list, d ∈ w.brakedBy n state then
        endWatch 0 w.counted (s.onHu (fun h => { h with watch := some (w.shown n state) }))
      else s.onHu (fun h => { h with watch := some (w.shown n state) }) := by
  have hacked : (if (w.ackUntil.isSome && motionAcks state.toNat && !(w.acked.contains n)) = true
      then w.acked ++ [n] else w.acked) = w.ackedBy n state := by
    simp only [Watch.ackedBy, Bool.and_eq_true, motionAcks_iff, Bool.not_eq_true', List.contains_eq_mem,
      decide_eq_false_iff_not]
  have hbraked : (if (state.toNat == 0 && !(w.braked.contains n)) = true then w.braked ++ [n] else w.braked) =
      w.brakedBy n state := by
    simp only [Watch.brakedBy, Bool.and_eq_true, toNat_beq_zero, Bool.not_eq_true', List.contains_eq_mem,
      decide_eq_false_iff_not]
  unfold watchMotion
  rw [hw]
  dsimp only
  rw [if_pos hn, hacked, hbraked]
  simp only [List.all_eq_true, List.contains_eq_mem, decide_eq_true_eq]
  rfl

theorem endWatch_event {s : State} (hs : s.suppressed .haltWatchDone = false) (proxied : Nat) (counted : List Nat) :
    Recent 1 (EventEntry.mk .haltWatchDone (BitVec.ofNat 16 proxied) s.clock.station) (endWatch proxied counted s) := by
  have h := raise_recent (c := .haltWatchDone) (n := proxied)
    (s := s.onHu (fun h => { h with watch := none })) ((suppressed_congr rfl _).trans hs)
  exact h.log (by omega) _ _ _

theorem watchMotion_cond (n : Nat) (state : Byte) (s : State) :
    (watchMotion n state.toNat s).hu.cond = s.hu.cond := by
  cases hw : s.hu.watch with
  | none => simp only [watchMotion, hw]
  | some w =>
    by_cases hn : n ∈ w.list
    · rw [watchMotion_eq hw hn]
      split <;> simp
    · simp only [watchMotion, hw, if_neg hn]

/-- DRIVES_LOW judged again leaves the watch, where the monitor does not act. -/
theorem recheckDrives_watch {s : State} (h : s.sl.settled = false ∨ (recheckDrives s).hu.cond = s.hu.cond) :
    (recheckDrives s).hu.watch = s.hu.watch ∧
    (∀ n e, n < 31 → Recent n e s → Recent (n + 1) e (recheckDrives s)) := by
  unfold recheckDrives at h ⊢
  rcases h with h | h
  · refine ⟨?_, fun n e hn hr => hr.setCond hn h (by decide) _⟩
    unfold setCond
    split
    · rfl
    · dsimp only
      rw [if_neg (by simp [h])]
      simp
  · have hsame : s.hu.cond.get .drivesLow = decide (s.availableDrives.length < s.sl.sheet.minDrives) := by
      rw [(setCond_conds ..).1] at h
      rw [← h, get_put, if_pos rfl]
    rw [setCond_same hsame]
    exact ⟨rfl, fun n e _ hr => hr.mono (by omega)⟩

theorem acceptTelegram_motion {s : State} {t : Telegram} {m : MotionPayload} (hm : t.payload = .motion m) :
    acceptTelegram t s = logTelegram (s.sl.sheet.roleAt t.sender.toNat) t .accepted (pvTake t true s) := by
  have howner : giveOwner t (pvTake t true s) = (pvTake t true s, .accepted) := by
    unfold giveOwner
    rw [hm]
  rw [acceptTelegram_eq, howner]

theorem giveOwner_bay {s : State} {t : Telegram} {b : BayPayload} (hb : t.payload = .bay b) :
    giveOwner t s = takeSummary (s.sl.sheet.roleAt t.sender.toNat) t.sender.toNat b s := by
  unfold giveOwner
  rw [hb]

theorem takeSummary_cond (r : Role) (n : Nat) (b : BayPayload) (s : State) :
    (takeSummary r n b s).1.hu.cond = s.hu.cond := by
  unfold takeSummary
  split
  · rfl
  · split
    · rfl
    · exact applyPassage_cond ..

/-- The sender's record after an accepted telegram but PRESENCE (R44, R45). -/
theorem takes_peer {s : State} {t : Telegram} (htakes : s.takes t) (hp : ∀ q, t.payload ≠ .presence q)
    (hwf : s.pv.Wf) :
    let u := acceptTelegram t (clearEcho s)
    let p := s.peer t.sender.toNat
    (u.peer t.sender.toNat).motion = (p.takeContent t.payload true s.clock.now).motion ∧
    (u.peer t.sender.toNat).bay = (p.takeContent t.payload true s.clock.now).bay ∧
    (u.peer t.sender.toNat).state = (if t.sender.toNat = s.sl.station then p.state else .fresh) ∧
    (u.peer t.sender.toNat).lastHeard = s.clock.now ∧
    (∀ n, n ≠ t.sender.toNat → u.peer n = s.peer n) := by
  have hn := takes_num t s htakes
  have hlen : (clearEcho s).pv.table.length = 24 := hwf.1
  have hother : ∀ n, (clearEcho s).peer n = s.peer n := fun n => rfl
  dsimp only
  simp only [acceptTelegram_peer]
  by_cases hown : t.sender.toNat = s.own
  · have htake : pvTake t true (clearEcho s) = pvTakeOwn t true (clearEcho s) := if_pos hown
    have hrecord := pvTakeOwn_peer t true (clearEcho s) hlen hn
    rw [htake]
    simp only [hrecord, if_true, hother]
    refine ⟨rfl, rfl, ?_, rfl, fun n hne => if_neg hne⟩
    rw [if_pos (show t.sender.toNat = s.sl.station from hown)]
    exact (takeContent_same _ _ _ _).1
  · have hrecord := pvTakeOther_peer t true (clearEcho s) hp hlen hn
    rw [pvTake_other _ _ _ (by exact hown)]
    simp only [hrecord, if_true, hother]
    obtain ⟨-, -, hmotion, hbay⟩ := judgeSeq_same t.seq (s.peer t.sender.toNat)
    refine ⟨?_, ?_, ?_, rfl, fun n hne => if_neg hne⟩
    · unfold Peer.takeContent
      cases t.payload <;> first | exact hmotion | rfl
    · unfold Peer.takeContent
      cases t.payload <;> first | exact hbay | rfl
    · rw [if_neg (show ¬ t.sender.toNat = s.sl.station from hown)]
      have hfresh := takes_fresh t s htakes hp
      cases hs : (s.peer t.sender.toNat).state
      case foreign => exact absurd hs hfresh
      all_goals rfl

/-- Settles O20: the record by `takes_peer`, the watch by `watchMotion_eq`. -/
theorem receivedReportsBecomeParts : Obligations.ReceivedReportsBecomeParts := by
  unfold Obligations.ReceivedReportsBecomeParts
  intro s t htakes hwf
  refine ⟨_, takes_exec t s htakes, fun m hm => ?_, fun b hb => ?_⟩
  · have hp : ∀ q, t.payload ≠ .presence q := by simp [hm]
    obtain ⟨hmotion, hbay, hstate, hheard, hrest⟩ := takes_peer htakes hp hwf
    simp only [hm, Peer.takeContent, if_true] at hmotion hbay
    obtain ⟨ch, z, htail, hsl, hhu, hclock⟩ := pvTake_tail t s hp
    have htake : pvTake t true (clearEcho s) = recheckDrives (watchMotion t.sender.toNat m.state.toNat z) := by
      rw [htail, hm]
      rfl
    obtain ⟨y, hy⟩ : ∃ y, y = watchMotion t.sender.toNat m.state.toNat z := ⟨_, rfl⟩
    rw [← hy] at htake
    have hysl : y.sl = s.sl := by simp [hy, hsl]
    have hu := acceptTelegram_motion (s := clearEcho s) hm
    rw [htake] at hu
    refine ⟨hmotion, hbay, hstate, hheard, hrest, ?_, fun w hw hlisted hmonitor => ?_⟩
    · rw [hu]
      have havail : (logTelegram ((clearEcho s).sl.sheet.roleAt t.sender.toNat) t .accepted
          (recheckDrives y)).availableDrives = (recheckDrives y).availableDrives :=
        availableDrives_of (by simp) (by simp)
      rw [havail, (logTelegram_spares ..).2.2.2.2.2.2.1, recheckDrives_ok, decide_eq_true_eq]
      simp [hysl]
    · dsimp only
      have hmon : y.sl.settled = false ∨ (recheckDrives y).hu.cond = y.hu.cond := by
        rw [hysl]
        refine hmonitor.imp id fun h => ?_
        rw [hu] at h
        simp only [logTelegram_spares] at h
        rw [h, hy, watchMotion_cond, hhu]
      obtain ⟨hwatch, hevents⟩ := recheckDrives_watch hmon
      have hafter : (acceptTelegram t (clearEcho s)).hu.watch = y.hu.watch := by
        rw [hu]
        simp [hwatch]
      have hstep := watchMotion_eq (s := z) (by rw [hhu]; exact hw) hlisted m.state
      rw [← hy] at hstep
      rw [hafter]
      change ((∃ d ∈ w.list, d ∉ w.brakedBy t.sender.toNat m.state) →
          y.hu.watch = some (w.shown t.sender.toNat m.state)) ∧
        ((∀ d ∈ w.list, d ∈ w.brakedBy t.sender.toNat m.state) → y.hu.watch = none ∧ _)
      refine ⟨fun ⟨d, hd, hnot⟩ => ?_, fun hall => ⟨?_, fun hs => ?_⟩⟩
      · rw [hstep, if_neg fun hall => hnot (hall d hd)]
        rfl
      · rw [hstep, if_pos hall]
        simp [endWatch]
      · rw [if_pos hall] at hstep
        have hz : z.suppressed .haltWatchDone = false := (suppressed_congr hsl _).trans hs
        have hended := endWatch_event (s := z.onHu (fun h => { h with watch := some (w.shown t.sender.toNat m.state) }))
          ((suppressed_congr rfl _).trans hz) 0 w.counted
        rw [← hstep, show (State.onHu _ z).clock = z.clock from rfl, hclock] at hended
        rw [hu]
        exact ((hevents 1 _ (by omega) hended).logTelegram (by omega) _ _ _).mem
  · have hp : ∀ q, t.payload ≠ .presence q := by simp [hb]
    obtain ⟨hmotion, hbay, hstate, hheard, hrest⟩ := takes_peer htakes hp hwf
    simp only [hb, Peer.takeContent, if_true] at hmotion hbay
    obtain ⟨ch, z, htail, -⟩ := pvTake_tail t s hp
    obtain ⟨x, hx⟩ : ∃ x, x = pvTake t true (clearEcho s) := ⟨_, rfl⟩
    have htake : x = recheckBays z := by
      rw [hx, htail, hb]
      rfl
    obtain ⟨o, ho⟩ : ∃ o, o = takeSummary (x.sl.sheet.roleAt t.sender.toNat) t.sender.toNat b x := ⟨_, rfl⟩
    have hu : acceptTelegram t (clearEcho s) =
        logTelegram ((clearEcho s).sl.sheet.roleAt t.sender.toNat) t o.2 o.1 := by
      rw [acceptTelegram_eq, ← hx, giveOwner_bay hb, ho]
    have hsilent : (acceptTelegram t (clearEcho s)).baySilentNow = x.baySilentNow :=
      baySilentNow_of (by simp [hu, ho]) (by simp [hu, ho])
    have hcond : (acceptTelegram t (clearEcho s)).hu.cond = x.hu.cond := by
      rw [hu, (logTelegram_spares ..).2.2.2.2.2.2.1, ho, takeSummary_cond]
    refine ⟨hbay, hmotion, hstate, hheard, hrest, ?_⟩
    rw [hcond, hsilent, htake, recheckBays_ok]

/-! ### Forming the fused level (R62, R63, R65 to R70) -/

/-- What a forming of the fused level leaves, the table of `u` being that of the forming (R65 to R70, R147). -/
def State.formed (s u : State) : Prop :=
  let levels := u.wv.freshLevels
  let raised := levels ≠ [] ∧ levels.length < s.sl.sheet.minMasts ∧ ∀ l ∈ levels, levelRank l < 2
  let old := s.wv.fused
  let new := u.wv.fused
  u.wv.freshCount = levels.length ∧ (u.wv.degraded = true ↔ raised) ∧
  (levels = [] → new = .blind) ∧ (raised → new = .gusty) ∧
  (levels ≠ [] → ¬ raised → new ∈ levels ∧ ∀ l ∈ levels, levelRank l ≤ levelRank new) ∧
  (u.wv.capped = true ↔ new ≠ .calm) ∧ (u.wv.closed = true ↔ new ≠ .calm ∧ new ≠ .breeze) ∧
  (u.wv.stormStanding = true ↔
    ∃ r ∈ u.wv.records, r.fresh = true ∧ r.report.map Prod.fst = some .storm) ∧
  (new = old → u.hu = s.hu ∧ u.mu = s.mu ∧ u.bu = s.bu) ∧
  (new ≠ old →
    (new = .blind → u.hu.cond.noWind = true) ∧ (old = .blind → u.hu.cond.noWind = false) ∧
    (new ≠ .blind → old ≠ .blind → u.hu = s.hu ∧ u.mu = s.mu) ∧
    (u.bu.boarding = true ↔ s.role = .entry ∧ u.hu.effect = .none ∧ (new = .calm ∨ new = .breeze) ∧
      u.mu.mode ≠ .halt ∧ s.sl.start = .running ∧ s.sl.settled = true) ∧
    ((new ≠ .blind ∧ old ≠ .blind) ∨ s.sl.settled = false → s.suppressed .windLevel = false →
      EventEntry.mk .windLevel (BitVec.ofNat 16 (levels.length * 256 + windCode new)) s.clock.station
        ∈ u.lu.queue))

theorem capped_iff (w : WindView) : w.capped = true ↔ w.fused ≠ .calm := by
  cases h : w.fused <;> simp [WindView.capped, h, windRank]

theorem closed_iff (w : WindView) : w.closed = true ↔ w.fused ≠ .calm ∧ w.fused ≠ .breeze := by
  cases h : w.fused <;> simp [WindView.closed, h, windRank]

theorem stormStanding_iff (w : WindView) : w.stormStanding = true ↔
    ∃ r ∈ w.records, r.fresh = true ∧ r.report.map Prod.fst = some .storm := by
  have hstorm : ∀ r : WindRec, ((match r.report with
      | some (.storm, _) => true
      | _ => false) = true) ↔ r.report.map Prod.fst = some .storm := by
    intro r
    cases r.report with
    | none => simp
    | some p =>
      obtain ⟨l, p⟩ := p
      cases l <;> simp
  simp only [WindView.stormStanding, List.any_eq_true, Bool.and_eq_true]
  exact exists_congr fun r => and_congr_right fun _ => and_congr_right fun _ => hstorm r

theorem boardingNow_iff (s : State) : s.boardingNow = true ↔ s.role = .entry ∧ s.hu.effect = .none ∧
    (s.wv.fused = .calm ∨ s.wv.fused = .breeze) ∧ s.mu.mode ≠ .halt ∧ s.sl.start = .running ∧
    s.sl.settled = true := by
  have hclosed : s.wv.closed = false ↔ s.wv.fused = .calm ∨ s.wv.fused = .breeze := by
    rw [← Bool.not_eq_true, closed_iff]
    tauto
  simp only [State.boardingNow, State.pastSettling, Bool.and_eq_true, beq_iff_eq, bne_iff_ne, Bool.not_eq_true',
    hclosed, and_assoc]

/-- A forming from a state that agrees with `s` outside the wind table. -/
theorem formFused_formed {s z u : State} (hz : z.sl = s.sl ∧ z.clock = s.clock ∧ z.hu = s.hu ∧ z.mu = s.mu ∧
    z.bu = s.bu ∧ z.wv.fused = s.wv.fused)
    (hu : u.wv = (formFused z).wv ∧ u.hu = (formFused z).hu ∧ u.mu = (formFused z).mu ∧ u.bu = (formFused z).bu)
    (hevent : ∀ e, Recent 3 e (formFused z) → e ∈ u.lu.queue) : s.formed u := by
  obtain ⟨hsl, hclock, hhu, hmu, hbu, hfused⟩ := hz
  obtain ⟨uwv, uhu, umu, ubu⟩ := hu
  obtain ⟨fwv, fsame, fchange⟩ := formFused_facts z
  obtain ⟨hdegraded, hnone, hraised, hhighest⟩ := fusedOf_spec z.sl.sheet.minMasts z.wv.freshLevels
  rw [fwv] at uwv
  have hlevels : u.wv.freshLevels = z.wv.freshLevels := by rw [uwv]; rfl
  have hnew : u.wv.fused = fusedOf s.sl.sheet.minMasts z.wv.freshLevels := by rw [uwv, hsl]
  rw [hsl] at hdegraded hnone hraised hhighest
  rw [hhu, hmu, hbu, hfused, hsl] at fsame
  rw [hhu, hmu, hfused, hsl] at fchange
  unfold State.formed
  dsimp only
  rw [hlevels, hnew]
  refine ⟨by rw [uwv], by rw [uwv, hsl]; exact hdegraded, hnone, hraised, hhighest, ?_, ?_,
    stormStanding_iff _, fun h => ?_, fun h => ?_⟩
  · rw [capped_iff, hnew]
  · rw [closed_iff, hnew]
  · rw [uhu, umu, ubu]
    exact fsame h
  · obtain ⟨hon, hoff, hkept, hboarding, hraises⟩ := fchange h
    rw [uhu, umu, ubu]
    refine ⟨hon, hoff, hkept, ?_, fun h hs => hevent _ ?_⟩
    · have hrole : (formFused z).role = s.role := by simp [State.role, hsl]
      have hfsl : (formFused z).sl = s.sl := by simp [hsl]
      rw [hboarding, boardingNow_iff, hrole, hfsl, fwv, hsl]
    · have := hraises h ((suppressed_congr hsl _).trans hs)
      rw [hclock] at this
      exact this

/-- An accepted WIND is taken by the wind table (R62). -/
theorem acceptTelegram_wind {s : State} {t : Telegram} {p : WindPayload} (hp : t.payload = .wind p) :
    ∃ (r : Role) (o : LogOutcome), acceptTelegram t s = logTelegram r t o
      (takeWind t.sender.toNat t.seq p (pvTake t true s)).1 := by
  refine ⟨s.sl.sheet.roleAt t.sender.toNat, (giveOwner t (pvTake t true s)).2, ?_⟩
  rw [acceptTelegram_eq]
  congr 1
  unfold giveOwner
  rw [hp]

/-- Settles O22: both rows form the fused level from a changed table, by `formFused_formed`. -/
theorem windTableFollowsTheReports : Obligations.WindTableFollowsTheReports := by
  unfold Obligations.WindTableFollowsTheReports
  refine ⟨fun s t p hp htakes => ?_, fun s slot r hup hslot => ⟨fun hfresh hage => ?_, fun h => ?_⟩⟩
  · obtain ⟨role, o, hu⟩ := acceptTelegram_wind (s := clearEcho s) hp
    obtain ⟨x, hx⟩ : ∃ x, x = pvTake t true (clearEcho s) := ⟨_, rfl⟩
    rw [← hx] at hu
    have hxs : x.wv = s.wv ∧ x.clock = s.clock ∧ x.sl = s.sl := by simp [hx, clearEcho]
    obtain ⟨hwv, hclock, hsl⟩ := hxs
    refine ⟨_, takes_exec t s htakes, fun l hl => ?_, fun hnone => ?_⟩
    · obtain ⟨z, hz⟩ : ∃ z, z = x.onWv (·.updateStation t.sender.toNat (fun r => { r with
        report := some (l, p), receipt := x.now, seq := t.seq, fresh := l != .blind })) := ⟨_, rfl⟩
      have htaken : (takeWind t.sender.toNat t.seq p x).1 = formFused z := by
        simp only [takeWind, hl, hz]
      rw [htaken] at hu
      obtain ⟨hfused, hrecords⟩ := formFused_fused z
      refine ⟨?_, State.WindFused.of_eq hfused (by simp [hu]) (by simp [hu]), fun hsteady => ?_⟩
      · rw [hu, (logTelegram_spares ..).2.2.2.2.2.1, hrecords, hz, ← hwv]
        simp only [WindView.updateStation, State.onWv, State.now, hclock]
      · have hstays := pvTake_quiet t s (by simp [hp]) (by simp [hp]) (by simp [hp]) hsteady
        rw [← hx] at hstays
        have hxhu : x.hu = s.hu := hstays .hu (by simp) (by simp) (by simp)
        have hxmu : x.mu = s.mu := hstays .mu (by simp) (by simp) (by simp)
        have hxbu : x.bu = s.bu := hstays .bu (by simp) (by simp) (by simp)
        refine formFused_formed (z := z) ?_ (by simp [hu]) fun e he => ?_
        · simp [hz, hxhu, hxmu, hxbu, hsl, hclock, hwv, WindView.updateStation]
        · rw [hu]
          exact (he.logTelegram (by omega) _ _ _).mem
    · rw [hu, (logTelegram_spares ..).2.2.2.2.2.1]
      simp only [takeWind, hnone, hwv]
  · have hdue : s.windRecordDue slot.val = true := (windRecordDue_iff s slot.val).mpr ⟨r, hslot, hfresh, hage⟩
    refine ⟨_, exec_due hup (by simp only [act]; rfl) hdue, ?_, (formFused_fused _).1,
      formFused_formed (by simp) (by simp) fun e he => he.mem⟩
    rw [(formFused_fused _).2]
    simp only [State.onWv]
    rw [List.modify_eq_set_getElem?, hslot]
    rfl
  · refine exec_early (b := s.windRecordDue slot.val) hup (by simp only [act]; rfl) ?_
    refine Bool.eq_false_iff.mpr fun hdue => ?_
    obtain ⟨r', hr', hfresh, hage⟩ := (windRecordDue_iff s slot.val).mp hdue
    rw [hslot] at hr'
    obtain rfl : r = r' := by simpa using hr'
    rcases h with h | h
    · simp [hfresh] at h
    · omega

/-! ### Passages heard (R128 to R135) -/

theorem ridersOver_iff (cap : Nat) (r : Option Nat) : ridersOver cap r = true ↔ ∃ n, r = some n ∧ cap < n := by
  cases r <;> simp [ridersOver]

/-- The cabins that a passage puts in doubt (R132). -/
def State.passedOver (s : State) (b : BayId) (c : Nat) : List Nat :=
  match (s.ct.cursor b).cabin with
  | some q => cabinsAfter s.sl.sheet.n q (gapCount s.sl.sheet.n q c)
  | none => []

theorem not_passedOver {s : State} (hk : s.CabinsKnown) (b : BayId) {c : Nat} (h1 : 1 ≤ c)
    (h2 : c ≤ s.sl.sheet.n) : c ∉ s.passedOver b c := by
  unfold State.passedOver
  cases hc : (s.ct.cursor b).cabin with
  | none => simp
  | some q =>
    obtain ⟨-, hq⟩ := hk.2 b q hc
    exact not_passed _ _ _ hq ⟨h1, h2⟩

/-- A new passage in the table: the cursor, every cabin's record, and the occupied count (R128). -/
theorem applyPassage_tells {b : BayId} {n : Nat} {p : Passage} {r : PassResult} {s : State}
    (hr : p.result = some r) (h1 : 1 ≤ p.cabin) (h2 : p.cabin ≤ s.sl.sheet.n) (hfits : resultFits b r = true)
    (hserial : (s.ct.cursor b).serial ≠ some p.serial) (hk : s.CabinsKnown) :
    let u := (applyPassage b n p s).1
    u.ct.cursor b = ⟨some p.serial, some p.cabin, !p.isTelegram⟩ ∧
    u.cabin? p.cabin = (s.cabin? p.cabin).map (fun c =>
      { c.applyResult r p s.clock.station with last := some ⟨b, p.serial, s.clock.now⟩ }) ∧
    (∀ d, d ≠ p.cabin → u.cabin? d =
      (s.cabin? d).map (fun c => if d ∈ s.passedOver b p.cabin then c.doubted else c)) ∧
    u.ct.occupied = occupiedOf u.ct.cabins := by
  rw [applyPassage_new b n p r s hr h1 h2 hfits hserial]
  dsimp only
  have hgap : ∀ e, (gapStage b n p.cabin s).cabin? e =
      (s.cabin? e).map (fun c => if e ∈ s.passedOver b p.cabin then c.doubted else c) :=
    fun e => gapStage_cabin b n p.cabin s e hk ⟨h1, h2⟩
  obtain ⟨-, -, hclock⟩ := gapStage_cursor b n p.cabin s b
  generalize gapStage b n p.cabin s = g at hgap hclock
  obtain ⟨hcabins, hcursor, hoccupied⟩ := countStage_ct (cursorStage b p (resultStage b r p g))
  have hresult : ∀ e, (countStage (cursorStage b p (resultStage b r p g))).cabin? e =
      (resultStage b r p g).cabin? e := by
    intro e
    unfold State.cabin?
    rw [hcabins]
    unfold cursorStage
    cases b <;> rfl
  refine ⟨?_, ?_, fun d hd => ?_, by rw [hoccupied, hcabins]⟩
  · rw [hcursor b]
    unfold cursorStage
    cases b <;> rfl
  · rw [hresult, resultStage, onCabin_get _ _ _ _ h1, if_pos rfl, hgap, Option.map_map]
    congr 1
    funext c
    simp only [Function.comp]
    rw [if_neg (not_passedOver hk b h1 h2), State.time, State.now, hclock]
  · rw [hresult, resultStage, onCabin_get _ _ _ _ h1, if_neg hd, hgap]

theorem applyPassage_declined {b : BayId} {n : Nat} {p : Passage} {s : State}
    (h : p.cabin = 0 ∨ s.sl.sheet.n < p.cabin ∨ ∀ r, p.result = some r → resultFits b r = false) :
    (applyPassage b n p s).1 = s := by
  unfold applyPassage
  cases hr : p.result with
  | none => rfl
  | some r =>
    dsimp only
    rw [if_pos (by simpa [hr] using h)]

/-- A repeated serial brings at most the tags that are missing (R131). -/
theorem applyPassage_repeat {b : BayId} {n : Nat} {p : Passage} {r : PassResult} {s : State}
    (hr : p.result = some r) (h1 : 1 ≤ p.cabin) (h2 : p.cabin ≤ s.sl.sheet.n) (hfits : resultFits b r = true)
    (hserial : (s.ct.cursor b).serial = some p.serial) : (applyPassage b n p s).1 = supplyTags b p s := by
  unfold applyPassage
  rw [hr]
  dsimp only
  rw [if_neg (by simp [hfits]; omega), if_pos hserial]

theorem supplyTags_missing {b : BayId} {p : Passage} {s : State} (h : s.tagsMissing b p = true) (h1 : 1 ≤ p.cabin)
    (d : Nat) : (supplyTags b p s).cabin? d =
      if d = p.cabin then (s.cabin? d).map (fun c => { c with tags := p.tags }) else s.cabin? d := by
  rw [← onCabin_get p.cabin d _ s h1]
  unfold supplyTags
  rw [if_pos h]
  unfold State.cabin?
  cases b <;> rfl

/-- An accepted PASSAGE, and the summary of a BAY, reach the table as the passage they tell (R129, R135). -/
theorem takes_passage {s : State} {t : Telegram} {b : BayId} {p : Passage} (htakes : s.takes t)
    (hb : bayOf (s.sl.sheet.roleAt t.sender.toNat) = some b)
    (hp : (∃ x, t.payload = .passage x ∧ p = Passage.mk x.serial x.cabin.toNat (resultOf x.result.toNat)
        (optByte x.riders) x.tags true) ∨
      (∃ x, t.payload = .bay x ∧ p = Passage.mk x.sumSerial x.sumCabin.toNat
        (resultOf x.sumResult.toNat) (optByte x.sumRiders) [] false)) :
    ∃ x, x.ct = s.ct ∧ x.sl = s.sl ∧ x.clock = s.clock ∧
      exec (arrival t) s = .next (acceptTelegram t (clearEcho s)) ∧
      (acceptTelegram t (clearEcho s)).ct = (applyPassage b t.sender.toNat p x).1.ct := by
  obtain ⟨x, hx⟩ : ∃ x, x = pvTake t true (clearEcho s) := ⟨_, rfl⟩
  have hxs : x.ct = s.ct ∧ x.sl = s.sl ∧ x.clock = s.clock := by simp [hx, clearEcho]
  obtain ⟨hct, hsl, hclock⟩ := hxs
  refine ⟨x, hct, hsl, hclock, takes_exec t s htakes, ?_⟩
  have hrole : bayOf (x.sl.sheet.roleAt t.sender.toNat) = some b := by rw [hsl]; exact hb
  have howner : (acceptTelegram t (clearEcho s)).ct = (giveOwner t x).1.ct := by
    simp [acceptTelegram_eq, hx]
  rw [howner]
  rcases hp with ⟨y, hy, rfl⟩ | ⟨y, hy, rfl⟩
  · simp only [giveOwner, hy, takePassage, hrole]
  · simp only [giveOwner, hy, takeSummary, hrole]
    by_cases h0 : y.sumCabin = 0
    · rw [if_pos h0, applyPassage_declined (Or.inl (by simp [h0]))]
    · rw [if_neg h0]

theorem cabinsKnown_congr {s t : State} (hct : t.ct = s.ct) (hsl : t.sl = s.sl) (hk : s.CabinsKnown) :
    t.CabinsKnown := by
  unfold State.CabinsKnown State.joined at *
  rwa [hct, hsl]

/-- Settles O21: the owner's share by `applyPassage_tells`, `applyPassage_declined` and
`applyPassage_repeat`. -/
theorem receivedPassageIsApplied : Obligations.ReceivedPassageIsApplied := by
  unfold Obligations.ReceivedPassageIsApplied
  refine ⟨fun c p now => ?_, fun s t b p htakes hb hp => ?_⟩
  · have habove : ridersOver c.capacity p.riders = decide (∃ n, p.riders = some n ∧ c.capacity < n) :=
      Bool.eq_iff_iff.mpr ((ridersOver_iff ..).trans decide_eq_true_iff.symm)
    have hclamp : clampRiders c.capacity p.riders = p.riders.map (min c.capacity) := by
      unfold clampRiders
      congr 1
      funext n
      exact Nat.min_comm ..
    dsimp only
    refine ⟨fun r hr => ?_, rfl, rfl, rfl, fun h => ?_, fun h => ?_, fun h => ?_, rfl⟩
    · rcases hr with rfl | rfl <;> rfl
    · simp only [Cabin.applyResult, h, habove, hclamp]
    · rcases h with h | h <;> simp only [Cabin.applyResult, h, habove, Bool.or_comm]
    · simp only [Cabin.applyResult, h]
  · obtain ⟨x, hct, hsl, hclock, hexec, hu⟩ := takes_passage htakes hb hp
    have hcabin : ∀ d, x.cabin? d = s.cabin? d := by simp [State.cabin?, hct]
    have htags : x.tagsMissing b p = s.tagsMissing b p := by simp only [State.tagsMissing, hct, hcabin]
    have hucabin : ∀ d, (acceptTelegram t (clearEcho s)).cabin? d =
        (applyPassage b t.sender.toNat p x).1.cabin? d := by simp [State.cabin?, hu]
    refine ⟨fun hno => ⟨_, hexec, ?_⟩, fun r hr h1 h2 hfits hk => ⟨_, hexec, fun hserial => ?_,
      fun hserial hmissing => ?_, fun hserial hmissing => ?_⟩⟩
    · rw [hu, applyPassage_declined (by rw [hsl]; exact hno), hct]
    · obtain ⟨hcursor, hrecord, hrest, hcount⟩ := applyPassage_tells (n := t.sender.toNat) hr h1
        (by rw [hsl]; exact h2) hfits (by rw [hct]; exact hserial) (cabinsKnown_congr hct hsl hk)
      rw [hcabin, hclock] at hrecord
      have hpassed : x.passedOver b p.cabin = s.passedOver b p.cabin := by simp only [State.passedOver, hct, hsl]
      rw [hpassed] at hrest
      rw [hu]
      refine ⟨hcursor, (hucabin _).trans hrecord, fun d hd => ?_, hcount⟩
      rw [hucabin, hrest d hd, hcabin]
      rfl
    all_goals
      have hrepeat := applyPassage_repeat (n := t.sender.toNat) hr h1 (by rw [hsl]; exact h2) hfits
        (show (x.ct.cursor b).serial = some p.serial by rw [hct]; exact hserial)
    · rw [hu, hrepeat, supplyTags, if_neg (by simp [htags, hmissing]), hct]
    · have hsupplied := supplyTags_missing (htags.trans hmissing) h1
      refine ⟨?_, fun d hd => ?_⟩
      · rw [hucabin, hrepeat, hsupplied, if_pos rfl, hcabin]
      · rw [hucabin, hrepeat, hsupplied, if_neg hd, hcabin]

/-! ### Holds heard: the rise of the effect (R75, R82, R94, R106, R121, R157, R158) -/

/-- What a rise of the effective effect to `e` sets off, from `s` to `u`. -/
def State.risen (s u : State) (e : Effect) : Prop :=
  let below := fun x : Effect => effectCode s.hu.effect < effectCode x ∧ effectCode x ≤ effectCode e
  let completes := e = .empty ∧ s.ct.occupied = 0
  let list := u.availableDrives
  let reference := if s.role = .drive then s.mu.reference else
    list.foldl (fun m d => max m (match (u.peer d).motion with
      | some (x, _) => x.reference.toNat
      | none => 0)) 0
  let decel := if e = .stop then s.sl.sheet.aStop else s.sl.sheet.aDn
  let counted := match s.hu.watch with | some w => w.counted | none => []
  let back := if s.bu.boarding = true ∧ s.bu.window.state = .arriving then s.bu.window.matched else []
  u.hu.effect = e ∧
  (below .halt ∨ completes → u.mu.mode = .halt) ∧
  (below .halt ∨ (s.hu.effect = .halt ∧ e = .stop) ∨ completes →
    u.hu.watch = if list = [] then none else some { list := list, acked := [], braked := []
                                                    startAt := s.clock.now
                                                    limit := ceilDiv reference decel * 100 + 5000
                                                    ackUntil := some (s.clock.now + 500)
                                                    counted := counted }) ∧
  (¬ below .halt → ¬ (s.hu.effect = .halt ∧ e = .stop) → ¬ completes →
    u.hu.watch = s.hu.watch ∧ u.mu.mode = s.mu.mode) ∧
  (e = .empty → u.mu.emptyAt = s.clock.now ∧
    u.mu.emptyState = if s.ct.occupied = 0 then .done else .emptying) ∧
  (s.hu.effect = .empty → u.mu.emptyState = .idle) ∧
  (e ≠ .empty → s.hu.effect ≠ .empty → u.mu.emptyState = s.mu.emptyState) ∧
  (s.role = .entry → u.bu.boarding = false ∧ u.bu.boardLamp = false ∧
    u.bu.queue = (if below .empty then [] else back ++ s.bu.queue) ∧
    (s.bu.boarding = true → s.bu.window.state = .arriving →
      u.bu.window = { s.bu.window with matched := [], grace := false } ∧ u.bu.creep = false) ∧
    (¬ (s.bu.boarding = true ∧ s.bu.window.state = .arriving) → u.bu.window = s.bu.window) ∧
    (below .empty → s.bu.Wf → s.suppressed .partyCancelled = false → ∀ x ∈ back ++ s.bu.queue,
      EventEntry.mk .partyCancelled x.tag s.clock.station ∈ u.lu.queue))

/-- `v` differs from `s` at most in the records, the peer view and the log unit. -/
def State.alike (s v : State) : Prop :=
  v.hu.effect = s.hu.effect ∧ v.hu.watch = s.hu.watch ∧ v.mu = s.mu ∧ v.bu = s.bu ∧ v.ct = s.ct ∧
    v.clock = s.clock ∧ v.sl = s.sl

theorem formEffect_changes {v : State} (h : severest v.hu.records ≠ v.hu.effect) :
    ∃ z, formEffect v = handOnEffect v.hu.effect (severest v.hu.records) z ∧
      z.hu = { v.hu with effect := severest v.hu.records } ∧ z.pv = v.pv ∧ z.mu = v.mu ∧ z.bu = v.bu ∧
      z.ct = v.ct ∧ z.clock = v.clock ∧ z.sl = v.sl := by
  unfold formEffect
  dsimp only
  rw [if_neg h]
  exact ⟨_, rfl, by simp⟩

theorem refreshHoldLamp_kept (s : State) : (refreshHoldLamp s).hu.effect = s.hu.effect ∧
    (refreshHoldLamp s).hu.watch = s.hu.watch := by
  unfold refreshHoldLamp
  split <;> exact ⟨rfl, rfl⟩

/-- The watch that a start leaves, over the drives then available (R94). -/
theorem startWatch_listed (z : State) : (startWatch z).hu.watch =
    if z.availableDrives = [] then none else some
      { list := z.availableDrives, acked := [], braked := [], startAt := z.clock.now
        limit := ceilDiv (if z.role = .drive then z.mu.reference else
            z.availableDrives.foldl (fun m d => max m (match (z.peer d).motion with
              | some (x, _) => x.reference.toNat
              | none => 0)) 0)
          (if z.hu.effect = .stop then z.sl.sheet.aStop else z.sl.sheet.aDn) * 100 + 5000
        ackUntil := some (z.clock.now + 500)
        counted := match z.hu.watch with | some w => w.counted | none => [] } := by
  rw [startWatch_hu]
  dsimp only
  by_cases hlist : z.availableDrives = []
  · rw [if_pos hlist, if_pos hlist]
  · rw [if_neg hlist, if_neg hlist]
    have hreference : z.triggerReference z.availableDrives = if z.role = .drive then z.mu.reference else
        z.availableDrives.foldl (fun m d => max m (match (z.peer d).motion with
          | some (x, _) => x.reference.toNat
          | none => 0)) 0 := by
      by_cases hrole : z.role = .drive
      · rw [if_pos hrole]
        simp only [State.triggerReference, hrole]
      · rw [if_neg hrole]
        exact triggerReference_listed hlist hrole
    rw [hreference]
    rfl

/-- Records that form a higher effect set off the rise (R75, R76). -/
theorem afterRecords_risen {s v u : State} {e : Effect} (halike : s.alike v) (hform : severest v.hu.records = e)
    (hlt : effectCode s.hu.effect < effectCode e)
    (hu : u.hu.effect = (afterRecords v).hu.effect ∧ u.hu.watch = (afterRecords v).hu.watch ∧
      u.mu = (afterRecords v).mu ∧ u.bu = (afterRecords v).bu ∧ u.pv = v.pv ∧ u.clock = v.clock)
    (hevent : ∀ x, Recent 29 x (afterRecords v) → x ∈ u.lu.queue) : s.risen u e := by
  obtain ⟨veffect, vwatch, vmu, vbu, vct, vclock, vsl⟩ := halike
  obtain ⟨ueffect, uwatch, umu, ubu, upv, uclock⟩ := hu
  have hne : severest v.hu.records ≠ v.hu.effect := by
    rw [hform, veffect]
    rintro rfl
    omega
  obtain ⟨z, hz, zhu, zpv, zmu, zbu, zct, zclock, zsl⟩ := formEffect_changes hne
  rw [hform, veffect] at hz
  rw [hform] at zhu
  have hzeffect : z.hu.effect = e := by rw [zhu]
  have hzwatch : z.hu.watch = s.hu.watch := by rw [zhu, ← vwatch]
  obtain ⟨hmode, hwatch, hkept, hempty, hidle, hstate, hentry⟩ :=
    handOnEffect_rise s.hu.effect e z hlt hzeffect
  rw [← hz] at hmode hwatch hkept hempty hidle hstate hentry
  have hlamp := refreshHoldLamp_kept (formEffect v)
  have hrole : z.role = s.role := by simp only [State.role, zsl, vsl]
  have hlist : z.availableDrives = u.availableDrives :=
    availableDrives_of (zpv.trans upv.symm) (zclock.trans uclock.symm)
  have hpeer : ∀ d, z.peer d = u.peer d := fun d => peer_of_pv (zpv.trans upv.symm) d
  have huwatch : u.hu.watch = (formEffect v).hu.watch := uwatch.trans hlamp.2
  have humu : u.mu = (formEffect v).mu := umu.trans (refreshHoldLamp_spares _).2.2.2.2.2.2.2.1
  have hubu : u.bu = (formEffect v).bu := ubu.trans (refreshHoldLamp_spares _).2.2.2.2.2.2.2.2.2.1
  have hct : z.ct = s.ct := zct.trans vct
  have hmu : z.mu = s.mu := zmu.trans vmu
  have hbu : z.bu = s.bu := zbu.trans vbu
  have hclock : z.clock = s.clock := zclock.trans vclock
  have hsl : z.sl = s.sl := zsl.trans vsl
  have hnow : z.now = s.clock.now := congrArg Clock.now hclock
  rw [hct] at hmode hwatch
  rw [hct, hmu] at hkept
  rw [hct, hnow] at hempty
  rw [hmu] at hstate
  rw [hrole, hbu, hclock] at hentry
  have hstart := startWatch_listed z
  simp only [hlist, hrole, hmu, hpeer, hclock, hzeffect, hzwatch, hsl] at hstart
  unfold State.risen
  dsimp only
  rw [huwatch, humu, hubu]
  refine ⟨ueffect.trans ?_, hmode, fun h => ?_, fun h1 h2 h3 => ?_, hempty, hidle, hstate, fun h => ?_⟩
  · rw [(afterRecords_set v).2.2, hform]
  · rw [hwatch h]
    exact hstart
  · obtain ⟨hhu, hm⟩ := hkept h1 h2 h3
    rw [hhu, hzwatch]
    exact ⟨rfl, hm⟩
  · obtain ⟨h1, h2, h3, h4, h5, h6⟩ := hentry h
    refine ⟨h1, h2, h3, h4, h5, fun hb hwf hs x hx => hevent _ ?_⟩
    have hraised := h6 hb hwf ((suppressed_congr hsl _).trans hs) x hx
    exact hraised.lu (congrArg LogUnit.queue (refreshHoldLamp_spares (formEffect v)).2.2.1)

/-! ### A hold heard enters the set (R77, R82) -/

/-- The record of a hold heard takes the place of the one under its key, or asks for admission. -/
def State.placeHeard (r : HoldRec) (s : State) : State :=
  if (s.hu.find? r.kind r.declarer).isSome then updateRecord r.kind r.declarer (fun _ => r) s else admitHold r s

theorem takeHold_ignored {n : Nat} {p : HoldPayload} {s : State} (h : ∀ k e c, holdKindOf p.kind.toNat = some k →
    effectOf p.effect.toNat = some e → causeOf p.cause.toNat = some c → holdAllowed k c e = false) :
    (takeHold n p s).1 = s := by
  unfold takeHold
  split
  · rfl
  · split
    · next k e c hk he hc => rw [if_neg (by simp [h k e c hk he hc])]
    · rfl

theorem takeHold_places {n : Nat} {p : HoldPayload} {k : HoldKind} {e : Effect} {c : Cause} {s : State}
    (hn : n ≠ s.own) (hk : holdKindOf p.kind.toNat = some k) (he : effectOf p.effect.toNat = some e)
    (hc : causeOf p.cause.toNat = some c) (hallowed : holdAllowed k c e = true) :
    let r := HoldRec.mk k n e c p.declaredAt s.clock.now .active
    (takeHold n p s).1 = s.placeHeard r ∨ ∃ l, (takeHold n p s).1 = logLocal .hu 5 l (s.placeHeard r) := by
  dsimp only
  unfold takeHold State.placeHeard
  rw [if_neg hn, hk, he, hc]
  dsimp only
  rw [if_pos hallowed]
  cases hfind : s.hu.find? k n with
  | none => exact Or.inl rfl
  | some old =>
    have hsame : updateRecord k n (fun x => { x with effect := e, cause := c, declaredAt := p.declaredAt
                                                     refreshed := s.now, state := .active }) s =
        updateRecord k n (fun _ => HoldRec.mk k n e c p.declaredAt s.clock.now .active) s := by
      unfold updateRecord
      congr 3
      funext h
      congr 1
      refine List.map_congr_left fun x _ => ?_
      by_cases hkey : x.hasKey k n = true
      · rw [if_pos hkey, if_pos hkey]
        obtain ⟨rfl, rfl⟩ := Prod.mk.injEq .. ▸ (hasKey_iff _ _ _).mp hkey
        rfl
      · rw [if_neg hkey, if_neg hkey]
    dsimp only
    rw [hsame]
    split
    · exact Or.inr ⟨_, rfl⟩
    · exact Or.inl rfl

section
variable {s : State} {r : HoldRec}

theorem placeHeard_lamp (r : HoldRec) (s : State) : s.lampStep (s.placeHeard r) := by
  unfold State.placeHeard
  split
  · exact updateRecord_lamp ..
  · exact admitHold_lamp ..

/-- What placing a hold heard leaves of the set (R76, R77). -/
theorem placeHeard_set (heffect : s.hu.effect = severest s.hu.records) :
    let u := s.placeHeard r
    u.hu.effect = severest u.hu.records ∧
    ((s.hu.find? r.kind r.declarer).isSome = true →
      u.hu.records = s.hu.records.map (fun x => if x.hasKey r.kind r.declarer then r else x)) ∧
    (s.hu.find? r.kind r.declarer = none → s.hu.records.length < 16 → u.hu.records = s.hu.records ++ [r]) ∧
    (s.hu.find? r.kind r.declarer = none → s.hu.records.length = 16 → ∀ m, mildest s.hu.records = some m →
      (effectCode m.effect < effectCode r.effect →
        u.hu.records = s.hu.records.filter (fun x => !x.hasKey m.kind m.declarer) ++ [r]) ∧
      (effectCode r.effect ≤ effectCode m.effect → u.hu.records = s.hu.records)) := by
  dsimp only
  unfold State.placeHeard
  cases hfind : s.hu.find? r.kind r.declarer with
  | some old =>
    obtain ⟨hrecords, -, hform⟩ := updateRecord_set r.kind r.declarer (fun _ => r) s
    simp only [Option.isSome_some, if_true]
    refine ⟨hform.trans (by rw [hrecords]), fun _ => hrecords, fun h => by simp at h, fun h => by simp at h⟩
  | none =>
    simp only [Option.isSome_none, Bool.false_eq_true, if_false]
    obtain ⟨-, ⟨hroom, hrecords, hform⟩ | ⟨hfull, m, hm, hless, hrecords, hform⟩ | ⟨hfull, hall, hrecords, hform⟩⟩ :=
      admitHold_set r s
    · exact ⟨by rw [hform, hrecords], fun h => by simp at h, fun _ _ => hrecords, fun _ h => by omega⟩
    · refine ⟨by rw [hform, hrecords], fun h => by simp at h, fun _ h => by omega, fun _ _ m' hm' => ?_⟩
      obtain rfl : m = m' := by simpa [hm] using hm'
      exact ⟨fun _ => hrecords, fun h => by omega⟩
    · refine ⟨by rw [hform, heffect, hrecords], fun h => by simp at h, fun _ h => by omega, fun _ _ m hm => ?_⟩
      have := hall m hm
      exact ⟨fun h => by omega, fun _ => hrecords⟩

/-- The record stands in the set where there was room for it (R77). -/
theorem placeHeard_find? (hroom : s.hu.records.length < 16) :
    (s.placeHeard r).hu.find? r.kind r.declarer = some r := by
  unfold State.placeHeard
  cases hfind : s.hu.find? r.kind r.declarer with
  | some old =>
    simp only [Option.isSome_some, if_true]
    have hself : r.hasKey r.kind r.declarer = true := (hasKey_iff _ _ _).mpr rfl
    have hkey : old.hasKey r.kind r.declarer = true := List.find?_some hfind
    have hkept : (fun x : HoldRec => x.hasKey r.kind r.declarer) ∘
        (fun x => if x.hasKey r.kind r.declarer then r else x) = fun x => x.hasKey r.kind r.declarer := by
      funext x
      simp only [Function.comp]
      split
      · next hx => rw [hself, hx]
      · rfl
    rw [HoldUnit.find?] at hfind
    rw [HoldUnit.find?, (updateRecord_set ..).1, List.find?_map, hkept, hfind, Option.map_some, if_pos hkey]
  | none =>
    simp only [Option.isSome_none, Bool.false_eq_true, if_false]
    exact admitHold_find? hfind hroom

theorem mildest_exists {l : List HoldRec} (h : l ≠ []) : ∃ m, mildest l = some m := by
  cases l with
  | nil => exact absurd rfl h
  | cons a l =>
    unfold mildest
    (repeat' split) <;> exact ⟨_, rfl⟩

/-- A hold heard above the effective effect forms its own effect (R76, R77). -/
theorem placeHeard_rises (hwf : s.hu.Wf) (hlt : effectCode s.hu.effect < effectCode r.effect) :
    ∃ v, s.placeHeard r = afterRecords v ∧ s.alike v ∧ v.pv = s.pv ∧ severest v.hu.records = r.effect := by
  obtain ⟨hlen, -, heffect, -⟩ := id hwf
  have hbelow : ∀ x ∈ s.hu.records, effectCode x.effect ≤ effectCode r.effect := by
    intro x hx
    have := le_severest s.hu.records x hx
    rw [← heffect] at this
    omega
  unfold State.placeHeard
  cases hfind : s.hu.find? r.kind r.declarer with
  | some old =>
    simp only [Option.isSome_some, if_true]
    refine ⟨_, rfl, ⟨rfl, rfl, rfl, rfl, rfl, rfl, rfl⟩, rfl, severest_eq _ _ (fun x hx => ?_) ⟨r, ?_, rfl⟩⟩
    · obtain ⟨y, hy, rfl⟩ := List.mem_map.mp hx
      split
      · exact le_refl _
      · exact hbelow y hy
    · exact List.mem_map.mpr ⟨old, List.mem_of_find?_eq_some hfind, if_pos (List.find?_some hfind)⟩
  | none =>
    simp only [Option.isSome_none, Bool.false_eq_true, if_false]
    have happend : ∀ l : List HoldRec, (∀ x ∈ l, effectCode x.effect ≤ effectCode r.effect) →
        severest (l ++ [r]) = r.effect := by
      intro l hl
      refine severest_eq _ _ (fun x hx => ?_) ⟨r, by simp, rfl⟩
      rcases List.mem_append.mp hx with hx | hx
      · exact hl x hx
      · rw [List.mem_singleton.mp hx]
    unfold admitHold
    split
    · exact ⟨_, rfl, by simp [State.alike], by simp, by simpa using happend _ hbelow⟩
    · next hfull =>
      obtain ⟨m, hm⟩ := mildest_exists (l := s.hu.records) (by rintro h; simp [h] at hfull)
      have hless : effectCode m.effect < effectCode r.effect := by
        have := le_severest s.hu.records m (mildest_mem hm)
        rw [← heffect] at this
        omega
      have hquiet := severest_without_mildest s.hu hwf (by omega) m hm
      obtain ⟨hwatch, hbu, hmu⟩ := removeRecord_quiet m.kind m.declarer s hquiet
      obtain ⟨hrecords, -, hform⟩ := removeRecord_set m.kind m.declarer s
      rw [hm]
      dsimp only
      rw [if_pos hless]
      refine ⟨_, rfl, by simp [State.alike, hwatch, hbu, hmu, hform, hquiet], by simp, ?_⟩
      simp only [raise_spares, onHu_blocks, logLocal_spares, hrecords]
      exact happend _ fun x hx => hbelow x (List.mem_filter.mp hx).1

end

/-- An accepted HOLD is taken by the hold unit (R82). -/
theorem acceptTelegram_hold {s : State} {t : Telegram} {p : HoldPayload} (hp : t.payload = .hold p) :
    ∃ (r : Role) (o : LogOutcome), acceptTelegram t s = logTelegram r t o
      (takeHold t.sender.toNat p (pvTake t true s)).1 := by
  refine ⟨s.sl.sheet.roleAt t.sender.toNat, (giveOwner t (pvTake t true s)).2, ?_⟩
  rw [acceptTelegram_eq]
  congr 1
  unfold giveOwner
  rw [hp]

/-- What the peer view leaves of the set's size, whatever the monitor does (R90, R91). -/
theorem pvTake_length {s : State} {t : Telegram} {p : HoldPayload} (hp : t.payload = .hold p) :
    (pvTake t true (clearEcho s)).hu.records.length ≤ s.hu.records.length + 1 := by
  obtain ⟨ch, z, htail, -, hhu, -⟩ := pvTake_tail t s (by simp [hp])
  rw [htail, hp, ← hhu]
  unfold afterParts
  dsimp only
  split
  · exact (setCond_others ..).2.1
  · omega

/-- A hold heard, logged: what the placing leaves of every block but the log. -/
theorem takeHold_kept {n : Nat} {p : HoldPayload} {k : HoldKind} {e : Effect} {c : Cause} {s : State}
    (hn : n ≠ s.own) (hk : holdKindOf p.kind.toNat = some k) (he : effectOf p.effect.toNat = some e)
    (hc : causeOf p.cause.toNat = some c) (hallowed : holdAllowed k c e = true) :
    let r := HoldRec.mk k n e c p.declaredAt s.clock.now .active
    (takeHold n p s).1.hu = (s.placeHeard r).hu ∧ (takeHold n p s).1.mu = (s.placeHeard r).mu ∧
      (takeHold n p s).1.bu = (s.placeHeard r).bu ∧ s.lampStep (takeHold n p s).1 ∧
      (∀ m ev, m < 31 → Recent m ev (s.placeHeard r) → Recent (m + 1) ev (takeHold n p s).1) := by
  dsimp only
  have hlamp := placeHeard_lamp (HoldRec.mk k n e c p.declaredAt s.clock.now .active) s
  rcases takeHold_places hn hk he hc hallowed with h | ⟨l, h⟩
  · rw [h]
    exact ⟨rfl, rfl, rfl, hlamp, fun m ev _ hm => hm.mono (by omega)⟩
  · rw [h]
    exact ⟨by simp, by simp, by simp, hlamp.trans (lampStep_quiet (by simp) (by simp) (by simp)),
      fun m ev hlt hm => hm.log hlt _ _ _⟩

/-- Settles O18: the set by `placeHeard_set`, the rise by `placeHeard_rises` and `afterRecords_risen`. -/
theorem receivedHoldEntersTheSet : Obligations.ReceivedHoldEntersTheSet := by
  unfold Obligations.ReceivedHoldEntersTheSet
  refine ⟨fun s t p k hp haccepts hwf hk => ?_, fun s t p hp hecho => ?_⟩
  · dsimp only
    obtain ⟨role, o, hu⟩ := acceptTelegram_hold (s := clearEcho s) hp
    have hlength := pvTake_length (s := s) hp
    obtain ⟨x, hx⟩ : ∃ x, x = pvTake t true (clearEcho s) := ⟨_, rfl⟩
    rw [← hx] at hu hlength
    have hxs : x.sl = s.sl ∧ x.clock = s.clock := by simp [hx, clearEcho]
    obtain ⟨hsl, hclock⟩ := hxs
    have hn : t.sender.toNat ≠ x.own := by
      rw [show x.own = s.own from congrArg Loader.station hsl]
      exact haccepts.1.2.2.2
    have hplaced : ∀ e c, effectOf p.effect.toNat = some e → causeOf p.cause.toNat = some c →
        holdAllowed k c e = true → _ := fun e c he hc ha => takeHold_kept hn hk he hc ha
    rw [hclock] at hplaced
    have huhu : (acceptTelegram t (clearEcho s)).hu = (takeHold t.sender.toNat p x).1.hu := by rw [hu]; simp
    refine ⟨_, exec_accepts haccepts, fun hsteady => ?_, fun e c he hc ha hroom => ?_⟩
    · have hstays := pvTake_quiet t s (by simp [hp]) (by simp [hp]) (by simp [hp]) hsteady
      rw [← hx] at hstays
      have hxhu : x.hu = s.hu := hstays .hu (by simp) (by simp) (by simp)
      have hxmu : x.mu = s.mu := hstays .mu (by simp) (by simp) (by simp)
      have hxbu : x.bu = s.bu := hstays .bu (by simp) (by simp) (by simp)
      have hxct : x.ct = s.ct := hstays .ct (by simp) (by simp) (by simp)
      refine ⟨fun e c he hc ha => ?_, fun hno => ?_, fun e c he hc ha hlt => ?_⟩
      · obtain ⟨khu, -, -, klamp, -⟩ := hplaced e c he hc ha
        obtain ⟨hform, hupdates, hroom, hfull⟩ :=
          placeHeard_set (s := x) (r := HoldRec.mk k t.sender.toNat e c p.declaredAt s.clock.now .active)
            (by rw [hxhu]; exact hwf.2.2.1)
        rw [hxhu] at hupdates hroom hfull
        rw [huhu, khu]
        refine ⟨hform, lampFollows_step ?_, hupdates, hroom, hfull⟩
        rw [hu]
        exact lampStep_log ((lampStep_quiet hxhu hclock hsl).trans klamp) role t o
      · rw [huhu, takeHold_ignored (fun k' e c hk' he hc => ?_), hxhu]
        obtain rfl : k = k' := by simpa [hk] using hk'
        exact hno e c he hc
      · obtain ⟨khu, kmu, kbu, -, kevents⟩ := hplaced e c he hc ha
        obtain ⟨v, hv, halike, hpv, hform⟩ := placeHeard_rises (s := x)
          (r := HoldRec.mk k t.sender.toNat e c p.declaredAt s.clock.now .active)
          (by rw [hxhu]; exact hwf) (by rw [hxhu]; exact hlt)
        rw [hv] at khu kmu kbu kevents
        have halike' : s.alike v := by
          unfold State.alike at halike ⊢
          rwa [hxhu, hxmu, hxbu, hxct, hclock, hsl] at halike
        refine afterRecords_risen halike' hform hlt ⟨by rw [huhu, khu], by rw [huhu, khu], ?_, ?_, ?_, ?_⟩
          fun ev hev => ?_
        · rw [hu, ← kmu]; simp
        · rw [hu, ← kbu]; simp
        · rw [hu, hpv]; simp
        · rw [hu]
          obtain ⟨-, -, -, -, -, vclock, -⟩ := halike
          simp [vclock]
        · rw [hu]
          exact ((kevents 29 ev (by omega) hev).logTelegram (by omega) _ _ _).mem
    · obtain ⟨khu, -⟩ := hplaced e c he hc ha
      rw [huhu, khu]
      exact placeHeard_find? (r := HoldRec.mk k t.sender.toNat e c p.declaredAt s.clock.now .active) (by omega)
  · obtain ⟨role, o, hu⟩ := acceptTelegram_hold (s := clearEcho s) hp
    have hown : t.sender.toNat = s.own := hecho.1.2.2.2.1
    have hstays := pvTake_quiet t s (by simp [hp]) (by simp [hp]) (by simp [hp]) (Or.inl hown)
    refine ⟨_, takes_exec t s (Or.inr hecho), fun b h1 h2 h3 => ?_⟩
    have hdeclined : (takeHold t.sender.toNat p (pvTake t true (clearEcho s))).1 = pvTake t true (clearEcho s) := by
      unfold takeHold
      rw [if_pos (by rw [hown]; simp [State.own, clearEcho])]
    have hkept := hstays b h2 h3 h1
    rw [hu, hdeclined]
    cases b <;> simp [Block.same] at hkept h1 h2 h3 ⊢ <;> exact hkept

end Sys2Proof.Machine
end

section
/-! SUPPORT. The host's requests that act (R87, R88, R104, R136, R145, R146, R152, R153): each is carried out and
answered by the first case that applies. -/

namespace Sys2Proof.Machine

/-! ### Carrying out a request (R190) -/

/-- A request carried out: the verdict stands in the slot, and every block but the port is the owner's. -/
theorem carryOut_verdict {num : Byte} {r : Request} {s s' : State} {v : Verdict} (h : serve r s = (s', v)) :
    (carryOut num r s).rp.holds (requestCode r) num v.code v.data ∧
      ∀ b : Block, b ≠ .rp → b.same s' (carryOut num r s) := by
  have hholds := carryOut_holds num r s
  rw [h] at hholds
  refine ⟨hholds, fun b hb => ?_⟩
  unfold carryOut
  rw [h]
  cases b <;> simp [Block.same, placeAnswer] at hb ⊢

theorem carryOut_refused {num : Byte} {r : Request} {s : State} {n : Nat} (h : serve r s = (s, verdict n)) :
    (carryOut num r s).rp.holds (requestCode r) num n [] ∧ ∀ b : Block, b ≠ .rp → b.same s (carryOut num r s) :=
  carryOut_verdict h

theorem notActing_iff (s : State) :
    s.notActing = true ↔ s.sl.start = .sheetFault ∨ s.sl.start = .listenOnly := by
  simp [State.notActing]

/-! ### Parties (R145, R146) -/

theorem withdrawParty_queued {s : State} {tag : Half} (hrole : s.role = .entry) (htag : tag ≠ 0)
    (hacts : s.notActing = false) (hheld : ∃ p ∈ s.bu.queue, p.tag = tag) :
    withdrawParty tag s = (raise .partyWithdrawn tag.toNat
      (s.onBu (fun b => { b with queue := b.queue.filter (fun p => p.tag != tag) })), verdict 0) := by
  have hany : s.bu.queue.any (fun p => p.tag == tag) = true := by simpa using hheld
  unfold withdrawParty
  rw [if_neg (by simp [hrole]), if_neg htag, if_neg (by simp [hacts]), if_pos hany]

theorem withdrawParty_unqueued {s : State} {tag : Half} (hrole : s.role = .entry) (htag : tag ≠ 0)
    (hacts : s.notActing = false) (hnot : ∀ p ∈ s.bu.queue, p.tag ≠ tag) :
    withdrawParty tag s = (s, verdict (if ∃ p ∈ s.bu.window.matched, p.tag = tag then 7 else 6)) := by
  have hany : ¬ s.bu.queue.any (fun p => p.tag == tag) = true := by simpa using hnot
  have hmatched : s.bu.window.matched.any (fun p => p.tag == tag) = true ↔
      ∃ p ∈ s.bu.window.matched, p.tag = tag := by simp
  unfold withdrawParty
  rw [if_neg (by simp [hrole]), if_neg htag, if_neg (by simp [hacts]), if_neg hany]
  simp only [hmatched]
  split <;> rfl

/-- Settles O48: WITHDRAW PARTY by its cases. -/
theorem partiesAreWithdrawn : Obligations.PartiesAreWithdrawn := by
  unfold Obligations.PartiesAreWithdrawn
  intro s num tag hserves
  refine ⟨carryOut num (.withdrawParty tag) s, execPut_serves hserves num _, ?_⟩
  dsimp only
  rw [← notActing_iff]
  have hno : ∀ n, withdrawParty tag s = (s, verdict n) →
      (carryOut num (.withdrawParty tag) s).rp.holds 10 num n [] ∧
        (carryOut num (.withdrawParty tag) s).bu = s.bu ∧ (carryOut num (.withdrawParty tag) s).lu = s.lu := by
    intro n h
    obtain ⟨hholds, hsame⟩ := carryOut_refused (num := num) (r := .withdrawParty tag) h
    exact ⟨hholds, hsame .bu (by simp), hsame .lu (by simp)⟩
  refine ⟨fun hrole => hno 1 (if_pos hrole), fun hrole htag => hno 3 ?_, fun hrole htag hbar => hno 13 ?_,
    fun hrole htag hacts => ⟨fun hheld => ?_, fun hnot hmatched => hno 7 ?_, fun hnot hmatched => hno 6 ?_⟩⟩
  · rw [withdrawParty, if_neg (by simp [hrole]), if_pos htag]
  · rw [withdrawParty, if_neg (by simp [hrole]), if_neg htag, if_pos hbar]
  · obtain ⟨hholds, hsame⟩ := carryOut_verdict (num := num) (r := .withdrawParty tag)
      (withdrawParty_queued hrole htag (by simpa using hacts) hheld)
    refine ⟨hholds, (hsame .bu (by simp)).trans (by simp), fun hs => ?_⟩
    refine (hsame .lu (by simp)).trans ?_
    have hplaced := raise_placed tag.toNat (s := s.onBu (fun b => { b with
      queue := b.queue.filter (fun p => p.tag != tag) })) ((suppressed_congr rfl _).trans hs)
    rw [hplaced, BitVec.ofNat_toNat, BitVec.setWidth_eq]
    rfl
  · rw [withdrawParty_unqueued hrole htag (by simpa using hacts) hnot, if_pos hmatched]
  · rw [withdrawParty_unqueued hrole htag (by simpa using hacts) hnot, if_neg (by simpa using hmatched)]

theorem atLeast_empty_iff (e : Effect) : e.atLeast .empty = true ↔ e = .empty ∨ e = .halt ∨ e = .stop := by
  cases e <;> simp [Effect.atLeast, effectCode]

theorem atLeast_halt_iff (e : Effect) : e.atLeast .halt = true ↔ e = .halt ∨ e = .stop := by
  cases e <;> simp [Effect.atLeast, effectCode]

theorem tagHeld_iff (tag : Half) (b : BayUnit) :
    b.tagHeld tag = true ↔ ∃ p ∈ b.queue ++ b.window.matched, p.tag = tag := by
  simp [BayUnit.tagHeld, or_and_right, exists_or]

/-- A party whose parameters are in range is judged against the station (R145). -/
theorem submitParty_judged {s : State} {tag : Half} {size need : Byte} {n : Need} (hrole : s.role = .entry)
    (hn : needOf need.toNat = some n) (htag : tag ≠ 0) (hsize : size ≠ 0) (hlimit : size.toNat ≤ s.sizeLimit n) :
    submitParty tag size need s = submitJudged tag size.toNat n s := by
  unfold submitParty
  rw [if_neg (by simp [hrole]), hn]
  dsimp only
  refine if_neg ?_
  rintro (h | h | h)
  · exact htag h
  · exact hsize h
  · omega

/-- A wanted grace is offered the party that joins (R150). -/
def State.offered (s : State) (n : Need) (size : Nat) : Prop :=
  s.bu.window.grace = true ∧ (∀ x ∈ s.bu.queue, x.locked = false) ∧
    ∃ c, s.bu.window.cabin.bind s.cabin? = some c ∧ needFits n c.cls = true ∧ size ≤ c.capacity

theorem joinQueue_offered {s : State} {p : Party} (h : s.offered p.need p.size) : joinQueue p s =
    (s.onBu (fun b => { b with
      window := { b.window with matched := b.window.matched ++ [p],
                                remaining := b.window.remaining - p.size, grace := false }
      creep := b.creep || p.need == .stepFree }), { code := 0, data := [0] }) := by
  obtain ⟨hgrace, hlocks, c, hc, hfits, hsize⟩ := h
  unfold joinQueue State.windowCabin?
  rw [hc]
  exact if_pos (by simpa [hgrace, hfits, hsize] using hlocks)

theorem joinQueue_queued {s : State} {p : Party} (h : ¬ s.offered p.need p.size) : joinQueue p s =
    (s.onBu (fun b => { b with queue := b.queue ++ [p] }),
      { code := 0, data := [byteOf (s.bu.queue.length + 1)] }) := by
  unfold joinQueue State.windowCabin?
  refine if_neg fun htaken => h ?_
  cases hc : s.bu.window.cabin.bind s.cabin? with
  | none => simp [hc] at htaken
  | some c =>
    simp only [hc, Bool.and_eq_true, Bool.not_eq_true', List.any_eq_false, decide_eq_true_eq] at htaken
    obtain ⟨⟨⟨hgrace, hlocks⟩, hfits⟩, hsize⟩ := htaken
    exact ⟨hgrace, by simpa using hlocks, c, hc, hfits, hsize⟩

/-- Settles O47: SUBMIT PARTY by its cases. -/
theorem partiesAreSubmitted : Obligations.PartiesAreSubmitted := by
  unfold Obligations.PartiesAreSubmitted
  intro s num size need tag hserves
  refine ⟨carryOut num (.submitParty tag size need) s, execPut_serves hserves num _, ?_⟩
  dsimp only
  rw [← notActing_iff, ← atLeast_empty_iff, ← tagHeld_iff]
  have hno : ∀ n, submitParty tag size need s = (s, verdict n) →
      (carryOut num (.submitParty tag size need) s).rp.holds 9 num n [] ∧
        (carryOut num (.submitParty tag size need) s).bu = s.bu := by
    intro n h
    obtain ⟨hholds, hsame⟩ := carryOut_refused (num := num) (r := .submitParty tag size need) h
    exact ⟨hholds, hsame .bu (by simp)⟩
  have hsizeLimit : ∀ n, s.joined = true → s.sizeLimit n = (match n with
      | .any => max s.sl.sheet.capStandard s.sl.sheet.capStepFree
      | .stepFree => s.sl.sheet.capStepFree
      | .priv => s.sl.sheet.capPrivate) := by
    intro n hjoined
    rw [State.sizeLimit, if_pos hjoined]
    cases n <;> rfl
  refine ⟨fun hrole => hno 1 (if_pos hrole), fun hrole => ⟨fun hbad => hno 3 ?_, fun n hn hjoined hover => hno 3 ?_,
    fun n hn hjoined hlimit htag hsize => ?_, fun n hn hstart htag hsize hlimit => hno 13 ?_⟩⟩
  · unfold submitParty
    rw [if_neg (by simp [hrole])]
    cases hn : needOf need.toNat with
    | none => rfl
    | some n =>
      dsimp only
      rw [if_pos (by simp [hn] at hbad; tauto)]
  · unfold submitParty
    rw [if_neg (by simp [hrole]), hn]
    dsimp only
    rw [if_pos (Or.inr (Or.inr (by rw [hsizeLimit n hjoined]; exact hover)))]
  · have hjudged := submitParty_judged hrole hn htag hsize (by rw [hsizeLimit n hjoined]; exact hlimit)
    unfold submitJudged at hjudged
    refine ⟨fun hbar => hno 13 ?_, fun hbar hstop => hno 8 ?_, fun hbar hstop hheld => hno 5 ?_,
      fun hbar hstop hheld hfull => hno 4 ?_, fun hbar hstop hheld hroom => ?_⟩
    · rw [hjudged, if_pos hbar]
    · rw [hjudged, if_neg hbar, if_pos hstop]
    · rw [hjudged, if_neg hbar, if_neg hstop, if_pos hheld]
    · rw [hjudged, if_neg hbar, if_neg hstop, if_neg hheld, if_pos hfull]
    · rw [if_neg hbar, if_neg hstop, if_neg hheld, if_neg (Nat.not_le.mpr hroom)] at hjudged
      change (¬ s.offered n size.toNat → _) ∧ (s.offered n size.toNat → _)
      refine ⟨fun hnot => ?_, fun hoffered => ?_⟩
      · rw [joinQueue_queued hnot] at hjudged
        obtain ⟨hholds, hsame⟩ := carryOut_verdict (num := num) (r := .submitParty tag size need) hjudged
        exact ⟨hholds, hsame .bu (by simp)⟩
      · rw [joinQueue_offered hoffered] at hjudged
        obtain ⟨hholds, hsame⟩ := carryOut_verdict (num := num) (r := .submitParty tag size need) hjudged
        have hbu : (carryOut num (.submitParty tag size need) s).bu = _ := hsame .bu (by simp)
        rw [hbu]
        exact ⟨hholds, rfl, rfl, rfl, fun hstep => by simp [hstep]⟩
  · have hunjoined : s.joined = false := not_joined_of_start (Or.inr hstart)
    rw [submitParty_judged hrole hn htag hsize (by simpa [State.sizeLimit, hunjoined] using hlimit),
      submitJudged, if_pos ((notActing_iff s).mpr (Or.inl hstart))]

/-! ### The desk (R104, R136) -/

theorem handOrder_facts (s : State) : (handOrder s).mu = { s.mu with orderAt := s.clock.now } ∧
    (handOrder s).lc =
      (handOver (.order ⟨byteOf (modeCode s.mu.deskMode), s.mu.deskSerial⟩) false s).lc := by
  refine ⟨by simp [handOrder, State.now], ?_⟩
  exact handOver_lc _ _ rfl rfl

theorem handService_facts (s : State) : (handService s).ct = { s.ct with serviceAt := s.clock.now } ∧
    (handService s).lc =
      (handOver (.service ⟨marksUpTo s.sl.sheet.n s.ct.deskMarks, s.ct.deskSerial⟩) false s).lc := by
  refine ⟨by simp [handService, State.now], ?_⟩
  exact handOver_lc _ _ rfl rfl

theorem setMark_getLsbD (m : BitVec 64) {i : Nat} (v : Bool) (j : Nat) (hj : j < 64) :
    (setMark m i v).getLsbD j = if j = i then v else m.getLsbD j := by
  have hone : ((1 : BitVec 64) <<< i).getLsbD j = decide (j = i) := by
    by_cases hji : j = i
    · subst hji
      simp [hj]
    · simp [hj, hji]
      omega
  unfold setMark
  cases v
  · rw [if_neg (by simp), BitVec.getLsbD_and, BitVec.getLsbD_not, hone]
    by_cases hji : j = i <;> simp [hj, hji]
  · rw [if_pos rfl, BitVec.getLsbD_or, hone]
    by_cases hji : j = i <;> simp [hji]

/-- Settles O52: ORDER RIDE and SET SERVICE by their cases. -/
theorem deskOrdersAndService : Obligations.DeskOrdersAndService := by
  unfold Obligations.DeskOrdersAndService
  intro s num mode cabin state hserves
  refine ⟨carryOut num (.orderRide mode) s, carryOut num (.setService cabin state) s,
    execPut_serves hserves num _, execPut_serves hserves num _, ?_⟩
  dsimp only
  rw [← notActing_iff]
  have hno : ∀ n, orderRide mode s = (s, verdict n) →
      (carryOut num (.orderRide mode) s).rp.holds 15 num n [] ∧
        (carryOut num (.orderRide mode) s).mu = s.mu ∧ (carryOut num (.orderRide mode) s).lc = s.lc := by
    intro n h
    obtain ⟨hholds, hsame⟩ := carryOut_refused (num := num) (r := .orderRide mode) h
    exact ⟨hholds, hsame .mu (by simp), hsame .lc (by simp)⟩
  have hnot : ∀ n, setService cabin state s = (s, verdict n) →
      (carryOut num (.setService cabin state) s).rp.holds 16 num n [] ∧
        (carryOut num (.setService cabin state) s).ct = s.ct ∧
        (carryOut num (.setService cabin state) s).lc = s.lc := by
    intro n h
    obtain ⟨hholds, hsame⟩ := carryOut_refused (num := num) (r := .setService cabin state) h
    exact ⟨hholds, hsame .ct (by simp), hsame .lc (by simp)⟩
  refine ⟨fun hrole => ⟨hno 1 (if_pos hrole), hnot 1 (if_pos hrole)⟩, fun hrole =>
    ⟨fun hmode => hno 3 ?_, fun m hm => ?_, fun hjoined => ⟨fun hbad => hnot 3 ?_, fun h0 hn hstate => ?_⟩,
    fun hstart h0 hn hstate => hnot 13 ?_⟩⟩
  · rw [orderRide, if_neg (by simp [hrole]), hmode]
  · have hjudged : orderRide mode s = (if s.notActing then (s, verdict 13)
        else if m ≠ .halt ∧ (s.hu.effect.atLeast .halt ∨ ¬ s.sl.settled) then (s, verdict 12)
        else (handOrder (s.onMu (fun u => { u with deskMode := m, deskSerial := u.deskSerial + 1 })), verdict 0)) := by
      rw [orderRide, if_neg (by simp [hrole]), hm]
    have hearly : (m ≠ .halt ∧ (s.hu.effect.atLeast .halt = true ∨ ¬ s.sl.settled = true)) ↔
        (m ≠ .halt ∧ (s.hu.effect = .halt ∨ s.hu.effect = .stop ∨ s.sl.settled = false)) := by
      rw [atLeast_halt_iff, or_assoc, Bool.not_eq_true]
    simp only [hearly] at hjudged
    refine ⟨fun hbar => hno 13 ?_, fun hbar he => hno 12 ?_, fun hbar he => ?_⟩
    · rw [hjudged, if_pos hbar]
    · rw [hjudged, if_neg hbar, if_pos he]
    · rw [if_neg hbar, if_neg he] at hjudged
      obtain ⟨hholds, hsame⟩ := carryOut_verdict (num := num) (r := .orderRide mode) hjudged
      obtain ⟨hmu, hlc⟩ := handOrder_facts (s.onMu (fun u => { u with deskMode := m, deskSerial := u.deskSerial + 1 }))
      refine ⟨hholds, (hsame .mu (by simp)).trans hmu, (hsame .lc (by simp)).trans (hlc.trans ?_)⟩
      exact handOver_lc _ _ rfl rfl
  · have hlimit : s.cabinLimit = s.sl.sheet.n := if_pos hjoined
    rw [setService, if_neg (by simp [hrole]), if_pos (by rw [hlimit]; exact hbad)]
  · have hlimit : s.cabinLimit = s.sl.sheet.n := if_pos hjoined
    have hjudged : setService cabin state s = (if s.notActing then (s, verdict 13)
        else (handService (s.onCt (fun t => { t with
          deskMarks := setMark t.deskMarks (cabin.toNat - 1) (state == 1)
          deskSerial := t.deskSerial + 1 })), verdict 0)) := by
      rw [setService, if_neg (by simp [hrole]), if_neg]
      rintro (h | h | h)
      · exact h0 h
      · omega
      · omega
    refine ⟨fun hbar => hnot 13 (by rw [hjudged, if_pos hbar]), fun hbar => ?_⟩
    rw [if_neg hbar] at hjudged
    obtain ⟨hholds, hsame⟩ := carryOut_verdict (num := num) (r := .setService cabin state) hjudged
    obtain ⟨hct, hlc⟩ := handService_facts (s.onCt (fun t => { t with
      deskMarks := setMark t.deskMarks (cabin.toNat - 1) (state == 1)
      deskSerial := t.deskSerial + 1 }))
    have hu : (carryOut num (.setService cabin state) s).ct = _ := (hsame .ct (by simp)).trans hct
    have hulc : (carryOut num (.setService cabin state) s).lc = _ := (hsame .lc (by simp)).trans hlc
    rw [hu, hulc]
    refine ⟨hholds, rfl, rfl, rfl, fun i hi => ?_, handOver_lc _ _ rfl rfl⟩
    have hpos : cabin.toNat ≠ 0 := fun h => h0 (BitVec.eq_of_toNat_eq h)
    have hcond : i = cabin.toNat - 1 ↔ i + 1 = cabin.toNat := by omega
    exact (setMark_getLsbD _ _ i hi).trans (by simp only [hcond])
  · have hlimit : s.cabinLimit = 64 := if_neg (by simp [not_joined_of_start (Or.inr hstart)])
    rw [setService, if_neg (by simp [hrole]), if_neg, if_pos ((notActing_iff s).mpr (Or.inl hstart))]
    rintro (h | h | h)
    · exact h0 h
    · omega
    · omega

/-! ### A window past ARRIVING stands through a change of a hold (R157) -/

/-- A window that is not ARRIVING stays. -/
def BayUnit.windowStays (a b : BayUnit) : Prop := a.window.state ≠ .arriving → b.window = a.window

theorem BayUnit.windowStays.of {a b : BayUnit} (h : b.window = a.window) : a.windowStays b := fun _ => h

theorem BayUnit.windowStays.trans {a b c : BayUnit} (h : a.windowStays b) (k : b.windowStays c) :
    a.windowStays c := fun ha => (k (by rw [h ha]; exact ha)).trans (h ha)

theorem formBoarding_stays (s : State) : s.bu.windowStays (formBoarding s).bu := by
  intro hnot
  unfold formBoarding
  dsimp only
  split
  · unfold closeInWindow
    split
    · next harriving => exact absurd harriving hnot
    all_goals rfl
  · rfl

theorem latchHalt_stays (c : Nat) (s : State) : s.bu.windowStays (latchHalt c s).bu := by
  unfold latchHalt
  split
  · exact .of rfl
  · dsimp only
    exact BayUnit.windowStays.trans (.of (by simp)) (formBoarding_stays _)

theorem testEmptyDown_stays (s : State) : s.bu.windowStays (testEmptyDown s).bu := by
  unfold testEmptyDown completeEmptyDown
  split
  · dsimp only
    refine BayUnit.windowStays.trans (latchHalt_stays 1 (s.onMu (fun m => { m with emptyState := .done }))) (.of ?_)
    simp
  · exact .of rfl

theorem emptyDownOnEffect_stays (old new : Effect) (s : State) :
    s.bu.windowStays (emptyDownOnEffect old new s).bu := by
  unfold emptyDownOnEffect
  split
  · exact BayUnit.windowStays.trans (.of (by simp)) (testEmptyDown_stays _)
  · split <;> exact .of rfl

theorem handOnEffect_stays (old new : Effect) (s : State) : s.bu.windowStays (handOnEffect old new s).bu := by
  unfold handOnEffect
  dsimp only
  have h1 := formBoarding_stays s
  generalize formBoarding s = a at h1 ⊢
  have h2 : a.bu.windowStays
      (if a.role = .entry ∧ ¬ old.atLeast .empty ∧ new.atLeast .empty then flushQueue a else a).bu := by
    split
    · exact .of (by simp [flushQueue])
    · exact .of rfl
  generalize (if a.role = .entry ∧ ¬ old.atLeast .empty ∧ new.atLeast .empty then flushQueue a else a) = b at h2 ⊢
  have h3 : b.bu.windowStays (if ¬ old.atLeast .halt ∧ new.atLeast .halt then latchHalt 0 b else b).bu := by
    split
    · exact latchHalt_stays 0 b
    · exact .of rfl
  generalize (if ¬ old.atLeast .halt ∧ new.atLeast .halt then latchHalt 0 b else b) = c at h3 ⊢
  have h4 := emptyDownOnEffect_stays old new c
  refine h1.trans (h2.trans (h3.trans (h4.trans (.of ?_))))
  split <;> simp

theorem afterRecords_stays (s : State) : s.bu.windowStays (afterRecords s).bu := by
  unfold afterRecords
  have hform : s.bu.windowStays (formEffect s).bu := by
    unfold formEffect
    dsimp only
    split
    · exact .of rfl
    · exact BayUnit.windowStays.trans (.of (by simp)) (handOnEffect_stays _ _ _)
  exact hform.trans (.of (by simp))

theorem admitHold_stays (r : HoldRec) (s : State) : s.bu.windowStays (admitHold r s).bu := by
  have hinsert : ∀ z : State, z.bu.windowStays (insertRecord r z).bu := by
    intro z
    unfold insertRecord
    exact BayUnit.windowStays.trans (.of (by simp)) (afterRecords_stays _)
  have hremove : ∀ k d, s.bu.windowStays (removeRecord k d s).bu := by
    intro k d
    unfold removeRecord
    exact BayUnit.windowStays.trans (.of (by simp)) (afterRecords_stays _)
  unfold admitHold
  split
  · exact hinsert s
  · split
    · next m _ =>
      split
      · exact (hremove m.kind m.declarer).trans (BayUnit.windowStays.trans (.of (by simp)) (hinsert _))
      · exact .of (by simp)
    · exact .of rfl

theorem placeOwn_stays (k : HoldKind) (s : State) : s.bu.windowStays (placeOwn k s).bu := by
  unfold placeOwn
  split
  · split
    · unfold updateRecord
      exact BayUnit.windowStays.trans (.of (by simp)) (afterRecords_stays _)
    · exact admitHold_stays _ _
  · exact .of rfl

theorem declareHold_stays (k : HoldKind) (e : Effect) (c : Cause) (s : State) :
    s.bu.windowStays (declareHold k e c s).bu := by
  have hsent : ∀ b z, (sendOwn k b z).bu = z.bu := by simp
  unfold declareHold
  split
  · rw [hsent]
    exact BayUnit.windowStays.trans (.of (by simp)) (placeOwn_stays _ _)
  · split
    · rw [hsent]
      exact BayUnit.windowStays.trans (.of (by simp)) (placeOwn_stays _ _)
    · split
      · refine BayUnit.windowStays.trans (.of ?_) (placeOwn_stays _ _)
        split <;> simp
      · exact placeOwn_stays _ _

/-! ### The bay worked by the host (R152, R153) -/

theorem closeWindow_bu (cause : Nat) (s : State) :
    let u := closeWindow cause s
    u.bu.window = { s.bu.window with state := .closing } ∧ u.bu.boardLamp = false ∧
    (s.pins.gateClear = true → u.bu.doorRelease = false ∧ u.bu.gateOpen = false ∧
      u.bu.doorClose = true ∧ u.bu.doorsOpen = false ∧ u.bu.closeDeferred = false) ∧
    (s.pins.gateClear = false → u.bu.doorRelease = s.bu.doorRelease ∧ u.bu.gateOpen = s.bu.gateOpen ∧
      u.bu.doorClose = s.bu.doorClose ∧ u.bu.doorsOpen = s.bu.doorsOpen ∧ u.bu.closeDeferred = true) := by
  have hlamp : (refreshLamp (s.onWindow (fun w => { w with state := .closing }))).bu =
      { s.bu with window := { s.bu.window with state := .closing }, boardLamp := false } := by
    simp [refreshLamp, State.lampNow, State.onWindow]
  have hpins : (refreshLamp (s.onWindow (fun w => { w with state := .closing }))).pins = s.pins := by
    simp [State.onWindow]
  dsimp only
  unfold closeWindow
  dsimp only
  rw [hpins]
  cases hgate : s.pins.gateClear
  · simp [hlamp]
  · simp [hlamp, shutDoors_bu]

theorem closeWindow_lc (cause : Nat) (s : State) :
    (s.pins.gateClear = true → (closeWindow cause s).lc =
      (handOver (.bay (closeWindow cause s).bayReport) false s).lc) ∧
    (s.pins.gateClear = false → (closeWindow cause s).lc = s.lc) := by
  have hlc : (refreshLamp (s.onWindow (fun w => { w with state := .closing }))).lc = s.lc := by
    simp [State.onWindow]
  have hpins : (refreshLamp (s.onWindow (fun w => { w with state := .closing }))).pins = s.pins := by
    simp [State.onWindow]
  have hsl : (refreshLamp (s.onWindow (fun w => { w with state := .closing }))).sl = s.sl := by
    simp [State.onWindow]
  unfold closeWindow
  dsimp only
  rw [hpins]
  generalize refreshLamp (s.onWindow (fun w => { w with state := .closing })) = z at hlc hsl
  refine ⟨fun hgate => ?_, fun hgate => ?_⟩
  · rw [hgate]
    simp only [Bool.not_true, Bool.false_eq_true, if_false]
    have hreport : (logBay 3 [byteOf cause, flagByte false] (shutDoors z)).bayReport = (shutDoors z).bayReport :=
      bayReport_of (at_ := (shutDoors z).bu.reportAt) (by simp [logBay]) (by simp [logBay]) (by simp [logBay])
    rw [hreport, show (logBay 3 [byteOf cause, flagByte false] (shutDoors z)).lc = (shutDoors z).lc by simp [logBay]]
    exact handBay_lc (by simpa using hlc) (by simpa using hsl)
  · rw [hgate]
    simpa [logBay] using hlc

theorem counted_cabin (riders : Nat) (d : List Byte) (s : State) :
    (logBay 5 d (s.onWindow (fun w => { w with count := some riders }))).windowCabin? =
      s.bu.window.cabin.bind s.cabin? := by
  have hcabin : ∀ c, (logBay 5 d (s.onWindow (fun w => { w with count := some riders }))).cabin? c = s.cabin? c := by
    intro c
    simp [State.cabin?, logBay, State.onWindow]
  have hwindow : (logBay 5 d (s.onWindow (fun w => { w with count := some riders }))).bu.window.cabin =
      s.bu.window.cabin := by
    simp [logBay, State.onWindow]
  rw [State.windowCabin?, hwindow, funext hcabin]

theorem takeCount_fits {riders : Nat} {s : State}
    (h : ∀ c, s.bu.window.cabin.bind s.cabin? = some c → riders ≤ c.capacity) :
    (takeCount riders s).1 = logBay 5 (byteOf riders :: signed16 (s.bu.residue riders))
      (s.onWindow (fun w => { w with count := some riders })) := by
  unfold takeCount
  dsimp only
  split
  · next c hc =>
    have hcap : riders ≤ c.capacity := h c ((counted_cabin ..).symm.trans hc)
    rw [if_neg (by omega)]
  · rfl

theorem takeCount_over {riders : Nat} {s : State} {c : Cabin} (hc : s.bu.window.cabin.bind s.cabin? = some c)
    (h : c.capacity < riders) : (takeCount riders s).1 = declareHold .bay .halt .overload
      (logBay 5 (byteOf riders :: signed16 (s.bu.residue riders))
        (s.onWindow (fun w => { w with count := some riders }))) := by
  unfold takeCount
  dsimp only
  split
  · next c' hc' =>
    obtain rfl : c = c' := Option.some.inj (hc.symm.trans ((counted_cabin ..).symm.trans hc'))
    rw [if_pos h]
  · next hnone => exact absurd (hc.symm.trans ((counted_cabin ..).symm.trans hnone)) (by simp)

/-- Settles O49: REPORT COUNT by `takeCount_fits` and `takeCount_over`, CLOSE DOORS by `closeWindow_bu`. -/
theorem hostWorksTheBay : Obligations.HostWorksTheBay := by
  unfold Obligations.HostWorksTheBay
  intro s num riders hserves
  refine ⟨carryOut num (.reportCount riders) s, carryOut num .closeDoors s, execPut_serves hserves num _,
    execPut_serves hserves num _, ?_⟩
  dsimp only
  have hno : ∀ n, reportCount riders s = (s, verdict n) →
      (carryOut num (.reportCount riders) s).rp.holds 11 num n [] ∧
        (carryOut num (.reportCount riders) s).bu = s.bu := by
    intro n h
    obtain ⟨hholds, hsame⟩ := carryOut_refused (num := num) (r := .reportCount riders) h
    exact ⟨hholds, hsame .bu (by simp)⟩
  have hshut : ∀ n, closeDoors s = (s, verdict n) →
      (carryOut num .closeDoors s).rp.holds 12 num n [] ∧ (carryOut num .closeDoors s).bu = s.bu := by
    intro n h
    obtain ⟨hholds, hsame⟩ := carryOut_refused (num := num) (r := .closeDoors) h
    exact ⟨hholds, hsame .bu (by simp)⟩
  have hopen : s.bu.inService = true ↔ s.bu.window.state = .opened ∨ s.bu.window.state = .closing := by
    simp [BayUnit.inService]
  rw [← hopen]
  have hisBay : s.role = .entry ∨ s.role = .exit ↔ s.isBay = true := by simp [State.isBay]
  rw [hisBay]
  refine ⟨fun hrole => hno 1 (if_pos hrole), fun hrole => ⟨fun hbar => hno 13 ?_, fun h1 h2 => ⟨fun hshut => hno 11 ?_,
    fun hserving => ?_⟩⟩, fun hbay => hshut 1 ?_, fun hbay => ⟨fun hfault => hshut 13 ?_, fun hfault hclosed => hshut 11 ?_,
    fun hfault hclosing => hshut 0 ?_, fun hfault hopened => ?_⟩⟩
  · rw [reportCount, if_neg (by simp [hrole]), if_pos ((notActing_iff s).mpr hbar)]
  · rw [reportCount, if_neg (by simp [hrole]), if_neg (by simp [notActing_iff, h1, h2]), if_neg hshut]
  · have hjudged : reportCount riders s = takeCount riders.toNat s := by
      rw [reportCount, if_neg (by simp [hrole]), if_neg (by simp [notActing_iff, h1, h2]), if_pos hserving]
    obtain ⟨hholds, hsame⟩ := carryOut_verdict (num := num) (r := .reportCount riders) (s := s) hjudged
    have hbu : (carryOut num (.reportCount riders) s).bu = (takeCount riders.toNat s).1.bu := hsame .bu (by simp)
    have hhu : (carryOut num (.reportCount riders) s).hu = (takeCount riders.toNat s).1.hu := hsame .hu (by simp)
    have hcounted : ∀ d, (logBay 5 d (s.onWindow (fun w => { w with count := some riders.toNat }))).bu.window =
        { s.bu.window with count := some riders.toNat } := by
      intro d
      simp [logBay, State.onWindow]
    have hstate : s.bu.window.state ≠ .arriving := by rcases hopen.mp hserving with h | h <;> simp [h]
    rw [hbu, hhu]
    refine ⟨hholds, ?_, fun c hc hover hnone => ?_, fun hfits => ?_⟩
    · by_cases hover : ∃ c, s.bu.window.cabin.bind s.cabin? = some c ∧ c.capacity < riders.toNat
      · obtain ⟨c, hc, hover⟩ := hover
        rw [takeCount_over hc hover, declareHold_stays _ _ _ _ (by rw [hcounted]; exact hstate), hcounted]
      · rw [takeCount_fits fun c hc => Nat.not_lt.mp fun hlt => hover ⟨c, hc, hlt⟩, hcounted]
    · rw [takeCount_over hc hover, declareHold_own, if_pos rfl]
      have hlogged : ∀ d, (logBay 5 d (s.onWindow (fun w => { w with count := some riders.toNat }))).hu = s.hu := by
        intro d
        simp [logBay, State.onWindow]
      rw [hlogged, hnone]
      exact ⟨_, rfl, rfl, rfl⟩
    · rw [takeCount_fits hfits]
      simp [logBay, State.onWindow]
  · rw [closeDoors, if_pos (by simpa using hbay)]
  · rw [closeDoors, if_neg (by simp [hbay]), if_pos hfault]
  · have hunserved : s.bu.window.state = .idle ∨ s.bu.window.state = .arriving := by
      rw [hopen] at hclosed
      cases h : s.bu.window.state <;> simp [h] at hclosed ⊢
    rw [closeDoors, if_neg (by simp [hbay]), if_neg hfault]
    rcases hunserved with h | h <;> rw [h]
  · rw [closeDoors, if_neg (by simp [hbay]), if_neg hfault, hclosing]
  · have hjudged : closeDoors s = (closeWindow 1 s, verdict 0) := by
      rw [closeDoors, if_neg (by simp [hbay]), if_neg hfault, hopened]
    obtain ⟨hholds, hsame⟩ := carryOut_verdict (num := num) (r := .closeDoors) hjudged
    have hbu : (carryOut num .closeDoors s).bu = (closeWindow 1 s).bu := hsame .bu (by simp)
    obtain ⟨hwindow, hlamp, hshuts, hdefers⟩ := closeWindow_bu 1 s
    rw [hbu]
    refine ⟨hholds, by rw [hwindow], hlamp, fun hgate => ?_, fun hgate => ?_⟩
    · obtain ⟨a, b, c, d, -⟩ := hshuts hgate
      exact ⟨a, b, c, d⟩
    · obtain ⟨-, -, -, -, h⟩ := hdefers hgate
      exact h

/-! ### DECLARE HOLD (R78, R87) -/

theorem hostDeclare_declares {effect cause : Byte} {s : State} {e : Effect}
    (hrole : ¬ (s.role = .drive ∨ s.role = .mast)) (he : effectOf effect.toNat = some e)
    (hallowed : causeOf cause.toNat = some .host ∧ holdAllowed s.hostKind .host e = true) :
    hostDeclare effect cause s = if s.notActing then (s, verdict 13)
      else (declareHold s.hostKind e .host s, verdict 0) := by
  rw [hostDeclare, if_neg hrole, he]
  dsimp only
  rw [if_neg]
  rintro (h | h)
  · exact h hallowed.1
  · simp [hallowed.2] at h

theorem hostDeclare_disallowed {effect cause : Byte} {s : State}
    (hrole : ¬ (s.role = .drive ∨ s.role = .mast))
    (hnot : ¬ ∃ e, effectOf effect.toNat = some e ∧ causeOf cause.toNat = some .host ∧
      holdAllowed s.hostKind .host e = true) :
    hostDeclare effect cause s = (s, verdict 3) := by
  rw [hostDeclare, if_neg hrole]
  cases he : effectOf effect.toNat with
  | none => rfl
  | some e =>
    dsimp only
    rw [if_pos]
    by_cases hcause : causeOf cause.toNat = some .host
    · exact Or.inr (by simpa using fun h => hnot ⟨e, he, hcause, h⟩)
    · exact Or.inl hcause

/-- Settles O50: DECLARE HOLD by its cases, the own-hold list by `declareHold_own`, the line by
`declareHold_sends`. -/
theorem hostDeclaresHolds : Obligations.HostDeclaresHolds := by
  unfold Obligations.HostDeclaresHolds
  intro s num effect cause hserves
  refine ⟨carryOut num (.declareHold effect cause) s, execPut_serves hserves num _, ?_⟩
  dsimp only
  rw [show (if s.role = .desk then HoldKind.desk else .bay) = s.hostKind from rfl, ← notActing_iff]
  have hno : ∀ n, hostDeclare effect cause s = (s, verdict n) →
      (carryOut num (.declareHold effect cause) s).rp.holds 13 num n [] ∧
        (carryOut num (.declareHold effect cause) s).hu = s.hu := by
    intro n h
    obtain ⟨hholds, hsame⟩ := carryOut_refused (num := num) (r := .declareHold effect cause) h
    exact ⟨hholds, hsame .hu (by simp)⟩
  refine ⟨fun hrole => hno 1 (if_pos hrole), fun hdrive hmast => ?_⟩
  have hrole : ¬ (s.role = .drive ∨ s.role = .mast) := by simp [hdrive, hmast]
  refine ⟨fun hnot => hno 3 (hostDeclare_disallowed hrole hnot), fun ⟨e, he, hallowed⟩ hbar => hno 13 ?_,
    fun h1 h2 e he hcause hpermitted => ?_⟩
  · rw [hostDeclare_declares hrole he hallowed, if_pos hbar]
  · have hjudged := hostDeclare_declares hrole he ⟨hcause, hpermitted⟩
    rw [if_neg (by simp [notActing_iff, h1, h2])] at hjudged
    obtain ⟨hholds, hsame⟩ := carryOut_verdict (num := num) (r := .declareHold effect cause) hjudged
    have hhu : (carryOut num (.declareHold effect cause) s).hu = (declareHold s.hostKind e .host s).hu :=
      hsame .hu (by simp)
    have hlc : (carryOut num (.declareHold effect cause) s).lc = (declareHold s.hostKind e .host s).lc :=
      hsame .lc (by simp)
    rw [hhu, hlc]
    refine ⟨hholds, fun j hj => ?_, ?_, fun hnone => ?_, fun o ho hle => ?_, fun o ho hlt => ?_⟩
    · rw [declareHold_own, if_neg hj]
    · exact declareHold_sends ..
    · rw [declareHold_own, if_pos rfl, hnone]
      rfl
    · rw [declareHold_own, if_pos rfl, ho]
      dsimp only
      split
      · exact ⟨_, rfl, rfl, rfl, rfl⟩
      · next hnlt =>
        have heq : o.effect = e := effectCode_injective _ _ (by omega)
        rw [if_pos heq]
        exact ⟨_, rfl, rfl, rfl, rfl⟩
    · rw [declareHold_own, if_pos rfl, ho]
      dsimp only
      rw [if_neg (by omega), if_neg (by rintro rfl; omega)]

/-! ### RELEASE HOLD (R80, R88, R93) -/

theorem releaseRoleError_iff {s : State} {k : HoldKind} {d : Nat} : s.releaseRoleError k d = true ↔
    ((s.role = .entry ∨ s.role = .exit) ∧ ¬ (k = .bay ∧ d = s.sl.station)) ∨
      ((s.role = .drive ∨ s.role = .mast) ∧ ¬ (k = .link ∧ d = s.sl.station)) := by
  unfold State.releaseRoleError State.own
  cases s.role <;> simp <;> tauto

theorem holdsKey_iff {s : State} {k : HoldKind} {d : Nat} : s.holdsKey k d = true ↔
    (s.hu.find? k d).isSome = true ∨ (d = s.sl.station ∧ (s.hu.own? k).isSome = true) := by
  simp [State.holdsKey, State.own]

theorem hostRelease_judged {kind declarer : Byte} {s : State} {k : HoldKind}
    (hk : holdKindOf kind.toNat = some k) (hd : declarer.toNat ≤ 23) :
    hostRelease kind declarer s =
      if s.releaseRoleError k declarer.toNat then (s, verdict 1)
      else if s.notActing then (s, verdict 13)
      else if s.holdsKey k declarer.toNat = false then (s, verdict 9)
      else if s.role = .desk ∧ k = .storm ∧ declarer.toNat ≠ s.own ∧ s.wv.stormStanding then (s, verdict 10)
      else (releaseKey k declarer.toNat s, verdict 0) := by
  rw [hostRelease, hk]
  exact if_neg (Nat.not_lt.mpr hd)

/-! #### The release carried out -/

theorem releaseKey_bay {k : HoldKind} {d : Nat} {s : State} (h : s.role = .entry ∨ s.role = .exit) :
    releaseKey k d s = releaseOwn k s := by
  rcases h with h | h <;> rw [releaseKey, h]

theorem releaseKey_button {k : HoldKind} {d : Nat} {s : State} (h : s.role = .drive ∨ s.role = .mast) :
    releaseKey k d s = setCond .button false s := by
  rcases h with h | h <;> rw [releaseKey, h]

theorem releaseKey_deskOwn {k : HoldKind} {s : State} (h : s.role = .desk) :
    releaseKey k s.sl.station s = if k = .link then overrideLink (releaseOwn k s) else releaseOwn k s := by
  rw [releaseKey, h]
  exact if_pos rfl

theorem releaseKey_deskOther {k : HoldKind} {d : Nat} {s : State} (h : s.role = .desk) (hd : d ≠ s.sl.station) :
    releaseKey k d s = handOver (.release ⟨byteOf (holdKindCode k), byteOf d, 1⟩) false (removeRecord k d s) := by
  rw [releaseKey, h]
  exact if_neg hd

/-- A bay's or desk's own hold released: the list, the set and the line are those of `releaseOwn`. -/
theorem releaseKey_own {k : HoldKind} {s : State} (h : s.role = .entry ∨ s.role = .exit ∨ s.role = .desk) :
    (releaseKey k s.sl.station s).hu.own = (releaseOwn k s).hu.own ∧
      (releaseKey k s.sl.station s).hu.records = (releaseOwn k s).hu.records ∧
      (releaseKey k s.sl.station s).lc = (releaseOwn k s).lc := by
  rcases h with h | h | h
  · rw [releaseKey_bay (Or.inl h)]
    exact ⟨rfl, rfl, rfl⟩
  · rw [releaseKey_bay (Or.inr h)]
    exact ⟨rfl, rfl, rfl⟩
  · rw [releaseKey_deskOwn h]
    split
    · simp [overrideLink_hu]
    · exact ⟨rfl, rfl, rfl⟩

theorem releaseKey_own? {k : HoldKind} {s : State} (h : s.role = .entry ∨ s.role = .exit ∨ s.role = .desk)
    (j : HoldKind) : (releaseKey k s.sl.station s).hu.own? j = if j = k then none else s.hu.own? j := by
  rw [HoldUnit.own?, (releaseKey_own h).1]
  exact releaseOwn_own k j s

theorem releaseKey_ends {k : HoldKind} {s : State} (h : s.role = .entry ∨ s.role = .exit ∨ s.role = .desk)
    {o : OwnHold} (ho : s.hu.own? k = some o) :
    (releaseKey k s.sl.station s).hu.find? k s.sl.station = none ∧
      (releaseKey k s.sl.station s).lc =
        (handOver (.release ⟨byteOf (holdKindCode k), byteOf s.sl.station, 0⟩) false s).lc := by
  obtain ⟨-, hrecords, hlc⟩ := releaseKey_own (k := k) h
  rw [HoldUnit.find?, hrecords, hlc, releaseOwn_sends, ho]
  exact ⟨releaseOwn_find? ho, rfl⟩

theorem releaseKey_silent {k : HoldKind} {s : State} (h : s.role = .entry ∨ s.role = .exit ∨ s.role = .desk)
    (hnone : s.hu.own? k = none) : (releaseKey k s.sl.station s).lc = s.lc := by
  rw [(releaseKey_own h).2.2, releaseOwn_sends, hnone]

theorem setCond_button_clears (s : State) :
    (setCond .button false s).hu.cond = { s.hu.cond with button := false } :=
  (setCond_conds ..).1

theorem byteOf_byte (b : Byte) : byteOf b.toNat = b := by
  simp [byteOf]

/-- Settles O51: RELEASE HOLD by its cases, each release by the `releaseKey` lemma of its role. -/
theorem hostReleasesHolds : Obligations.HostReleasesHolds := by
  unfold Obligations.HostReleasesHolds
  intro s num kind declarer hserves
  refine ⟨carryOut num (.releaseHold kind declarer) s, execPut_serves hserves num _, ?_⟩
  dsimp only
  have hno : ∀ n, hostRelease kind declarer s = (s, verdict n) →
      (carryOut num (.releaseHold kind declarer) s).rp.holds 14 num n [] ∧
        (carryOut num (.releaseHold kind declarer) s).hu = s.hu := by
    intro n h
    obtain ⟨hholds, hsame⟩ := carryOut_refused (num := num) (r := .releaseHold kind declarer) h
    exact ⟨hholds, hsame .hu (by simp)⟩
  refine ⟨fun hbad => hno 3 ?_, fun k hk hd => ?_⟩
  · cases hk : holdKindOf kind.toNat with
    | none => rw [hostRelease, hk]
    | some k =>
      have hd : 23 < declarer.toNat := by simpa [hk] using hbad
      rw [hostRelease, hk]
      exact if_pos hd
  have hjudged := hostRelease_judged (s := s) hk hd
  rw [← releaseRoleError_iff, ← notActing_iff, ← holdsKey_iff]
  refine ⟨fun hwrong => hno 1 ?_, fun hright hbar => hno 13 ?_, fun hright hbar hunknown => hno 9 ?_,
    fun hright hbar hknown hstorm => hno 10 ?_, fun hright hbar hknown hstorm => ?_⟩
  · rw [hjudged, if_pos hwrong]
  · rw [hjudged, if_neg hright, if_pos hbar]
  · rw [hjudged, if_neg hright, if_neg hbar, if_pos (by simpa using hunknown)]
  · rw [hjudged, if_neg hright, if_neg hbar, if_neg (by simpa using hknown)]
    exact if_pos hstorm
  · rw [if_neg hright, if_neg hbar, if_neg (by simpa using hknown)] at hjudged
    have hjudged := hjudged.trans (if_neg hstorm)
    obtain ⟨hholds, hsame⟩ := carryOut_verdict (num := num) (r := .releaseHold kind declarer) hjudged
    have hhu : (carryOut num (.releaseHold kind declarer) s).hu = (releaseKey k declarer.toNat s).hu :=
      hsame .hu (by simp)
    have hlc : (carryOut num (.releaseHold kind declarer) s).lc = (releaseKey k declarer.toNat s).lc :=
      hsame .lc (by simp)
    have hmine : s.role = .entry ∨ s.role = .exit → declarer.toNat = s.sl.station := by
      intro hbay
      by_contra hd
      exact hright (releaseRoleError_iff.mpr (Or.inl ⟨hbay, fun h => hd h.2⟩))
    rw [hhu, hlc]
    refine ⟨hholds, fun howner => ?_, fun hbay => ?_, fun hbutton => ?_, fun hdesk hd => ?_, fun hdesk hd => ?_⟩
    · have hown : declarer.toNat = s.sl.station := by
        rcases howner with h | h | h
        · exact hmine (Or.inl h)
        · exact hmine (Or.inr h)
        · exact h.2
      have hrole : s.role = .entry ∨ s.role = .exit ∨ s.role = .desk := howner.imp_right (Or.imp_right And.left)
      rw [hown]
      refine ⟨fun hsome => ?_, fun hnone => releaseKey_silent hrole hnone⟩
      obtain ⟨o, ho⟩ := Option.isSome_iff_exists.mp hsome
      rw [show declarer = byteOf s.sl.station by rw [← hown, byteOf_byte]]
      exact releaseKey_ends hrole ho
    · have hrole : s.role = .entry ∨ s.role = .exit ∨ s.role = .desk := hbay.imp_right Or.inl
      rw [hmine hbay]
      exact ⟨by rw [releaseKey_own? hrole, if_pos rfl], fun j hj => by rw [releaseKey_own? hrole, if_neg hj]⟩
    · rw [releaseKey_button hbutton, setCond_button_clears]
    · rw [hd, releaseKey_own? (Or.inr (Or.inr hdesk)), if_pos rfl]
      refine ⟨rfl, fun hlink => ?_⟩
      rw [releaseKey_deskOwn hdesk, if_pos hlink, overrideLink_hu]
      simp
    · rw [releaseKey_deskOther hdesk hd, byteOf_byte]
      simp only [handOver_spares]
      refine ⟨find?_of_without (removeRecord_set ..).1, (removeRecord_set ..).2.1, ?_⟩
      exact handOver_lc _ _ (by simp) (by simp)

/-! ### The requests that read (R54, R72, R89, R140, R183, R191) -/

theorem readJudged_outside {s : State} {ok : Bool} (v : Verdict) (h : ok = false) :
    s.readJudged ok v = verdict 3 := if_pos h

theorem readJudged_faulted {s : State} {ok : Bool} (v : Verdict) (h : ok = true) (hfault : s.sl.start = .sheetFault) :
    s.readJudged ok v = verdict 13 := by
  rw [State.readJudged, if_neg (by simp [h]), if_pos hfault]

theorem readJudged_answered {s : State} {ok : Bool} (v : Verdict) (h : ok = true) (hjoined : s.joined = true) :
    s.readJudged ok v = v := by
  have hstart : s.sl.start ≠ .sheetFault := fun hfault => by simp [not_joined_of_start (Or.inr hfault)] at hjoined
  rw [State.readJudged, if_neg (by simp [h]), if_neg hstart]

theorem readCabin_joined {c : Nat} {s : State} (hjoined : s.joined = true) :
    readCabin c s = match s.cabin? c with
      | some r => answer (s.cabinData r)
      | none => verdict 3 := by
  have hstart : s.sl.start ≠ .sheetFault := fun hfault => by simp [not_joined_of_start (Or.inr hfault)] at hjoined
  exact if_neg hstart

theorem readWind_selects {sel : Nat} {s : State} (hjoined : s.joined = true) (hsel : sel ≤ 3) :
    readWind sel s = match s.wv.records[sel]? with
      | some r => answer (s.windData r)
      | none => verdict 6 := by
  rw [readWind, readJudged_answered _ (by simp [hsel]) hjoined]
  exact if_neg (by omega)

theorem readWind_fused {s : State} (hjoined : s.joined = true) : readWind 255 s = answer s.fusedData := by
  rw [readWind, readJudged_answered _ (by simp) hjoined, if_pos rfl]

theorem takePeerFault_judged {n : Nat} {s : State} (hn : n ≤ 23) (hstart : s.sl.start ≠ .sheetFault) :
    takePeerFault n s = match (s.peer n).fault with
      | some f => (s.onPeer n (fun p => { p with fault := none }), answer (faultBytes (some f)))
      | none => (s, verdict 6) := by
  rw [takePeerFault, if_neg (by omega)]
  exact if_neg hstart

/-- READ PEER, READ WIND, READ HOLDS, READ CABIN and READ LOG are judged as their functions say. -/
theorem reads_holds (num a b : Byte) (s : State) :
    (carryOut num (.readPeer a) s).rp.holds 2 num (readPeer a.toNat s).code (readPeer a.toNat s).data ∧
    (carryOut num (.readWind a) s).rp.holds 4 num (readWind a.toNat s).code (readWind a.toNat s).data ∧
    (carryOut num (.readHolds a) s).rp.holds 5 num (readHolds a.toNat s).code (readHolds a.toNat s).data ∧
    (carryOut num (.readCabin a) s).rp.holds 6 num (readCabin a.toNat s).code (readCabin a.toNat s).data ∧
    (carryOut num (.readLog a b) s).rp.holds 7 num (readLog a.toNat b.toNat s).code (readLog a.toNat b.toNat s).data :=
  ⟨(carryOut_verdict rfl).1, (carryOut_verdict rfl).1, (carryOut_verdict rfl).1, (carryOut_verdict rfl).1,
    (carryOut_verdict rfl).1⟩

/-- Settles O45: the reads by `reads_holds`, TAKE PEER FAULT by its cases. -/
theorem readsAreAnswered : Obligations.ReadsAreAnswered := by
  unfold Obligations.ReadsAreAnswered
  refine ⟨fun s num a b hserves => ?_, fun s num n hserves hwf => ?_⟩
  · obtain ⟨hpeer, hwind, hholds, hcabin, hlog⟩ := reads_holds num a b s
    refine ⟨_, _, _, _, _, _, execPut_serves hserves num .status, execPut_serves hserves num (.readPeer a),
      execPut_serves hserves num (.readWind a), execPut_serves hserves num (.readHolds a),
      execPut_serves hserves num (.readCabin a), execPut_serves hserves num (.readLog a b),
      (carryOut_verdict rfl).1, fun h => ?_, fun h h' => ?_, fun h => ?_, fun h => ?_, fun hfault =>
      ⟨fun h => ?_, fun h => ?_, fun h => ?_, ?_, fun h h' => ?_⟩, fun hjoined =>
      ⟨fun h => ?_, fun h => ?_, fun r h hr => ?_, fun h hr => ?_, fun h => ?_, fun c hc => ?_, fun hc => ?_,
        fun h h' => ?_⟩, fun t ht x hx => ?_⟩
    · rwa [readPeer, readJudged_outside _ (by simp; omega)] at hpeer
    · have h255 : a.toNat ≠ 255 := fun h => h' (BitVec.eq_of_toNat_eq h)
      rwa [readWind, readJudged_outside _ (by simp; omega)] at hwind
    · rwa [readHolds, readJudged_outside _ (by simp; omega)] at hholds
    · have hb : (decide (1 ≤ b.toNat) && decide (b.toNat ≤ 4)) = false := by
        rcases h with rfl | h
        · simp
        · simp
          omega
      rwa [readLog, readJudged_outside _ hb] at hlog
    · rwa [readPeer, readJudged_faulted _ (by simp; omega) hfault] at hpeer
    · rwa [readWind, readJudged_faulted _ (by rcases h with h | rfl <;> simp [*]) hfault] at hwind
    · rwa [readHolds, readJudged_faulted _ (by simp; omega) hfault] at hholds
    · rwa [readCabin, if_pos hfault] at hcabin
    · have hb : b.toNat ≠ 0 := fun h0 => h (BitVec.eq_of_toNat_eq h0)
      rwa [readLog, readJudged_faulted _ (by simp; omega) hfault] at hlog
    · rwa [readPeer, readJudged_answered _ (by simp; omega) hjoined] at hpeer
    · subst h
      rwa [show (255 : Byte).toNat = 255 from rfl, readWind_fused hjoined] at hwind
    · rwa [readWind_selects hjoined h, hr] at hwind
    · rwa [readWind_selects hjoined h, hr] at hwind
    · rwa [readHolds, readJudged_answered _ (by simp; omega) hjoined] at hholds
    · rwa [readCabin_joined hjoined, hc] at hcabin
    · rwa [readCabin_joined hjoined, hc] at hcabin
    · have hb : b.toNat ≠ 0 := fun h0 => h (BitVec.eq_of_toNat_eq h0)
      rwa [readLog, readJudged_answered _ (by simp; omega) hjoined] at hlog
    · have hreads : ∀ r ∈ [Request.status, .readPeer a, .readWind a, .readHolds a, .readCabin a, .readLog a b],
          (serve r s).1 = s := by simp [serve]
      obtain ⟨r, hr, rfl⟩ : ∃ r ∈ [Request.status, .readPeer a, .readWind a, .readHolds a, .readCabin a, .readLog a b],
          t = carryOut num r s := by simpa using ht
      exact (carryOut_verdict (v := (serve r s).2) (Prod.ext (hreads r hr) rfl)).2 x hx
  · refine ⟨_, execPut_serves hserves num (.takePeerFault n), fun h => ?_, fun h hfault => ?_,
      fun h hstart hnone => ?_, fun f h hstart hf => ?_⟩
    · obtain ⟨hholds, hsame⟩ := carryOut_refused (num := num) (r := .takePeerFault n) (s := s) (n := 3) (if_pos h)
      exact ⟨hholds, hsame .pv (by simp)⟩
    · obtain ⟨hholds, hsame⟩ := carryOut_refused (num := num) (r := .takePeerFault n) (s := s) (n := 13)
        (by rw [serve, takePeerFault, if_neg (by omega), if_pos hfault])
      exact ⟨hholds, hsame .pv (by simp)⟩
    · obtain ⟨hholds, hsame⟩ := carryOut_refused (num := num) (r := .takePeerFault n) (s := s) (n := 6)
        (by rw [serve, takePeerFault_judged h hstart, hnone])
      exact ⟨hholds, hsame .pv (by simp)⟩
    · have hjudged : serve (.takePeerFault n) s =
          (s.onPeer n.toNat (fun p => { p with fault := none }), answer (faultBytes (some f))) := by
        rw [serve, takePeerFault_judged h hstart, hf]
      obtain ⟨hholds, hsame⟩ := carryOut_verdict (num := num) hjudged
      have hpeer : ∀ m, (carryOut num (.takePeerFault n) s).peer m =
          if m = n.toNat then { s.peer n.toNat with fault := none } else s.peer m := by
        intro m
        rw [← onPeer_at n.toNat m (fun p => { p with fault := none }) s hwf.1 (by omega)]
        exact peer_of_pv (hsame .pv (by simp)) m
      exact ⟨hholds, by rw [hpeer, if_pos rfl], fun m hm => by rw [hpeer, if_neg hm]⟩

/-! ### PUT and GET (R189, R190) -/

theorem putRequest_loading {s : State} (hstart : s.sl.start = .loading) (hbusy : s.rp.busy = false)
    (hrdy : s.rp.rdy = false) (num : Byte) (r : Request) :
    putRequest num r s = { s with rp := { s.rp with busy := true, deferred := some (num, r) } } := by
  rw [putRequest, if_pos (by simp [Port.free, hbusy, hrdy]), if_pos hstart]
  rfl

theorem putRequest_refused {s : State} (hfull : s.rp.busy = true ∨ s.rp.rdy = true) (num : Byte) (r : Request) :
    putRequest num r s = { s with rp := { s.rp with refused := min 255 (s.rp.refused + 1) } } := by
  have hnot : ¬ s.rp.free = true := by
    rcases hfull with h | h <;> simp [Port.free, h]
  rw [putRequest, if_neg hnot]
  rfl

/-- The three answers of the port to a complete PUT (R190). -/
theorem exec_put {c : Instr} {num : Byte} {r : Request} {s : State}
    (hrow : exec c s = .next (putRequest num r s)) :
    (s.serves → ∃ t, exec c s = .next t ∧ t.rp = { s.rp with
      slot := some ⟨requestCode r, num, (serve r s).2.code, (serve r s).2.data, 0, false⟩
      busy := false
      deferred := none }) ∧
    (s.sl.start = .loading → s.rp.busy = false → s.rp.rdy = false →
      exec c s = .next { s with rp := { s.rp with busy := true, deferred := some (num, r) } }) ∧
    (s.rp.busy = true ∨ s.rp.rdy = true →
      exec c s = .next { s with rp := { s.rp with refused := min 255 (s.rp.refused + 1) } }) := by
  refine ⟨fun hserves => ⟨carryOut num r s, by rw [hrow, putRequest_serves hserves], ?_⟩, fun hstart hbusy hrdy => ?_,
    fun hfull => ?_⟩
  · simp [carryOut, placeAnswer]
  · rw [hrow, putRequest_loading hstart hbusy hrdy]
  · rw [hrow, putRequest_refused hfull]

/-! #### The row of a transaction's bytes -/

theorem execTransaction_put (lines : StrapLines) (frame : List Byte) (s : State) :
    execTransaction lines (0x01 :: frame) s = exec (putTransaction lines frame) s := rfl

theorem putTransaction_known (lines : StrapLines) (code num : Byte) (params rest : List Byte)
    (hlen : params.length ≤ 16) :
    putTransaction lines (code :: num :: byteOf params.length :: (params ++ rest)) =
      putRow lines code num (byteOf params.length) params := by
  have hbyte : (byteOf params.length).toNat = params.length := by
    simp [byteOf]
    omega
  rw [putTransaction, hbyte, if_neg (by omega), if_neg (by simp), List.take_left]

theorem be16_append (x : Half) : x.extractLsb' 8 8 ++ x.extractLsb' 0 8 = x := by
  rw [BitVec.extractLsb'_append_extractLsb'_eq_extractLsb' (by rfl)]
  simp

theorem requestCode_cases (n : Nat) : (n = 1 ∨ n = 8 ∨ n = 12 ∨ n = 17) ∨
    (n = 2 ∨ n = 3 ∨ n = 4 ∨ n = 5 ∨ n = 6 ∨ n = 11 ∨ n = 15) ∨ (n = 7 ∨ n = 10 ∨ n = 13 ∨ n = 14 ∨ n = 16) ∨
    n = 9 ∨ n = 0 ∨ ∃ m, n = m + 18 := by
  rcases Nat.lt_or_ge n 18 with h | h
  · omega
  · exact Or.inr (Or.inr (Or.inr (Or.inr (Or.inr ⟨n - 18, by omega⟩))))

/-- A code with parameters of another length than its own is an unknown request (R189). -/
theorem putRow_unknown (lines : StrapLines) {code : Byte} (num : Byte) {length : Byte} {params : List Byte}
    (hlen : params.length = length.toNat) (h : requestLength code.toNat ≠ some length.toNat) :
    putRow lines code num length params = .putUnknownRequest code num length := by
  rw [← hlen] at h
  unfold putRow
  rcases requestCode_cases code.toNat with hn | hn | hn | hn | hn | ⟨m, hn⟩
  · obtain ⟨a, rest, rfl⟩ : ∃ a rest, params = a :: rest := by
      cases params with
      | nil => exact absurd (by rcases hn with hn | hn | hn | hn <;> rw [hn] <;> rfl) h
      | cons a rest => exact ⟨a, rest, rfl⟩
    rcases hn with hn | hn | hn | hn <;> rw [hn] <;> rfl
  · rcases params with _ | ⟨a, _ | ⟨b, rest⟩⟩
    · rcases hn with hn | hn | hn | hn | hn | hn | hn <;> rw [hn] <;> rfl
    · exact absurd (by rcases hn with hn | hn | hn | hn | hn | hn | hn <;> rw [hn] <;> rfl) h
    · rcases hn with hn | hn | hn | hn | hn | hn | hn <;> rw [hn] <;> rfl
  · rcases params with _ | ⟨a, _ | ⟨b, _ | ⟨c, rest⟩⟩⟩
    · rcases hn with hn | hn | hn | hn | hn <;> rw [hn] <;> rfl
    · rcases hn with hn | hn | hn | hn | hn <;> rw [hn] <;> rfl
    · exact absurd (by rcases hn with hn | hn | hn | hn | hn <;> rw [hn] <;> rfl) h
    · rcases hn with hn | hn | hn | hn | hn <;> rw [hn] <;> rfl
  · rcases params with _ | ⟨a, _ | ⟨b, _ | ⟨c, _ | ⟨d, _ | ⟨e, rest⟩⟩⟩⟩⟩
    case cons.cons.cons.cons.nil => exact absurd (by rw [hn]; rfl) h
    all_goals rw [hn]; rfl
  · rw [hn]
    rfl
  · rw [hn]
    rfl

theorem putTransaction_unknown (lines : StrapLines) (num : Byte) {code length : Byte} {rest : List Byte}
    (h : 16 < length.toNat ∨ (length.toNat ≤ rest.length ∧ requestLength code.toNat ≠ some length.toNat)) :
    putTransaction lines (code :: num :: length :: rest) = .putUnknownRequest code num length := by
  rw [putTransaction]
  by_cases hlong : 16 < length.toNat
  · rw [if_pos hlong]
  · obtain ⟨hcomplete, hlen⟩ := h.resolve_left hlong
    rw [if_neg hlong, if_neg (by omega)]
    exact putRow_unknown lines num (by simpa using hcomplete) hlen

theorem putTransaction_short (lines : StrapLines) (num : Byte) {code length : Byte} {rest : List Byte}
    (hlen : length.toNat ≤ 16) (h : rest.length < length.toNat) :
    putTransaction lines (code :: num :: length :: rest) = .putIncomplete := by
  rw [putTransaction, if_neg (by omega), if_pos h]

theorem putTransaction_headless (lines : StrapLines) {frame : List Byte} (h : frame.length < 3) :
    putTransaction lines frame = .putIncomplete := by
  rcases frame with _ | ⟨a, _ | ⟨b, _ | ⟨c, rest⟩⟩⟩
  · rfl
  · rfl
  · rfl
  · simp at h
    omega

theorem execTransaction_other (lines : StrapLines) {op : Byte} (rest : List Byte) (s : State) (h1 : op ≠ 1)
    (h2 : op ≠ 2) : execTransaction lines (op :: rest) s = .next s := by
  have hrow : s.transactionRow lines (op :: rest) = none := by
    rw [State.transactionRow, if_neg h1, if_neg h2]
  rw [execTransaction, hrow]

/-! #### The part that a GET sends -/

theorem exec_get {s : State} (hup : s.sl.resetHeld = false) {complete : Bool} {sent : List Byte}
    {slot : Option Answer} (hsent : s.rp.getBytes = sent)
    (hslot : (if complete then s.rp.slot.map Answer.advance else s.rp.slot) = slot) :
    exec (.get complete) s = .next { s with rp := { s.rp with miso := sent, slot := slot } } := by
  rw [exec_up hup, ← hsent, ← hslot]
  rfl

theorem getBytes_empty {p : Port} (h : p.slot = none) : p.getBytes = [0, 0, 0, 1, 0] := by
  rw [Port.getBytes, h]

theorem getBytes_part {p : Port} {x : Answer} (h : p.slot = some x) : p.getBytes = x.partBytes := by
  rw [Port.getBytes, h]

theorem advance_next {x : Answer} (h : x.part + 1 < x.parts) : x.advance = { x with part := x.part + 1 } :=
  if_pos h

theorem advance_last {x : Answer} (h : x.parts ≤ x.part + 1) : x.advance = { x with read := true } :=
  if_neg (by omega)

/-- Settles O44: a PUT's three answers by `exec_put`, its bytes by the lemmas on `putTransaction`, GET by
`exec_get`. -/
theorem portTakesPutAndGet : Obligations.PortTakesPutAndGet := by
  unfold Obligations.PortTakesPutAndGet
  intro s num a b d tag hup
  refine ⟨fun c r hrow => exec_put ?_, rfl, exec_up hup _, fun lines c code params rest hrow => ?_,
    fun lines rest => ⟨fun h => ?_, fun hlen h => ?_, fun h => ?_, rfl, fun h1 h2 => ?_, rfl⟩,
    fun complete hslot => ?_, fun x hx => ⟨?_, fun hmore => ?_, fun hlast => ?_⟩⟩
  · rcases hrow with hrow | ⟨hlen, hrow⟩
    · rw [exec_up hup]
      simp only [List.mem_cons, Prod.mk.injEq, List.not_mem_nil, or_false] at hrow
      rcases hrow with h | h | h | h | h | h | h | h | h | h | h | h | h | h | h | h <;>
        (obtain ⟨rfl, rfl⟩ := h; rfl)
    · obtain ⟨rfl, rfl⟩ := Prod.mk.inj hrow
      rw [exec_up hup]
      exact congrArg _ (if_neg hlen)
  · rw [execTransaction_put]
    have hrows : params.length ≤ 16 ∧ putRow lines code num (byteOf params.length) params = c := by
      simp only [List.mem_cons, Prod.mk.injEq, List.not_mem_nil, or_false] at hrow
      rcases hrow with h | h | h | h | h | h | h | h | h | h | h | h | h | h | h | h | h <;>
        (obtain ⟨rfl, rfl, rfl⟩ := h; refine ⟨by simp [be16], ?_⟩)
      case inr.inr.inr.inr.inr.inr.inr.inr.inl => exact congrArg (Instr.submitParty num · a b) (be16_append tag)
      case inr.inr.inr.inr.inr.inr.inr.inr.inr.inl => exact congrArg (Instr.withdrawParty num) (be16_append tag)
      all_goals rfl
    rw [putTransaction_known lines code num params rest hrows.1, hrows.2]
  · rw [execTransaction_put, putTransaction_unknown lines num h]
  · rw [execTransaction_put, putTransaction_short lines num hlen h]
    exact exec_up hup _
  · rw [execTransaction_put, putTransaction_headless lines h]
    exact exec_up hup _
  · exact execTransaction_other lines rest s h1 h2
  · refine exec_get hup (getBytes_empty hslot) (slot := s.rp.slot) ?_
    cases complete <;> simp [hslot]
  · exact exec_get hup (getBytes_part hx) (slot := s.rp.slot) (if_neg (by simp))
  · exact exec_get hup (getBytes_part hx) (by rw [if_pos rfl, hx, Option.map_some, advance_next hmore])
  · exact exec_get hup (getBytes_part hx) (by rw [if_pos rfl, hx, Option.map_some, advance_last hlast])

end Sys2Proof.Machine
end

section
/-! SUPPORT. The windows of both bays: how they open, close and end (R148, R151, R153 to R156, R167 to R172). -/

namespace Sys2Proof.Machine

/-! ### The doors opened and closed (R151, R153, R168) -/

theorem releaseDoors_bu {s : State} (hlit : (s.role = .entry ∧ s.bu.boarding = true) ∨ s.role = .exit) :
    (releaseDoors s).bu = { s.bu with
      doorRelease := true, gateOpen := true, doorsOpen := true
      window := { s.bu.window with state := .opened }, boardLamp := true, reportAt := s.clock.now } := by
  obtain ⟨z, hz⟩ : ∃ z, z = (s.onBu (fun b => { b with doorRelease := true, gateOpen := true, doorsOpen := true })).onWindow
      (fun w => { w with state := .opened }) := ⟨_, rfl⟩
  have hrole : z.role = s.role := by rw [hz]; rfl
  have hbu : z.bu = { s.bu with
      doorRelease := true, gateOpen := true, doorsOpen := true
      window := { s.bu.window with state := .opened } } := by rw [hz]; rfl
  have hlamp : z.lampNow = true := by
    rcases hlit with ⟨h, hboarding⟩ | h
    · rw [State.lampNow, hrole, h, hbu]
      simpa using hboarding
    · rw [State.lampNow, hrole, h, hbu]
      rfl
  have hshown : (refreshLamp z).bu = { z.bu with boardLamp := true } := by rw [← hlamp]; rfl
  have hnow : z.clock = s.clock := by rw [hz]; rfl
  rw [releaseDoors, ← hz]
  dsimp only
  rw [handBay_bu]
  simp only [logBay, logLocal_spares, hshown, hbu, refreshLamp_spares, hnow]

theorem releaseDoors_lc {z s : State} (hlc : z.lc = s.lc) (hsl : z.sl = s.sl) :
    (releaseDoors z).lc = (handOver (.bay (releaseDoors z).bayReport) false s).lc := by
  rw [releaseDoors]
  exact handBay_lc (by simpa [logBay, State.onWindow] using hlc) (by simpa [logBay, State.onWindow] using hsl)

theorem closePending_iff (b : BayUnit) : b.closePending = false ↔ b.closeDeferred = false ∧ b.doorClose = false := by
  simp [BayUnit.closePending]

theorem outOfSequence_bay (l : TrackLine) (s : State) :
    (outOfSequence l s).bu = s.bu ∧ (outOfSequence l s).lc = s.lc := by
  simp [outOfSequence, logBay]

/-! #### ALIGN at the entry bay -/

theorem alignEntry_stays {s : State} (h : s.bu.window.state ≠ .arriving ∨ s.bu.window.aligned = true) :
    alignEntry s = outOfSequence .align s := by
  rw [alignEntry, if_neg]
  rintro ⟨h1, h2⟩
  rcases h with h | h
  · exact h h1
  · exact h2 h

theorem alignEntry_aligns {s : State} (h1 : s.bu.window.state = .arriving) (h2 : s.bu.window.aligned = false) :
    alignEntry s =
      let z := s.onWindow (fun w => { w with aligned := true, grace := false })
      if s.bu.window.matched ≠ [] ∧ s.bu.boarding = true ∧ s.bu.closeDeferred = false ∧ s.bu.doorClose = false
      then releaseDoors z else z := by
  have hopens : (¬ s.bu.window.matched.isEmpty = true ∧ s.bu.boarding = true ∧ ¬ s.bu.closePending = true) ↔
      (s.bu.window.matched ≠ [] ∧ s.bu.boarding = true ∧ s.bu.closeDeferred = false ∧ s.bu.doorClose = false) := by
    rw [Bool.not_eq_true, Bool.not_eq_true, closePending_iff, List.isEmpty_eq_false_iff]
  rw [alignEntry, if_pos ⟨h1, by simp [h2]⟩]
  simp only [← hopens]
  rfl

/-! #### CLOSE_MARK at the entry bay -/

theorem returnParties_bu (s : State) : (returnParties s).bu = { s.bu with
    queue := s.bu.window.matched ++ s.bu.queue
    window := { s.bu.window with matched := [] }
    creep := false } := by
  unfold returnParties
  dsimp only
  split
  · rfl
  · simp [logBay]

theorem closeMarkEntry_arriving {s : State} (h : s.bu.window.state = .arriving) :
    closeMarkEntry s = if s.bu.window.matched = [] then endGrace s
      else outOfSequence .closeMark (returnParties (endGrace s)) := by
  have hempty : s.bu.window.matched.isEmpty = true ↔ s.bu.window.matched = [] := List.isEmpty_iff
  rw [closeMarkEntry, h]
  simp only [← hempty]
  rfl

theorem exec_trackRow {s : State} (hup : s.sl.resetHeld = false) {c : Instr} {r : Role} {f : State → State}
    (hact : act c s = if s.role = r ∧ s.joined = true then f s else s) (hrole : s.role = r)
    (hjoined : s.joined = true) : exec c s = .next (f s) := by
  rw [exec_up hup, hact, if_pos ⟨hrole, hjoined⟩]

/-- Settles O40: ALIGN by `alignEntry_aligns` and `releaseDoors_bu`, CLOSE_MARK by the window's state. -/
theorem entryWindowOpensAndCloses : Obligations.EntryWindowOpensAndCloses := by
  unfold Obligations.EntryWindowOpensAndCloses
  refine ⟨fun s hup hrole hjoined => ⟨alignEntry s, exec_trackRow hup rfl hrole hjoined, ?_⟩,
    fun s hup hrole hjoined => ⟨closeMarkEntry s, exec_trackRow hup rfl hrole hjoined, ?_⟩⟩
  · dsimp only
    refine ⟨fun h1 h2 => ?_, fun h => ?_⟩
    · obtain ⟨z, hz⟩ : ∃ z, z = s.onWindow (fun w => { w with aligned := true, grace := false }) := ⟨_, rfl⟩
      have haligns := alignEntry_aligns h1 h2
      rw [← hz] at haligns
      have hbu : z.bu = { s.bu with window := { s.bu.window with aligned := true, grace := false } } := by
        rw [hz]; rfl
      have hlc : z.lc = s.lc ∧ z.sl = s.sl := by rw [hz]; exact ⟨rfl, rfl⟩
      by_cases hopens : s.bu.window.matched ≠ [] ∧ s.bu.boarding = true ∧ s.bu.closeDeferred = false ∧
          s.bu.doorClose = false
      · rw [if_pos hopens] at haligns
        have hlit : (z.role = .entry ∧ z.bu.boarding = true) ∨ z.role = .exit :=
          Or.inl ⟨by rw [State.role, hlc.2]; exact hrole, by rw [hbu]; exact hopens.2.1⟩
        rw [haligns, releaseDoors_lc hlc.1 hlc.2, releaseDoors_bu hlit, hbu]
        exact ⟨rfl, rfl, rfl, fun _ => ⟨rfl, rfl, rfl, rfl, rfl, rfl⟩, fun hnot => absurd hopens hnot⟩
      · rw [if_neg hopens] at haligns
        rw [haligns, hbu]
        exact ⟨rfl, rfl, rfl, fun h => absurd h hopens, fun _ => ⟨rfl, hlc.1⟩⟩
    · rw [alignEntry_stays h]
      exact outOfSequence_bay _ s
  · refine ⟨fun hopened => ?_, fun harriving => ?_, fun hother => ?_⟩
    · have hclose : closeMarkEntry s = closeWindow 0 s := by rw [closeMarkEntry, hopened]
      obtain ⟨hwindow, hlamp, hshut, hdeferred⟩ := closeWindow_bu 0 s
      obtain ⟨hsent, hsilent⟩ := closeWindow_lc 0 s
      rw [hclose]
      refine ⟨hwindow, hlamp, fun hgate => ?_, fun hgate => ?_⟩
      · obtain ⟨h1, h2, h3, h4, h5⟩ := hshut hgate
        exact ⟨h1, h2, h3, h4, h5, hsent hgate⟩
      · obtain ⟨h1, h2, h3, h4, h5⟩ := hdeferred hgate
        exact ⟨h1, h2, h3, h4, h5, hsilent hgate⟩
    · rw [closeMarkEntry_arriving harriving]
      refine ⟨fun hnone => ?_, fun hsome => ?_⟩
      · rw [if_pos hnone]
        rfl
      · rw [if_neg hsome, (outOfSequence_bay ..).1, returnParties_bu]
        rfl
    · rw [closeMarkEntry]
      rcases hother with h | h
      · rw [h]
        exact (outOfSequence_bay ..).1
      · rw [h]

/-! ### A passage made (R154, R171) -/

/-- The next serial is taken, and the passage is the summary. -/
def State.numbered (c : Nat) (r : PassResult) (riders : Option Nat) (s : State) : State :=
  s.onBu (fun b => { b with
    serial := b.serial + 1
    summary := some { serial := b.serial, cabin := c, result := r, riders := riders } })

section
variable (c : Nat) (r : PassResult) (riders : Option Nat) (tags : List Half) (s : State)

theorem makePassage_applied :
    let u := (applyPassage s.ownBay s.own ⟨s.bu.serial, c, some r, riders, tags, true⟩ (s.numbered c r riders)).1
    (makePassage c r riders tags s).bu = u.bu ∧ (makePassage c r riders tags s).ct = u.ct ∧
      (makePassage c r riders tags s).hu.own = u.hu.own := by
  unfold makePassage
  dsimp only
  simp only [raise_spares, handOver_spares]
  exact ⟨rfl, rfl, rfl⟩

theorem makePassage_bu :
    (makePassage c r riders tags s).bu.serial = s.bu.serial + 1 ∧
      (makePassage c r riders tags s).bu.summary = some ⟨s.bu.serial, c, r, riders⟩ := by
  rw [(makePassage_applied c r riders tags s).1]
  have hcore := applyPassage_core s.ownBay s.own ⟨s.bu.serial, c, some r, riders, tags, true⟩ (s.numbered c r riders)
  exact ⟨hcore.serial, hcore.summary⟩

theorem makePassage_own : (makePassage c r riders tags s).hu.own = s.hu.own :=
  (makePassage_applied c r riders tags s).2.2.trans (applyPassage_own ..)

/-- The passage made enters the own table as a passage heard does (R128). -/
theorem makePassage_tells (hk : s.CabinsKnown) (hserial : (s.ct.cursor s.ownBay).serial ≠ some s.bu.serial)
    (h1 : 1 ≤ c) (h2 : c ≤ s.sl.sheet.n) (hfits : resultFits s.ownBay r = true) :
    (makePassage c r riders tags s).ct.cursor s.ownBay = ⟨some s.bu.serial, some c, false⟩ ∧
      (makePassage c r riders tags s).cabin? c = (s.cabin? c).map (fun x =>
        { x.applyResult r ⟨s.bu.serial, c, some r, riders, tags, true⟩ s.clock.station with
          last := some ⟨s.ownBay, s.bu.serial, s.clock.now⟩ }) := by
  have hct := (makePassage_applied c r riders tags s).2.1
  obtain ⟨hcursor, hcabin, -, -⟩ := applyPassage_tells (n := s.own)
    (p := ⟨s.bu.serial, c, some r, riders, tags, true⟩) (s := s.numbered c r riders) rfl h1 h2 hfits hserial
    (cabinsKnown_congr rfl rfl hk)
  refine ⟨by rw [hct]; exact hcursor, ?_⟩
  have hsame : (makePassage c r riders tags s).cabin? c =
      (applyPassage s.ownBay s.own ⟨s.bu.serial, c, some r, riders, tags, true⟩ (s.numbered c r riders)).1.cabin? c := by
    simp only [State.cabin?, hct]
  exact hsame.trans hcabin

end

/-! ### The end of the entry window (R154, R155) -/

/-- A departure's steps before its passage: matched parties returned, then the tests of door and gate. -/
def State.tested (s : State) : State :=
  departureTests (if s.bu.window.state = .arriving ∧ ¬ s.bu.window.matched.isEmpty then
    outOfSequence .departLimit (returnParties s) else s)

/-- The window's parties board: doors were opened for them. -/
def BayUnit.boards (b : BayUnit) : Prop := b.window.state ≠ .arriving ∧ b.window.matched ≠ []

theorem tested_core (s : State) : BayCore s.bu s.tested.bu ∧ s.tested.ct = s.ct ∧ s.tested.clock = s.clock ∧
    s.tested.sl = s.sl := by
  unfold State.tested
  split
  · next h =>
    obtain ⟨hcore, hct, hclock, hsl, -⟩ := departureTests_core (outOfSequence .departLimit (returnParties s))
    refine ⟨BayCore.trans ?_ hcore, hct.trans ?_, hclock.trans ?_, hsl.trans ?_⟩
    · rw [(outOfSequence_bay ..).1, returnParties_bu]
      exact ⟨rfl, rfl, rfl, rfl, rfl, rfl, rfl, fun hnot => absurd h.1 hnot, fun _ => rfl⟩
    all_goals simp [outOfSequence, logBay]
  · obtain ⟨hcore, hct, hclock, hsl, -⟩ := departureTests_core s
    exact ⟨hcore, hct, hclock, hsl⟩

theorem tested_matched (s : State) : (s.bu.boards → s.tested.bu.window.matched = s.bu.window.matched) ∧
    (¬ s.bu.boards → s.tested.bu.window.matched = []) := by
  refine ⟨fun h => (tested_core s).1.matched h.1, fun h => ?_⟩
  unfold State.tested
  split
  · refine (departureTests_core _).1.none ?_
    rw [(outOfSequence_bay ..).1, returnParties_bu]
  · next hnot =>
    refine (departureTests_core s).1.none ?_
    by_contra hmatched
    refine hnot ⟨?_, by simpa using hmatched⟩
    by_contra hstate
    exact h ⟨hstate, hmatched⟩

/-- The own BAY hold after the tests, and the line where they find nothing. -/
theorem tested_holds (s : State) :
    (s.pins.doorLocked = false →
      ∃ o, s.tested.hu.own? .bay = some o ∧ o.effect = .stop ∧ o.cause = .doorUnlocked) ∧
    (s.pins.gateClear = false → s.pins.doorLocked = true → s.hu.own? .bay = none →
      ∃ o, s.tested.hu.own? .bay = some o ∧ o.effect = .halt ∧ o.cause = .gate) ∧
    (s.pins.gateClear = true → s.pins.doorLocked = true → s.tested.lc = s.lc) := by
  obtain ⟨z, hz⟩ : ∃ z, z = if s.bu.window.state = .arriving ∧ ¬ s.bu.window.matched.isEmpty then
    outOfSequence .departLimit (returnParties s) else s := ⟨_, rfl⟩
  have hblocks : z.pins = s.pins ∧ z.hu = s.hu ∧ z.lc = s.lc := by
    rw [hz]
    split <;> simp [outOfSequence, logBay]
  obtain ⟨hpins, hhu, hlc⟩ := hblocks
  obtain ⟨hdoor, hgate, hnone⟩ := departureTests_own z
  rw [hpins] at hdoor hgate hnone
  rw [hhu] at hgate
  rw [State.tested, ← hz]
  exact ⟨hdoor, hgate, fun h1 h2 => by rw [hnone h1 h2, hlc]⟩

/-- The passage of a window that ends, and the parties boarded. -/
def State.sentOff (s : State) (c : Nat) : State :=
  let w := s.bu.window
  if w.matched.isEmpty then makePassage c .passed none [] s
  else boardParties w.matched
    ((makePassage c .boarded (some (w.count.getD (sizeSum w.matched))) (w.matched.map Party.tag) s).onBu
      (fun b => { b with idleStart := s.now }))

theorem departEntry_absent {s : State} (h : s.bu.window.cabin = none) :
    departEntry s = endWindow (s.tested.onBu (fun b => { b with creep := false })) := by
  have hcabin : s.tested.bu.window.cabin = none := (tested_core s).1.cabin.trans h
  unfold departEntry
  dsimp only
  rw [← State.tested, hcabin]

theorem departEntry_cabin {s : State} {c : Nat} (h : s.bu.window.cabin = some c) :
    departEntry s = endWindow ((s.tested.sentOff c).onBu (fun b => { b with creep := false })) := by
  have hcabin : s.tested.bu.window.cabin = some c := (tested_core s).1.cabin.trans h
  have hnow : ∀ c r riders tags, (makePassage c r riders tags s.tested).now = s.tested.now := by simp [State.now]
  unfold departEntry
  dsimp only
  rw [← State.tested, hcabin]
  simp only [State.sentOff, hnow]

/-! #### DEPART_LIMIT at the entry bay (R154) -/

/-- The close that a departure carries out first. -/
def State.shutFirst (s : State) : State := if s.bu.window.state = .opened then closeWindow 2 s else s

theorem closeWindow_serial (cause : Nat) (s : State) : (closeWindow cause s).bu.serial = s.bu.serial ∧
    (closeWindow cause s).bu.summary = s.bu.summary := by
  have hlamp : (refreshLamp (s.onWindow (fun w => { w with state := .closing }))).bu.serial = s.bu.serial ∧
      (refreshLamp (s.onWindow (fun w => { w with state := .closing }))).bu.summary = s.bu.summary := ⟨rfl, rfl⟩
  unfold closeWindow
  dsimp only
  generalize refreshLamp (s.onWindow (fun w => { w with state := .closing })) = z at hlamp ⊢
  split
  · simpa [logBay] using hlamp
  · simpa [logBay, shutDoors_bu] using hlamp

theorem shutFirst_window (s : State) : s.shutFirst.bu.window = { s.bu.window with
      state := if s.bu.window.state = .opened then .closing else s.bu.window.state } ∧
    s.shutFirst.bu.serial = s.bu.serial := by
  unfold State.shutFirst
  split
  · exact ⟨(closeWindow_bu 2 s).1, (closeWindow_serial 2 s).1⟩
  · exact ⟨rfl, rfl⟩

theorem shutFirst_blocks (s : State) : s.shutFirst.ct = s.ct ∧ s.shutFirst.hu = s.hu ∧ s.shutFirst.sl = s.sl ∧
    s.shutFirst.clock = s.clock ∧ s.shutFirst.pins = s.pins := by
  unfold State.shutFirst
  split <;> simp

theorem shutFirst_lc {s : State} (hgate : s.pins.gateClear = true) :
    s.shutFirst.lc = if s.bu.window.state = .opened then
      (handOver (.bay { s.bayReport with doors := 0 }) false s).lc else s.lc := by
  unfold State.shutFirst
  split
  · next hopened => rw [(closeWindow_lc 2 s).1 hgate, closeWindow_report 2 s hopened hgate]
  · rfl

theorem shutFirst_boards (s : State) : s.shutFirst.bu.boards ↔ s.bu.boards := by
  unfold BayUnit.boards
  rw [(shutFirst_window s).1]
  dsimp only
  split
  · next h => simp [h]
  · rfl

theorem departLimitEntry_departs {s : State} (h : s.bu.window.state ≠ .idle) :
    departLimitEntry s = departEntry s.shutFirst := by
  unfold departLimitEntry State.shutFirst
  cases hw : s.bu.window.state
  case idle => exact absurd hw h
  all_goals rfl

/-- A state t that a passage made in z leaves: the passage's marks, table, telegram and holds stand, and its events
are still queued. -/
structure State.leaves (z t : State) (c : Nat) (r : PassResult) (riders : Option Nat) (tags : List Half) : Prop where
  serial : t.bu.serial = (makePassage c r riders tags z).bu.serial
  summary : t.bu.summary = (makePassage c r riders tags z).bu.summary
  ct : t.ct = (makePassage c r riders tags z).ct
  lc : t.lc = (makePassage c r riders tags z).lc
  own : t.hu.own = (makePassage c r riders tags z).hu.own
  events : z.bu.window.matched.length ≤ 4 → ∀ e, Recent 0 e (makePassage c r riders tags z) → e ∈ t.lu.queue

theorem departEntry_passes {s : State} {c : Nat} (hcabin : s.bu.window.cabin = some c) (hnot : ¬ s.bu.boards) :
    s.tested.leaves (departEntry s) c .passed none [] := by
  have hoff : s.tested.sentOff c = makePassage c .passed none [] s.tested :=
    if_pos (by rw [(tested_matched s).2 hnot]; rfl)
  rw [departEntry_cabin hcabin, hoff]
  obtain ⟨hlc, hct, hhu, -, -⟩ := endWindow_others
    ((makePassage c .passed none [] s.tested).onBu (fun b => { b with creep := false }))
  exact ⟨by rw [endWindow_bu]; rfl, by rw [endWindow_bu]; rfl, hct, hlc, congrArg HoldUnit.own hhu,
    fun _ e he => by rw [endWindow_lu]; exact he.mem⟩

theorem departEntry_boards {s : State} {c : Nat} (hcabin : s.bu.window.cabin = some c) (hboards : s.bu.boards) :
    let w := s.bu.window
    s.tested.leaves (departEntry s) c .boarded (some (w.count.getD (sizeSum w.matched))) (w.matched.map Party.tag) ∧
      (departEntry s).bu.idleStart = s.clock.now ∧
      (w.matched.length ≤ 4 → s.suppressed .partyBoarded = false → ∀ x ∈ w.matched,
        EventEntry.mk .partyBoarded x.tag s.clock.station ∈ (departEntry s).lu.queue) := by
  obtain ⟨hcore, -, hclock, hsl⟩ := tested_core s
  have hmatched := (tested_matched s).1 hboards
  dsimp only
  rw [← hmatched, ← hcore.count]
  obtain ⟨x, hx⟩ : ∃ x, x = makePassage c .boarded (some (s.tested.bu.window.count.getD
    (sizeSum s.tested.bu.window.matched))) (s.tested.bu.window.matched.map Party.tag) s.tested := ⟨_, rfl⟩
  have hoff : s.tested.sentOff c = boardParties s.tested.bu.window.matched
      (x.onBu (fun b => { b with idleStart := s.tested.now })) := by
    rw [hx]
    exact if_neg (by rw [hmatched]; simpa using hboards.2)
  have hxs : x.sl = s.sl ∧ x.clock = s.clock := by simp [hx, hsl, hclock]
  have hnow : s.tested.now = s.clock.now := congrArg Clock.now hclock
  rw [departEntry_cabin hcabin, hoff]
  refine ⟨⟨?_, ?_, ?_, ?_, ?_, fun hfour e he => ?_⟩, ?_, fun hfour hs y hy => ?_⟩
  · rw [endWindow_bu, ← hx]
    simp
  · rw [endWindow_bu, ← hx]
    simp
  · rw [(endWindow_others _).2.1, ← hx]
    simp
  · rw [(endWindow_others _).1, ← hx]
    simp
  · rw [(endWindow_others _).2.2.1, ← hx]
    simp
  · rw [endWindow_lu]
    rw [← hx] at he
    exact (recent_boardParties _ _ (he.lu (t := x.onBu (fun b => { b with idleStart := s.tested.now })) rfl)
      (by omega)).mem
  · rw [endWindow_bu]
    simpa using hnow
  · rw [endWindow_lu]
    have hclock' : (x.onBu (fun b => { b with idleStart := s.tested.now })).clock = s.clock := hxs.2
    have hsuppressed : (x.onBu (fun b => { b with idleStart := s.tested.now })).suppressed .partyBoarded = false :=
      (suppressed_congr hxs.1 _).trans hs
    rw [← hclock']
    exact (boardParties_raises _ _ (by omega) hsuppressed y hy).mem

/-- What a passage made leaves, read in the state in which its departure began. -/
theorem State.leaves.tells {s z t : State} {c : Nat} {r : PassResult} {riders : Option Nat} {tags : List Half}
    (h : z.leaves t c r riders tags) (hserial : z.bu.serial = s.bu.serial) (hct : z.ct = s.ct) (hsl : z.sl = s.sl)
    (hclock : z.clock = s.clock) :
    t.bu.serial = s.bu.serial + 1 ∧ t.bu.summary = some ⟨s.bu.serial, c, r, riders⟩ ∧
    (s.CabinsKnown → (s.ct.cursor s.ownBay).serial ≠ some s.bu.serial → 1 ≤ c → c ≤ s.sl.sheet.n →
      resultFits s.ownBay r = true →
      t.ct.cursor s.ownBay = ⟨some s.bu.serial, some c, false⟩ ∧
      t.cabin? c = (s.cabin? c).map (fun x =>
        { x.applyResult r ⟨s.bu.serial, c, some r, riders, tags, true⟩ s.clock.station with
          last := some ⟨s.ownBay, s.bu.serial, s.clock.now⟩ })) ∧
    t.lc = (handOver (.passage ⟨s.bu.serial, byteOf c, byteOf (resultCode r), cabinByte riders, tags⟩) false z).lc ∧
    (z.bu.window.matched.length ≤ 4 → s.suppressed .passage = false →
      EventEntry.mk .passage (BitVec.ofNat 16 (c * 256 + resultCode r)) s.clock.station ∈ t.lu.queue) := by
  obtain ⟨hmade, hsummary⟩ := makePassage_bu c r riders tags z
  obtain ⟨hlc, hraised, -, -⟩ := makePassage_sent c r riders tags z
  have hrole : z.role = s.role := by simp [State.role, hsl]
  have hbay : z.ownBay = s.ownBay := by rw [State.ownBay, State.ownBay, hrole]
  have hcabin : z.cabin? c = s.cabin? c := by simp [State.cabin?, hct]
  rw [hserial] at hmade hsummary hlc
  refine ⟨h.serial.trans hmade, h.summary.trans hsummary, fun hk hnew h1 h2 hfits => ?_, h.lc.trans hlc,
    fun hfour hs => ?_⟩
  · have htells := makePassage_tells c r riders tags z (cabinsKnown_congr hct hsl hk)
      (by rw [hbay, hct, hserial]; exact hnew) h1 (by rw [hsl]; exact h2) (by rw [hbay]; exact hfits)
    rw [hbay, hserial, hcabin, hclock] at htells
    refine ⟨by rw [h.ct]; exact htells.1, ?_⟩
    have hsame : t.cabin? c = (makePassage c r riders tags z).cabin? c := by simp only [State.cabin?, h.ct]
    exact hsame.trans htells.2
  · rw [← hclock]
    exact h.events hfour _ (hraised ((suppressed_congr hsl _).trans hs))

theorem departEntry_bu (s : State) : (departEntry s).bu.window = Window.idle ∧ (departEntry s).bu.creep = false ∧
    (departEntry s).bu.boardLamp = false := by
  cases hcabin : s.bu.window.cabin with
  | none => rw [departEntry_absent hcabin, endWindow_bu]; exact ⟨rfl, rfl, rfl⟩
  | some c => rw [departEntry_cabin hcabin, endWindow_bu]; exact ⟨rfl, rfl, rfl⟩

theorem departEntry_own (s : State) : (departEntry s).hu.own = s.tested.hu.own := by
  cases hcabin : s.bu.window.cabin with
  | none => rw [departEntry_absent hcabin, (endWindow_others _).2.2.1]; rfl
  | some c =>
    by_cases hboards : s.bu.boards
    · exact (departEntry_boards hcabin hboards).1.own.trans (makePassage_own ..)
    · exact (departEntry_passes hcabin hboards).own.trans (makePassage_own ..)

/-- Settles O41: the passage by `departEntry_boards`, `departEntry_passes` and `State.leaves.tells`, the holds by
`tested_holds`. -/
theorem entryWindowDeparts : Obligations.EntryWindowDeparts := by
  unfold Obligations.EntryWindowDeparts
  intro s hup hrole hjoined
  refine ⟨departLimitEntry s, exec_trackRow hup rfl hrole hjoined, ?_⟩
  dsimp only
  refine ⟨fun hidle => ?_, fun hstate => ?_⟩
  · rw [departLimitEntry, hidle]
    exact (outOfSequence_bay ..).1
  · obtain ⟨y, hy⟩ : ∃ y, y = s.shutFirst := ⟨_, rfl⟩
    obtain ⟨hwindow, hserial⟩ := shutFirst_window s
    obtain ⟨hct, hhu, hsl, hclock, hpins⟩ := shutFirst_blocks s
    have hboards := shutFirst_boards s
    have hlc := shutFirst_lc (s := s)
    rw [← hy] at hwindow hserial hct hhu hsl hclock hpins hboards hlc
    rw [departLimitEntry_departs hstate, ← hy]
    obtain ⟨hcore, hzct, hzclock, hzsl⟩ := tested_core y
    obtain ⟨hdoor, hgate, hsilent⟩ := tested_holds y
    rw [hpins] at hdoor hgate hsilent
    rw [hhu] at hgate
    have hbay : s.ownBay = .entry := by simp [State.ownBay, hrole]
    have hown : (departEntry y).hu.own? .bay = y.tested.hu.own? .bay := by
      simp only [HoldUnit.own?, departEntry_own]
    have hmatched : y.tested.bu.window.matched.length ≤ s.bu.window.matched.length := by
      by_cases h : y.bu.boards
      · rw [(tested_matched y).1 h, hwindow]
      · rw [(tested_matched y).2 h]
        simp
    have hpassage : ∀ (c : Nat) (r : PassResult) (riders : Option Nat) (tags : List Half),
        resultFits .entry r = true → y.tested.leaves (departEntry y) c r riders tags →
        (departEntry y).bu.serial = s.bu.serial + 1 ∧
        (departEntry y).bu.summary = some ⟨s.bu.serial, c, r, riders⟩ ∧
        (s.CabinsKnown → s.ct.entryCursor.serial ≠ some s.bu.serial → 1 ≤ c → c ≤ s.sl.sheet.n →
          (departEntry y).ct.entryCursor = ⟨some s.bu.serial, some c, false⟩ ∧
          (departEntry y).cabin? c = (s.cabin? c).map (fun x =>
            { x.applyResult r (Passage.mk s.bu.serial c (some r) riders tags true) s.clock.station with
              last := some ⟨.entry, s.bu.serial, s.clock.now⟩ })) ∧
        (∃ z : State, z.sl = s.sl ∧
          (s.pins.doorLocked = true → s.pins.gateClear = true → z.lc = if s.bu.window.state = .opened then
            (handOver (.bay { s.bayReport with doors := 0 }) false s).lc else s.lc) ∧
          (departEntry y).lc = (handOver (.passage ⟨s.bu.serial, byteOf c, byteOf (resultCode r), cabinByte riders,
            tags⟩) false z).lc) ∧
        (s.bu.Wf → s.suppressed .passage = false →
          EventEntry.mk .passage (BitVec.ofNat 16 (c * 256 + resultCode r)) s.clock.station
            ∈ (departEntry y).lu.queue) := by
      intro c r riders tags hfits hleaves
      obtain ⟨h1, h2, h3, h4, h5⟩ := hleaves.tells (s := s) (hcore.serial.trans hserial) (hzct.trans hct)
        (hzsl.trans hsl) (hzclock.trans hclock)
      rw [hbay] at h3
      refine ⟨h1, h2, fun hk hnew hc1 hc2 => h3 hk hnew hc1 hc2 hfits, ⟨y.tested, hzsl.trans hsl, fun hd hg => ?_, h4⟩,
        fun hwf hs => ?_⟩
      · rw [hsilent hg hd, hlc hg]
      · obtain ⟨-, hfour, -, -⟩ := hwf
        exact h5 (hmatched.trans hfour) hs
    obtain ⟨hidle, hcreep, hlamp⟩ := departEntry_bu y
    refine ⟨hidle, hcreep, hlamp, fun hnone => ?_, fun c hc hb => ?_, fun c hc hb => ?_, fun hd => ?_, fun hg hd hnone => ?_⟩
    · have hycabin : y.bu.window.cabin = none := by rw [hwindow]; exact hnone
      rw [departEntry_absent hycabin, endWindow_bu, (endWindow_others _).2.1]
      exact ⟨hcore.serial.trans hserial, hzct.trans hct⟩
    · have hycabin : y.bu.window.cabin = some c := by rw [hwindow]; exact hc
      obtain ⟨hleaves, hstart, hevents⟩ := departEntry_boards hycabin (hboards.mpr hb)
      rw [hwindow, hclock] at hevents
      rw [hwindow] at hleaves
      refine ⟨hpassage c .boarded _ _ rfl hleaves, by rw [hstart, hclock], fun hwf hs => ?_⟩
      obtain ⟨-, hfour, -, -⟩ := hwf
      exact hevents hfour ((suppressed_congr hsl _).trans hs)
    · have hycabin : y.bu.window.cabin = some c := by rw [hwindow]; exact hc
      exact hpassage c .passed none [] rfl (departEntry_passes hycabin (fun h => hb (hboards.mp h)))
    · rw [hown]
      exact hdoor hd
    · rw [hown]
      exact hgate hg hd hnone

/-! ### A window opened (R148, R149, R150, R167) -/

theorem arrivingCabin_eq {s : State} {b : BayId} (hbay : s.ownBay = b) : s.arrivingCabin = match s.tagRead with
    | some c => some c
    | none => (s.ct.cursor b).cabin.map (fun c => if c < s.sl.sheet.n then c + 1 else 1) := by
  rw [State.arrivingCabin, hbay]
  cases s.tagRead <;> rfl

theorem boardable?_some {s : State} {cabin : Option Nat} {c : Cabin} (hc : cabin.bind s.cabin? = some c)
    (h : s.bu.boarding = true ∧ c.state = .empty ∧ c.outOfService = false) : s.boardable? cabin = some c := by
  unfold State.boardable?
  rw [hc]
  exact if_pos (by simpa using h)

theorem boardable?_none {s : State} {cabin : Option Nat} (h : ∀ c, cabin.bind s.cabin? = some c →
    ¬ (s.bu.boarding = true ∧ c.state = .empty ∧ c.outOfService = false)) : s.boardable? cabin = none := by
  unfold State.boardable?
  cases hc : cabin.bind s.cabin? with
  | none => rfl
  | some c => exact if_neg (by simpa using h c hc)

theorem lampNow_shut {s : State} (h : s.bu.window.state ≠ .opened) : s.lampNow = false := by
  simp [State.lampNow, h]

/-- The window as it opens, before the match. -/
def State.opening (s : State) (cabin : Option Nat) (boardable : Bool) : State :=
  (raiseUnread s).onBu (fun b => { b with
    window := { Window.idle with state := .arriving, cabin := cabin, boardable := boardable } })

theorem opening_bu (s : State) (cabin : Option Nat) (boardable : Bool) : (s.opening cabin boardable).bu = { s.bu with
    window := { Window.idle with state := .arriving, cabin := cabin, boardable := boardable } } := by
  simp [State.opening]

theorem logBay_bu (action : Nat) (details : List Byte) (s : State) : (logBay action details s).bu = s.bu := by
  simp [logBay]

theorem refreshLamp_shut {s : State} (h : s.bu.window.state ≠ .opened) :
    (refreshLamp s).bu = { s.bu with boardLamp := false } := by
  rw [refreshLamp, lampNow_shut h]
  rfl

theorem openEntry_none {s : State} (h : s.boardable? s.arrivingCabin = none) : (openEntry s).bu = { s.bu with
    window := { Window.idle with state := .arriving, cabin := s.arrivingCabin }
    boardLamp := false } := by
  have hbu := opening_bu s s.arrivingCabin false
  have hshown : (openEntry s).bu = (refreshLamp (s.opening s.arrivingCabin false)).bu := by
    unfold openEntry
    dsimp only
    rw [h]
    simp [logBay, State.opening]
  rw [hshown, refreshLamp_shut (by rw [hbu]; simp), hbu]
  rfl

/-- The match made at an arrival, and the grace where nobody is matched (R149, R150). -/
def State.matching (s : State) (c : Cabin) : State :=
  if (matchParties c s).bu.window.matched.isEmpty then beginGrace c (matchParties c s) else matchParties c s

/-- The walk of the queue for a cabin (R149). -/
def State.walk (s : State) (c : Cabin) : List Party × List Party × Nat :=
  matchWalk c.cls s.sl.sheet.sharing s.sl.sheet.skipLimit c.capacity [] s.bu.queue

theorem matching_bu (s : State) (c : Cabin) : (s.matching c).bu = { s.bu with
    queue := (s.walk c).1
    window := { s.bu.window with
      matched := (s.walk c).2.1
      remaining := (s.walk c).2.2
      grace := if (s.walk c).2.1.isEmpty then true else s.bu.window.grace }
    creep := s.bu.creep || (s.walk c).2.1.any (fun p => p.need == .stepFree) } := by
  have hmatched : (matchParties c s).bu.window.matched = (s.walk c).2.1 := rfl
  unfold State.matching
  rw [hmatched]
  split
  · have hgrace : (beginGrace c (matchParties c s)).bu = { (matchParties c s).bu with
        window := { (matchParties c s).bu.window with grace := true } } := by
      simp [beginGrace, State.onWindow]
    rw [hgrace]
    rfl
  · rfl

theorem openEntry_matches {s : State} {c : Cabin} (h : s.boardable? s.arrivingCabin = some c) :
    ∃ details, openEntry s = logBay 0 details (refreshLamp ((s.opening s.arrivingCabin true).matching c)) := by
  unfold openEntry
  dsimp only
  rw [h]
  exact ⟨_, rfl⟩

theorem opening_walk (s : State) (cabin : Option Nat) (boardable : Bool) (c : Cabin) :
    (s.opening cabin boardable).walk c = s.walk c := by
  have hsl : (s.opening cabin boardable).sl = s.sl := by simp [State.opening]
  rw [State.walk, hsl, opening_bu, State.walk]

theorem openEntry_some {s : State} {c : Cabin} (h : s.boardable? s.arrivingCabin = some c) :
    (openEntry s).bu = { s.bu with
      queue := (s.walk c).1
      window := { Window.idle with
        state := .arriving
        cabin := s.arrivingCabin
        boardable := true
        matched := (s.walk c).2.1
        remaining := (s.walk c).2.2
        grace := (s.walk c).2.1.isEmpty }
      creep := s.bu.creep || (s.walk c).2.1.any (fun p => p.need == .stepFree)
      boardLamp := false } := by
  obtain ⟨details, hopen⟩ := openEntry_matches h
  have hbu := matching_bu (s.opening s.arrivingCabin true) c
  rw [opening_walk, opening_bu] at hbu
  rw [hopen, logBay_bu, refreshLamp_shut (by rw [hbu]; simp), hbu]
  cases (s.walk c).2.1.isEmpty <;> rfl

/-- The wanted grace is told where nobody is matched (R150). -/
theorem openEntry_wanted {s : State} {c : Cabin} (h : s.boardable? s.arrivingCabin = some c)
    (hnobody : (s.walk c).2.1 = []) (hs : s.suppressed .partyWanted = false) :
    EventEntry.mk .partyWanted (BitVec.ofNat 16 (classCode c.cls * 256 + c.capacity)) s.clock.station
      ∈ (openEntry s).lu.queue := by
  obtain ⟨details, hopen⟩ := openEntry_matches h
  obtain ⟨z, hz⟩ : ∃ z, z = (matchParties c (s.opening s.arrivingCabin true)).onWindow
    (fun w => { w with grace := true }) := ⟨_, rfl⟩
  have hmatching : (s.opening s.arrivingCabin true).matching c =
      raise .partyWanted (classCode c.cls * 256 + c.capacity) z := by
    rw [hz]
    refine if_pos ?_
    rw [show (matchParties c (s.opening s.arrivingCabin true)).bu.window.matched =
      ((s.opening s.arrivingCabin true).walk c).2.1 from rfl, opening_walk, hnobody]
    rfl
  have hzs : z.sl = s.sl ∧ z.clock = s.clock := by
    rw [hz]
    simp [State.onWindow, matchParties, State.opening]
  rw [hopen, hmatching, ← hzs.2]
  have hraised := raise_recent (c := .partyWanted) (n := classCode c.cls * 256 + c.capacity)
    ((suppressed_congr hzs.1 _).trans hs)
  exact ((hraised.lu (t := refreshLamp (raise .partyWanted (classCode c.cls * 256 + c.capacity) z)) rfl).log
    (by omega) _ _ _).mem

/-- A new window of the entry bay is ARRIVING; nothing but the window, the queue, the creep request and the lamp of
the bay changes. -/
theorem openEntry_arrives (s : State) : (openEntry s).bu.window.state = .arriving ∧
    (openEntry s).bu.window.aligned = false ∧ (openEntry s).bu.window.count = none ∧
    (openEntry s).bu.window.cabin = s.arrivingCabin ∧ (openEntry s).bu.serial = s.bu.serial := by
  cases h : s.boardable? s.arrivingCabin with
  | none => rw [openEntry_none h]; exact ⟨rfl, rfl, rfl, rfl, rfl⟩
  | some c => rw [openEntry_some h]; exact ⟨rfl, rfl, rfl, rfl, rfl⟩

theorem arriveEntry_departs {s : State} (h : s.bu.window.state ≠ .idle) :
    arriveEntry s = openEntry (departEntry (outOfSequence .arrive s).shutFirst) := by
  unfold arriveEntry State.shutFirst
  rw [(outOfSequence_bay ..).1]
  cases hw : s.bu.window.state
  case idle => exact absurd hw h
  all_goals rfl

theorem departEntry_serial {s : State} {c : Nat} (h : s.bu.window.cabin = some c) :
    (departEntry s).bu.serial = s.bu.serial + 1 := by
  have hmade : ∀ r riders tags, s.tested.leaves (departEntry s) c r riders tags →
      (departEntry s).bu.serial = s.bu.serial + 1 := by
    intro r riders tags hleaves
    rw [hleaves.serial, (makePassage_bu c r riders tags s.tested).1, (tested_core s).1.serial]
  by_cases hboards : s.bu.boards
  · exact hmade _ _ _ (departEntry_boards h hboards).1
  · exact hmade _ _ _ (departEntry_passes h hboards)

/-- Settles O39: the new window by `openEntry_some` and `openEntry_none`, the old one by `departEntry_serial`. -/
theorem entryWindowArrives : Obligations.EntryWindowArrives := by
  unfold Obligations.EntryWindowArrives
  intro s hup hrole hjoined
  refine ⟨arriveEntry s, exec_trackRow hup rfl hrole hjoined, ?_⟩
  have hbay : s.ownBay = .entry := by simp [State.ownBay, hrole]
  have hopens : ∃ z, arriveEntry s = openEntry z ∧ (s.bu.window.state = .idle → z = s) ∧
      (∀ c, s.bu.window.state ≠ .idle → s.bu.window.cabin = some c → z.bu.serial = s.bu.serial + 1) := by
    by_cases hidle : s.bu.window.state = .idle
    · exact ⟨s, by rw [arriveEntry, hidle], fun _ => rfl, fun _ h => absurd hidle h⟩
    · refine ⟨_, arriveEntry_departs hidle, fun h => absurd h hidle, fun c _ hc => ?_⟩
      obtain ⟨hwindow, hserial⟩ := shutFirst_window (outOfSequence .arrive s)
      rw [(outOfSequence_bay ..).1] at hwindow hserial
      rw [departEntry_serial (c := c) (by rw [hwindow]; exact hc), hserial]
  obtain ⟨z, hz, hsame, hended⟩ := hopens
  rw [hz]
  obtain ⟨hstate, haligned, hcount, hcabin, hserial⟩ := openEntry_arrives z
  refine ⟨hstate, haligned, hcount, fun hidle => ?_, fun c hne hc => hserial.trans (hended c hne hc)⟩
  obtain rfl := hsame hidle
  dsimp only
  have hcabinOf := arrivingCabin_eq hbay
  refine ⟨hcabin.trans hcabinOf, hserial, by simp, fun c hc hb => ?_, fun hno => ?_⟩
  · have hsome : z.boardable? z.arrivingCabin = some c := boardable?_some (by rw [hcabinOf]; exact hc) hb
    rw [openEntry_some hsome]
    exact ⟨rfl, rfl, rfl, rfl, rfl, List.isEmpty_iff, openEntry_wanted hsome⟩
  · have hnone : z.boardable? z.arrivingCabin = none :=
      boardable?_none fun c hc => hno c (by rw [hcabinOf] at hc; exact hc)
    rw [openEntry_none hnone]
    exact ⟨rfl, rfl, rfl, rfl, rfl⟩

/-! ### The exit window (chapter 9) -/

theorem openExit_bu (s : State) : (openExit s).bu = { s.bu with
    window := { Window.idle with state := .arriving, cabin := s.arrivingCabin }
    boardLamp := false } := by
  have hbu := opening_bu s s.arrivingCabin false
  have hshown : (openExit s).bu = (refreshLamp (s.opening s.arrivingCabin false)).bu := by
    unfold openExit
    dsimp only
    rw [logBay_bu]
    rfl
  rw [hshown, refreshLamp_shut (by rw [hbu]; simp), hbu]
  rfl

/-- The result that a window leaves with (R169): the one decided before, else that of the record and the contact. -/
def State.decided (s : State) (empty : Bool) : Option PassResult :=
  if s.bu.window.contact.isSome then s.bu.window.result else s.windowCabin?.map (exitResult · empty)

theorem decideExit_bu (empty : Bool) (s : State) : (decideExit empty s).bu = { s.bu with
    window := { s.bu.window with
      contact := some (s.bu.window.contact.getD empty)
      result := s.decided empty } } := by
  unfold decideExit State.decided
  by_cases h : s.bu.window.contact.isSome = true
  · have hcontact : some (s.bu.window.contact.getD empty) = s.bu.window.contact := by
      obtain ⟨b, hb⟩ := Option.isSome_iff_exists.mp h
      rw [hb]
      rfl
    rw [if_pos h, if_pos h, hcontact]
  · have hcontact : s.bu.window.contact = none := by simpa using h
    rw [if_neg h, if_neg h, logBay_bu, hcontact]
    rfl

theorem decideExit_blocks (empty : Bool) (s : State) : (decideExit empty s).ct = s.ct ∧
    (decideExit empty s).hu = s.hu ∧ (decideExit empty s).sl = s.sl ∧ (decideExit empty s).clock = s.clock ∧
    (decideExit empty s).pins = s.pins ∧ (decideExit empty s).lc = s.lc := by
  unfold decideExit
  split <;> simp [logBay, State.onWindow]

/-- A departure's steps before its passage: the decision for a known cabin, then the tests of door and gate. -/
def State.exitTested (empty : Bool) (s : State) : State :=
  departureTests (if s.bu.window.cabin.isSome then decideExit empty s else s)

/-- What the decision, where it is made, leaves of the window. -/
theorem exitTested_window (empty : Bool) (s : State) :
    let t := s.exitTested empty
    t.bu.serial = s.bu.serial ∧ t.bu.window.cabin = s.bu.window.cabin ∧ t.bu.window.state = s.bu.window.state ∧
    (s.bu.window.cabin = none → t.bu.window.result = s.bu.window.result ∧
      t.bu.window.contact = s.bu.window.contact) ∧
    (∀ c, s.bu.window.cabin = some c → t.bu.window.result = s.decided empty) := by
  dsimp only
  unfold State.exitTested
  cases hcabin : s.bu.window.cabin with
  | none =>
    obtain ⟨hcore, -⟩ := departureTests_core s
    exact ⟨hcore.serial, hcore.cabin.trans hcabin, hcore.state, fun _ => ⟨hcore.result, hcore.contact⟩,
      fun c h => by simp at h⟩
  | some c =>
    obtain ⟨hcore, -⟩ := departureTests_core (decideExit empty s)
    have hbu := decideExit_bu empty s
    simp only [Option.isSome_some, if_true]
    refine ⟨hcore.serial.trans ?_, hcore.cabin.trans ?_, hcore.state.trans ?_, fun h => by simp at h,
      fun c h => hcore.result.trans ?_⟩
    all_goals rw [hbu]
    exact hcabin

theorem exitTested_blocks (empty : Bool) (s : State) : (s.exitTested empty).ct = s.ct ∧
    (s.exitTested empty).sl = s.sl ∧ (s.exitTested empty).clock = s.clock ∧ (s.exitTested empty).pins = s.pins := by
  obtain ⟨z, hz⟩ : ∃ z, z = if s.bu.window.cabin.isSome then decideExit empty s else s := ⟨_, rfl⟩
  have hblocks : z.ct = s.ct ∧ z.sl = s.sl ∧ z.clock = s.clock ∧ z.pins = s.pins := by
    rw [hz]
    obtain ⟨hct, -, hsl, hclock, hpins, -⟩ := decideExit_blocks empty s
    split
    · exact ⟨hct, hsl, hclock, hpins⟩
    · exact ⟨rfl, rfl, rfl, rfl⟩
  obtain ⟨-, hct, hclock, hsl, hpins⟩ := departureTests_core z
  rw [State.exitTested, ← hz]
  exact ⟨hct.trans hblocks.1, hsl.trans hblocks.2.1, hclock.trans hblocks.2.2.1, hpins.trans hblocks.2.2.2⟩

/-- The own BAY hold after the tests, and what they leave where they find nothing. -/
theorem exitTested_holds (empty : Bool) (s : State) :
    (s.pins.doorLocked = false →
      ∃ o, (s.exitTested empty).hu.own? .bay = some o ∧ o.effect = .stop ∧ o.cause = .doorUnlocked) ∧
    (s.pins.gateClear = false → s.pins.doorLocked = true → s.hu.own? .bay = none →
      ∃ o, (s.exitTested empty).hu.own? .bay = some o ∧ o.effect = .halt ∧ o.cause = .gate) ∧
    (s.pins.gateClear = true → s.pins.doorLocked = true →
      (s.exitTested empty).lc = s.lc ∧ (s.exitTested empty).hu = s.hu) := by
  obtain ⟨z, hz⟩ : ∃ z, z = if s.bu.window.cabin.isSome then decideExit empty s else s := ⟨_, rfl⟩
  have hblocks : z.pins = s.pins ∧ z.hu = s.hu ∧ z.lc = s.lc := by
    rw [hz]
    obtain ⟨-, hhu, -, -, hpins, hlc⟩ := decideExit_blocks empty s
    split
    · exact ⟨hpins, hhu, hlc⟩
    · exact ⟨rfl, rfl, rfl⟩
  obtain ⟨hpins, hhu, hlc⟩ := hblocks
  obtain ⟨hdoor, hgate, hnone⟩ := departureTests_own z
  rw [hpins] at hdoor hgate hnone
  rw [hhu] at hgate
  rw [State.exitTested, ← hz]
  exact ⟨hdoor, hgate, fun h1 h2 => by rw [hnone h1 h2]; exact ⟨hlc, hhu⟩⟩

/-! #### How the departure ends -/

theorem departExit_absent {s : State} (empty : Bool) (h : s.bu.window.cabin = none) :
    departExit empty s = logBay 8 [contactByte s.bu.window.contact] (s.exitTested empty) := by
  obtain ⟨-, hcabin, -, hstands, -⟩ := exitTested_window empty s
  unfold departExit
  dsimp only
  rw [← State.exitTested, hcabin, h, (hstands h).2]

theorem departExit_result {s : State} {c : Nat} {r : PassResult} (empty : Bool) (h : s.bu.window.cabin = some c)
    (hr : s.decided empty = some r) : departExit empty s =
      endWindow (afterExitPassage c r (makePassage c r none [] (s.exitTested empty))) := by
  obtain ⟨-, hcabin, -, -, hresult⟩ := exitTested_window empty s
  unfold departExit
  dsimp only
  rw [← State.exitTested, hcabin, h, hresult c h, hr]

theorem departExit_undecided {s : State} {c : Nat} (empty : Bool) (h : s.bu.window.cabin = some c)
    (hr : s.decided empty = none) : departExit empty s = endWindow (s.exitTested empty) := by
  obtain ⟨-, hcabin, -, -, hresult⟩ := exitTested_window empty s
  unfold departExit
  dsimp only
  rw [← State.exitTested, hcabin, h, hresult c h, hr]

/-! #### EXIT_ARRIVE and EXIT_ALIGN (R167, R168) -/

theorem carriedRound_core (c : Nat) (s : State) : BayCore s.bu (carriedRound c s).bu := by
  unfold carriedRound
  split
  · split
    · exact BayCore.trans (.of (logBay_bu ..)) (declareHold_core ..)
    · exact .refl _
  · exact .refl _

theorem afterExitPassage_core (c : Nat) (r : PassResult) (s : State) : BayCore s.bu (afterExitPassage c r s).bu := by
  cases r with
  | loadedFound => exact .of (by simp [afterExitPassage])
  | heldOver => exact carriedRound_core c s
  | cleared | passedEmpty | boarded | passed => exact .refl _

theorem departExit_serial {s : State} {c : Nat} {r : PassResult} (empty : Bool) (h : s.bu.window.cabin = some c)
    (hr : s.decided empty = some r) : (departExit empty s).bu.serial = s.bu.serial + 1 ∧
      (departExit empty s).bu.summary = some ⟨s.bu.serial, c, r, none⟩ := by
  obtain ⟨hserial, -⟩ := exitTested_window empty s
  obtain ⟨hnext, hsummary⟩ := makePassage_bu c r none [] (s.exitTested empty)
  have hcore := afterExitPassage_core c r (makePassage c r none [] (s.exitTested empty))
  rw [departExit_result empty h hr, endWindow_bu]
  rw [hserial] at hnext hsummary
  exact ⟨hcore.serial.trans hnext, hcore.summary.trans hsummary⟩

theorem decided_first {s : State} {c : Nat} {x : Cabin} (empty : Bool) (h : s.bu.window.cabin = some c)
    (hx : s.cabin? c = some x) (hcontact : s.bu.window.contact = none) :
    s.decided empty = some (exitResult x empty) := by
  have hwindow : s.windowCabin? = some x := by rw [State.windowCabin?, h]; exact hx
  rw [State.decided, hcontact, hwindow]
  rfl

theorem arriveExit_departs {s : State} (empty : Bool) (h : s.bu.window.state ≠ .idle) :
    arriveExit empty s = openExit (departExit empty (outOfSequence .arrive s).shutFirst) := by
  unfold arriveExit State.shutFirst
  rw [(outOfSequence_bay ..).1]
  cases hw : s.bu.window.state
  case idle => exact absurd hw h
  all_goals rfl

theorem exitReleases_iff {s : State} {cabin : Option Nat} (h : s.bu.window.cabin = cabin) :
    s.exitReleases = true ↔ ∀ c, cabin.bind s.cabin? = some c → c.state ≠ .empty := by
  unfold State.exitReleases State.windowCabin?
  rw [h]
  cases cabin.bind s.cabin? <;> simp

theorem alignExit_stays {s : State} (h : s.bu.window.state ≠ .arriving ∨ s.bu.window.aligned = true) :
    alignExit s = outOfSequence .align s := by
  rw [alignExit, if_neg]
  rintro ⟨h1, h2⟩
  rcases h with h | h
  · exact h h1
  · exact h2 h

theorem alignExit_aligns {s : State} (h1 : s.bu.window.state = .arriving) (h2 : s.bu.window.aligned = false) :
    let opens := (∀ c, s.bu.window.cabin.bind s.cabin? = some c → c.state ≠ .empty) ∧
      s.bu.closeDeferred = false ∧ s.bu.doorClose = false
    (opens → alignExit s = releaseDoors (s.onWindow (fun w => { w with aligned := true }))) ∧
    (¬ opens → alignExit s = s.onWindow (fun w => { w with aligned := true })) := by
  obtain ⟨z, hz⟩ : ∃ z, z = s.onWindow (fun w => { w with aligned := true }) := ⟨_, rfl⟩
  have hopens : (z.exitReleases = true ∧ ¬ z.bu.closePending = true) ↔
      ((∀ c, s.bu.window.cabin.bind s.cabin? = some c → c.state ≠ .empty) ∧
        s.bu.closeDeferred = false ∧ s.bu.doorClose = false) := by
    have hcabin : z.cabin? = s.cabin? := by rw [hz]; rfl
    rw [exitReleases_iff (cabin := s.bu.window.cabin) (by rw [hz]; rfl), hcabin, Bool.not_eq_true, closePending_iff, hz]
    rfl
  have hstep : alignExit s = if z.exitReleases = true ∧ ¬ z.bu.closePending = true then releaseDoors z else z := by
    rw [alignExit, if_pos ⟨h1, by simp [h2]⟩, ← hz]
  dsimp only
  rw [hstep, ← hz]
  exact ⟨fun h => if_pos (hopens.mpr h), fun h => if_neg fun hz => h (hopens.mp hz)⟩

/-- Settles O42: EXIT_ARRIVE by `openExit_bu` and `departExit_serial`, EXIT_ALIGN by `alignExit_aligns`. -/
theorem exitWindowOpens : Obligations.ExitWindowOpens := by
  unfold Obligations.ExitWindowOpens
  intro s empty hup hrole hjoined
  have hbay : s.ownBay = .exit := by simp [State.ownBay, hrole]
  refine ⟨⟨arriveExit empty s, exec_trackRow hup rfl hrole hjoined, ?_⟩,
    alignExit s, exec_trackRow hup rfl hrole hjoined, ?_⟩
  · have hopens : ∃ z, arriveExit empty s = openExit z ∧ (s.bu.window.state = .idle → z = s) ∧
        (∀ c r, s.bu.window.state ≠ .idle → s.bu.window.cabin = some c → s.cabin? c = some r →
          s.bu.window.contact = none → z.bu.serial = s.bu.serial + 1) := by
      by_cases hidle : s.bu.window.state = .idle
      · exact ⟨s, by rw [arriveExit, hidle], fun _ => rfl, fun _ _ h => absurd hidle h⟩
      · refine ⟨_, arriveExit_departs empty hidle, fun h => absurd h hidle, fun c r _ hc hr hcontact => ?_⟩
        obtain ⟨hwindow, hserial⟩ := shutFirst_window (outOfSequence .arrive s)
        obtain ⟨hct, -⟩ := shutFirst_blocks (outOfSequence .arrive s)
        rw [(outOfSequence_bay ..).1] at hwindow hserial
        have hcabin : (outOfSequence .arrive s).shutFirst.cabin? c = some r := by
          have hstill : (outOfSequence .arrive s).ct = s.ct := by simp [outOfSequence, logBay]
          rw [← hr, State.cabin?, State.cabin?, hct, hstill]
        have hdecided := decided_first empty (s := (outOfSequence .arrive s).shutFirst) (by rw [hwindow]; exact hc)
          hcabin (by rw [hwindow]; exact hcontact)
        rw [(departExit_serial empty (by rw [hwindow]; exact hc) hdecided).1, hserial]
    obtain ⟨z, hz, hsame, hended⟩ := hopens
    rw [hz, openExit_bu]
    refine ⟨rfl, rfl, rfl, rfl, fun hidle => ?_, hended⟩
    obtain rfl := hsame hidle
    exact ⟨arrivingCabin_eq hbay, rfl, by simp⟩
  · dsimp only
    refine ⟨fun h1 h2 => ?_, fun h => ?_⟩
    · obtain ⟨hreleases, hstays⟩ := alignExit_aligns h1 h2
      obtain ⟨z, hz⟩ : ∃ z, z = s.onWindow (fun w => { w with aligned := true }) := ⟨_, rfl⟩
      rw [← hz] at hreleases hstays
      have hbu : z.bu = { s.bu with window := { s.bu.window with aligned := true } } := by
        rw [hz]; rfl
      have hlc : z.lc = s.lc ∧ z.sl = s.sl := by rw [hz]; exact ⟨rfl, rfl⟩
      by_cases hopens : (∀ c, s.bu.window.cabin.bind s.cabin? = some c → c.state ≠ .empty) ∧
          s.bu.closeDeferred = false ∧ s.bu.doorClose = false
      · have hlit : (z.role = .entry ∧ z.bu.boarding = true) ∨ z.role = .exit :=
          Or.inr (by rw [State.role, hlc.2]; exact hrole)
        rw [hreleases hopens, releaseDoors_lc hlc.1 hlc.2, releaseDoors_bu hlit, hbu]
        exact ⟨rfl, fun _ => ⟨rfl, rfl, rfl, rfl, rfl, rfl⟩, fun hnot => absurd hopens hnot⟩
      · rw [hstays hopens, hbu]
        exact ⟨rfl, fun h => absurd h hopens, fun _ => ⟨rfl, hlc.1⟩⟩
    · rw [alignExit_stays h]
      exact outOfSequence_bay _ s

/-! #### EXIT_CLOSE_MARK (R169, R170) -/

theorem closeMarkExit_decides {s : State} (empty : Bool) (h : s.bu.window.state = .arriving ∨ s.bu.window.state = .closing) :
    closeMarkExit empty s = decideExit empty s := by
  rcases h with h | h <;> rw [closeMarkExit, h]

theorem closeMarkExit_closes {s : State} (empty : Bool) (h : s.bu.window.state = .opened) :
    closeMarkExit empty s = closeWindow 0 (decideExit empty s) := by
  rw [closeMarkExit, h]

/-- The decision stands in the window, whether or not it closes. -/
theorem closeMarkExit_window {s : State} (empty : Bool) (h : s.bu.window.state ≠ .idle) :
    (closeMarkExit empty s).bu.window.contact = some (s.bu.window.contact.getD empty) ∧
      (closeMarkExit empty s).bu.window.result = s.decided empty := by
  have hbu := decideExit_bu empty s
  cases hw : s.bu.window.state with
  | idle => exact absurd hw h
  | arriving => rw [closeMarkExit_decides empty (Or.inl hw), hbu]; exact ⟨rfl, rfl⟩
  | closing => rw [closeMarkExit_decides empty (Or.inr hw), hbu]; exact ⟨rfl, rfl⟩
  | opened =>
    rw [closeMarkExit_closes empty hw, (closeWindow_bu 0 _).1, hbu]
    exact ⟨rfl, rfl⟩

/-! #### EXIT_DEPART_LIMIT (R171, R172) -/

theorem departLimitExit_departs {s : State} (empty : Bool) (h : s.bu.window.state ≠ .idle) :
    departLimitExit empty s = departExit empty s.shutFirst := by
  unfold departLimitExit State.shutFirst
  cases hw : s.bu.window.state
  case idle => exact absurd hw h
  all_goals rfl

theorem carriedRound_below {c : Nat} {s : State} (h : ∀ v, s.cabin? c = some v → v.laps ≠ 3) :
    carriedRound c s = s := by
  unfold carriedRound
  cases hv : s.cabin? c with
  | none => rfl
  | some v => exact if_neg (h v hv)

theorem carriedRound_third {c : Nat} {s : State} {v : Cabin} (hv : s.cabin? c = some v) (h : v.laps = 3) :
    carriedRound c s = declareHold .bay .halt .carriedRound (logBay 9 [byteOf c] s) := by
  unfold carriedRound
  rw [hv]
  exact if_pos h

/-- What an exit passage sets off changes the holds, or the events alone. -/
theorem afterExitPassage_cases (c : Nat) (r : PassResult) (s : State) :
    afterExitPassage c r s = s ∨ (r = .loadedFound ∧ afterExitPassage c r s = raise .loadedFound c s) ∨
      (r = .heldOver ∧ (∃ v, s.cabin? c = some v ∧ v.laps = 3) ∧
        afterExitPassage c r s = declareHold .bay .halt .carriedRound (logBay 9 [byteOf c] s)) := by
  cases r with
  | loadedFound => exact Or.inr (Or.inl ⟨rfl, rfl⟩)
  | heldOver =>
    by_cases h : ∃ v, s.cabin? c = some v ∧ v.laps = 3
    · obtain ⟨v, hv, hlaps⟩ := h
      exact Or.inr (Or.inr ⟨rfl, ⟨v, hv, hlaps⟩, carriedRound_third hv hlaps⟩)
    · exact Or.inl (carriedRound_below fun v hv hlaps => h ⟨v, hv, hlaps⟩)
  | cleared | passedEmpty | boarded | passed => exact Or.inl rfl

/-- A cabin below its third lap declares nothing: its laps rise by one at most. -/
theorem afterExitPassage_below {c : Nat} {r : PassResult} {z : State}
    (h : r ≠ .heldOver ∨ ∀ x, z.cabin? c = some x → x.laps < 2) : ∀ s : State, s = makePassage c r none [] z →
    afterExitPassage c r s = s ∨ (r = .loadedFound ∧ afterExitPassage c r s = raise .loadedFound c s) := by
  rintro s rfl
  rcases afterExitPassage_cases c r (makePassage c r none [] z) with hsame | hfound | ⟨rfl, ⟨v, hv, hlaps⟩, -⟩
  · exact Or.inl hsame
  · exact Or.inr hfound
  · obtain ⟨f, hstep, hcabin⟩ := makePassage_laps c [] z
    rw [hcabin, Option.map_eq_some_iff] at hv
    obtain ⟨x, hx, rfl⟩ := hv
    have hbelow := h.resolve_left (by simp) x hx
    have := hstep x
    omega

theorem bayOwn_stop_kept {c : Nat} {r : PassResult} {s : State} {o : OwnHold} (ho : s.hu.own? .bay = some o)
    (hstop : o.effect = .stop) : (afterExitPassage c r s).hu.own? .bay = some o := by
  rcases afterExitPassage_cases c r s with h | ⟨-, h⟩ | ⟨-, -, h⟩
  · rw [h, ho]
  · rw [h, ← ho]
    simp
  · have hlog : (logBay 9 [byteOf c] s).hu.own? .bay = some o := by rw [← ho]; simp [logBay]
    rw [h, declareHold_own, if_pos rfl, hlog]
    simp [hstop, effectCode]

theorem bayOwn_halt_kept {c : Nat} {r : PassResult} {s : State} {o : OwnHold} (ho : s.hu.own? .bay = some o)
    (hhalt : o.effect = .halt) : ∃ q, (afterExitPassage c r s).hu.own? .bay = some q ∧ q.effect = .halt := by
  rcases afterExitPassage_cases c r s with h | ⟨-, h⟩ | ⟨-, -, h⟩
  · exact ⟨o, by rw [h, ho], hhalt⟩
  · exact ⟨o, by rw [h, ← ho]; simp, hhalt⟩
  · have hlog : (logBay 9 [byteOf c] s).hu.own? .bay = some o := by rw [← ho]; simp [logBay]
    rw [h, declareHold_own, if_pos rfl, hlog]
    simp [hhalt, effectCode]

/-! #### What an exit departure leaves behind its passage (R171, R172) -/

section
variable {y : State} {c : Nat} {r : PassResult} {x : Cabin} {empty : Bool}

/-- The passage that a departure at the exit bay makes. -/
def State.exitPassage (y : State) (empty : Bool) (c : Nat) (r : PassResult) : State :=
  makePassage c r none [] (y.exitTested empty)

theorem exitPassage_blocks (y : State) (empty : Bool) (c : Nat) (r : PassResult) :
    (y.exitPassage empty c r).sl = y.sl ∧ (y.exitPassage empty c r).clock = y.clock := by
  obtain ⟨-, hsl, hclock, -⟩ := exitTested_blocks empty y
  simp [State.exitPassage, hsl, hclock]

theorem departExit_ends (hcabin : y.bu.window.cabin = some c) (hr : y.decided empty = some r) :
    departExit empty y = endWindow (afterExitPassage c r (y.exitPassage empty c r)) :=
  departExit_result empty hcabin hr

theorem departExit_ct (hcabin : y.bu.window.cabin = some c) (hr : y.decided empty = some r) :
    (departExit empty y).ct = (y.exitPassage empty c r).ct := by
  rw [departExit_ends hcabin hr, (endWindow_others _).2.1]
  rcases afterExitPassage_cases c r (y.exitPassage empty c r) with h | ⟨-, h⟩ | ⟨-, -, h⟩ <;> rw [h]
  · simp
  · simp [logBay]

theorem departExit_found (hcabin : y.bu.window.cabin = some c) (hr : y.decided empty = some .loadedFound)
    (hs : y.suppressed .loadedFound = false) :
    EventEntry.mk .loadedFound (BitVec.ofNat 16 c) y.clock.station ∈ (departExit empty y).lu.queue := by
  obtain ⟨hsl, hclock⟩ := exitPassage_blocks y empty c .loadedFound
  rw [departExit_ends hcabin hr, endWindow_lu, ← hclock]
  exact (raise_recent ((suppressed_congr hsl _).trans hs)).mem

theorem exitTested_cabin (hx : y.cabin? c = some x) : (y.exitTested empty).cabin? c = some x := by
  rw [← hx, State.cabin?, State.cabin?, (exitTested_blocks empty y).1]

theorem departExit_lc_below (hcabin : y.bu.window.cabin = some c) (hr : y.decided empty = some r)
    (hx : y.cabin? c = some x) (h : r ≠ .heldOver ∨ x.laps < 2) :
    (departExit empty y).lc = (y.exitPassage empty c r).lc := by
  rw [departExit_ends hcabin hr, (endWindow_others _).1]
  have hlow : r ≠ .heldOver ∨ ∀ v, (y.exitTested empty).cabin? c = some v → v.laps < 2 :=
    h.imp_right fun hx' v hv => by
      rw [exitTested_cabin hx] at hv
      exact Option.some.inj hv ▸ hx'
  rcases afterExitPassage_below hlow (y.exitPassage empty c r) rfl with hsame | ⟨-, hfound⟩
  · rw [hsame]
  · rw [hfound]
    simp

theorem departExit_third {v : Cabin} (hcabin : y.bu.window.cabin = some c) (hr : y.decided empty = some .heldOver)
    (hv : (y.exitPassage empty c .heldOver).cabin? c = some v) (hlaps : v.laps = 3) :
    departExit empty y = endWindow (declareHold .bay .halt .carriedRound
      (logBay 9 [byteOf c] (y.exitPassage empty c .heldOver))) := by
  rw [departExit_ends hcabin hr]
  exact congrArg endWindow (carriedRound_third hv hlaps)

theorem departExit_carried {v : Cabin} (hcabin : y.bu.window.cabin = some c) (hr : y.decided empty = some .heldOver)
    (hv : (y.exitPassage empty c .heldOver).cabin? c = some v) (hlaps : v.laps = 3)
    (hnone : (y.exitTested empty).hu.own? .bay = none) :
    (departExit empty y).lc = (handOver (.hold ⟨byteOf (holdKindCode .bay), byteOf (effectCode .halt),
        byteOf (causeCode .carriedRound), y.clock.station⟩) false (y.exitPassage empty c .heldOver)).lc ∧
      ∃ o, (departExit empty y).hu.own? .bay = some o ∧ o.effect = .halt ∧ o.cause = .carriedRound := by
  obtain ⟨z, hz⟩ : ∃ z, z = logBay 9 [byteOf c] (y.exitPassage empty c .heldOver) := ⟨_, rfl⟩
  have hown : z.hu.own? .bay = none := by
    rw [← hnone, hz]
    simp only [HoldUnit.own?, logBay, logLocal_spares]
    rw [State.exitPassage, makePassage_own]
  have hclock : z.clock = y.clock := by
    rw [← (exitPassage_blocks y empty c .heldOver).2, hz]
    simp [logBay]
  rw [departExit_third hcabin hr hv hlaps, ← hz, (endWindow_others _).1, (endWindow_others _).2.2.1]
  refine ⟨?_, ?_⟩
  · rw [declareHold_lc z .carriedRound hown, hclock]
    exact handOver_lc _ _ (by simp [hz, logBay]) (by simp [hz, logBay])
  · rw [declareHold_own, if_pos rfl, hown]
    exact ⟨_, rfl, rfl, rfl⟩

/-- The passage's event is still queued, unless the effect of a hold declared after it puts out many (R171). -/
theorem departExit_raises (hcabin : y.bu.window.cabin = some c) (hr : y.decided empty = some r)
    (hx : y.cabin? c = some x) (hentry : y.role ≠ .entry)
    (h : r ≠ .heldOver ∨ x.laps < 2 ∨ (y.exitTested empty).hu.records.length < 16)
    (hs : y.suppressed .passage = false) :
    EventEntry.mk .passage (BitVec.ofNat 16 (c * 256 + resultCode r)) y.clock.station
      ∈ (departExit empty y).lu.queue := by
  obtain ⟨-, hsl, hclock, -⟩ := exitTested_blocks empty y
  obtain ⟨-, hraised, -, -⟩ := makePassage_sent c r none [] (y.exitTested empty)
  have hfresh := hraised ((suppressed_congr hsl _).trans hs)
  rw [departExit_ends hcabin hr, endWindow_lu, ← hclock]
  rcases afterExitPassage_cases c r (y.exitPassage empty c r) with hsame | ⟨-, hfound⟩ | ⟨hheld, hlaps, hdeclared⟩
  · rw [hsame]
    exact hfresh.mem
  · rw [hfound]
    exact (hfresh.raise (by omega) _ _).mem
  · have hfew : (y.exitTested empty).hu.records.length < 16 := by
      rcases h with h | h | h
      · exact absurd hheld h
      · obtain ⟨v, hv, hthree⟩ := hlaps
        obtain ⟨f, hstep, hcabin⟩ := makePassage_laps c [] (y.exitTested empty)
        rw [hheld, State.exitPassage, hcabin, exitTested_cabin hx, Option.map_some, Option.some.injEq] at hv
        have := hstep x
        rw [hv] at this
        omega
      · exact h
    rw [hdeclared]
    refine (recent_declareHold (n := 1) .bay .halt .carriedRound ?_ ?_ (hfresh.log (by omega) _ _ _) (by omega)).mem
    · simpa [State.role, hsl] using hentry
    · have hrecords : (logBay 9 [byteOf c] (y.exitPassage empty c r)).hu.records =
          (y.exitTested empty).hu.records := by
        simp only [logBay, logLocal_spares]
        exact makePassage_records ..
      exact hrecords ▸ hfew

end

/-! #### The obligation on the exit window -/

/-- The result that a departure has, where the record is known. -/
theorem decided_of {s : State} {c : Nat} {x : Cabin} {r : PassResult} (empty : Bool) (hc : s.bu.window.cabin = some c)
    (hx : s.cabin? c = some x) (h : s.bu.window.contact = none ∧ r = exitResult x empty ∨
      s.bu.window.contact ≠ none ∧ s.bu.window.result = some r) : s.decided empty = some r := by
  rcases h with ⟨hcontact, rfl⟩ | ⟨hcontact, hresult⟩
  · exact decided_first empty hc hx hcontact
  · rw [State.decided, if_pos (Option.isSome_iff_ne_none.mpr hcontact), hresult]

/-- The own BAY hold after a departure at the exit bay. -/
theorem departExit_own_of {y : State} (empty : Bool) {P : OwnHold → Prop}
    (hafter : ∀ (c : Nat) (r : PassResult), y.bu.window.cabin = some c → y.decided empty = some r →
      ∃ o, (afterExitPassage c r (y.exitPassage empty c r)).hu.own? .bay = some o ∧ P o)
    (htested : ∃ o, (y.exitTested empty).hu.own? .bay = some o ∧ P o) :
    ∃ o, (departExit empty y).hu.own? .bay = some o ∧ P o := by
  cases hcabin : y.bu.window.cabin with
  | none =>
    rw [departExit_absent empty hcabin]
    simpa [logBay] using htested
  | some c =>
    cases hr : y.decided empty with
    | none =>
      rw [departExit_undecided empty hcabin hr, (endWindow_others _).2.2.1]
      exact htested
    | some r =>
      rw [departExit_ends hcabin hr, (endWindow_others _).2.2.1]
      exact hafter c r hcabin hr

theorem exitPassage_own? (y : State) (empty : Bool) (c : Nat) (r : PassResult) :
    (y.exitPassage empty c r).hu.own? .bay = (y.exitTested empty).hu.own? .bay := by
  rw [HoldUnit.own?, HoldUnit.own?, State.exitPassage, makePassage_own]

/-- EXIT_CLOSE_MARK (R169, R170). -/
theorem exitCloseMark_facts (s : State) (empty : Bool) :
    let w := s.bu.window
    let t := closeMarkExit empty s
    (w.state = .idle → t.bu = s.bu) ∧
    (w.state ≠ .idle → w.contact = none → t.bu.window.contact = some empty ∧
      t.bu.window.result = (w.cabin.bind s.cabin?).map (exitResult · empty)) ∧
    (w.state ≠ .idle → w.contact ≠ none →
      t.bu.window.contact = w.contact ∧ t.bu.window.result = w.result) ∧
    (w.state = .arriving ∨ w.state = .closing → t.bu.window.state = w.state ∧ t.lc = s.lc) ∧
    (w.state = .opened → t.bu.window.state = .closing ∧ t.bu.boardLamp = false ∧
      (s.pins.gateClear = true → t.bu.doorRelease = false ∧ t.bu.gateOpen = false ∧
        t.bu.doorClose = true ∧ t.bu.doorsOpen = false) ∧
      (s.pins.gateClear = false → t.bu.closeDeferred = true)) := by
  dsimp only
  obtain ⟨-, -, -, -, hpins, hlc⟩ := decideExit_blocks empty s
  refine ⟨fun h => ?_, fun h hcontact => ?_, fun h hcontact => ?_, fun h => ?_, fun h => ?_⟩
  · rw [closeMarkExit, h]
    exact (outOfSequence_bay ..).1
  · obtain ⟨hc, hr⟩ := closeMarkExit_window empty h
    rw [hc, hr, State.decided, hcontact]
    exact ⟨rfl, rfl⟩
  · obtain ⟨hc, hr⟩ := closeMarkExit_window empty h
    obtain ⟨b, hb⟩ := Option.ne_none_iff_exists'.mp hcontact
    rw [hc, hr, State.decided, hb]
    exact ⟨rfl, rfl⟩
  · rw [closeMarkExit_decides empty h, decideExit_bu]
    exact ⟨rfl, hlc⟩
  · obtain ⟨hwindow, hlamp, hshut, hdeferred⟩ := closeWindow_bu 0 (decideExit empty s)
    rw [hpins] at hshut hdeferred
    rw [closeMarkExit_closes empty h]
    refine ⟨by rw [hwindow], hlamp, fun hgate => ?_, fun hgate => ?_⟩
    · obtain ⟨h1, h2, h3, h4, -⟩ := hshut hgate
      exact ⟨h1, h2, h3, h4⟩
    · obtain ⟨-, -, -, -, h5⟩ := hdeferred hgate
      exact h5

/-- Settles O43: the decision by `exitCloseMark_facts`, the departure by the `departExit` lemmas. -/
theorem exitWindowDecidesAndDeparts : Obligations.ExitWindowDecidesAndDeparts := by
  unfold Obligations.ExitWindowDecidesAndDeparts
  intro s empty hup hrole hjoined
  dsimp only
  refine ⟨⟨closeMarkExit empty s, exec_trackRow hup rfl hrole hjoined, exitCloseMark_facts s empty⟩,
    departLimitExit empty s, exec_trackRow hup rfl hrole hjoined, fun hidle => ?_, fun hstate => ?_⟩
  · rw [departLimitExit, hidle]
    exact (outOfSequence_bay ..).1
  obtain ⟨y, hy⟩ : ∃ y, y = s.shutFirst := ⟨_, rfl⟩
  obtain ⟨hwindow, hserial⟩ := shutFirst_window s
  obtain ⟨hct, hhu, hsl, hclock, hpins⟩ := shutFirst_blocks s
  have hlc := shutFirst_lc (s := s)
  rw [← hy] at hwindow hserial hct hhu hsl hclock hpins hlc
  rw [departLimitExit_departs empty hstate, ← hy]
  obtain ⟨htserial, htcabin, htstate, hstands, -⟩ := exitTested_window empty y
  obtain ⟨htct, htsl, htclock, -⟩ := exitTested_blocks empty y
  obtain ⟨hdoor, hgate, hquiet⟩ := exitTested_holds empty y
  rw [hpins] at hdoor hgate hquiet
  rw [hhu] at hgate hquiet
  have hcabin : ∀ c, y.cabin? c = s.cabin? c := by simp [State.cabin?, hct]
  have hcabinOf : y.bu.window.cabin = s.bu.window.cabin := by rw [hwindow]
  have hrole' : y.role ≠ .entry := by simp [State.role, hsl] at hrole ⊢; simp [hrole]
  have hbay : (y.exitTested empty).ownBay = .exit := by
    have : (y.exitTested empty).role = .exit := by rw [← hrole, State.role, State.role, htsl, hsl]
    simp [State.ownBay, this]
  refine ⟨fun hd => ?_, fun hg hd hnone => ?_, fun hknown => ?_, fun hnone => ?_, fun c x r hc hx hr => ?_⟩
  · obtain ⟨o, ho, hstop, hcause⟩ := hdoor hd
    refine departExit_own_of empty (fun c r _ _ => ⟨o, ?_, hstop, hcause⟩) ⟨o, ho, hstop, hcause⟩
    exact bayOwn_stop_kept (by rw [exitPassage_own?, ho]) hstop
  · obtain ⟨o, ho, hhalt, hcause⟩ := hgate hg hd hnone
    refine departExit_own_of empty (fun c r hc hr => ?_) ⟨o, ho, hhalt, fun _ => hcause⟩
    have hmade := (exitPassage_own? y empty c r).trans ho
    by_cases hlow : ∀ x, s.bu.window.cabin.bind s.cabin? = some x → x.laps < 2
    · have hbelow : ∀ x, (y.exitTested empty).cabin? c = some x → x.laps < 2 := by
        intro x hx
        rw [State.cabin?, htct] at hx
        refine hlow x ?_
        rw [← hcabinOf, hc, Option.bind_some, ← hcabin]
        exact hx
      refine ⟨o, ?_, hhalt, fun _ => hcause⟩
      rcases afterExitPassage_below (Or.inr hbelow) (y.exitPassage empty c r) rfl with h | ⟨-, h⟩
      · rw [h, hmade]
      · rw [h, ← hmade]
        simp
    · obtain ⟨q, hq, hqhalt⟩ := bayOwn_halt_kept hmade hhalt
      exact ⟨q, hq, hqhalt, fun h => absurd h hlow⟩
  · obtain ⟨c, hc⟩ := Option.ne_none_iff_exists'.mp (hcabinOf ▸ hknown)
    cases hr : y.decided empty with
    | none => rw [departExit_undecided empty hc hr, endWindow_bu]
    | some r => rw [departExit_ends hc hr, endWindow_bu]
  · have hc : y.bu.window.cabin = none := hcabinOf.trans hnone
    obtain ⟨hresult, hcontact⟩ := hstands hc
    rw [departExit_absent empty hc, logBay_bu, htstate, hresult, hcontact, hwindow]
    exact ⟨htserial.trans hserial, by simpa [logBay, hct] using htct, htcabin.trans hc, rfl, rfl, rfl⟩
  · have hyc : y.bu.window.cabin = some c := hcabinOf.trans hc
    have hyx : y.cabin? c = some x := (hcabin c).trans hx
    have hyr : y.decided empty = some r := decided_of empty hyc hyx (by rw [hwindow]; exact hr)
    have htx : (y.exitTested empty).cabin? c = some x := exitTested_cabin hyx
    have hfrom : (y.exitTested empty).bu.serial = s.bu.serial := htserial.trans hserial
    obtain ⟨hnext, hsummary⟩ := departExit_serial empty hyc hyr
    rw [hserial] at hnext hsummary
    have htells : s.CabinsKnown → s.ct.exitCursor.serial ≠ some s.bu.serial → 1 ≤ c → c ≤ s.sl.sheet.n →
        resultFits .exit r = true →
        (y.exitPassage empty c r).ct.exitCursor = ⟨some s.bu.serial, some c, false⟩ ∧
        (y.exitPassage empty c r).cabin? c = some { x.applyResult r (Passage.mk s.bu.serial c (some r) none [] true)
          s.clock.station with last := some ⟨.exit, s.bu.serial, s.clock.now⟩ } := by
      intro hk hnew h1 h2 hfits
      have h := makePassage_tells c r none [] (y.exitTested empty)
        (cabinsKnown_congr (htct.trans hct) (htsl.trans hsl) hk)
        (by rw [hbay, hfrom, htct, hct]; exact hnew) h1 (by rw [htsl, hsl]; exact h2) (by rw [hbay]; exact hfits)
      rw [hbay, hfrom, htx, htclock, hclock] at h
      exact h
    have hthird : r = .heldOver → x.laps = 3 ∨ (2 ≤ x.laps ∧ s.CabinsKnown ∧
        s.ct.exitCursor.serial ≠ some s.bu.serial ∧ 1 ≤ c ∧ c ≤ s.sl.sheet.n) →
        ∃ v, (y.exitPassage empty c r).cabin? c = some v ∧ v.laps = 3 := by
      rintro rfl (hlaps | ⟨hlaps, hk, hnew, h1, h2⟩)
      · obtain ⟨f, hstep, hmade⟩ := makePassage_laps c [] (y.exitTested empty)
        refine ⟨f x, by rw [State.exitPassage, hmade, htx]; rfl, ?_⟩
        have := hstep x
        omega
      · exact ⟨_, (htells hk hnew h1 h2 rfl).2, show min 3 (x.laps + 1) = 3 by omega⟩
    have hcarried : r = .heldOver → x.laps = 3 ∨ (2 ≤ x.laps ∧ s.CabinsKnown ∧
        s.ct.exitCursor.serial ≠ some s.bu.serial ∧ 1 ≤ c ∧ c ≤ s.sl.sheet.n) →
        s.pins.doorLocked = true → s.pins.gateClear = true → s.hu.own? .bay = none →
        (departExit empty y).lc = (handOver (.hold ⟨byteOf (holdKindCode .bay), byteOf (effectCode .halt),
          byteOf (causeCode .carriedRound), s.clock.station⟩) false (y.exitPassage empty c r)).lc ∧
        ∃ o, (departExit empty y).hu.own? .bay = some o ∧ o.effect = .halt ∧ o.cause = .carriedRound := by
      intro hheld hlaps hd hg hnone
      obtain ⟨v, hv, hthree⟩ := hthird hheld hlaps
      rw [← hclock]
      subst hheld
      exact departExit_carried hyc hyr hv hthree (by rw [(hquiet hg hd).2]; exact hnone)
    refine ⟨hnext, hsummary, fun hfound hs => ?_, ⟨y.exitTested empty, y.exitPassage empty c r, htsl.trans hsl,
      (exitPassage_blocks y empty c r).1.trans hsl, fun hd hg => (hquiet hg hd).1.trans (hlc hg), ?_,
      departExit_lc_below hyc hyr hyx, fun hheld hlaps hd hg hnone => (hcarried hheld ?_ hd hg hnone).1⟩,
      fun hkept hs => ?_, fun hk hnew h1 h2 hfits => ?_⟩
    · subst hfound
      rw [← hclock]
      exact departExit_found hyc hyr ((suppressed_congr hsl _).trans hs)
    · rw [← hfrom]
      exact (makePassage_sent c r none [] (y.exitTested empty)).1
    · exact hlaps.imp_right fun ⟨h, hrest⟩ => ⟨by omega, hrest⟩
    · rw [← hclock]
      refine departExit_raises hyc hyr hyx hrole' ?_ ((suppressed_congr hsl _).trans hs)
      exact hkept.imp_right (Or.imp_right fun ⟨hd, hg, hfew⟩ => by rw [(hquiet hg hd).2]; exact hfew)
    · obtain ⟨hcursor, hrecord⟩ := htells hk hnew h1 h2 hfits
      have hsame : (departExit empty y).cabin? c = (y.exitPassage empty c r).cabin? c := by
        rw [State.cabin?, State.cabin?, departExit_ct hyc hyr]
      refine ⟨by rw [departExit_ct hyc hyr]; exact hcursor, hsame.trans hrecord, fun hheld hlaps hd hg hnone => ?_⟩
      exact (hcarried hheld (Or.inr ⟨hlaps, hk, hnew, h1, h2⟩) hd hg hnone).2

end Sys2Proof.Machine
end

section
/-! SUPPORT. The log ring, what is written in it, and the start of the station (R180 to R182, R188, R192). -/

namespace Sys2Proof.Machine

/-! ### The log ring (R179, R182) -/

section
variable (source : Nat) (k : LogKind) (o : LogOutcome) (summary : List Byte) (s : State)

/-- The state with the entry written, before any notice of a crossing. -/
def State.entered : State :=
  { s with lu := { s.lu with
    ring := s.lu.ring.set s.lu.writePos (some
      (LogEntry.mk s.lu.writePos s.clock.station source k o (summary.take 8)))
    writePos := (s.lu.writePos + 1) % 256 } }

theorem writeEntry_half (h : s.lu.writePos = 127) :
    writeEntry source k o summary s = raise .logHalf 128 (s.entered source k o summary) := if_pos h

theorem writeEntry_wrap (h : s.lu.writePos = 255) :
    writeEntry source k o summary s = raise .logWrap 0 (s.entered source k o summary) := by
  unfold writeEntry
  dsimp only
  rw [if_neg (by omega), if_pos h]
  rfl

theorem writeEntry_between (h : s.lu.writePos ≠ 127) (h' : s.lu.writePos ≠ 255) :
    writeEntry source k o summary s = s.entered source k o summary := by
  unfold writeEntry
  dsimp only
  rw [if_neg h, if_neg h']
  rfl

/-- Whatever notice follows, the ring and the write position are those of the entry. -/
theorem writeEntry_ring : (writeEntry source k o summary s).lu.ring = (s.entered source k o summary).lu.ring ∧
    (writeEntry source k o summary s).lu.writePos = (s.entered source k o summary).lu.writePos := by
  have hraise : ∀ (c : EventCode) (n : Nat) (z : State),
      (raise c n z).lu.ring = z.lu.ring ∧ (raise c n z).lu.writePos = z.lu.writePos := by
    intro c n z
    unfold raise
    split
    · exact ⟨rfl, rfl⟩
    · simp only [onLu_blocks]
      unfold LogUnit.place
      split <;> exact ⟨rfl, rfl⟩
  by_cases h127 : s.lu.writePos = 127
  · rw [writeEntry_half _ _ _ _ _ h127]
    exact hraise ..
  · by_cases h255 : s.lu.writePos = 255
    · rw [writeEntry_wrap _ _ _ _ _ h255]
      exact hraise ..
    · rw [writeEntry_between _ _ _ _ _ h127 h255]
      exact ⟨rfl, rfl⟩

end

/-- The events of a restart: RESTARTED, and behind it the notice of a crossing (R182, log entry 23). -/
theorem restarted_codes (n : Nat) (u : LogUnit) : (u.restarted n).queue.map EventEntry.code = .restarted ::
    (if u.writePos = 127 then [.logHalf] else if u.writePos = 255 then [.logWrap] else []) := by
  unfold LogUnit.restarted
  by_cases h127 : u.writePos = 127
  · simp [h127, LogUnit.write, LogUnit.place, restartedQueue]
  · by_cases h255 : u.writePos = 255 <;> simp [h127, h255, LogUnit.write, LogUnit.place, restartedQueue]

/-! ### What is logged (R180, R181) -/

theorem filterSet_iff (s : State) (r : Role) (k : Kind) : s.filterSet r k = true ↔
    s.joined = false ∨ s.sl.sheet.logFilter.getLsbD (10 * roleIndex r + kindCode k) = true := by
  simp [State.filterSet, State.masksTrusted]

theorem localLogged_masked {s : State} {k : LogKind} {i : Nat} (h : localMaskBit k = some i) :
    s.localLogged k = true ↔ s.joined = false ∨ s.sl.sheet.localMask.getLsbD i = false := by
  rw [State.localLogged, h]
  simp [State.masksTrusted]

theorem localMaskBit_places {k : LogKind} {i : Nat}
    (h : [LogKind.lc, .pv, .wmu, .wv, .hu, .mu, .ct, .bu][i]? = some k) : localMaskBit k = some i := by
  have hlt : i < 8 := (List.getElem?_eq_some_iff.mp h).1
  interval_cases i <;> (obtain rfl := Option.some.inj h; rfl)

theorem telegramSummary_eq (t : Telegram) : telegramSummary t = t.seq :: (match t.payload with
    | .hold p => [p.kind, p.effect, p.cause]
    | .release p => [p.kind, p.declarer, p.reason]
    | .motion p => p.state :: be16 p.reference ++ be16 p.measured ++ [p.flags]
    | .passage p => [p.serial, p.cabin, p.result, p.riders]
    | .bay p => [p.kind, p.doors, p.queueLen, p.sumSerial, p.sumCabin]
    | .wind p => p.level :: be16 p.v ++ [p.sector]
    | .order p => [p.mode, p.serial]
    | .service p => [p.serial, byteOf (((List.range 64).filter (fun i => p.marks.getLsbD i)).length)]
    | .presence p => [p.role, p.start, p.flags] ++ be16 p.digest
    | .mark p => be32 p.time) := by
  unfold telegramSummary
  cases t.payload with
  | service p =>
    dsimp only
    rw [countMarks, List.countP_eq_length_filter]
  | _ => rfl

theorem applyPassage_outcome (b : BayId) (n : Nat) (p : Passage) (s : State) :
    (applyPassage b n p s).2 = .accepted ∨ (applyPassage b n p s).2 = .ignored := by
  unfold applyPassage
  (repeat' split) <;> simp

/-- The owner of an accepted telegram takes it or leaves it. -/
theorem giveOwner_outcome (t : Telegram) (s : State) :
    (giveOwner t s).2 = .accepted ∨ (giveOwner t s).2 = .ignored := by
  unfold giveOwner
  dsimp only
  cases t.payload with
  | motion p => exact Or.inl rfl
  | presence p => exact Or.inl rfl
  | hold p =>
    simp only [takeHold]
    (repeat' split) <;> simp
  | release p =>
    simp only [takeOverride, takeRelease]
    (repeat' split) <;> simp
  | passage p =>
    simp only [takePassage]
    split
    · exact Or.inr rfl
    · exact applyPassage_outcome ..
  | bay p =>
    simp only [takeSummary]
    split
    · exact Or.inr rfl
    · split
      · exact Or.inr rfl
      · exact applyPassage_outcome ..
  | wind p =>
    simp only [takeWind]
    split <;> simp
  | order p =>
    simp only [takeOrder]
    (repeat' split) <;> simp
  | service p =>
    simp only [takeService]
    split <;> simp
  | mark p =>
    simp only [takeMark]
    (repeat' split) <;> simp

/-- Settles O54: the ring by `writeEntry_ring` and the cases of the write position, the rest by the filter and the
mask. -/
theorem logRaisesHalfAndWrap : Obligations.LogRaisesHalfAndWrap := by
  unfold Obligations.LogRaisesHalfAndWrap
  refine ⟨fun s source k o summary hwf => ?_, fun s r t o => ?_, fun s k action details => ⟨fun i hi => ?_, ?_⟩,
    fun s t htakes => ?_⟩
  · obtain ⟨hlen, hpos, -⟩ := hwf
    obtain ⟨hring, hwrite⟩ := writeEntry_ring source k o summary s
    dsimp only
    rw [hring, hwrite]
    refine ⟨by simp [State.entered, hlen], List.getElem?_set_self (by omega),
      fun i hi => List.getElem?_set_ne (Ne.symm hi), rfl, writeEntry_half _ _ _ _ _, writeEntry_wrap _ _ _ _ _,
      writeEntry_between _ _ _ _ _, fun num lines hup => ⟨_, exec_up hup _, ?_, ?_⟩⟩
    · exact (restarted_ring lines.stn.toNat s.lu).2
    · exact restarted_codes lines.stn.toNat s.lu
  · dsimp only
    refine ⟨fun hjoined hnot => if_neg fun h => ?_, fun h => ?_⟩
    · rcases (filterSet_iff ..).mp h with h | h
      · simp [hjoined] at h
      · exact hnot h
    · exact (if_pos ((filterSet_iff ..).mpr h)).trans
        (congrArg (writeEntry t.sender.toNat (.telegram (payloadKind t.payload)) o · s) (telegramSummary_eq t))
  · have hmask := localLogged_masked (s := s) (localMaskBit_places hi)
    refine ⟨fun hjoined hset => if_neg fun h => ?_, fun h => if_pos (hmask.mpr h)⟩
    rcases hmask.mp h with h | h
    · simp [hjoined] at h
    · simp [hset] at h
  · rintro rfl
    rfl
  · refine ⟨(giveOwner t (pvTake t true (clearEcho s))).1, _, takes_exec t s htakes, by simp [clearEcho],
      giveOwner_outcome t _⟩

/-! ### The start-state timers (R58, R91, R104, R136, R147, R193) -/

theorem addTelegram_lc (p : Payload) (r : Bool) {y z : State} (h : y.lc = z.lc) :
    (addTelegram p r y).lc = (addTelegram p r z).lc := by
  unfold addTelegram
  rw [h]
  split
  · simp [h]
  · split
    · split
      · split <;> simp [overflow, h]
      · simp [overflow, h]
    · simp [overflow, h]

/-- Outside LISTEN_ONLY the start state is nothing to the transmit queue (R39). -/
theorem handOver_lc_active (p : Payload) (r : Bool) {s t : State} (h : s.lc = t.lc)
    (hs : s.sl.start ≠ .listenOnly) (ht : t.sl.start ≠ .listenOnly) :
    (handOver p r s).lc = (handOver p r t).lc := by
  unfold handOver
  rw [if_neg hs, if_neg ht]
  have hjoin : (s.onLc (·.beforeJoin p)).lc = (t.onLc (·.beforeJoin p)).lc := by simp [h]
  dsimp only
  rw [hjoin]
  cases (t.onLc (·.beforeJoin p)).lc.waiting.find? (supersedes p r) with
  | none => exact addTelegram_lc p r hjoin
  | some old => simp [h]

theorem formBoarding_formed (s : State) : (formBoarding s).bu.boarding = (formBoarding s).boardingNow := by
  have hnow : (formBoarding s).boardingNow = s.boardingNow := by
    simp [State.boardingNow, State.role, State.pastSettling]
  rw [formBoarding_boarding, hnow]

/-- RUNNING entered, nothing handed over yet. -/
def State.entersRunning (s : State) : State := (setStart .running s).onSl (fun l => { l with runningAt := s.now })

/-- RUNNING entered, and the MARK of a time source handed over. -/
def State.marking (s : State) : State :=
  if s.entersRunning.isTimeSource then handMark s.entersRunning else s.entersRunning

theorem entersRunning_blocks (s : State) :
    s.entersRunning.sl = { s.sl with start := .running, runningAt := s.clock.now } ∧
    s.entersRunning.clock = s.clock ∧ s.entersRunning.mu = s.mu ∧ s.entersRunning.ct = s.ct ∧
    s.entersRunning.lc = s.lc ∧ s.entersRunning.pv = s.pv := by
  simp [State.entersRunning, State.now]

theorem marking_blocks (s : State) : s.marking.sl = { s.sl with start := .running, runningAt := s.clock.now } ∧
    s.marking.clock = s.clock ∧ s.marking.mu = s.mu ∧ s.marking.ct = s.ct := by
  obtain ⟨hsl, hclock, hmu, hct, -, -⟩ := entersRunning_blocks s
  unfold State.marking
  split <;> simp [hsl, hclock, hmu, hct]

theorem marking_marks {s : State} (hjoining : s.sl.start = .joining) :
    s.marking.lc = (if s.sl.sheet.timeSource.getLsbD s.sl.station = true
        then handOver (.mark ⟨s.clock.station⟩) false s else s).lc ∧
      s.marking.pv = if s.sl.sheet.timeSource.getLsbD s.sl.station = true
        then { s.pv with markAt := s.clock.now } else s.pv := by
  obtain ⟨hsl, hclock, -, -, hlc, hpv⟩ := entersRunning_blocks s
  have hsource : s.entersRunning.isTimeSource = s.sl.sheet.timeSource.getLsbD s.sl.station := by
    simp [State.isTimeSource, State.own, hsl]
  unfold State.marking
  rw [hsource]
  split
  · refine ⟨?_, by simp [handMark, State.now, hpv, hclock]⟩
    rw [handMark, State.time, hclock]
    exact handOver_lc_active _ _ (by simpa using hlc) (by simp [hsl]) (by simp [hjoining])
  · exact ⟨hlc, hpv⟩

theorem enterRunning_eq (s : State) : enterRunning s =
    if s.role = .desk then handService (handOrder s.marking) else s.marking := by
  have hrole : s.marking.role = s.role := by simp [State.role, (marking_blocks s).1]
  have hnow : (setStart .running s).now = s.now := by simp [State.now]
  rw [← hrole, enterRunning, State.marking, State.entersRunning]
  simp only [hnow]

/-- A desk's ORDER and SERVICE follow at once (R104, R136). -/
theorem deskRunning_facts {s z : State} (hlc : s.marking.lc = z.lc) (hz : z.sl.start ≠ .listenOnly) :
    let t := handService (handOrder s.marking)
    t.lc = (handOver (.service ⟨marksUpTo s.sl.sheet.n s.ct.deskMarks, s.ct.deskSerial⟩) false
        (handOver (.order ⟨byteOf (modeCode s.mu.deskMode), s.mu.deskSerial⟩) false z)).lc ∧
      t.mu = { s.mu with orderAt := s.clock.now } ∧ t.ct = { s.ct with serviceAt := s.clock.now } ∧
      t.sl = s.marking.sl ∧ t.pv = s.marking.pv := by
  obtain ⟨hsl, hclock, hmu, hct⟩ := marking_blocks s
  obtain ⟨homu, holc⟩ := handOrder_facts s.marking
  obtain ⟨hsct, hslc⟩ := handService_facts (handOrder s.marking)
  have hosl : (handOrder s.marking).sl = s.marking.sl := by simp
  have hoct : (handOrder s.marking).ct = s.ct := by simp [hct]
  have hstart : s.marking.sl.start ≠ .listenOnly := by simp [hsl]
  rw [hmu, hclock] at homu
  rw [hmu] at holc
  rw [hoct, show (handOrder s.marking).clock = s.clock by simp [hclock]] at hsct
  rw [hosl, hoct, show s.marking.sl.sheet = s.sl.sheet by rw [hsl]] at hslc
  refine ⟨hslc.trans (handOver_lc_active _ _ (holc.trans (handOver_lc_active _ _ hlc hstart hz)) ?_ ?_), ?_, hsct,
    by simp, by simp⟩
  · rw [hosl]
    exact hstart
  · simpa using hz
  · simpa using homu

/-! #### SETTLING_END -/

theorem linkCounted_settled (s : State) : (s.onSl (fun l => { l with settled := true })).linkCounted =
    linkOrder.filter (fun c => s.hu.cond.get c && !(s.hu.overridden.get c)) := by
  simp [State.linkCounted]

/-- Settles O7: JOINING_END by `marking_marks` and `deskRunning_facts`, SETTLING_END by the monitor's content. -/
theorem startStateTimers : Obligations.StartStateTimers := by
  unfold Obligations.StartStateTimers
  intro s hup
  refine ⟨fun hjoining hdue => ?_, fun hstart hunsettled hdue => ?_, fun hstart hflag hdue => ?_,
    fun h => exec_early (b := s.joiningDue) hup (by simp only [act]; rfl) h,
    fun h => exec_early (b := s.settlingDue) hup (by simp only [act]; rfl) h,
    fun h => exec_early (b := s.flagDue) hup (by simp only [act]; rfl) h⟩
  · refine ⟨enterRunning s, exec_due hup (by simp only [act]) ((joiningDue_iff s).mpr ⟨hjoining, hdue⟩), ?_⟩
    obtain ⟨hsl, hclock, hmu, hct⟩ := marking_blocks s
    obtain ⟨hlc, hpv⟩ := marking_marks hjoining
    dsimp only
    rw [enterRunning_eq]
    by_cases hdesk : s.role = .desk
    · obtain ⟨z, hz⟩ : ∃ z, z = if s.sl.sheet.timeSource.getLsbD s.sl.station = true
        then handOver (.mark ⟨s.clock.station⟩) false s else s := ⟨_, rfl⟩
      have hzstart : z.sl.start ≠ .listenOnly := by
        rw [hz]
        split <;> simp [hjoining]
      rw [← hz] at hlc ⊢
      obtain ⟨htlc, htmu, htct, htsl, htpv⟩ := deskRunning_facts hlc hzstart
      rw [if_pos hdesk, if_pos hdesk]
      exact ⟨htsl.trans hsl, htlc, htpv.trans hpv, fun _ => ⟨htmu, htct⟩, fun h => absurd hdesk h⟩
    · rw [if_neg hdesk, if_neg hdesk]
      exact ⟨hsl, hlc, hpv, fun h => absurd h hdesk, fun _ => ⟨hmu, hct⟩⟩
  · obtain ⟨z, hz⟩ : ∃ z, z = s.onSl (fun l => { l with settled := true }) := ⟨_, rfl⟩
    have hcounted := linkCounted_settled s
    rw [← hz] at hcounted
    have hend : endSettling s = formBoarding (linkAct z) := by rw [endSettling, hz]
    have hblocks : z.hu = s.hu ∧ z.lc = s.lc ∧ z.clock = s.clock := by
      rw [hz]
      exact ⟨rfl, rfl, rfl⟩
    obtain ⟨hhu, hlc, hclock⟩ := hblocks
    refine ⟨endSettling s, exec_due hup (by simp only [act])
      ((settlingDue_iff s).mpr ⟨hstart, hunsettled, hdue⟩), endSettling_sl s, ?_, fun i c e d hrow hc hfirst => ?_,
      fun hnone => ?_⟩
    · rw [hend]
      exact formBoarding_formed _
    · have hcontent : linkContent z.linkCounted = some (e, d) := by
        rw [hcounted]
        refine linkContent_filter hrow (by simpa using hc) fun j x f g hx hcx => hfirst j x f g hx (by simpa using hcx)
      rw [hend, linkAct_declares hcontent]
      simp only [formBoarding_spares]
      refine ⟨(declareLink_marks ..).2.2.2.2, ?_⟩
      rw [declareLink_entry]
      refine ⟨_, rfl, ?_⟩
      split
      · exact ⟨rfl, rfl⟩
      · next o ho =>
        split
        · next he => exact ⟨he, rfl⟩
        · exact ⟨rfl, rfl⟩
    · have hempty : z.linkCounted = [] := by
        rw [hcounted, List.filter_eq_nil_iff]
        exact fun c _ => by simpa using hnone c
      rw [hend, linkAct_quiet hempty, hhu, hclock]
      simp only [formBoarding_spares]
      split
      · exact ⟨hlc, rfl⟩
      · exact ⟨hlc, hhu⟩
  · exact exec_due hup (by simp only [act]; rfl) ((flagDue_iff s).mpr ⟨hstart, hflag, hdue⟩)

end Sys2Proof.Machine
end

section
/-! SUPPORT. Telegrams read back from their bytes (R26, R27, 11.6.1, 11.6.2). -/

namespace Sys2Proof.Machine

/-! ### Fields read back -/

theorem be16_length (x : Half) : (be16 x).length = 2 := rfl

theorem join16_be16 (x : Half) : join16 (x.extractLsb' 8 8) (x.extractLsb' 0 8) = x := be16_append x

theorem join32_be32 (x : Stamp) :
    join32 (x.extractLsb' 24 8) (x.extractLsb' 16 8) (x.extractLsb' 8 8) (x.extractLsb' 0 8) = x := by
  rw [join32, BitVec.extractLsb'_append_extractLsb'_eq_extractLsb' (by rfl),
    BitVec.extractLsb'_append_extractLsb'_eq_extractLsb' (by rfl),
    BitVec.extractLsb'_append_extractLsb'_eq_extractLsb' (by rfl)]
  simp

theorem marks64_joined (x : BitVec 64) :
    ((x.extractLsb' 56 8 ++ x.extractLsb' 48 8) ++ (x.extractLsb' 40 8 ++ x.extractLsb' 32 8)) ++
      ((x.extractLsb' 24 8 ++ x.extractLsb' 16 8) ++ (x.extractLsb' 8 8 ++ x.extractLsb' 0 8)) = x := by
  rw [BitVec.extractLsb'_append_extractLsb'_eq_extractLsb' (by rfl),
    BitVec.extractLsb'_append_extractLsb'_eq_extractLsb' (by rfl),
    BitVec.extractLsb'_append_extractLsb'_eq_extractLsb' (by rfl),
    BitVec.extractLsb'_append_extractLsb'_eq_extractLsb' (by rfl),
    BitVec.extractLsb'_append_extractLsb'_eq_extractLsb' (by rfl),
    BitVec.extractLsb'_append_extractLsb'_eq_extractLsb' (by rfl),
    BitVec.extractLsb'_append_extractLsb'_eq_extractLsb' (by rfl)]
  simp

theorem tagsOf_flatMap (tags : List Half) : tagsOf (tags.flatMap be16) = tags := by
  induction tags with
  | nil => rfl
  | cons x xs ih =>
    show join16 (x.extractLsb' 8 8) (x.extractLsb' 0 8) :: tagsOf (xs.flatMap be16) = x :: xs
    rw [join16_be16, ih]

theorem flatMap_be16_length (tags : List Half) : (tags.flatMap be16).length = 2 * tags.length := by
  induction tags with
  | nil => rfl
  | cons x xs ih =>
    rw [List.flatMap_cons, List.length_append, ih, be16_length, List.length_cons]
    omega

theorem byteOf_small {n : Nat} (h : n < 256) : (byteOf n).toNat = n := by
  rw [byteOf, BitVec.toNat_ofNat]
  omega

theorem classSender_sender (cls : Nat) (sender : BitVec 5) : (classSender cls sender).extractLsb' 0 5 = sender :=
  BitVec.extractLsb'_append_eq_right

/-- A check appended is the check found (R27). -/
theorem checkedBody_withCheck (bs : List Byte) : checkedBody (withCheck bs) = some bs := by
  have hlen : (withCheck bs).length - 2 = bs.length := by
    rw [withCheck, List.length_append, be16_length]
    omega
  have htake : (withCheck bs).take bs.length = bs := List.take_left
  have hdrop : (withCheck bs).drop bs.length = be16 (crc16 bs) := List.drop_left
  rw [checkedBody, hlen, htake, hdrop]
  refine if_pos ⟨?_, rfl⟩
  rw [withCheck, List.length_append, be16_length]
  omega

/-! ### Payloads -/

theorem payloadOf_payloadBytes {p : Payload} (h : payloadOk p = true) :
    payloadOf (kindCode (payloadKind p)) (payloadBytes p) = some p := by
  cases p with
  | hold p => exact congrArg (fun x => some (Payload.hold ⟨p.kind, p.effect, p.cause, x⟩)) (join32_be32 p.declaredAt)
  | release p => rfl
  | motion p =>
    show some (Payload.motion ⟨_, join16 _ _, join16 _ _, join16 _ _, join16 _ _, _⟩) = _
    rw [join16_be16, join16_be16, join16_be16, join16_be16]
  | passage p =>
    have hfour : p.tags.length ≤ 4 := by simpa [payloadOk] using h
    have hlen : (p.tags.flatMap be16).length = 2 * (byteOf p.tags.length).toNat := by
      rw [flatMap_be16_length, byteOf_small (by omega)]
    show (if (p.tags.flatMap be16).length = 2 * (byteOf p.tags.length).toNat then
      some (Payload.passage ⟨_, _, _, _, tagsOf (p.tags.flatMap be16)⟩) else none) = _
    rw [if_pos hlen, tagsOf_flatMap]
  | bay p =>
    show some (Payload.bay ⟨_, _, _, _, _, join16 _ _, _, _, _, _⟩) = _
    rw [join16_be16]
  | wind p =>
    show some (Payload.wind ⟨_, join16 _ _, join16 _ _, join16 _ _, _, _⟩) = _
    rw [join16_be16, join16_be16, join16_be16]
  | order p => rfl
  | service p => exact congrArg (fun x => some (Payload.service ⟨x, p.serial⟩)) (marks64_joined p.marks)
  | presence p =>
    show some (Payload.presence ⟨_, _, _, join16 _ _⟩) = _
    rw [join16_be16]
  | mark p => exact congrArg (fun x => some (Payload.mark ⟨x⟩)) (join32_be32 p.time)

theorem payloadBytes_length {p : Payload} (h : payloadOk p = true) : (payloadBytes p).length ≤ 24 := by
  cases p with
  | passage p =>
    have hfour : p.tags.length ≤ 4 := by simpa [payloadOk] using h
    have hlen : (payloadBytes (.passage p)).length = 5 + (p.tags.flatMap be16).length := by
      rw [payloadBytes, List.length_append]
      rfl
    rw [hlen, flatMap_be16_length]
    omega
  | _ => exact Nat.le_of_ble_eq_true rfl

/-- Settles O60: the check by `checkedBody_withCheck`, the payload by `payloadOf_payloadBytes`. -/
theorem telegramsAreReadBack : Obligations.TelegramsAreReadBack := by
  unfold Obligations.TelegramsAreReadBack
  intro t hok
  have hpayload : payloadOk t.payload = true := by
    rw [telegramOk, Bool.and_eq_true] at hok
    exact hok.2
  obtain ⟨body, hbody⟩ : ∃ body, body = payloadBytes t.payload := ⟨_, rfl⟩
  have hlen : body.length ≤ 24 := hbody ▸ payloadBytes_length hpayload
  have hchecked : checkedBody (telegramBytes t) = some (classSender (kindClass (payloadKind t.payload)) t.sender ::
      byteOf (kindCode (payloadKind t.payload)) :: t.seq :: byteOf body.length :: body) := by
    rw [hbody]
    exact checkedBody_withCheck _
  have hkind : (byteOf (kindCode (payloadKind t.payload))).toNat = kindCode (payloadKind t.payload) :=
    byteOf_small (by cases t.payload <;> simp [payloadKind, kindCode])
  have hread : payloadOf (byteOf (kindCode (payloadKind t.payload))).toNat body = some t.payload := by
    rw [hkind, hbody, payloadOf_payloadBytes hpayload]
  have hsame : ({ sender := t.sender, seq := t.seq, payload := t.payload } : Telegram) = t := rfl
  rw [telegramOf, hchecked]
  dsimp only
  rw [byteOf_small (by omega), if_pos ⟨rfl, hlen⟩, hread]
  dsimp only
  rw [classSender_sender, if_pos ⟨rfl, hok⟩]

end Sys2Proof.Machine
end

section
/-! SUPPORT. The end of LOADING: the state that a sheet, or its absence, leads to, the request held back, and the
checks of a sheet (R23, R44, R64, R90, R125, R139, R141, R164, R190, R192). -/

namespace Sys2Proof.Machine

/-! ### The entry into JOINING (R44, R71, R139) -/

/-- A peer table at the entry into JOINING, read record by record. -/
def State.seated (s : State) (sh : Sheet) : Prop :=
  (∀ n, n < 24 → (s.peer n).state = if n = s.sl.station then .fresh else .absent) ∧
    ∀ n, n < 24 → (s.peer n).role = sh.roleAt n

theorem rosterTable_length (sh : Sheet) : (rosterTable sh).length = 24 := by simp [rosterTable]

theorem startPeers_peer {s : State} (hown : s.sl.station < 24) {n : Nat} (hn : n < 24) :
    (startPeers s).peer n = if n = s.sl.station
      then { Peer.blank (s.sl.sheet.roleAt n) with state := .fresh, lastHeard := s.clock.now }
      else Peer.blank (s.sl.sheet.roleAt n) := by
  obtain ⟨z, hz⟩ : ∃ z, z = s.onPv (fun v => { v with table := rosterTable s.sl.sheet }) := ⟨_, rfl⟩
  have htable : z.pv.table = rosterTable s.sl.sheet := by rw [hz]; rfl
  have hpeer : ∀ m, m < 24 → z.peer m = Peer.blank (s.sl.sheet.roleAt m) := by
    intro m hm
    rw [State.peer, htable, rosterTable]
    simp [hm]
  have hset := onPeer_at s.sl.station n (fun p => { p with state := .fresh, lastHeard := s.now }) z
    (by rw [htable, rosterTable_length]) hown
  have hstart : startPeers s = z.onPeer s.sl.station (fun p => { p with state := .fresh, lastHeard := s.now }) := by
    rw [hz]; rfl
  rw [hstart, hset, hpeer n hn, hpeer _ hown]
  split
  · next h => rw [h]; rfl
  · rfl

theorem occupied_startCabins (sh : Sheet) : occupiedOf (startCabins sh) = sh.n := by
  have hall : (startCabins sh).countP (fun c => c.state != .empty) = (startCabins sh).length := by
    rw [List.countP_eq_length]
    intro c hc
    obtain ⟨i, -, rfl⟩ := List.mem_map.mp hc
    rfl
  rw [occupiedOf, hall]
  simp [startCabins]

theorem fusedOf_unheard (sh : Sheet) (m : Nat) (w : WindView) (h : w.records = windTable sh) :
    fusedOf m w.freshLevels = .blind := by
  have hnone : w.freshLevels = [] := by
    rw [WindView.freshLevels, h, windTable, List.filterMap_eq_nil_iff]
    intro r hr
    obtain ⟨n, -, rfl⟩ := List.mem_map.mp hr
    rfl
  rw [hnone]
  rfl

theorem enterJoining_starts {sh : Sheet} {s : State} (hown : s.sl.station < 24) :
    (enterJoining sh s).ct.cabins = startCabins sh ∧ (enterJoining sh s).ct.occupied = sh.n ∧
    (enterJoining sh s).wv.records = windTable sh ∧ (enterJoining sh s).wv.fused = .blind ∧
    (enterJoining sh s).seated sh := by
  have hcabins : (enterJoining sh s).ct.cabins = startCabins sh ∧
      (enterJoining sh s).ct.occupied = occupiedOf (startCabins sh) := by
    unfold enterJoining
    dsimp only
    split <;> simp [startTables]
  have hrecords : (enterJoining sh s).wv.records = windTable sh := by
    unfold enterJoining
    dsimp only
    split <;> simp [startConditions, (formFused_fused _).2]
  have hfused : (enterJoining sh s).wv.fused = .blind := by
    rw [(enterJoining_fused sh s).1]
    exact fusedOf_unheard sh _ _ hrecords
  have htable : (enterJoining sh s).pv.table =
      (startPeers (setStart .joining (s.onSl (fun l => { l with sheet := sh, joinedAt := s.now })))).pv.table := by
    unfold enterJoining
    dsimp only
    split <;> simp [handPresence]
  obtain ⟨z, hz⟩ : ∃ z, z = setStart .joining (s.onSl (fun l => { l with sheet := sh, joinedAt := s.now })) :=
    ⟨_, rfl⟩
  have hzsl : z.sl.station = s.sl.station ∧ z.sl.sheet = sh := by rw [hz]; simp
  rw [← hz] at htable
  have hpeer : ∀ n, (enterJoining sh s).peer n = (startPeers z).peer n := by
    intro n
    rw [State.peer, htable, State.peer]
  have hstation : (enterJoining sh s).sl.station = s.sl.station := by rw [enterJoining_sl]
  refine ⟨hcabins.1, hcabins.2.trans (occupied_startCabins sh), hrecords, hfused, fun n hn => ?_, fun n hn => ?_⟩
  · rw [hpeer, startPeers_peer (by rw [hzsl.1]; exact hown) hn, hzsl.1, hstation]
    split <;> rfl
  · rw [hpeer, startPeers_peer (by rw [hzsl.1]; exact hown) hn, hzsl.2]
    split <;> rfl

/-! ### The request held back (R190) -/

theorem serveDeferred_none {z : State} (h : z.rp.deferred = none) : serveDeferred z = z := by
  rw [serveDeferred, h]

theorem serveDeferred_some {z : State} {num : Byte} {r : Request} (h : z.rp.deferred = some (num, r)) :
    serveDeferred z = { (serve r z).1 with rp := { z.rp with
      slot := some ⟨requestCode r, num, (serve r z).2.code, (serve r z).2.data, 0, false⟩
      busy := false
      deferred := none } } := by
  have hrp : (serve r z).1.rp = z.rp := by simp
  rw [serveDeferred, h]
  dsimp only
  rw [← hrp]
  rfl

theorem serveDeferred_busy {z : State} (h : z.rp.Wf) : (serveDeferred z).rp.busy = false := by
  obtain ⟨hbusy, -⟩ := h
  cases hd : z.rp.deferred with
  | none => rw [serveDeferred_none hd, hbusy, hd]; rfl
  | some x => rw [serveDeferred_some hd]

/-- A request leaves the cabins' records and the count. -/
theorem serve_cabins (r : Request) (z : State) :
    (serve r z).1.ct.cabins = z.ct.cabins ∧ (serve r z).1.ct.occupied = z.ct.occupied := by
  have hset : ∀ c v, (setService c v z).1.ct.cabins = z.ct.cabins ∧
      (setService c v z).1.ct.occupied = z.ct.occupied := by
    intro c v
    unfold setService
    split
    · exact ⟨rfl, rfl⟩
    · split
      · exact ⟨rfl, rfl⟩
      · split
        · exact ⟨rfl, rfl⟩
        · dsimp only
          rw [(handService_facts _).1]
          exact ⟨rfl, rfl⟩
  cases r
  case setService c v => exact hset c v
  all_goals simp [serve]

theorem onPeer_kept {P : Peer → Peer → Prop} (hrefl : ∀ p, P p p) (m n : Nat) {f : Peer → Peer} (hf : ∀ p, P (f p) p)
    (z : State) : P ((z.onPeer m f).peer n) (z.peer n) := by
  by_cases h : m = n
  · subst h
    rcases onPeer_peer m f z with h | h
    · rw [h]
      exact hf _
    · rw [h]
      exact hrefl _
  · have hother : (z.onPeer m f).peer n = z.peer n := by
      simp [State.peer, State.onPeer, State.setPeer, List.getD_eq_getElem?_getD, h]
    rw [hother]
    exact hrefl _

/-- A request leaves every peer's state and role (TAKE PEER FAULT removes a fault record alone). -/
theorem serve_peer (r : Request) (z : State) (n : Nat) :
    ((serve r z).1.peer n).state = (z.peer n).state ∧ ((serve r z).1.peer n).role = (z.peer n).role := by
  have hfault : ∀ m, ((takePeerFault m z).1.peer n).state = (z.peer n).state ∧
      ((takePeerFault m z).1.peer n).role = (z.peer n).role := by
    intro m
    have hsame : (z.peer n).state = (z.peer n).state ∧ (z.peer n).role = (z.peer n).role := ⟨rfl, rfl⟩
    unfold takePeerFault
    split
    · exact hsame
    · split
      · exact hsame
      · split
        · exact onPeer_kept (P := fun p q => p.state = q.state ∧ p.role = q.role) (fun _ => ⟨rfl, rfl⟩) m n
            (f := fun p => { p with fault := none }) (fun _ => ⟨rfl, rfl⟩) z
        · exact hsame
  have hpv : (∀ m, r ≠ .takePeerFault m) → (serve r z).1.pv = z.pv := by
    intro h
    cases r
    case takePeerFault m => exact absurd rfl (h m)
    all_goals simp [serve]
  by_cases h : ∃ m, r = .takePeerFault m
  · obtain ⟨m, rfl⟩ := h
    exact hfault m.toNat
  · have := hpv fun m hm => h ⟨m, hm⟩
    simp [State.peer, this]

/-! ### The checks of a sheet, spelled out (R23, R64, R90, R125, R141, R164, R192) -/

theorem inRange_iff (lo hi n : Nat) : inRange lo hi n = true ↔ lo ≤ n ∧ n ≤ hi := by
  simp [inRange]

theorem digestSum_eq (im : List Byte) : digestSum im = BitVec.ofNat 16 ((im.take 268).map BitVec.toNat).sum := by
  have hfold : ∀ (l : List Byte) (a : Nat),
      l.foldl (fun x b => x + b.setWidth 16) (BitVec.ofNat 16 a) = BitVec.ofNat 16 (a + (l.map BitVec.toNat).sum) := by
    intro l
    induction l with
    | nil => simp
    | cons b l ih =>
      intro a
      have hstep : BitVec.ofNat 16 a + b.setWidth 16 = BitVec.ofNat 16 (a + b.toNat) := by
        apply BitVec.eq_of_toNat_eq
        simp [BitVec.toNat_add]
      rw [List.foldl_cons, hstep, ih, List.map_cons, List.sum_cons, Nat.add_assoc]
  have h := hfold (im.take 268) 0
  rw [Nat.zero_add] at h
  exact h

theorem slotOk_iff (g : SlotCfg) : slotOk g = true ↔
    (∀ h ∈ g.channels, (h.enabled = true → 1000 ≤ h.cal ∧ h.cal ≤ 1000000) ∧
      (h.reference = true → h.enabled = true)) ∧
    (g.channels.filter (fun h => h.reference)).length ≤ 1 := by
  have hcal : ∀ h : ChannelCfg, (!h.enabled || inRange 1000 1000000 h.cal) = true ↔
      (h.enabled = true → 1000 ≤ h.cal ∧ h.cal ≤ 1000000) := by
    intro h
    rw [Bool.or_eq_true, inRange_iff, Bool.not_eq_true', ← Bool.not_eq_true, ← imp_iff_not_or]
  have href : ∀ h : ChannelCfg, (!h.reference || h.enabled) = true ↔ (h.reference = true → h.enabled = true) := by
    intro h
    rw [Bool.or_eq_true, Bool.not_eq_true', ← Bool.not_eq_true, ← imp_iff_not_or]
  rw [slotOk, Bool.and_eq_true, Bool.and_eq_true, List.all_eq_true, List.all_eq_true, decide_eq_true_iff,
    List.countP_eq_length_filter]
  simp only [hcal, href]
  constructor
  · rintro ⟨⟨h1, h2⟩, h3⟩
    exact ⟨fun h hh => ⟨h1 h hh, h2 h hh⟩, h3⟩
  · rintro ⟨h, h3⟩
    exact ⟨⟨fun x hx => (h x hx).1, fun x hx => (h x hx).2⟩, h3⟩

theorem forall_lt_three {P : Nat → Prop} : (∀ i, i < 3 → P i) ↔ P 0 ∧ P 1 ∧ P 2 := by
  refine ⟨fun h => ⟨h 0 (by omega), h 1 (by omega), h 2 (by omega)⟩, fun ⟨h0, h1, h2⟩ i hi => ?_⟩
  interval_cases i
  · exact h0
  · exact h1
  · exact h2

theorem forall_lt_four {P : Nat → Prop} : (∀ i, i < 4 → P i) ↔ P 0 ∧ P 1 ∧ P 2 ∧ P 3 := by
  refine ⟨fun h => ⟨h 0 (by omega), h 1 (by omega), h 2 (by omega), h 3 (by omega)⟩, fun ⟨h0, h1, h2, h3⟩ i hi => ?_⟩
  interval_cases i
  · exact h0
  · exact h1
  · exact h2
  · exact h3

theorem rising_four (a b c d : Nat) : rising 0 [a, b, c, d] = true ↔
    1 ≤ [a, b, c, d].getD 0 0 ∧ ∀ i, i < 3 → [a, b, c, d].getD i 0 < [a, b, c, d].getD (i + 1) 0 := by
  rw [forall_lt_three]
  simp [rising, Nat.one_le_iff_ne_zero, Nat.pos_iff_ne_zero]

/-- The four levels' thresholds to leave and dwells (R23). -/
theorem levels_four (l e d : List Nat) (hl : ∃ a b c x, l = [a, b, c, x]) (he : ∃ a b c x, e = [a, b, c, x])
    (hd : ∃ a b c x, d = [a, b, c, x]) :
    ((l.zip e).all (fun p => decide (1 ≤ p.1) && decide (p.1 < p.2)) = true ∧ d.all (inRange 1 3600) = true) ↔
    ∀ i, i < 4 → 1 ≤ l.getD i 0 ∧ l.getD i 0 < e.getD i 0 ∧ 1 ≤ d.getD i 0 ∧ d.getD i 0 ≤ 3600 := by
  obtain ⟨l0, l1, l2, l3, rfl⟩ := hl
  obtain ⟨e0, e1, e2, e3, rfl⟩ := he
  obtain ⟨d0, d1, d2, d3, rfl⟩ := hd
  rw [forall_lt_four]
  simp [inRange]
  tauto

theorem num2sAt_four (im : List Byte) (i : Nat) : ∃ a b c d, num2sAt im i 4 = [a, b, c, d] := ⟨_, _, _, _, rfl⟩

theorem windOk_iff {sh : Sheet} (hl : ∃ a b c x, sh.leave = [a, b, c, x]) (he : ∃ a b c x, sh.enter = [a, b, c, x])
    (hd : ∃ a b c x, sh.dwell = [a, b, c, x]) : windOk sh = true ↔
      (∀ g ∈ sh.slots, (∀ h ∈ g.channels, (h.enabled = true → 1000 ≤ h.cal ∧ h.cal ≤ 1000000) ∧
          (h.reference = true → h.enabled = true)) ∧
        (g.channels.filter (fun h => h.reference)).length ≤ 1) ∧
      (4 ≤ sh.k ∧ sh.k ≤ 10) ∧ 1 ≤ sh.enter.getD 0 0 ∧
      (∀ i, i < 3 → sh.enter.getD i 0 < sh.enter.getD (i + 1) 0) ∧
      (∀ i, i < 4 → 1 ≤ sh.leave.getD i 0 ∧ sh.leave.getD i 0 < sh.enter.getD i 0 ∧
        1 ≤ sh.dwell.getD i 0 ∧ sh.dwell.getD i 0 ≤ 3600) ∧ sh.count .mast ≤ 4 := by
  have hlevels := levels_four sh.leave sh.enter sh.dwell hl he hd
  have hrising : rising 0 sh.enter = true ↔ 1 ≤ sh.enter.getD 0 0 ∧
      ∀ i, i < 3 → sh.enter.getD i 0 < sh.enter.getD (i + 1) 0 := by
    obtain ⟨a, b, c, x, h⟩ := he
    rw [h]
    exact rising_four a b c x
  have hslots : sh.slots.all slotOk = true ↔ ∀ g ∈ sh.slots, slotOk g = true := List.all_eq_true
  simp only [slotOk_iff] at hslots
  rw [windOk, Bool.and_eq_true, Bool.and_eq_true, Bool.and_eq_true, Bool.and_eq_true, Bool.and_eq_true,
    hrising, hslots, inRange_iff, decide_eq_true_iff, ← hlevels]
  constructor
  · rintro ⟨⟨⟨⟨⟨h1, h2⟩, h3, h4⟩, h5⟩, h6⟩, h7⟩
    exact ⟨h1, h2, h3, h4, ⟨h5, h6⟩, h7⟩
  · rintro ⟨h1, h2, h3, h4, ⟨h5, h6⟩, h7⟩
    exact ⟨⟨⟨⟨⟨h1, h2⟩, h3, h4⟩, h5⟩, h6⟩, h7⟩

theorem mastsOk_iff (sh : Sheet) : mastsOk sh = true ↔
    1 ≤ sh.count .mast ∧ (1 ≤ sh.minMasts ∧ sh.minMasts ≤ 4) ∧ sh.minMasts ≤ sh.count .mast := by
  rw [mastsOk, Bool.and_eq_true, Bool.and_eq_true, inRange_iff, decide_eq_true_iff, decide_eq_true_iff, and_assoc]

theorem drivesOk_iff (sh : Sheet) : drivesOk sh = true ↔
    (1 ≤ sh.count .drive ∧ sh.count .drive ≤ 12) ∧ 1 ≤ sh.minDrives ∧ sh.minDrives ≤ sh.count .drive := by
  rw [drivesOk, Bool.and_eq_true, inRange_iff, inRange_iff]

theorem motionOk_iff (sh : Sheet) : motionOk sh = true ↔
    1 ≤ sh.creep ∧ sh.creep < sh.slow ∧ sh.slow < sh.run ∧ sh.run ≤ 1000 ∧
    (1 ≤ sh.aUp ∧ sh.aUp ≤ 100) ∧ (1 ≤ sh.aDn ∧ sh.aDn ≤ 100) ∧ (sh.aDn ≤ sh.aStop ∧ sh.aStop ≤ 200) ∧
    sh.g ≤ 1024 ∧ sh.trimLimit ≤ 100 ∧ 1 ≤ sh.idleOne ∧ sh.idleOne < sh.idleTwo ∧ sh.idleTwo ≤ 3600 ∧
    60 ≤ sh.emptyLimit ∧ sh.emptyLimit ≤ 7200 := by
  unfold motionOk
  simp only [Bool.and_eq_true, inRange_iff, decide_eq_true_iff]
  omega

theorem cabinsOk_iff (im : List Byte) (sh : Sheet) : cabinsOk im sh = true ↔
    (16 ≤ sh.n ∧ sh.n ≤ 64) ∧ (∀ i, i < sh.n → classCodeAt im i ≠ 3) ∧
    (1 ≤ sh.capStandard ∧ sh.capStandard ≤ 25) ∧ (1 ≤ sh.capStepFree ∧ sh.capStepFree ≤ 25) ∧
    (1 ≤ sh.capPrivate ∧ sh.capPrivate ≤ 25) ∧ sh.count .entry = 1 ∧ sh.count .exit = 1 := by
  have hclasses : (List.range sh.n).all (fun i => classCodeAt im i != 3) = true ↔
      ∀ i, i < sh.n → classCodeAt im i ≠ 3 := by simp
  unfold cabinsOk
  simp only [Bool.and_eq_true, inRange_iff, hclasses, beq_iff_eq, and_assoc]

theorem baysOk_iff (im : List Byte) (sh : Sheet) : baysOk im sh = true ↔
    (1 ≤ sh.skipLimit ∧ sh.skipLimit ≤ 15) ∧ numAt im 76 ≤ 1 := by
  rw [baysOk, Bool.and_eq_true, inRange_iff, decide_eq_true_iff]

theorem rosterOk_iff (im : List Byte) (sh : Sheet) : rosterOk im sh = true ↔
    (∀ i, i < 24 → numAt im i ≤ 4 ∨ numAt im i = 7) ∧ 1 ≤ sh.count .desk ∧ sh.count .desk ≤ 2 := by
  have hcodes : (rosterCodes im).all (fun c => decide (c ≤ 4) || c == 7) = true ↔
      ∀ i, i < 24 → numAt im i ≤ 4 ∨ numAt im i = 7 := by simp [rosterCodes]
  rw [rosterOk, Bool.and_eq_true, hcodes, inRange_iff]

theorem imageOk_checks (im : List Byte) : imageOk im = true ↔
    im.length = 270 ∧ digestField im = digestSum im ∧ windOk (sheetOf im) = true ∧ mastsOk (sheetOf im) = true ∧
    drivesOk (sheetOf im) = true ∧ motionOk (sheetOf im) = true ∧ cabinsOk im (sheetOf im) = true ∧
    baysOk im (sheetOf im) = true ∧ rosterOk im (sheetOf im) = true := by
  unfold imageOk
  simp only [Bool.and_eq_true, beq_iff_eq, and_assoc]

theorem strapsOk_iff (station : Nat) (code : BitVec 3) (sh : Sheet) : strapsOk station code sh = true ↔
    station ≤ 23 ∧ code.toNat ≤ 4 ∧ sh.roster.getD station .unfitted = roleOf code.toNat := by
  rw [strapsOk, Bool.and_eq_true, Bool.and_eq_true, decide_eq_true_iff, decide_eq_true_iff, beq_iff_eq, and_assoc]
  rfl

/-! ### The start decided (R190, R192) -/

theorem exec_sheetRead {s : State} (hup : s.sl.resetHeld = false) (hloading : s.sl.start = .loading)
    (image : Option (List Byte)) : exec (.sheetReadComplete image) s = .next (endLoading image s) := by
  rw [exec_up hup]
  exact congrArg _ (if_pos hloading)

/-- The state that a sheet leads to, before a request held back is carried out. -/
def State.joiningWith (s : State) (im : List Byte) : State :=
  enterJoining (sheetOf im) (s.onSl (fun l => { l with digest := readDigest (some im) }))

/-- The state without a sheet, before a request held back is carried out. -/
def State.faultedWith (s : State) (image : Option (List Byte)) : State :=
  enterSheetFault (s.onSl (fun l => { l with digest := readDigest image }))

theorem endLoading_sheet {s : State} {im : List Byte} (himage : imageOk im = true)
    (hstraps : strapsOk s.sl.station s.sl.roleCode (sheetOf im) = true) :
    endLoading (some im) s = serveDeferred (s.joiningWith im) := by
  have htaken : s.takenSheet (some im) = some (sheetOf im) :=
    if_pos (by rw [Bool.and_eq_true]; exact ⟨himage, hstraps⟩)
  rw [endLoading, htaken]
  rfl

theorem endLoading_fault {s : State} {image : Option (List Byte)} (h : s.takenSheet image = none) :
    endLoading image s = serveDeferred (s.faultedWith image) := by
  rw [endLoading, h]
  rfl

theorem faultedWith_blocks (s : State) (image : Option (List Byte)) :
    (s.faultedWith image).sl = { s.sl with start := .sheetFault, digest := readDigest image } ∧
    (s.faultedWith image).ct = s.ct ∧ (s.faultedWith image).wv = s.wv ∧ (s.faultedWith image).hu = s.hu ∧
    (s.faultedWith image).mu = s.mu ∧ (s.faultedWith image).bu = s.bu ∧ (s.faultedWith image).rp = s.rp := by
  simp [State.faultedWith, enterSheetFault]

theorem joiningWith_blocks {s : State} {im : List Byte} (hlen : im.length = 270) :
    (s.joiningWith im).sl = { s.sl with
      start := .joining, sheet := sheetOf im, digest := digestField im, joinedAt := s.clock.now } ∧
    (s.joiningWith im).rp = s.rp ∧ (s.joiningWith im).clock = s.clock := by
  have hdigest : readDigest (some im) = digestField im := if_pos hlen
  rw [State.joiningWith, enterJoining_sl, hdigest]
  exact ⟨rfl, by simp, by simp⟩

/-- A request held back is carried out in the state entered, and leaves what that state tells. -/
theorem serveDeferred_kept (z : State) : (serveDeferred z).sl = z.sl ∧ (serveDeferred z).wv = z.wv ∧
    (serveDeferred z).ct.cabins = z.ct.cabins ∧ (serveDeferred z).ct.occupied = z.ct.occupied ∧
    ∀ n, ((serveDeferred z).peer n).state = (z.peer n).state ∧ ((serveDeferred z).peer n).role = (z.peer n).role := by
  obtain ⟨hsl, hwv, -⟩ := serveDeferred_sl z
  refine ⟨hsl, hwv, ?_⟩
  cases hd : z.rp.deferred with
  | none =>
    rw [serveDeferred_none hd]
    exact ⟨rfl, rfl, fun _ => ⟨rfl, rfl⟩⟩
  | some x =>
    obtain ⟨num, r⟩ := x
    rw [serveDeferred_some hd]
    exact ⟨(serve_cabins r z).1, (serve_cabins r z).2, serve_peer r z⟩

/-- The checks of an image, spelled out (R23, R64, R90, R125, R141, R164, R192). -/
theorem imageOk_iff (im : List Byte) :
    let sh := sheetOf im
    imageOk im = true ↔ im.length = 270 ∧
      digestField im = BitVec.ofNat 16 ((im.take 268).map BitVec.toNat).sum ∧
      (∀ g ∈ sh.slots, (∀ h ∈ g.channels, (h.enabled = true → 1000 ≤ h.cal ∧ h.cal ≤ 1000000) ∧
          (h.reference = true → h.enabled = true)) ∧
        (g.channels.filter (fun h => h.reference)).length ≤ 1) ∧
      (4 ≤ sh.k ∧ sh.k ≤ 10) ∧ 1 ≤ sh.enter.getD 0 0 ∧
      (∀ i, i < 3 → sh.enter.getD i 0 < sh.enter.getD (i + 1) 0) ∧
      (∀ i, i < 4 → 1 ≤ sh.leave.getD i 0 ∧ sh.leave.getD i 0 < sh.enter.getD i 0 ∧
        1 ≤ sh.dwell.getD i 0 ∧ sh.dwell.getD i 0 ≤ 3600) ∧
      (1 ≤ sh.count .mast ∧ sh.count .mast ≤ 4) ∧ (1 ≤ sh.minMasts ∧ sh.minMasts ≤ 4) ∧
      sh.minMasts ≤ sh.count .mast ∧
      (1 ≤ sh.count .drive ∧ sh.count .drive ≤ 12) ∧ (1 ≤ sh.minDrives ∧ sh.minDrives ≤ sh.count .drive) ∧
      1 ≤ sh.creep ∧ sh.creep < sh.slow ∧ sh.slow < sh.run ∧ sh.run ≤ 1000 ∧
      (1 ≤ sh.aUp ∧ sh.aUp ≤ 100) ∧ (1 ≤ sh.aDn ∧ sh.aDn ≤ 100) ∧ (sh.aDn ≤ sh.aStop ∧ sh.aStop ≤ 200) ∧
      sh.g ≤ 1024 ∧ sh.trimLimit ≤ 100 ∧ 1 ≤ sh.idleOne ∧ sh.idleOne < sh.idleTwo ∧ sh.idleTwo ≤ 3600 ∧
      (60 ≤ sh.emptyLimit ∧ sh.emptyLimit ≤ 7200) ∧ (16 ≤ sh.n ∧ sh.n ≤ 64) ∧
      (∀ i, i < sh.n → classCodeAt im i ≠ 3) ∧
      (1 ≤ sh.capStandard ∧ sh.capStandard ≤ 25) ∧ (1 ≤ sh.capStepFree ∧ sh.capStepFree ≤ 25) ∧
      (1 ≤ sh.capPrivate ∧ sh.capPrivate ≤ 25) ∧
      sh.count .entry = 1 ∧ sh.count .exit = 1 ∧ (1 ≤ sh.count .desk ∧ sh.count .desk ≤ 2) ∧
      (1 ≤ sh.skipLimit ∧ sh.skipLimit ≤ 15) ∧ numAt im 76 ≤ 1 ∧
      (∀ i, i < 24 → numAt im i ≤ 4 ∨ numAt im i = 7) := by
  have hwind := windOk_iff (sh := sheetOf im) (num2sAt_four im 232) (num2sAt_four im 224) (num2sAt_four im 240)
  dsimp only
  rw [imageOk_checks, digestSum_eq, hwind, mastsOk_iff, drivesOk_iff, motionOk_iff, cabinsOk_iff, baysOk_iff,
    rosterOk_iff]
  generalize sheetOf im = sh
  constructor
  · rintro ⟨hlen, hsum, ⟨hslots, hk, he, hrise, hlevels, hmasts⟩, ⟨hmast, hmin, hfew⟩, ⟨hdrive, hdrives⟩,
      ⟨h1, h2, h3, h4, h5, h6, h7, h8, h9, h10, h11, h12, h13⟩, ⟨hn, hclasses, hc1, hc2, hc3, hentry, hexit⟩,
      ⟨hskip, hsharing⟩, hroster, hdesk⟩
    exact ⟨hlen, hsum, hslots, hk, he, hrise, hlevels, ⟨hmast, hmasts⟩, hmin, hfew, hdrive, hdrives, h1, h2, h3, h4,
      h5, h6, h7, h8, h9, h10, h11, h12, h13, hn, hclasses, hc1, hc2, hc3, hentry, hexit, hdesk, hskip, hsharing,
      hroster⟩
  · rintro ⟨hlen, hsum, hslots, hk, he, hrise, hlevels, ⟨hmast, hmasts⟩, hmin, hfew, hdrive, hdrives, h1, h2, h3, h4,
      h5, h6, h7, h8, h9, h10, h11, h12, h13, hn, hclasses, hc1, hc2, hc3, hentry, hexit, hdesk, hskip, hsharing,
      hroster⟩
    exact ⟨hlen, hsum, ⟨hslots, hk, he, hrise, hlevels, hmasts⟩, ⟨hmast, hmin, hfew⟩, ⟨hdrive, hdrives⟩,
      ⟨h1, h2, h3, h4, h5, h6, h7, h8, h9, h10, h11, h12, h13⟩, ⟨hn, hclasses, hc1, hc2, hc3, hentry, hexit⟩,
      ⟨hskip, hsharing⟩, hroster, hdesk⟩

/-- Settles O6: the state entered by `enterJoining_starts` and `faultedWith_blocks`, the request held back by
`serveDeferred_some`, the checks by `imageOk_iff`. -/
theorem sheetDecidesTheStart : Obligations.SheetDecidesTheStart := by
  unfold Obligations.SheetDecidesTheStart
  refine ⟨fun s im hup hloading hwf himage hstraps => ?_, fun s image hup hloading hwf hnone => ?_, imageOk_iff,
    strapsOk_iff⟩
  · obtain ⟨hlen, -⟩ := (imageOk_checks im).mp himage
    obtain ⟨hsl, hrp, hclock⟩ := joiningWith_blocks (s := s) hlen
    obtain ⟨hstation, -, -⟩ := (strapsOk_iff ..).mp hstraps
    obtain ⟨hcabins, hoccupied, hrecords, hfused, hstate, hroles⟩ := enterJoining_starts (sh := sheetOf im)
      (s := s.onSl (fun l => { l with digest := readDigest (some im) })) (Nat.lt_succ_of_le hstation)
    obtain ⟨z, hz⟩ : ∃ z, z = s.joiningWith im := ⟨_, rfl⟩
    rw [← State.joiningWith, ← hz] at hcabins hoccupied hrecords hfused hstate hroles
    rw [← hz] at hsl hrp hclock
    rw [hsl] at hstate
    obtain ⟨htsl, htwv, htcabins, htoccupied, htpeer⟩ := serveDeferred_kept z
    have hexec : exec (.sheetReadComplete (some im)) s = .next (serveDeferred z) := by
      rw [exec_sheetRead hup hloading, endLoading_sheet himage hstraps, hz]
    have htstart := htsl.trans hsl
    refine ⟨serveDeferred z, z, hexec, by rw [htstart], by rw [htstart], by rw [htstart], by rw [htstart],
      by rw [htstart], fun n hn => (htpeer n).1.trans (hstate n hn),
      fun n hn => (htpeer n).2.trans (hroles n hn), htcabins.trans hcabins, htoccupied.trans hoccupied,
      by rw [htwv, hrecords], by rw [htwv, hfused], serveDeferred_busy (hrp ▸ hwf), hsl, hcabins, hoccupied, hrecords,
      hfused, hrp, hclock, hstate, fun hd => serveDeferred_none (hrp ▸ hd), fun num r hd => by rw [serveDeferred_some (hrp ▸ hd), hrp]⟩
  · obtain ⟨hsl, hct, hwv, hhu, hmu, hbu, hrp⟩ := faultedWith_blocks s image
    obtain ⟨z, hz⟩ : ∃ z, z = s.faultedWith image := ⟨_, rfl⟩
    rw [← hz] at hsl hct hwv hhu hmu hbu hrp
    obtain ⟨htsl, htwv, htcabins, -, -⟩ := serveDeferred_kept z
    have hexec : exec (.sheetReadComplete image) s = .next (serveDeferred z) := by
      rw [exec_sheetRead hup hloading, endLoading_fault hnone, hz]
    exact ⟨serveDeferred z, z, hexec, htsl.trans hsl, by rw [htcabins, hct], htwv.trans hwv,
      serveDeferred_busy (hrp ▸ hwf), htsl.symm, hct, hwv, hhu, hmu, hbu, hrp,
      fun hd => serveDeferred_none (hrp ▸ hd),
      fun num r hd => by rw [serveDeferred_some (hrp ▸ hd), hrp]⟩

end Sys2Proof.Machine
end
